-- ==== Sys2Proof/Word.lean ====
section
/-! DEFINITION. The word types of the VN8 (R3, R32): a byte, a 64-bit word, a mask of 32 lanes, a 128-bit capability. -/

namespace Sys2Proof

/-- A byte. -/
abbrev Byte := BitVec 8

/-- A 64-bit word: a scalar register, or one lane of a vector register (R32). -/
abbrev Word := BitVec 64

/-- One bit for each of the 32 lanes of a wave (R20). -/
abbrev LaneMask := BitVec 32

end Sys2Proof
end

