-- ==== Sys2Proof/Config.lean ====
section
/-! DEFINITION. What an implementation fixes and the spec leaves open: constants without a body, applied to the machine's freshness
counter (`State.fresh`) or to the operands they depend on, so that no proof can see what they are (log 3). -/

namespace Sys2Proof.Config

/-- A latency that the spec leaves to the implementation, in cycles, for an open choice and an index within it (log 3). -/
opaque latency : Nat → Nat → Nat

/-- A 64-bit value that the spec leaves undefined, for an open choice and an index within it (log 3). -/
opaque freeWord : Nat → Nat → BitVec 64

/-- A choice among allowed outcomes, for an open choice and an index within it (log 3). -/
opaque freeNat : Nat → Nat → Nat

/-- Whether an early read of the register element named by the second argument meets the new value, R168, R365. -/
opaque earlyReadIsNew : Nat → Nat → Bool

/-- The F32 result that a special function (by its FN) proposes for F32 operand bits; used where it meets R130 (log 20). -/
opaque special : Nat → Nat → Nat

/-- The sum a `.FREE` reduction proposes, by open choice and element; used where it meets R81 (log 21). -/
opaque freeSum : Nat → Nat → Nat

/-- SHA3-512 digest of a measured item or of the certificate chain, by its content number, R354. -/
opaque digest : Nat → BitVec 512

/-- Whether the signature (second) of an image with the content (first) verifies, R353. -/
opaque signatureValid : Nat → Nat → Bool

/-- A signature that the module makes over the transcript number, R354. -/
opaque sign : Nat → Nat

/-- Byte `i` of the device certificate chain, R354. -/
opaque certificateByte : Nat → BitVec 8

/-- Length in bytes of the device certificate chain, R354. -/
opaque certificateLength : Nat

/-- The 256-bit keys that XD draws from its random source, by the order in which it draws them, R352. -/
opaque partitionKey : Nat → BitVec 256

/-- AES-256-XTS of a line under two keys with a tweak, R352. -/
opaque aesXts : BitVec 256 → BitVec 256 → Nat → BitVec 512 → BitVec 512

/-- A telemetry reading whose value the spec leaves to the part (power, temperature), by die, index and open choice, R356. -/
opaque reading : Nat → Nat → Nat → BitVec 64

end Sys2Proof.Config
end

