-- ==== Sys2Proof/Machine/Bits.lean ====
section
/-! DEFINITION. Bit fields, elements of registers, signed readings and byte order: the helpers that every meaning shares (R3, R30). -/

namespace Sys2Proof.Machine

/-- Bits [lo+n-1 : lo] of a number. -/
def bits (x lo n : Nat) : Nat := x / 2 ^ lo % 2 ^ n

/-- Bit `k` of a number. -/
def bitAt (x k : Nat) : Bool := x / 2 ^ k % 2 == 1

/-- A number below 2^w as a two's-complement integer. -/
def signed (w x : Nat) : Int := if w = 0 then 0 else if 2 ^ (w - 1) ≤ x % 2 ^ w then (x % 2 ^ w : Nat) - (2 ^ w : Nat) else (x % 2 ^ w : Nat)

/-- An integer modulo 2^w. -/
def wrap (w : Nat) (x : Int) : Nat := (x % (2 ^ w : Nat)).toNat

/-- A 64-bit word of a number. -/
def word (n : Nat) : Word := BitVec.ofNat 64 n

/-- The element width of a type code, R30; 0 for the codes without one. -/
def widthOf (t : Nat) : Nat :=
  match t with
  | 0 | 4 | 12 | 13 => 8
  | 1 | 5 | 8 | 9 => 16
  | 2 | 6 | 10 => 32
  | 3 | 7 | 11 => 64
  | _ => 0

/-- Element `k` of width `w` of a word, R3. -/
def elem (w k : Nat) (x : Word) : Nat := bits x.toNat (w * k) w

/-- A word with element `k` of width `w` replaced, R3. -/
def setElem (w k : Nat) (x : Word) (v : Nat) : Word :=
  word (x.toNat - bits x.toNat (w * k) w * 2 ^ (w * k) + v % 2 ^ w * 2 ^ (w * k))

/-- The mask of element `k` of width `w`. -/
def elemMask (w k : Nat) : Word := word ((2 ^ w - 1) * 2 ^ (w * k))

/-- `new` in the bits of the mask, `old` elsewhere. -/
def merge (mask new old : Word) : Word := (new &&& mask) ||| (old &&& ~~~mask)

/-- The number that bytes form, lowest address first (R3). -/
def numOfBytes : List Byte → Nat
  | [] => 0
  | b :: t => b.toNat + 256 * numOfBytes t

/-- `n` bytes of a number, lowest address first (R3). -/
def bytesOf : Nat → Nat → List Byte
  | 0, _ => []
  | n + 1, x => BitVec.ofNat 8 x :: bytesOf n (x / 256)

/-- A field of a record held as bytes. -/
def field (r : List Byte) (off size : Nat) : Nat := numOfBytes ((r.drop off).take size)

/-- The numbers 0 to n - 1. -/
def upTo (n : Nat) : List Nat := List.range n

/-- The lanes of a mask, ascending. -/
def lanesOf (m : LaneMask) : List Nat := (upTo 32).filter (fun L => m.getLsbD L)

/-- The mask of a list of lanes. -/
def maskOf (ls : List Nat) : LaneMask := ls.foldl (fun m L => m ||| (1#32 <<< L)) 0

/-- The lowest lane of a mask, or 32. -/
def lowestLane (m : LaneMask) : Nat := (lanesOf m).headD 32

/-- How many bits of a number below 2^n are one. -/
def popCount (n x : Nat) : Nat := ((upTo n).filter (fun k => bitAt x k)).length

/-- The number of leading zeros of a number below 2^w. -/
def clz (w x : Nat) : Nat := if x = 0 then w else w - 1 - Nat.log2 x

/-- The floor of the square root, by bisection on `fuel` bits. -/
def isqrtGo : Nat → Nat → Nat → Nat
  | 0, _, r => r
  | fuel + 1, n, r => if (r + 2 ^ fuel) * (r + 2 ^ fuel) ≤ n then isqrtGo fuel n (r + 2 ^ fuel) else isqrtGo fuel n r

/-- The floor of the square root. -/
def isqrt (n : Nat) : Nat := isqrtGo (Nat.log2 n / 2 + 1) n 0

/-- Lexicographic order of lists of numbers. -/
def lexLt : List Nat → List Nat → Bool
  | [], [] => false
  | [], _ :: _ => true
  | _ :: _, [] => false
  | a :: s, b :: t => a < b || (a == b && lexLt s t)

/-- The smallest element of a list by a key, the first on a tie. -/
def minBy {α : Type} (key : α → List Nat) : List α → Option α
  | [] => none
  | a :: t =>
    match minBy key t with
    | none => some a
    | some b => if lexLt (key b) (key a) then some b else some a

/-- Insert by a key into a list that rises by it, after equal keys. -/
def insertBy {α : Type} (key : α → List Nat) (a : α) : List α → List α
  | [] => [a]
  | b :: t => if lexLt (key a) (key b) then a :: b :: t else b :: insertBy key a t

/-- A list sorted by a key, equal keys in their order. -/
def sortBy {α : Type} (key : α → List Nat) (l : List α) : List α := l.foldl (fun acc a => insertBy key a acc) []

end Sys2Proof.Machine
end

