-- ==== Sys2Proof/Machine/Table.lean ====
section
/-! DEFINITION. Finite tables as plain data: a list of key and value pairs with strictly rising keys. `tget` answers a default for
a key that is not listed. In a SPARSE table no entry holds that default, so that equal contents are equal lists (the canonical
form of memory and of the register files). -/

namespace Sys2Proof.Machine

/-- A table from numbers to `α`. -/
abbrev Table (α : Type) := List (Nat × α)

variable {α : Type}

/-- The value at a key, or the default. -/
def tget (d : α) : Table α → Nat → α
  | [], _ => d
  | (j, a) :: t, k => if j = k then a else tget d t k

/-- Whether a key is listed. -/
def thas : Table α → Nat → Bool
  | [], _ => false
  | (j, _) :: t, k => j == k || thas t k

/-- The value at a key, if listed. -/
def tfind? : Table α → Nat → Option α
  | [], _ => none
  | (j, a) :: t, k => if j = k then some a else tfind? t k

/-- Without the key. -/
def terase : Table α → Nat → Table α
  | [], _ => []
  | (j, a) :: t, k => if j = k then terase t k else (j, a) :: terase t k

/-- With an entry put before the first higher key. -/
def tinsert (k : Nat) (a : α) : Table α → Table α
  | [] => [(k, a)]
  | (j, b) :: t => if k < j then (k, a) :: (j, b) :: t else (j, b) :: tinsert k a t

/-- Write the value at a key. -/
def tput (t : Table α) (k : Nat) (a : α) : Table α := tinsert k a (terase t k)

/-- Write the value at a key of a sparse table: the default is not listed. -/
def sput [DecidableEq α] (d : α) (t : Table α) (k : Nat) (a : α) : Table α :=
  if a = d then terase t k else tput t k a

/-- The keys of a table rise strictly. -/
def tsorted : Table α → Bool
  | [] => true
  | (k, _) :: t => (match t with | [] => true | (j, _) :: _ => decide (k < j)) && tsorted t

/-- The canonical form of a sparse table: rising keys, no entry equal to the default. -/
def swf [DecidableEq α] (d : α) (t : Table α) : Bool := tsorted t && t.all (fun e => decide (e.2 ≠ d))

/-- Apply a function to the value at a key. -/
def tmodify (d : α) (t : Table α) (k : Nat) (f : α → α) : Table α := tput t k (f (tget d t k))

/-- The lowest number below `n` that is not a key. -/
def tfree (t : Table α) : Nat → Option Nat
  | 0 => none
  | n + 1 => match tfree t n with
    | some k => some k
    | none => if thas t n then none else some n

/-- A number above every key. -/
def tnext (t : Table α) : Nat := t.foldl (fun m e => max m (e.1 + 1)) 0

/-- Insert a number in a rising list without repeats. -/
def linsert (k : Nat) : List Nat → List Nat
  | [] => [k]
  | j :: t => if k < j then k :: j :: t else if k = j then j :: t else j :: linsert k t

/-- Remove a number from a list. -/
def lerase (k : Nat) (l : List Nat) : List Nat := l.filter (fun j => j != k)

end Sys2Proof.Machine
end

