-- ==== Sys2Proof/Syntax.lean ====
section
/-! DEFINITION. The syntax of the VN8: ONE constructor of `Instr` for each row of the opcode table (the operations of the base
form, of its literal form and of the extended form, and the events that are steps of the part), and the operands beside it:
`Fields`, every field of the two word layouts (R24, R25), and `EventArgs`, what an event acts on. The operands are a record of
their own and no arguments of the constructors (log 12): an instruction is a pair (operation, fields), the decoder answers
such a pair, and the machine holds the fields of the instruction in issue. -/

namespace Sys2Proof

/-- The fields of an instruction, R24 and R25, less LEN, OPC and FN, which the operation stands for. A base word uses `b`, `a`,
`d`, `x`, `stall` (R24); an extended form the others as well (R25). `lit` is the literal of LEN = 0b01 or 0b11 (R23); `cc` is
the condition that VCMP and VCMPM hold in FN (R126). -/
structure Fields where
  b : BitVec 6 := 0
  a : BitVec 6 := 0
  d : BitVec 6 := 0
  x : BitVec 2 := 0
  stall : BitVec 3 := 0
  ec : BitVec 2 := 0
  mod : BitVec 3 := 0
  abs : Bool := false
  nb : Bool := false
  na : Bool := false
  sat : Bool := false
  rm : BitVec 2 := 0
  t : BitVec 4 := 0
  subp : Bool := false
  pn : Bool := false
  p : BitVec 5 := 0
  c : BitVec 6 := 0
  imm : BitVec 32 := 0
  cc : BitVec 3 := 0
  lit : Option (BitVec 64) := none
  deriving DecidableEq, Repr

/-- A management command, R346, less CODE (the event's constructor) and STAT (written by the die). -/
structure MgmtCmd where
  resv1 : BitVec 8
  asidField : BitVec 16
  arg0 : BitVec 32
  arg1 : BitVec 64
  arg2 : BitVec 64
  arg3 : BitVec 256
  deriving DecidableEq, Repr

/-- A network work request, R350, less OP (the event's constructor). -/
structure NetRequest where
  conn : Nat
  asid : Nat
  lobj : Nat
  loff : Nat
  rexp : BitVec 32
  roff : Nat
  len : Nat
  cobj : Nat
  coff : Nat
  deriving DecidableEq, Repr

/-- What FEC and CRC find of a flit, R399. -/
inductive FlitCheck where
  | clean
  | corrected
  | crcFail
  deriving DecidableEq, Repr

/-- Where an uncorrectable (or a corrected) error strikes, R394 to R396, R380, R381. -/
inductive ErrorSite where
  /-- A line of DRAM, the second tier, or a dirty line of a cache: poisoned at its home. -/
  | dataLine (line : Nat)
  /-- A clean line of a cache of a die: dropped and refetched. -/
  | cleanCopy (line : Nat)
  /-- A home directory entry: every die taken as sharer and the line recalled. -/
  | directoryEntry (line : Nat)
  /-- Register file of a wave. -/
  | registers (wave : Nat)
  /-- An 8-byte scratchpad word of a crew. -/
  | scratchWord (crew address : Nat)
  /-- An accumulator tile of a crew. -/
  | tile (crew tile : Nat)
  /-- The context frame of a pre-empted crew. -/
  | contextFrame (crew : Nat)
  /-- A member wave of a gang, in its quarter (R380). -/
  | gangMember (wave : Nat)
  /-- A core of an MMAP pair (R381). -/
  | pairCore (crew : Nat)
  /-- An error that the code corrects in place, counted in telemetry. -/
  | corrected (die : Nat)
  deriving DecidableEq, Repr

/-- What an event acts on. The event's constructor says what `subject` and the numbered arguments are; the others are 0. -/
structure EventArgs where
  subject : Nat := 0
  arg1 : Nat := 0
  arg2 : Nat := 0
  arg3 : Nat := 0
  cmd : MgmtCmd := ⟨0, 0, 0, 0, 0, 0⟩
  net : NetRequest := ⟨0, 0, 0, 0, 0, 0, 0, 0, 0⟩
  flit : FlitCheck := .clean
  site : ErrorSite := .corrected 0
  deriving DecidableEq, Repr

/-- Every row of the opcode table: an operation of a base word, of its literal form, of an extended form, or an event. -/
inductive Instr where
  /-- `NOP`, R112: Does nothing; the all-zero word is NOP. -/
  | nop
  /-- `REP`, R116: Runs the next extended instruction count times, stepping its register operands by the strides; count taken from a scalar register. -/
  | rep
  /-- `REP_LITERAL`, R116: REP with the count and source stride taken from a 64-bit literal. -/
  | repLit
  /-- `GRP`, R119: Makes the next n instructions of the fragment one atomic group that commits at one timestamp and sets s[D] to 1. -/
  | grp
  /-- `SMOV`, R101: Copies operand B into s[D]. -/
  | smov
  /-- `SMOV_LITERAL`, R101: SMOV with a 64-bit literal as operand B. -/
  | smovLit
  /-- `SADD`, R101: s[D] := s[A] + B, modulo 2^64. -/
  | sadd
  /-- `SADD_LITERAL`, R101: SADD with a literal B. -/
  | saddLit
  /-- `SSUB`, R101: s[D] := s[A] - B, modulo 2^64. -/
  | ssub
  /-- `SSUB_LITERAL`, R101: SSUB with a literal B. -/
  | ssubLit
  /-- `SMUL`, R101: s[D] := low 64 bits of s[A] x B. -/
  | smul
  /-- `SMUL_LITERAL`, R101: SMUL with a literal B. -/
  | smulLit
  /-- `SMULHI`, R101: s[D] := high 64 bits of the signed 128-bit product. -/
  | smulhi
  /-- `SMULHI_LITERAL`, R101: SMULHI with a literal B. -/
  | smulhiLit
  /-- `SMULHN`, R101: s[D] := high 64 bits of the unsigned 128-bit product. -/
  | smulhn
  /-- `SMULHN_LITERAL`, R101: SMULHN with a literal B. -/
  | smulhnLit
  /-- `SDIV`, R102: Signed quotient truncated toward zero; a zero divisor traps DIVZERO. -/
  | sdiv
  /-- `SDIV_LITERAL`, R102: SDIV with a literal B. -/
  | sdivLit
  /-- `SDIVN`, R102: Unsigned quotient. -/
  | sdivn
  /-- `SDIVN_LITERAL`, R102: SDIVN with a literal B. -/
  | sdivnLit
  /-- `SREM`, R102: Signed remainder with the sign of the dividend. -/
  | srem
  /-- `SREM_LITERAL`, R102: SREM with a literal B. -/
  | sremLit
  /-- `SREMN`, R102: Unsigned remainder. -/
  | sremn
  /-- `SREMN_LITERAL`, R102: SREMN with a literal B. -/
  | sremnLit
  /-- `SAND`, R101: Bitwise AND into s[D]. -/
  | sand
  /-- `SAND_LITERAL`, R101: SAND with a literal B. -/
  | sandLit
  /-- `SOR`, R101: Bitwise OR into s[D]. -/
  | sor
  /-- `SOR_LITERAL`, R101: SOR with a literal B. -/
  | sorLit
  /-- `SXOR`, R101: Bitwise XOR into s[D]. -/
  | sxor
  /-- `SXOR_LITERAL`, R101: SXOR with a literal B. -/
  | sxorLit
  /-- `SSHL`, R101: Shifts s[A] left by B[5:0]. -/
  | sshl
  /-- `SSHL_LITERAL`, R101: SSHL with a literal B. -/
  | sshlLit
  /-- `SSHR`, R101: Logical right shift by B[5:0]. -/
  | sshr
  /-- `SSHR_LITERAL`, R101: SSHR with a literal B. -/
  | sshrLit
  /-- `SSAR`, R101: Arithmetic right shift by B[5:0]. -/
  | ssar
  /-- `SSAR_LITERAL`, R101: SSAR with a literal B. -/
  | ssarLit
  /-- `SROL`, R101: Rotates s[A] left by B[5:0]. -/
  | srol
  /-- `SROL_LITERAL`, R101: SROL with a literal B. -/
  | srolLit
  /-- `SMIN`, R101: Signed minimum. -/
  | smin
  /-- `SMIN_LITERAL`, R101: SMIN with a literal B. -/
  | sminLit
  /-- `SMAX`, R101: Signed maximum. -/
  | smax
  /-- `SMAX_LITERAL`, R101: SMAX with a literal B. -/
  | smaxLit
  /-- `SMINN`, R101: Unsigned minimum. -/
  | sminn
  /-- `SMINN_LITERAL`, R101: SMINN with a literal B. -/
  | sminnLit
  /-- `SMAXN`, R101: Unsigned maximum. -/
  | smaxn
  /-- `SMAXN_LITERAL`, R101: SMAXN with a literal B. -/
  | smaxnLit
  /-- `SCLZ`, R101: Counts leading zero bits of s[A]. -/
  | sclz
  /-- `SPOP`, R101: Counts one bits of s[A]. -/
  | spop
  /-- `SBFX`, R103: Extracts a bit field, zero- or sign-extended by X[0]. -/
  | sbfx
  /-- `SBFX_LITERAL`, R103: SBFX with a literal B. -/
  | sbfxLit
  /-- `SBFI`, R103: Inserts the low bits of s[A] into a field of s[D]. -/
  | sbfi
  /-- `SBFI_LITERAL`, R103: SBFI with a literal B. -/
  | sbfiLit
  /-- `SSEQ`, R101: s[D] := 1 if s[A] equals B, else 0. -/
  | sseq
  /-- `SSEQ_LITERAL`, R101: SSEQ with a literal B. -/
  | sseqLit
  /-- `SSLT`, R101: Signed less-than compare into s[D]. -/
  | sslt
  /-- `SSLT_LITERAL`, R101: SSLT with a literal B. -/
  | ssltLit
  /-- `SSLTN`, R101: Unsigned less-than compare into s[D]. -/
  | ssltn
  /-- `SSLTN_LITERAL`, R101: SSLTN with a literal B. -/
  | ssltnLit
  /-- `SSEL`, R101: s[D] := s[A] if old s[D] is non-zero, else B. -/
  | ssel
  /-- `SSEL_LITERAL`, R101: SSEL with a literal B. -/
  | sselLit
  /-- `SLD`, R104: Loads 8 bytes through a capability into s[D]. -/
  | sld
  /-- `SLD_LITERAL`, R104: SLD with a literal offset. -/
  | sldLit
  /-- `SLDW`, R104: Loads 4 bytes, zero- or sign-extended by X[0]. -/
  | sldw
  /-- `SLDW_LITERAL`, R104: SLDW with a literal offset. -/
  | sldwLit
  /-- `SST`, R104: Stores 8 bytes of s[D] through a capability, clearing the granule tag. -/
  | sst
  /-- `SST_LITERAL`, R104: SST with a literal offset. -/
  | sstLit
  /-- `SSTW`, R104: Stores the low 4 bytes of s[D]. -/
  | sstw
  /-- `SSTW_LITERAL`, R104: SSTW with a literal offset. -/
  | sstwLit
  /-- `CMOV`, R105: Copies a capability with its tag. -/
  | cmov
  /-- `CADD`, R105: Adds B to a capability's offset modulo 2^44. -/
  | cadd
  /-- `CADD_LITERAL`, R105: CADD with a literal B. -/
  | caddLit
  /-- `CWIN`, R106: Sets a capability's window, clearing the tag if not contained. -/
  | cwin
  /-- `CWIN_LITERAL`, R106: CWIN with a literal B. -/
  | cwinLit
  /-- `CRED`, R105: Reduces a capability's rights by AND with B[7:0]. -/
  | cred
  /-- `CRED_LITERAL`, R105: CRED with a literal B. -/
  | credLit
  /-- `CGET`, R105: Reads a field of a capability selected by X into s[D]. -/
  | cget
  /-- `CSETOFF`, R105: Sets a capability's offset to B modulo 2^44. -/
  | csetoff
  /-- `CSETOFF_LITERAL`, R105: CSETOFF with a literal B. -/
  | csetoffLit
  /-- `CLD`, R107: Loads 16 bytes and their tag as a capability. -/
  | cld
  /-- `CLD_LITERAL`, R107: CLD with a literal offset. -/
  | cldLit
  /-- `CST`, R107: Stores a capability and its tag to a granule. -/
  | cst
  /-- `CST_LITERAL`, R107: CST with a literal offset. -/
  | cstLit
  /-- `BR`, R109: Branches the fragment to its own address plus B. -/
  | br
  /-- `BR_LITERAL`, R109: BR with a literal displacement. -/
  | brLit
  /-- `BRZ`, R109: Branches when s[A] is zero. -/
  | brz
  /-- `BRZ_LITERAL`, R109: BRZ with a literal displacement. -/
  | brzLit
  /-- `BRNZ`, R109: Branches when s[A] is non-zero. -/
  | brnz
  /-- `BRNZ_LITERAL`, R109: BRNZ with a literal displacement. -/
  | brnzLit
  /-- `BRANY`, R109: Branches when p[A] is set in any lane of the fragment. -/
  | brany
  /-- `BRANY_LITERAL`, R109: BRANY with a literal displacement. -/
  | branyLit
  /-- `BRALL`, R109: Branches when p[A] is set in every lane of the fragment. -/
  | brall
  /-- `BRALL_LITERAL`, R109: BRALL with a literal displacement. -/
  | brallLit
  /-- `BRNONE`, R109: Branches when p[A] is clear in every lane of the fragment. -/
  | brnone
  /-- `BRNONE_LITERAL`, R109: BRNONE with a literal displacement. -/
  | brnoneLit
  /-- `CALL`, R110: Writes the return address to s[D] and branches. -/
  | call
  /-- `CALL_LITERAL`, R110: CALL with a literal displacement. -/
  | callLit
  /-- `RET`, R110: Sets the PC to s[A]. -/
  | ret
  /-- `LOOP`, R110: Decrements s[D] and branches while it is non-zero. -/
  | loop
  /-- `LOOP_LITERAL`, R110: LOOP with a literal displacement. -/
  | loopLit
  /-- `SPLIT`, R89: Divides the fragment on a predicate, pushing a join record and creating a new fragment. -/
  | split
  /-- `SPLIT_LITERAL`, R89: SPLIT with a literal displacement. -/
  | splitLit
  /-- `JOIN`, R90: Parks the fragment at its top join record and merges when every expected lane is parked. -/
  | join
  /-- `EXIT`, R91: Ends the fragment and retests merges of records that expected its lanes. -/
  | exit
  /-- `YIELD`, R112: Makes the fragment wait until every other ready fragment of its quarter has issued once. -/
  | yield
  /-- `SLEEP`, R112: Makes the fragment not ready for min(B, 2^24) cycles. -/
  | sleep
  /-- `SLEEP_LITERAL`, R112: SLEEP with a literal count. -/
  | sleepLit
  /-- `SLEEP_EXPIRY`, R112: The SLEEP count expires and the fragment becomes ready. Arguments: subject: thread. -/
  | sleepExpiry
  /-- `TRAP`, R113: Takes a trap with CODE TRAPINSN and DETAIL B[7:0]. -/
  | trap
  /-- `TRAP_LITERAL`, R113: TRAP with a literal B. -/
  | trapLit
  /-- `SRET`, R360: Restores s56-s63, clears HM, releases held fragments and resumes at EPC. -/
  | sret
  /-- `CSRR`, R114: Reads a control register into s[D]. -/
  | csrr
  /-- `CSRW`, R114: Writes B to a control register's writable fields. -/
  | csrw
  /-- `CSRW_LITERAL`, R114: CSRW with a literal value. -/
  | csrwLit
  /-- `TRC`, R115: Appends a software DATA packet to the wave's trace when enabled. -/
  | trc
  /-- `TRC_LITERAL`, R115: TRC with a literal value. -/
  | trcLit
  /-- `BKPT`, R113: Takes a trap with CODE BKPT. -/
  | bkpt
  /-- `PAND`, R108: Predicate AND in every lane of the fragment. -/
  | pand
  /-- `POR`, R108: Predicate OR. -/
  | por
  /-- `PXOR`, R108: Predicate exclusive OR. -/
  | pxor
  /-- `PANDN`, R108: Predicate AND NOT. -/
  | pandn
  /-- `PNOT`, R108: Predicate NOT. -/
  | pnot
  /-- `PMOV`, R108: Predicate copy. -/
  | pmov
  /-- `PSET`, R108: Sets p[D] in each lane from bit L of B. -/
  | pset
  /-- `PSET_LITERAL`, R108: PSET with a literal mask. -/
  | psetLit
  /-- `PGET`, R108: Copies p[A] of the fragment's lanes into bits of s[D]. -/
  | pget
  /-- `PCNT`, R108: Counts fragment lanes with p[A] set. -/
  | pcnt
  /-- `PFIRST`, R108: Gives the lowest fragment lane with p[A] set, or 32. -/
  | pfirst
  /-- `VADD`, R121: Vector integer add. -/
  | vadd
  /-- `VSUB`, R121: Vector integer subtract. -/
  | vsub
  /-- `VMUL`, R121: Vector integer multiply, low bits. -/
  | vmul
  /-- `VMULH`, R121: Vector integer multiply, high bits. -/
  | vmulh
  /-- `VMAD`, R121: Vector integer multiply-add. -/
  | vmad
  /-- `VMIN`, R121: Vector integer minimum. -/
  | vmin
  /-- `VMAX`, R121: Vector integer maximum. -/
  | vmax
  /-- `VABS`, R121: Vector integer absolute value. -/
  | vabs
  /-- `VNEG`, R121: Vector integer negation. -/
  | vneg
  /-- `VAND`, R121: Vector bitwise AND. -/
  | vand
  /-- `VOR`, R121: Vector bitwise OR. -/
  | vor
  /-- `VXOR`, R121: Vector bitwise XOR. -/
  | vxor
  /-- `VANDN`, R121: Vector bitwise AND NOT. -/
  | vandn
  /-- `VSHL`, R121: Vector shift left. -/
  | vshl
  /-- `VSHR`, R121: Vector logical shift right. -/
  | vshr
  /-- `VSAR`, R121: Vector arithmetic shift right. -/
  | vsar
  /-- `VROT`, R121: Vector rotate left. -/
  | vrot
  /-- `VCLZ`, R121: Vector count leading zeros. -/
  | vclz
  /-- `VPOP`, R121: Vector population count. -/
  | vpop
  /-- `VBFX`, R122: Vector bit-field extract. -/
  | vbfx
  /-- `VBFI`, R122: Vector bit-field insert. -/
  | vbfi
  /-- `VSEL`, R121: Vector select by C. -/
  | vsel
  /-- `VMOV`, R123: Moves B, LID, the lane number or the element index into each element. -/
  | vmov
  /-- `VFADD`, R124: Vector float add. -/
  | vfadd
  /-- `VFSUB`, R124: Vector float subtract. -/
  | vfsub
  /-- `VFMUL`, R124: Vector float multiply. -/
  | vfmul
  /-- `VFMA`, R124: Vector fused multiply-add. -/
  | vfma
  /-- `VFMS`, R124: Vector fused multiply-subtract. -/
  | vfms
  /-- `VFMIN`, R125: Vector float minimum. -/
  | vfmin
  /-- `VFMAX`, R125: Vector float maximum. -/
  | vfmax
  /-- `VFABS`, R124: Clears the sign bit. -/
  | vfabs
  /-- `VFNEG`, R124: Inverts the sign bit. -/
  | vfneg
  /-- `VFRND`, R124: Rounds to an integral value under RM. -/
  | vfrnd
  /-- `VFCLS`, R125: Classifies each float into a one-hot mask. -/
  | vfcls
  /-- `VFSQT`, R124: Correctly rounded square root. -/
  | vfsqt
  /-- `VFDOT`, R125: Pair dot product of 16-bit floats into F32. -/
  | vfdot
  /-- `VFSCL`, R125: Scales by a power of two. -/
  | vfscl
  /-- `VCMP`, R126: Compares elements and writes predicates. -/
  | vcmp
  /-- `VCMPM`, R126: Compares elements and writes all-ones or zero masks. -/
  | vcmpm
  /-- `VCVT`, R127: Converts elements between types. -/
  | vcvt
  /-- `VPACK`, R127: Converts and packs two registers into narrower elements. -/
  | vpack
  /-- `VUNPK`, R127: Unpacks and widens a part. -/
  | vunpk
  /-- `VSXP`, R128: Encodes 16 F32 values into an SX block. -/
  | vsxp
  /-- `VSXU`, R128: Decodes an SX block into 16 F32 values. -/
  | vsxu
  /-- `VMXP`, R128: Encodes 32 F32 values into an MXF4 block. -/
  | vmxp
  /-- `VMXU`, R128: Decodes an MXF4 block. -/
  | vmxu
  /-- `VQDEC`, R129: Decodes two Q8 or Q4 row codes to F32. -/
  | vqdec
  /-- `VEX2`, R130: Computes 2^x. -/
  | vex2
  /-- `VLG2`, R130: Computes log2 x. -/
  | vlg2
  /-- `VRCP`, R130: Computes 1/x. -/
  | vrcp
  /-- `VRSQ`, R130: Computes 1/sqrt x. -/
  | vrsq
  /-- `VSIN`, R130: Computes sin of pi x. -/
  | vsin
  /-- `VCOS`, R130: Computes cos of pi x. -/
  | vcos
  /-- `VTANH`, R130: Computes tanh x. -/
  | vtanh
  /-- `VSHFL`, R133: Shuffles elements by index across the wave. -/
  | vshfl
  /-- `VBCAST`, R133: Broadcasts one element. -/
  | vbcast
  /-- `VRDX`, R134: Reduces the selected elements across the fragment in the chosen order. -/
  | vrdx
  /-- `VSCAN`, R135: Inclusive or exclusive prefix reduction. -/
  | vscan
  /-- `VREAD`, R133: Reads one element into a scalar register. -/
  | vread
  /-- `VWRITE`, R133: Writes a scalar into one element. -/
  | vwrite
  /-- `VDDX`, R136: Horizontal quad derivative. -/
  | vddx
  /-- `VDDY`, R136: Vertical quad derivative. -/
  | vddy
  /-- `VROTL`, R133: Rotates lanes by n. -/
  | vrotl
  /-- `VBSI`, R137: Inserts lane bits into a bit stream. -/
  | vbsi
  /-- `VBSR`, R137: Reads bits from a bit stream. -/
  | vbsr
  /-- `VBSP`, R137: Packs variable-length lane fields into a stream. -/
  | vbsp
  /-- `VBSC`, R137: Computes exclusive prefix sums of lane lengths. -/
  | vbsc
  /-- `VRNG`, R138: Draws counter-based random numbers. -/
  | vrng
  /-- `VLD`, R161: Vector load through a capability. -/
  | vld
  /-- `VST`, R161: Vector store through a capability. -/
  | vst
  /-- `VLDB`, R162: Loads one block or row per lane. -/
  | vldb
  /-- `VSTB`, R162: Stores one block or row per lane. -/
  | vstb
  /-- `SPLD`, R163: Vector load from the scratchpad. -/
  | spld
  /-- `SPST`, R163: Vector store to the scratchpad. -/
  | spst
  /-- `SPLDB`, R163: Block load from the scratchpad. -/
  | spldb
  /-- `SPSTB`, R163: Block store to the scratchpad. -/
  | spstb
  /-- `VPREF`, R164: Prefetches lines into a cache level. -/
  | vpref
  /-- `VATOM`, R171: Vector atomic on memory sub-elements. -/
  | vatom
  /-- `SATOM`, R172: Scalar atomic on memory. -/
  | satom
  /-- `SPATOM`, R171: Vector atomic on the scratchpad. -/
  | spatom
  /-- `BAR`, R190: Parks at the crew barrier, which opens when every live wave has arrived. -/
  | bar
  /-- `ARRV`, R191: Arrives at a barrier object with a release. -/
  | arrv
  /-- `WAITB`, R192: Waits until a barrier object's phase changes, then acquires. -/
  | waitb
  /-- `WAITC`, R193: Waits until an in-flight counter falls to a threshold. -/
  | waitc
  /-- `FENCE`, R194: Waits until every earlier access of the wave is complete at the scope. -/
  | fence
  /-- `FENCE_EVICT`, R194: Waits until every LOD load or hash encoding of an object that read the map earlier completes. -/
  | fenceEvict
  /-- `MON`, R195: Arms the wave's monitor on a line. -/
  | mon
  /-- `MWAIT`, R195: Waits for a monitored store, a timeout or a spurious wake. -/
  | mwait
  /-- `MWAIT_TIMEOUT`, R195: The MWAIT cycle count expires and reason 2 is written. Arguments: subject: thread. -/
  | mwaitTimeout
  /-- `SEMA`, R196: Queues to take n from a semaphore with an acquire. -/
  | sema
  /-- `SEMR`, R196: Releases and adds n to a semaphore. -/
  | semr
  /-- `SEMT`, R196: Tries to take n from a semaphore without waiting. -/
  | semt
  /-- `EVPH`, R197: Advances or sets the die's eviction phase. -/
  | evph
  /-- `FENCEV`, R198: Flips a versioned object's CUR when the graph's DONE equals TOTAL. -/
  | fencev
  /-- `STRM`, R207: Loads a stream pattern record into a pattern slot. -/
  | strm
  /-- `SUBS`, R216: Binds a loader or storer subscription to a scratchpad ring. -/
  | subs
  /-- `UNSUB`, R217: Cancels a subscription. -/
  | unsub
  /-- `TMPL`, R209: Loads a copy template and captures its capabilities. -/
  | tmpl
  /-- `XGO`, R210: Queues a copy command on a channel. -/
  | xgo
  /-- `DEAL`, R202: Starts a sequencer at a target with a copy of the fragment's registers. -/
  | deal
  /-- `MELD`, R203: Waits for named sequencers to go idle, then acquires. -/
  | meld
  /-- `GANG`, R236: Defines a gang of waves. -/
  | gang
  /-- `MRES`, R231: Reserves operand-buffer lines for a format. -/
  | mres
  /-- `MREL`, R233: Frees a reservation once its commands complete. -/
  | mrel
  /-- `MLDA_SP`, R234: Loads an A operand tile from the scratchpad. -/
  | mldaSp
  /-- `MLDA_REG`, R235: Loads an A operand tile from vector registers. -/
  | mldaReg
  /-- `MLDB_SP`, R234: Loads a B operand tile from the scratchpad, optionally transposing. -/
  | mldbSp
  /-- `MLDB_REG`, R235: Loads a B operand tile from vector registers. -/
  | mldbReg
  /-- `MMA`, R238: Multiplies two tiles into an accumulator tile in the chosen order. -/
  | mma
  /-- `MMAP`, R240: Paired matrix multiply across neighbour cores with a broadcast B. -/
  | mmap
  /-- `MZERO`, R241: Zeroes a tile or empties its exact state. -/
  | mzero
  /-- `MRDA`, R242: Reads tile rows into vector registers. -/
  | mrda
  /-- `MRDA_ST`, R242: Reads a tile status word into a scalar register. -/
  | mrdaSt
  /-- `MWRA`, R243: Writes vector registers into tile rows. -/
  | mwra
  /-- `MSTA`, R244: Stores tile rows through an epilogue to scratchpad or memory. -/
  | msta
  /-- `MBAR`, R245: Arrives at a barrier object once earlier matrix commands complete. -/
  | mbar
  /-- `MCMD`, R246: Tags the next matrix command with an id and predecessors. -/
  | mcmd
  /-- `MCMD_END`, R246: Releases the command graph from its forerunner. -/
  | mcmdEnd
  /-- `QPUT`, R264: Appends one record per selected lane to the stage's output queue. -/
  | qput
  /-- `QTAKE`, R265: Takes records from the stage's input, or reports EOS or ABORT. -/
  | qtake
  /-- `QDONE`, R266: Marks held records done. -/
  | qdone
  /-- `QEOS`, R267: Records that a wave of the stage has issued end of stream. -/
  | qeos
  /-- `LAUNCH`, R268: Reads a packet and appends it to the die's device queue. -/
  | launch
  /-- `ARED`, R221: Queues an elementwise all-reduce collective. -/
  | ared
  /-- `AGATH`, R222: Queues an all-gather collective. -/
  | agath
  /-- `TRACE`, R306: Traces a ray through a BVH and writes the accepted hit. -/
  | trace
  /-- `QBOX`, R311: Finds primitives meeting a box and appends them to an entry buffer. -/
  | qbox
  /-- `REFIT`, R312: Recomputes the boxes of a BVH subtree. -/
  | refit
  /-- `REORD`, R314: Regroups lanes of member waves by key at a rendezvous. -/
  | reord
  /-- `LDLOD`, R289: Samples an LOD object, falling back to a resident level. -/
  | ldlod
  /-- `LDLODP`, R293: LDLOD with derivatives from the quad. -/
  | ldlodp
  /-- `LODQ`, R294: Queries the wanted and delivered levels without sampling. -/
  | lodq
  /-- `HENC`, R319: Encodes a position through a multiresolution hash grid. -/
  | henc
  /-- `HGRAD`, R322: Adds gradients into the grid's gradient object by FADD atomics. -/
  | hgrad
  /-- `EGATH`, R324: Gathers and pools quantised embedding rows. -/
  | egath
  /-- `TRAP_ENTRY`, R359: After draining, records the cause and enters the handler or kills. Arguments: subject: thread; arg1: code; arg2: detail; arg3: faddr. -/
  | trapEntry
  /-- `ASYNC_TRAP_DELIVERY`, R376: Delivers ENGINEFAULT, GANGFAIL or PARTNERLOST to a chosen wave and fragment. Arguments: subject: wave. -/
  | asyncTrapDelivery
  /-- `KILL`, R367: Ends the crews and launches of the scope without saving them. Arguments: subject: crew; arg1: detail. -/
  | kill
  /-- `CREW_PLACEMENT`, R83: Places the first waiting crew on a free core. Arguments: subject: die. -/
  | crewPlacement
  /-- `CREW_END`, R87: Frees the core once all waves ended and all commands completed. Arguments: subject: crew. -/
  | crewEnd
  /-- `PREEMPTION`, R256: Stops a victim crew, saves its context and frees its core. Arguments: subject: die. -/
  | preemption
  /-- `CREW_SPILL`, R156: Spills a crew whose waves are all parked and frees its core. Arguments: subject: crew. -/
  | crewSpill
  /-- `KITTY_REFILL`, R228: Each microsecond adds the refill rate to every crew's kitty. -/
  | kittyRefill
  /-- `PTS_ADVANCE`, R178: A wave's PTS advances by at least 1 every 16 cycles. -/
  | ptsAdvance
  /-- `STAGE_MOVE_EVALUATION`, R261: Every 8,192 cycles marks at most one crew per pipeline for a move. Arguments: subject: die. -/
  | stageMoveEvaluation
  /-- `CREW_STAGE_LEAVE`, R260: A crew leaves its stage and is reassigned, waits, or ends. Arguments: subject: crew. -/
  | crewStageLeave
  /-- `COPY_COMMAND`, R211: Executes a queued copy command and increments its semaphore. Arguments: subject: crew; arg1: channel. -/
  | copyCommand
  /-- `SUBSCRIPTION_TILE`, R216: Transfers one tile of a loader or storer subscription. Arguments: subject: crew; arg1: sub. -/
  | subscriptionTile
  /-- `COLLECTIVE`, R220: The leader reduces or gathers the matched contributions and writes every buffer. Arguments: subject: mask. -/
  | collective
  /-- `MATRIX_COMMAND`, R229: The matrix engine runs an accepted command when its conflicts allow. Arguments: subject: crew; arg1: id. -/
  | matrixCommand
  /-- `GANG_ACCEPT`, R237: The latch accepts a gang occurrence once every member arrived. Arguments: subject: crew; arg1: gang. -/
  | gangAccept
  /-- `MMAP_PAIR_START`, R240: Both engines of a pair start an MMAP in one cycle. Arguments: subject: crew. -/
  | mmapPairStart
  /-- `GRID_PACKET`, R252: The front end reads a GRID packet and creates its crews. Arguments: subject: die. -/
  | gridPacket
  /-- `BIND_PACKET`, R258: The front end binds a pipeline, matching shared prefixes. Arguments: subject: die. -/
  | bindPacket
  /-- `NODE_PACKET`, R270: The front end arms or starts a task-graph node. Arguments: subject: die. -/
  | nodePacket
  /-- `SIGNAL_PACKET`, R255: Stores a value or delivers a frame tick, optionally after earlier packets complete. Arguments: subject: die. -/
  | signalPacket
  /-- `HOST_QUEUE_TAIL`, R253: The front end sees a new TAIL of a host launch queue. Arguments: subject: die; arg1: queue. -/
  | hostQueueTail
  /-- `LAUNCH_COMPLETE`, R252: A launch completes and adds to its completion word. Arguments: subject: launch. -/
  | launchComplete
  /-- `BUDGET_WINDOW_CLOSE`, R272: A graph's budget expires, pre-empting its crews and holding queued nodes. Arguments: subject: die; arg1: graph. -/
  | budgetWindowClose
  /-- `ASIDSET`, R347: Binds an ASID's object table and share domain, or retires it. Arguments: subject: die; cmd. -/
  | asidset
  /-- `INVAL`, R347: Invalidates translations of an object, including importers. Arguments: subject: die; cmd. -/
  | inval
  /-- `EXPORT`, R333: Exports a capability's object and returns an export id. Arguments: subject: die; cmd. -/
  | exportObject
  /-- `UNEXPORT`, R347: Withdraws an export and invalidates it. Arguments: subject: die; cmd. -/
  | unexport
  /-- `EVSCHED`, R347: Loads or unloads the eviction schedule. Arguments: subject: die; cmd. -/
  | evsched
  /-- `LQOPEN`, R347: Opens a host launch queue. Arguments: subject: die; cmd. -/
  | lqopen
  /-- `LQCLOSE`, R347: Stops the front end reading a host queue. Arguments: subject: die; cmd. -/
  | lqclose
  /-- `TELEM`, R356: Writes the die's telemetry record. Arguments: subject: die; cmd. -/
  | telem
  /-- `CAPSET`, R347: Writes a tagged capability granule into an object. Arguments: subject: die; cmd. -/
  | capset
  /-- `KILLREQ`, R369: A host write kills every crew and launch of an ASID. Arguments: subject: die; arg1: value. -/
  | killreq
  /-- `PGANS`, R388: The driver answers a page request, re-walking or failing the waiting accesses. Arguments: subject: die; arg1: value. -/
  | pgans
  /-- `PAGE_REQUEST_POST`, R388: The die posts a page request when the queue has room. Arguments: subject: die. -/
  | pageRequestPost
  /-- `PRG_RESPONSE`, R390: A PRI page-request group response arrives. Arguments: subject: die; arg1: index; arg2: code. -/
  | prgResponse
  /-- `HOST_REGISTER_WRITE`, R368: Host write to a BAR 0 register without behaviour of its own. Arguments: subject: function; arg1: offset; arg2: value. -/
  | hostRegisterWrite
  /-- `MIGRATION_HOLD_TIMEOUT`, R392: An access held by LK for 4,096 cycles parks its wave. Arguments: subject: thread. -/
  | migrationHoldTimeout
  /-- `RD`, R339: Home serves a read-shared request. Arguments: subject: packet. -/
  | rd
  /-- `RDX`, R339: Home serves a read-exclusive request. Arguments: subject: packet. -/
  | rdx
  /-- `UPG`, R339: Home serves an upgrade request. Arguments: subject: packet. -/
  | upg
  /-- `WB`, R339: Home takes a write-back or eviction report. Arguments: subject: packet. -/
  | wb
  /-- `AT`, R340: Home performs a remote atomic after recalling the line. Arguments: subject: packet. -/
  | at
  /-- `INV`, R343: A remote-data cache drops a line and acknowledges with its highest rts. Arguments: subject: packet. -/
  | inv
  /-- `RECALL`, R343: An owner answers a recall with its data or no copy. Arguments: subject: packet. -/
  | recall
  /-- `FORWARD`, R339: A supplier sends data to a requester on a forward. Arguments: subject: packet. -/
  | forward
  /-- `ACK`, R339: Home receives an invalidation acknowledgement or recall answer. Arguments: subject: packet. -/
  | ack
  /-- `EXCLUSIVE_GRANT`, R343: A remote-data cache receives exclusive ownership and performs its held store. Arguments: subject: packet. -/
  | exclusiveGrant
  /-- `FLIT_RECEIVE`, R399: A flit is corrected, replayed, or after nine failures the link goes down. Arguments: subject: dieA; arg1: dieB; arg2: route; flit. -/
  | flitReceive
  /-- `PACKET_RESEND_TIMEOUT`, R400: An unacknowledged packet is resent or becomes undeliverable. Arguments: subject: packet. -/
  | packetResendTimeout
  /-- `DIRECTORY_UPDATE_REPORT`, R401: A side-band report makes the home widen a line's sharer set. Arguments: subject: packet. -/
  | directoryUpdateReport
  /-- `HOME_ANSWER_TIMEOUT`, R402: After 1 ms without answer the home asks XD to fence the silent die. Arguments: subject: line. -/
  | homeAnswerTimeout
  /-- `DIE_FENCE`, R403: XD fences a die, ending survivors' accesses to it. Arguments: subject: die. -/
  | dieFence
  /-- `DIE_RESET`, R405: A die is reset, killing its crews and advancing its incarnation. Arguments: subject: die. -/
  | dieReset
  /-- `FUNCTION_RESET`, R345: The host resets a die function. Arguments: subject: function. -/
  | functionReset
  /-- `NETWORK_PUT`, R350: The transport writes bytes to a remote die and counts completion. Arguments: subject: die; net. -/
  | networkPut
  /-- `NETWORK_GET`, R350: The transport reads bytes from a remote die and counts completion. Arguments: subject: die; net. -/
  | networkGet
  /-- `GET_VERSION`, R354: SPDM GET_VERSION request. -/
  | getVersion
  /-- `GET_CAPABILITIES`, R354: SPDM GET_CAPABILITIES request. -/
  | getCapabilities
  /-- `NEGOTIATE_ALGORITHMS`, R354: SPDM NEGOTIATE_ALGORITHMS request. Arguments: subject: asym; arg1: hash. -/
  | negotiateAlgorithms
  /-- `GET_DIGESTS`, R354: SPDM GET_DIGESTS request. -/
  | getDigests
  /-- `GET_CERTIFICATE`, R354: SPDM GET_CERTIFICATE request. Arguments: subject: offset; arg1: length. -/
  | getCertificate
  /-- `CHALLENGE`, R354: SPDM CHALLENGE request. Arguments: subject: nonce. -/
  | challenge
  /-- `GET_MEASUREMENTS`, R354: SPDM GET_MEASUREMENTS request. Arguments: subject: index. -/
  | getMeasurements
  /-- `FIRMWARE_IMAGE_VERIFY`, R353: A firmware image runs only when its Ed448 signature verifies. Arguments: subject: image; arg1: content; arg2: signature. -/
  | firmwareImageVerify
  /-- `PARTITION_FORM`, R352: XD generates partition keys and zeroes the dies' memory. Arguments: subject: partition; arg1: dies; arg2: tierGiB. -/
  | partitionForm
  /-- `THROTTLE_RAISE`, R408: The power manager raises the throttle level. -/
  | throttleRaise
  /-- `THROTTLE_LOWER`, R408: The power manager lowers the throttle level after 1 ms of margin. -/
  | throttleLower
  /-- `THERMAL_EMERGENCY`, R408: A junction or inlet emergency sets level 7 at once. -/
  | thermalEmergency
  /-- `EMERGENCY_STANDBY`, R408: An emergency lasting 10 ms puts the module into standby. -/
  | emergencyStandby
  /-- `UNCORRECTABLE_ERROR`, R394: An uncorrectable data error poisons or contains the affected structure. Arguments: site. -/
  | uncorrectableError
  /-- `PATROL_SCRUB`, R394: The patrol scrub visits and corrects DRAM lines. Arguments: subject: line. -/
  | patrolScrub
  /-- `CORE_RETIRE`, R409: A failed core is retired once its crew has left. Arguments: subject: die; arg1: core. -/
  | coreRetire
  /-- `HEAT_RETIRE`, R409: A heat is retired, its crews pre-empted and cores retired. Arguments: subject: die; arg1: heat. -/
  | heatRetire
  /-- `ACCESS_COMPLETION`, R97: An outstanding load, store, atomic or unit operation of a wave or sequencer completes, writing its registers and lowering its in-flight counter in issue order. Arguments: subject: access. -/
  | accessCompletion
  /-- `RESERVED_ENCODING`, R362: A fragment issues a word with a reserved OPC, FN or LEN, or a non-zero reserved field, and traps ILLEGAL. Arguments: subject: detail. -/
  | reservedEncoding
  /-- `INSTRUCTION_FETCH_FAULT`, R109: A fragment or sequencer fetches from outside its code object's window or from a poisoned line, and traps CAPBOUND or UNCORR 7. Arguments: subject: code; arg1: detail. -/
  | instructionFetchFault
  /-- `MWAIT_SPURIOUS_WAKE`, R195: A wave held in MWAIT is woken spuriously and receives reason 0. Arguments: subject: thread. -/
  | mwaitSpuriousWake
  /-- `RESERVED_COMMAND`, R347: The die reads a management command whose CODE is reserved and answers it malformed. Arguments: subject: die; cmd. -/
  | reservedCommand
  /-- `PRI_ENABLE`, R390: Software clears and sets PRI Enable, letting the function send page requests again after a Response Failure. Arguments: subject: die. -/
  | priEnable
  /-- `MODULE_POWER_UP`, R331: The board controller brings the module up from standby, setting every die's incarnation to 1. -/
  | modulePowerUp
  /-- `POWER_BUDGET`, R355: Function 0 gives the power manager a new module power budget of at most 4,800 W. Arguments: subject: milliwatts. -/
  | powerBudget
  deriving DecidableEq, Repr

end Sys2Proof
end

