-- ==== Sys2Proof/Machine/State.lean ====
section
/-! DEFINITION. The state of a VN8 module as plain data: one record for each thing the spec gives state to, in flat tables whose
keys are numbers. A die is 0 to 11 (`DIEID`). A crew has a number of its own (never reused); its wave w has the key
64*crew + w (w 0 to 31; 32 is its MX sequencer, 33 its CP sequencer), and fragment f of a wave the key 32*wave + f. A sequencer
is the thread 0 of its wave. A byte of memory has the key die*2^52 + space*2^48 + address (R145), host memory as die 12. -/

namespace Sys2Proof.Machine

/-- A capability register: 128 bits and a tag (R140). -/
structure Cap where
  raw : BitVec 128 := 0
  tag : Bool := false
  deriving DecidableEq, Repr

/-- The three states of a fragment (R88), a fragment parked at the crew barrier told apart, and the idle sequencer (R201). -/
inductive ThreadState where
  | live
  | joined
  | barred
  | deferred
  | idle
  deriving DecidableEq, Repr

/-- An instruction that holds its fragment until it completes (R189, R263): the operation, the cycle of its issue, and what it
waits for (a ticket, a mask, a deadline). -/
structure Hold where
  op : Instr
  since : Nat
  arg : Nat := 0
  peers : List Nat := []
  /-- The fields and the length of the held instruction. -/
  f : Fields := {}
  len : Nat := 0
  /-- The wave's `PTS` when the instruction issued, or the time of its last access since: the `p` of its accesses (R177, R344). -/
  pts : Nat := 0
  /-- What the instruction read before its first lane: a header or a record (R284, R317, R323). -/
  kept : List Nat := []
  deriving DecidableEq, Repr

/-- A `REP` in progress (R116): its iteration, its count, its strides, and the length of prefix and body. -/
structure RepRun where
  i : Nat
  count : Nat
  ds : Nat
  ss : Nat
  prefixLen : Nat
  /-- No iteration has issued yet: the prefix issues together with the first (R38). -/
  first : Bool := true
  deriving DecidableEq, Repr

/-- A fragment (R88) or a sequencer (R201). -/
structure Thread where
  state : ThreadState := .idle
  pc : Word := 0
  mask : LaneMask := 0
  s : Table Word := []
  c : Table Cap := []
  joins : List Nat := []
  age : Nat := 0
  last : Nat := 0
  /-- The first cycle in which the stall count lets the fragment issue (R38). -/
  readyAt : Nat := 0
  /-- Instructions issued plus their stall counts: the positions of R40. -/
  position : Nat := 0
  /-- The cycle in which the fragment's instruction was last found not ready (R94). -/
  notReadyAt : Option Nat := none
  hold : Option Hold := none
  rep : Option RepRun := none
  /-- Lanes of the instruction at `pc` that have completed and run no more (R156, R360). -/
  doneLanes : LaneMask := 0
  /-- The id that the last `MCMD` put on the next matrix command, with its two predecessors (R246). -/
  tag : Option (Nat × Nat × Nat) := none
  /-- The wave that dealt the sequencer (R376). -/
  dealer : Nat := 0
  /-- A remote atomic's answer, by lane and element (R340). -/
  answers : Table Nat := []
  /-- Host pages whose request was answered with success since the instruction at `pc` first missed them (R390), and the page missed last. -/
  retried : List Nat := []
  missed : Option Nat := none
  /-- Since when, and for which object, the held instruction's access has met a migration lock without a break (R392). -/
  lock : Option (Nat × Nat) := none
  /-- The line of another die, or of another die's copy, that the held instruction's access waits for (R339, R403). -/
  waitLine : Option Nat := none
  /-- The page request that the held instruction waits for, with `FADDR` should it fail (R156, R388). -/
  park : Option (Nat × Word) := none
  /-- A trap whose entry waits for the wave's commands (R359): code, detail, `FADDR`, `FMASK`, `EPC`. -/
  trap : Option (Nat × Nat × Word × LaneMask × Word) := none
  deriving DecidableEq, Repr

/-- A join record (R89); the fragments that hold it name it by its key. -/
structure JoinRec where
  token : Nat := 0
  expect : LaneMask := 0
  stay : LaneMask := 0
  deriving DecidableEq, Repr

/-- A write of a fixed-latency instruction that has not landed (R39): `file` 0 s, 1 v, 2 p, 3 c; `key` the register, 32*register + lane
in v; `old` the whole register before; `landAt` the cycle it lands; `due` the position of R40 from which a read is in time; `by'` the
position of the writer; `mask` the bits written. `thread` is the fragment that holds the written lanes; 2^60 when their fragment has
ended. -/
structure Late where
  thread : Nat
  file : Nat
  key : Nat
  old : Nat
  landAt : Nat
  due : Nat
  by' : Nat
  mask : Nat := 2 ^ 129 - 1
  deriving DecidableEq, Repr

/-- A register write of an outstanding access (R97). In v and p only the bits of `mask` are written. -/
inductive RegWrite where
  | s (thread reg : Nat) (value : Word)
  | c (thread reg : Nat) (value : Cap)
  | v (reg lane : Nat) (mask value : Word)
  | p (reg : Nat) (mask value : LaneMask)
  deriving DecidableEq, Repr

/-- An outstanding access: the wave whose counter it raised, its path (R97), the cycle it completes in, its register writes. -/
structure Access where
  wave : Nat
  path : Nat
  doneAt : Nat
  writes : List RegWrite := []
  /-- A matrix command that lowers the counter when it completes (R234, R244). -/
  command : Option Nat := none
  /-- For a level-of-detail load: the key of its object's table entry, plus 1 (R194, R296). -/
  lod : Nat := 0
  deriving DecidableEq, Repr

/-- The monitor of a wave (R195): the line, the timestamp of `MON`, whether a store has triggered it. -/
structure Monitor where
  line : Nat
  ts : Nat
  hit : Bool := false
  deriving DecidableEq, Repr

/-- An asynchronous event on its way to a wave (R376). -/
structure AsyncEvent where
  code : Nat
  detail : Nat
  faddr : Word
  deriving DecidableEq, Repr

/-- A wave (R85, R88), or the part of a sequencer that R201 gives it (counters, `PTS`). -/
structure Wave where
  ended : Bool := false
  /-- Parked by R156 or R392 until the answer to the page requests in `pages` arrives. -/
  parked : Bool := false
  pages : List Nat := []
  hm : Bool := false
  cause : Word := 0
  epc : Word := 0
  faddr : Word := 0
  fmask : LaneMask := 0
  repidx : BitVec 16 := 0
  lid : Table Word := []
  pts : Nat := 0
  scbchk : Bool := false
  tracectl : Word := 0
  /-- Cycle of the wave's last written trace packet, and packets since its last SYNC set (R414, R417). -/
  traceLast : Nat := 0
  tracePackets : Nat := 0
  v : Table Word := []
  p : Table LaneMask := []
  counters : Table Nat := []
  monitor : Option Monitor := none
  shadow : List Word := []
  /-- The fragment that runs the trap handler (R359). -/
  handler : Option Nat := none
  /-- The address of the instruction that the last trap interrupted: `SRET` runs it again only in the lanes not in `FMASK` (R360). -/
  trapPc : Word := 0
  pending : List AsyncEvent := []
  joins : Table JoinRec := []
  late : List Late := []
  /-- Queue records held by lanes: the reading instance and the sequence number, and the gap marks (R265). -/
  records : Table (Nat × Nat) := []
  /-- The wave has arrived at the crew barrier (R190). -/
  atBarrier : Bool := false
  deriving DecidableEq, Repr

/-- A waiter of a semaphore (R196): a thread, or a subscription. -/
inductive SemWaiter where
  | thread (t : Nat) (n : Nat)
  | sub (id : Nat)
  deriving DecidableEq, Repr

/-- A pattern slot: the record of R205 and the captured index capability (R207). -/
structure PatternSlot where
  record : List Byte := []
  icap : Cap := {}
  deriving DecidableEq, Repr

/-- A template: the record of R208 and the captured capabilities (R209). -/
structure TemplateSlot where
  record : List Byte := []
  src : Cap := {}
  dst : Cap := {}
  deriving DecidableEq, Repr

/-- What an engine command waits for: a page request (R374), a line of another die; and what it learned: a refusal (code and DETAIL),
the host pages whose request was answered. -/
structure EngineWait where
  page : Option Nat := none
  refused : Option (Nat × Nat) := none
  retried : List Nat := []
  missed : Option Nat := none
  line : Option Nat := none
  /-- `FADDR` of the access that waits, should it be refused (R385). -/
  faddr : Word := 0
  deriving DecidableEq, Repr

/-- A queued copy command with its snapshot (R210), its progress and the cycle it completes in. -/
structure CopyCmd where
  agent : Nat
  thread : Nat
  tmpl : TemplateSlot
  pat : PatternSlot
  arg : Int
  pts : Nat
  started : Bool := false
  next : Nat := 0
  doneAt : Nat := 0
  wait : EngineWait := {}
  /-- The element in work, read and not yet written: its bytes, its destination, and the time of its read. -/
  got : Option (List Byte × Int × Nat) := none
  /-- Of a combining SCATTER (R212): the destinations and the values of the elements read so far; and the refusal that ended the reading
  (code, detail, `FADDR`), after which the elements read are still performed (R377). -/
  values : List (Int × Nat) := []
  bad : Option (Nat × Nat × Word) := none
  deriving DecidableEq, Repr

/-- A live subscription (R214 to R216). -/
structure Sub where
  agent : Nat
  storer : Bool
  cap : Cap
  base : Int
  pat : PatternSlot
  full : Nat
  free : Nat
  slots : Nat
  slotSize : Nat
  ring : Nat
  tile : Nat := 0
  /-- The take from its semaphore has succeeded for this tile. -/
  taken : Bool := false
  queued : Bool := false
  pts : Nat := 0
  readyAt : Nat := 0
  /-- The register that named the capability, elements of the tile done, cancelled by UNSUB, stopped by a failure (R375). -/
  creg : Nat := 0
  next : Nat := 0
  cancel : Bool := false
  stopped : Bool := false
  /-- The cycle in which `SUBS` bound it: an `UNSUB` held since an earlier one does not name it. -/
  boundAt : Nat := 0
  wait : EngineWait := {}
  deriving DecidableEq, Repr

/-- A tile status word (R242). -/
structure TileStatus where
  kdone : Nat := 0
  part : Bool := false
  pois : Bool := false
  exm : Bool := false
  deriving DecidableEq, Repr

/-- The exact state of R78: the 320-bit sum in units of 2^-149, the term count, the four flags. -/
structure ExactState where
  q : Nat := 0
  n : Nat := 0
  nan : Bool := false
  pinf : Bool := false
  ninf : Bool := false
  ovf : Bool := false
  deriving DecidableEq, Repr

/-- A live reservation of the operand buffer (R231). -/
structure Resv where
  t : Nat
  mod : Nat
  first : Nat
  lines : Nat
  scl : Nat
  xoff : Int
  /-- `MREL` has been issued and waits for the commands that name it (R233). -/
  releasing : Bool := false
  deriving DecidableEq, Repr

/-- A member's arrival at a joint instruction (R237): thread, operation, fields, and the occurrence. -/
structure GangEntry where
  thread : Nat
  op : Instr
  f : Fields
  occ : Nat
  /-- Of an MMAP: its number in its crew, which its first member's issue fixes (R240). -/
  pairIdx : Nat := 0
  deriving DecidableEq, Repr

/-- A gang definition with its latch (R236, R237): the waves by rank, how many occurrences each has reached, the members that wait,
how many occurrences have been accepted, and the failure that ends later joint instructions (R380). -/
structure Gang where
  waves : List Nat := []
  counts : Table Nat := []
  waiting : List GangEntry := []
  accepted : Nat := 0
  failed : Option Nat := none
  /-- The next cycle in which the latch is looked at. -/
  tryAt : Nat := 0
  deriving DecidableEq, Repr

/-- A command of the matrix engine (R224, R229): who issued it, what it is, its operands captured at issue, the commands it waits for
when it is tagged (R246), and the cycle in which it may start or completes. -/
structure MatrixCmd where
  agents : List Nat
  op : Instr
  f : Fields
  /-- Scalar operands A and B, captured. -/
  opA : Word := 0
  opB : Word := 0
  cap : Cap := {}
  /-- Words captured from vector registers, or element masks by lane. -/
  data : List Word := []
  pts : Nat := 0
  id : Nat := 0
  preds : List Nat := []
  started : Bool := false
  doneAt : Nat := 0
  /-- The access whose counter the command lowers. -/
  access : Option Nat := none
  /-- The thread that the command holds (MRDA). -/
  thread : Option Nat := none
  gang : Option Nat := none
  /-- The row in work. -/
  next : Nat := 0
  wait : EngineWait := {}
  /-- Of an MMAP: its number in its crew, and the cycle its side became ready (R240). -/
  pairIdx : Nat := 0
  pairReady : Option Nat := none
  deriving DecidableEq, Repr

/-- Where a crew stands (R83, R156, R256, R260): `stopping` until its accesses and commands have completed and its context is saved;
`preempted` until the next frame tick (R272); `held` on its core without waves. -/
inductive CrewState where
  | waiting
  | running
  | stopping
  | preempted
  | held
  | ended
  deriving DecidableEq, Repr

/-- A crew and what its core holds for it. -/
structure Crew where
  die : Nat := 0
  crewid : Nat := 0
  launch : Nat := 0
  age : Nat := 0
  prio : Nat := 0
  asid : Nat := 0
  state : CrewState := .waiting
  core : Nat := 0
  /-- The code object and the kernel entry. -/
  codeObj : Nat := 0
  entry : Word := 0
  nwaves : Nat := 1
  vallot : Nat := 8
  scb : Bool := false
  args : Table Word := []
  cargs : Table Cap := []
  startPts : Nat := 0
  /-- The crew's waves have started (a crew that waits after pre-emption or a spill is restored, not started). -/
  started : Bool := false
  incarnation : Nat := 0
  kitty : Nat := 0
  krate : Nat := 0
  /-- Instructions held by an empty kitty, oldest first (R227): threads, or 2^40 + gang for a joint instruction. -/
  kittyQueue : List Nat := []
  scratch : Table Byte := []
  scratchPoison : List Nat := []
  sems : Table Nat := []
  semClosed : List Nat := []
  semQueue : Table (List SemWaiter) := []
  barPhase : Nat := 0
  relMark : Nat := 0
  /-- The highest time of the memory writes of its engine commands (R183). -/
  wroteTs : Nat := 0
  cur : Table Nat := []
  patterns : Table PatternSlot := []
  templates : Table TemplateSlot := []
  channels : Table (List CopyCmd) := []
  /-- Channels that stopped and whose fault is not delivered yet (R377). -/
  chanFault : List Nat := []
  subs : Table Sub := []
  tiles : Table (BitVec 32) := []
  exact : Table ExactState := []
  tileStatus : Table TileStatus := []
  opbuf : Table Byte := []
  resv : Table Resv := []
  gangs : Table Gang := []
  commands : Table MatrixCmd := []
  forerunner : Option Nat := none
  /-- `MMAP` commands issued so far (R240). -/
  mmapCount : Nat := 0
  pair : Option Nat := none
  pairBroken : Bool := false
  /-- The partner has ended, and no MMAP has reported it yet (R381). -/
  pairEnded : Bool := false
  paired : Bool := false
  /-- The pipeline whose pool holds the crew, its stage instance, and the move it is marked for (R260, R261). -/
  pipeline : Option Nat := none
  stage : Option Nat := none
  move : Option Nat := none
  /-- The context frame: its division (R371). -/
  frame : Option Nat := none
  /-- The frame suffered an uncorrectable error: the restore fails (R394). -/
  frameBad : Bool := false
  /-- Rendezvous of `REORD` (R313): the threads arrived, with their operands. -/
  reord : List (Nat × Nat × Nat × Nat) := []
  /-- Not placed before the next frame tick (R272). -/
  budgetHeld : Bool := false
  /-- Why the crew is to be, or is being, taken off its core: 0 for a waiting crew (R256), 1 a budget's close (R272), 2 its heat retires
  (R409), 3 all its waves are parked (R156). -/
  stopFor : Option Nat := none
  /-- Register-file errors by quarter (R396). -/
  quarterErrors : Table Nat := []
  deriving DecidableEq, Repr

/-- A launch (R252): its packet's kind and queue (0 to 63 a host queue, 64 + class a device queue) with the cycle the queue was opened
and the packet's index, its parent, what it adds to on completion (object and offset), and whether it is complete. -/
structure Launch where
  die : Nat := 0
  asid : Nat := 0
  kind : Nat := 0
  age : Nat := 0
  prio : Nat := 0
  parent : Option Nat := none
  completion : Option (Nat × Nat) := none
  queue : Nat := 0
  opened : Nat := 0
  index : Nat := 0
  done : Bool := false
  killed : Bool := false
  /-- The node of a task graph that it publishes (kind 3) or runs (kind 1): graph object and node offset (R270). -/
  node : Option (Nat × Nat) := none
  /-- The node's work has completed (R270), for a launch of kind 3. -/
  nodeDone : Bool := false
  /-- The highest time that its completion releases (R183, R252). -/
  pts : Nat := 0
  /-- Of a node that its graph's close holds, the cycle in which it was to start; and a node that is to start (R270, R272). -/
  heldAge : Option Nat := none
  starting : Bool := false
  /-- A SIGNAL that waits (R255): object, offset, value, and whether it is a frame tick. -/
  signal : Option (Nat × Nat × Nat × Bool) := none
  deriving DecidableEq, Repr

/-- A packet in a device queue, as `LAUNCH` adjusted it (R268): its bytes, its argument block, and the object and offset of the completion
word. -/
structure DevPacket where
  bytes : List Byte
  asid : Nat
  args : Table Word
  cargs : Table Cap
  completion : Option (Nat × Nat)
  parent : Nat
  pts : Nat
  deriving DecidableEq, Repr

/-- A host launch queue (R253). -/
structure HostQueue where
  ring : Nat
  n : Nat
  asid : Nat
  head : Nat := 0
  tail : Nat := 0
  openedAt : Nat := 0
  isOpen : Bool := true
  deriving DecidableEq, Repr

/-- The ring of a die function's management queue (R346): its address and size, the ASID of a ring in space 2, and HEAD. -/
structure MgmtQueue where
  ring : Nat
  n : Nat
  asid : Nat
  head : Nat := 0
  deriving DecidableEq, Repr

/-- The ring of an ASID's network work requests (R350): its address in device memory, its size, and how many requests the transport has read. -/
structure NetRing where
  ring : Nat
  n : Nat
  head : Nat := 0
  deriving DecidableEq, Repr

/-- A network request that the transport has started (R350): PUT or GET, the request, the program time that it has reached, and whether its bytes
have been written. -/
structure NetWork where
  put : Bool
  request : NetRequest
  pts : Nat := 0
  moved : Bool := false
  deriving DecidableEq, Repr

/-- A record of a queue (R259). -/
structure QRecord where
  seq : Nat
  frame : Bool
  bytes : List Byte
  pts : Nat
  deriving DecidableEq, Repr

/-- A read cursor of a queue (R277): the next sequence number, the lag policy, the pending gap (count, first, frame marker), whether
it waits for a frame marker (R276), the records taken and not yet done. -/
structure Cursor where
  next : Nat := 0
  drop : Bool := false
  gap : Option (Nat × Nat × Bool) := none
  waitFrame : Bool := false
  taken : Nat := 0
  deriving DecidableEq, Repr

/-- A stage instance with its output queue (R273). -/
structure Instance where
  die : Nat := 0
  asid : Nat := 0
  handle : Nat := 0
  first : Bool := false
  codeObj : Nat := 0
  entry : Word := 0
  minc : Nat := 0
  maxc : Nat := 1
  vallot : Nat := 8
  qcap : Nat := 0
  qsize : Nat := 0
  qloc : Nat := 0
  upstream : Option Nat := none
  seeds : Nat := 1
  records : List QRecord := []
  nextSeq : Nat := 0
  ended : Bool := false
  poisoned : Bool := false
  eos : Bool := false
  last : Bool := false
  /-- The read cursors of its output queue, by reading instance (R277), and of a stage 0 the cursor on its seeds (R258). -/
  cursors : Table Cursor := []
  seedCursor : Cursor := {}
  refs : Nat := 0
  accountable : Nat := 0
  closed : Bool := false
  /-- `QTAKE`s waiting, in the order of R265. -/
  takers : List Nat := []
  deriving DecidableEq, Repr

/-- A bound pipeline (R273): its path, its pool's launch, and what its crews start with. -/
structure Pipeline where
  die : Nat := 0
  asid : Nat := 0
  path : List Nat := []
  shared : Nat := 0
  launch : Nat := 0
  readAt : Nat := 0
  prio : Nat := 0
  krate : Nat := 0
  scb : Bool := false
  nwaves : Nat := 1
  args : Table Word := []
  cargs : Table Cap := []
  released : Bool := false
  deriving DecidableEq, Repr

/-- An ASID of a die (R143, R347). -/
structure AsidEntry where
  base : Nat := 0
  count : Nat := 0
  share : Option Nat := none
  deriving DecidableEq, Repr

/-- A page request of a die (R388). -/
structure PageRequest where
  asid : Nat
  obj : Nat
  page : Nat
  kind : Nat
  why : Nat
  number : Option Nat := none
  /-- `TIMEW` when it was posted. -/
  timew : Nat := 0
  deriving DecidableEq, Repr

/-- A page-request group index of a die (R348, R390): up to 32 host pages that one crew, or the die's front end (crew `frontCrew`), missed in the
cycle in which the group was sent. -/
structure PriIndex where
  asid : Nat
  crew : Nat
  incarnation : Nat
  pages : List Nat
  since : Nat
  deriving DecidableEq, Repr

/-- A collective queued on a die (R220): the issuing thread, its group record and operands. -/
structure Collective where
  thread : Nat
  crew : Nat
  gather : Bool
  mask : Nat
  occurrence : Nat
  bufs : List Cap
  count : Nat
  f : Fields
  pts : Nat
  /-- At the leader: the element in work, its result, how many members have it, and the next attempt. -/
  next : Nat := 0
  value : Option Nat := none
  wrote : Nat := 0
  doneAt : Nat := 0
  creg : Nat := 0
  /-- At the leader: the commands have been matched, and its work has begun. -/
  started : Bool := false
  wait : EngineWait := {}
  deriving DecidableEq, Repr

/-- A line in a cache under a lease (R176): timestamps, bytes, range id (R152), last use, and the way of its set. -/
structure CacheLine where
  wts : Nat
  rts : Nat
  bytes : List Byte
  tags : List Bool
  range : Nat := 15
  used : Nat := 0
  way : Nat := 0
  /-- The cycle in which its owner granted the lease: it serves its readers for at most 1,024 cycles (R178). -/
  granted : Nat := 0
  deriving DecidableEq, Repr

/-- A line of a division's memory-side cache (R151): whether it differs from DRAM, its range id (R152), the way of its set. Its bytes are
the line's bytes in `State.mem`. -/
structure MscLine where
  dirty : Bool := false
  range : Nat := 15
  way : Nat := 0
  deriving DecidableEq, Repr

/-- A leaf in the extent cache of a core (R149): whose page it maps, as a walk found it. -/
structure LeafEntry where
  asid : Nat
  obj : Nat
  /-- The 64 KiB page, or the first of the 32 of a large page. -/
  page : Nat
  leaf : Nat
  leafKey : Nat
  deriving DecidableEq, Repr

/-- An entry of a core's run table (R149): pages `first` to `last` of an object were found at consecutive physical addresses. -/
structure RunEntry where
  asid : Nat
  obj : Nat
  first : Nat
  last : Nat
  phys : Nat
  deriving DecidableEq, Repr

/-- An entry of a die's peer translation cache (R336): the exporter and the export id, the page, where it lies at home, and the leaf it came
through (its value and key plus 1, or 0). -/
structure PeerEntry where
  exporter : Nat
  id : Nat
  page : Nat
  phys : Nat
  pol : Nat
  leaf : Nat
  leafKey : Nat
  deriving DecidableEq, Repr

/-- A state of the remote-data cache for a line (R338). -/
inductive RdcState where
  | s
  | e
  | m
  | o
  deriving DecidableEq, Repr

/-- A line of a die's remote-data cache. -/
structure RdcLine where
  state : RdcState
  wts : Nat
  mrts : Nat
  bytes : List Byte
  poison : Bool := false
  used : Nat := 0
  /-- Granules that stores have touched since the line came from its home (R142, R335). -/
  touched : List Nat := []
  /-- Allocated by an access whose policy allows it: a line fetched for a NOCACHE access alone leaves when it has served (R335). -/
  alloc : Bool := false
  /-- It has served an access since it came. -/
  served : Bool := false
  /-- The cycle in which the home granted it exclusive: the held store is performed in that cycle, before any recall (R343). -/
  grantedAt : Option Nat := none
  deriving DecidableEq, Repr

/-- The state of a home directory entry (R338). -/
inductive DirState where
  | i
  | s
  | o
  | x
  deriving DecidableEq, Repr

/-- A request that the home serves or keeps waiting (R339): kind 0 RD, 1 RDX, 2 UPG, 3 AT, 4 an access of the home die, 5 the recall of a
damaged entry (R394), 6 a forward whose requester is gone (R403). -/
structure HomeRequest where
  kind : Nat
  die : Nat
  op : List Nat := []
  agent : Nat := 0
  deriving DecidableEq, Repr

/-- A home directory entry (R338): state, sharers, supplier or owner, the request in service, the dies whose answers it awaits
(BI with `invalidating`, else BF), the highest acknowledged rts, the waiting requests, and when the last message went out. -/
structure DirEntry where
  state : DirState := .i
  sharers : List Nat := []
  owner : Nat := 0
  busy : Option HomeRequest := none
  invalidating : Bool := false
  awaiting : List Nat := []
  ackRts : Nat := 0
  waiting : List HomeRequest := []
  since : Nat := 0
  /-- An answer to the recall of a damaged entry has brought data (R394). -/
  gotData : Bool := false
  /-- Dies whose written-back data was taken as their answer: their later "no copy" is discarded (R339). -/
  stale : List Nat := []
  deriving DecidableEq, Repr

/-- The kinds of fabric packets (R337, R339). -/
inductive PacketKind where
  | rd
  | rdx
  | upg
  | wb
  | at'
  | inv
  | recall
  | forward
  | ack
  | grant
  | data
  | atAnswer
  | peerInval
  | peerAck
  deriving DecidableEq, Repr

/-- A fabric packet in flight (R331, R337, R400): the line, the sender's incarnation, the sequence number of its pair, and its load
(timestamps, bytes, operands, and for an answer what it says). `here` and `lost` say whether it has reached its destination. -/
structure Packet where
  kind : PacketKind
  src : Nat
  dst : Nat
  line : Nat
  incarnation : Nat := 0
  seq : Nat := 0
  arriveAt : Nat := 0
  sentAt : Nat := 0
  tries : Nat := 0
  route : Nat := 0
  here : Bool := false
  lost : Bool := false
  /-- A recall or a forward that its receiver has taken and answers at the end of the cycle, after the store that the line was granted for (R343). -/
  taken : Bool := false
  wts : Nat := 0
  mrts : Nat := 0
  bytes : List Byte := []
  hasData : Bool := false
  state : Nat := 0
  op : List Nat := []
  agent : Nat := 0
  poison : Bool := false
  touched : List Nat := []
  /-- The answer to a recall of a line that its sender held in M or O. -/
  dirty : Bool := false
  deriving DecidableEq, Repr

/-- A fault-log or module-log entry (R368, R397). -/
structure LogEntry where
  code : Nat
  detail : Nat
  asid : Nat := 0
  crewid : Nat := 0xFFFFFFFF
  epc : Word := 0
  faddr : Word := 0
  fmask : LaneMask := 0
  wid : Nat := 0xFF
  src : Nat := 5
  core : Nat := 0
  timew : Nat := 0
  lage : Nat := 0
  cause2 : Word := 0
  deriving DecidableEq, Repr

/-- A log with its three counts (R368). -/
structure Log where
  head : Nat := 0
  tail : Nat := 0
  drop : Nat := 0
  entries : Table LogEntry := []
  deriving DecidableEq, Repr

/-- A graph of a die (R272): its object and ASID, when the open window closes, whether it has closed, and the NODE launches whose nodes
the close holds. -/
structure Graph where
  asid : Nat
  obj : Nat
  closeAt : Option Nat := none
  closed : Bool := false
  heldNodes : List Nat := []
  deriving DecidableEq, Repr

/-- The eviction schedule of a die (R152): its record's ranges (ASID, object, first and last offset) and the ranks of its phases, as
EVSCHED read them, the number of phases less one, and the current phase. -/
structure Schedule where
  ranges : List (Nat × Nat × Nat × Nat)
  phases : List Nat
  nph : Nat
  phase : Nat := 0
  deriving DecidableEq, Repr

/-- What the host has mapped at a 4 KiB I/O page (R348, R390): the host frame, the permissions, and whether the host answers reads of it with
poison, Unsupported Request or Completer Abort (R395). -/
structure HostPage where
  frame : Nat
  read : Bool
  write : Bool
  fails : Bool := false
  deriving DecidableEq, Repr

/-- A compute die (R330). -/
structure Die where
  incarnation : Nat := 1
  resetAt : Nat := 0
  fenced : Bool := false
  partition : Option Nat := none
  asids : Table AsidEntry := []
  /-- By ASID, the highest timestamp of a FENCEV that flipped an object (R198). -/
  flips : Table Nat := []
  exports : Table (Nat × Nat) := []
  schedule : Option Schedule := none
  hostQueues : Table HostQueue := []
  devQueues : Table (List DevPacket) := []
  devCount : Table Nat := []
  log : Log := {}
  prHead : Nat := 0
  prTail : Nat := 0
  requests : Table PageRequest := []
  posted : Table PageRequest := []
  pri : Table PriIndex := []
  priFailed : Bool := false
  /-- Host pages whose request for the front end was answered with success since it last missed them (R390). -/
  priRetried : List Nat := []
  /-- Host pages whose request for the front end failed, with the DETAIL of HOSTPAGE (R390). -/
  priStopped : Table Nat := []
  /-- The translations that the die has received by ATS, by page (R348). -/
  ats : Table HostPage := []
  crewCount : Nat := 0
  msix : Table Nat := []
  graphs : List Graph := []
  retiredCores : List Nat := []
  retiredHeats : List Nat := []
  retiring : List Nat := []
  collectives : List Collective := []
  matchCounts : Table Nat := []
  corrected : Nat := 0
  /-- The copies that the L1s (32*core) and L2 slices (by heat) hold: key cache*2^52 + line. -/
  copies : Table CacheLine := []
  /-- The lines that the memory-side caches hold: key division*2^52 + line (R151). -/
  msc : Table MscLine := []
  /-- The object-table entries that the die's accesses have used since the last invalidation of their objects, by ASID*2^32 + object
  (R150). -/
  held : Table (Nat × Nat × Nat × Nat) := []
  /-- By core, the extent cache and the run table, the most recently used entry first (R149). -/
  extents : Table (List LeafEntry) := []
  runs : Table (List RunEntry) := []
  /-- The peer translation cache, the most recently used entry first (R336). -/
  peers : List PeerEntry := []
  rdc : Table RdcLine := []
  /-- Lines asked for by accesses whose policy lets the remote-data cache allocate them (R335). -/
  keeps : List Nat := []
  /-- Prefetches that wait until their line is back at its home: key, 4 * core + level, policy, range, time (R164). -/
  prefetches : List (Nat × Nat × Nat × Nat × Nat) := []
  /-- The highest rts granted under a shared copy that the remote-data cache has evicted (R179). -/
  ghosts : Table Nat := []
  sendSeq : Table Nat := []
  recvSeq : Table Nat := []
  /-- The cycle of the last frame tick (R272). -/
  lastTick : Option Nat := none
  /-- The management queue, when the driver has placed its ring (R346); commands answered, and STAT of the last. -/
  mgmt : Option MgmtQueue := none
  mgmtCount : Nat := 0
  mgmtStat : Nat := 0
  /-- STAT of a command that has taken effect and awaits the dies of `mgmtWait`, and whether it came from the ring (R336, R347). -/
  mgmtPending : Option (Nat × Bool) := none
  mgmtWait : List Nat := []
  /-- The record of a `TELEM` that is to be written: its ASID, its address, its bytes (R356). -/
  mgmtTelem : Option (Nat × Nat × List Byte) := none
  /-- The network rings by ASID (R350). -/
  netRings : Table NetRing := []
  /-- The requests that the transport has started and not completed, in order (R350). -/
  netWork : List NetWork := []
  /-- Bytes of the die's window of the second tier (R349). -/
  window : Nat := 0
  /-- The answers of homes to the front end's atomics, by key: 0 while one is awaited (R335). -/
  answers : Table Nat := []
  /-- Link-layer CRC failures by far die and route, and routes that are down (R399). -/
  crcFails : Table Nat := []
  linksDown : List Nat := []
  preempting : Option Nat := none
  deriving DecidableEq, Repr

/-- XD: the power manager, the partition and security controller (R345, R351 to R355, R397 to R410). -/
structure Module where
  level : Nat := 0
  levelAt : Option Nat := none
  budget : Nat := 4800000
  /-- What XD has been told last: module power averaged over 1 ms in mW, the hottest junction and the inlet in m°C, the flow in mL/min (R355,
  R408). -/
  power : Nat := 0
  junction : Nat := 0
  inlet : Nat := 0
  flow : Nat := 6000
  /-- Since when nothing has asked for a higher level and power has been 10 % or more below the budget (R408). -/
  calmSince : Option Nat := some 0
  /-- The cycle in which the level last fell. -/
  loweredAt : Option Nat := none
  standby : Bool := false
  emergencyAt : Option Nat := none
  retired : Nat := 0
  replace : Bool := false
  log : Log := {}
  msix : Table Nat := []
  /-- What the host's last read of a BAR 0 register answered. -/
  hostRead : Nat := 0
  /-- Partition of an id: its dies as a mask, its share of the tier in GiB, the number of the first of its two keys (R352). -/
  partitions : Table (Nat × Nat × Nat) := []
  keys : Nat := 0
  images : Table Nat := []
  spdmVersion : Nat := 0
  spdmReady : Bool := false
  spdmAnswer : List Nat := []
  transcript : Nat := 0
  /-- Network connections: the remote module (0 this one), die and ASID. -/
  connections : Table (Nat × Nat × Nat) := []
  deriving DecidableEq, Repr

/-- An event from outside the machine (log 1): a row of the table with its arguments; bytes that the host or the driver stores; lines that the driver's migration of a page moves (R187); an AtomicOp of the
host on device memory (R345); a page that the host maps for the dies, and the host's invalidation of the translation that a die holds (R348); a network connection that the driver opens or closes; the rings that
the driver creates for a die's management queue and for an ASID's network requests (R346, R350); a die's window of the second tier (R349);
what XD is told of power, the hottest junction, the inlet and the flow (R355); a host's read of 8 bytes of BAR 0 of a function (R368). -/
inductive Input where
  | event (i : Instr) (args : EventArgs)
  | store (key : Nat) (bytes : List Byte)
  | migrate (src dst lines : Nat)
  | hostAtomic (key op bytes x y : Nat)
  | hostPage (page : Nat) (p : Option HostPage)
  | atsInvalidate (page : Nat)
  | connection (conn : Nat) (remote : Option (Nat × Nat × Nat))
  | management (die : Nat) (q : MgmtQueue)
  | networkRing (die asid : Nat) (r : NetRing)
  | tierWindow (die bytes : Nat)
  | readings (power junction inlet flow : Nat)
  | registerRead (f off : Nat)
  deriving DecidableEq, Repr

/-- The module. -/
structure State where
  /-- Arithmetic-clock cycles since power-up. -/
  clock : Nat
  /-- The number of open choices taken so far: the argument of the free values (log 3). -/
  fresh : Nat
  mem : Table Byte
  tags : List Nat
  poison : List Nat
  /-- wts and mrts of each line at its owner, where not 0 (R176). -/
  lines : Table (Nat × Nat)
  /-- The heat whose L2 slice owns a line of its die, where one does (R176). -/
  owners : Table Nat
  /-- What DRAM holds of a line whose present bytes, in `mem`, lie dirty in a cache of its die (R151). -/
  dram : Table (List Byte)
  directory : Table DirEntry
  dies : Table Die
  crews : Table Crew
  waves : Table Wave
  threads : Table Thread
  accesses : Table Access
  launches : Table Launch
  instances : Table Instance
  pipelines : Table Pipeline
  packets : Table Packet
  hostPages : Table HostPage
  xd : Module
  inputs : List Input
  /-- The thread whose instruction is being executed, the fields of that instruction and its length in bytes with its prefix. -/
  cur : Nat
  ir : Fields
  len : Nat
  /-- What the event being executed acts on. -/
  ev : EventArgs
  /-- The events that are due in this cycle and have not run yet, in order. -/
  agenda : List (Instr × EventArgs)
  /-- Cycles of the last `PTS` advance and of the last kitty refill. -/
  lastPts : Nat
  lastRefill : Nat
  /-- The quarters that have issued in this cycle (R95). -/
  issued : List Nat
  /-- The waiting threads that have been looked at in this cycle. -/
  polled : List Nat
  /-- The threads whose instruction has been found not ready in this cycle: a full counter or queue, a short kitty (R94, R97, R227). -/
  passed : List Nat
  /-- Events that are due in this cycle after the instructions that issue in it (R196). -/
  after : List (Instr × EventArgs)
  deriving DecidableEq, Repr

/-- Why the machine stops. -/
inductive Fault where
  /-- Raised by a meaning that needs an issuing thread when `cur` names none. Safe: no step of the machine does this. -/
  | noAgent
  /-- Raised by an access whose translation gives a physical address that the part does not have: a space above 2 (R145), or an
  address beyond the die's DRAM (R11). Safe: the spec gives no such access an effect. -/
  | noSuchAddress (key : Nat)
  deriving DecidableEq, Repr

/-- Why an instruction has no meaning. -/
inductive Refusal where
  /-- Raised by the dispatcher for an instruction without a meaning. Safe. -/
  | notModelled (mnemonic : String)
  deriving DecidableEq, Repr

/-- The module after power-up (R331, R352, R405): no crew placed, every memory byte 0, every die at incarnation 1. -/
def State.reset : State :=
  { clock := 0, fresh := 0, mem := [], tags := [], poison := [], lines := [], owners := [], dram := [], directory := [], dies := [], crews := [],
    waves := [], threads := [], accesses := [], launches := [], instances := [], pipelines := [], packets := [],
    hostPages := [], xd := {}, inputs := [], cur := 0, ir := {}, len := 0, ev := {}, agenda := [], lastPts := 0, lastRefill := 0,
    issued := [], polled := [], passed := [], after := [] }

end Sys2Proof.Machine
end

