-- ==== Sys2Proof/Machine/Base.lean ====
section
/-! DEFINITION. Access to the records of the state: the current thread, its wave, crew and die, and their updates; the registers of
a thread and of a wave; the logs (R368, R397). -/

namespace Sys2Proof.Machine

/-- The wave of a thread. -/
def waveOf (t : Nat) : Nat := t / 32
/-- The crew of a wave. -/
def crewOf (w : Nat) : Nat := w / 64
/-- `WID` of a wave; 32 and 33 are the sequencers MX and CP. -/
def widOf (w : Nat) : Nat := w % 64
/-- A wave is a sequencer. -/
def isSequencer (w : Nat) : Bool := 32 ≤ widOf w
/-- The wave slot of a wave, R84; the sequencers MX and CP come after every slot (R210). -/
def slotOf (wid : Nat) : Nat := if wid < 32 then 8 * (wid % 4) + wid / 4 else wid

/-- A thread by its key. -/
def State.thread (s : State) (t : Nat) : Thread := tget {} s.threads t
/-- A wave by its key. -/
def State.wave (s : State) (w : Nat) : Wave := tget {} s.waves w
/-- A crew by its key. -/
def State.crew (s : State) (c : Nat) : Crew := tget {} s.crews c
/-- A die by its `DIEID`. -/
def State.die (s : State) (d : Nat) : Die := tget {} s.dies d
/-- A launch by its key. -/
def State.launch (s : State) (l : Nat) : Launch := tget {} s.launches l
/-- A stage instance by its key. -/
def State.instance' (s : State) (i : Nat) : Instance := tget {} s.instances i
/-- A pipeline by its key. -/
def State.pipeline (s : State) (p : Nat) : Pipeline := tget {} s.pipelines p

/-- The state with a thread replaced. -/
def State.putThread (s : State) (k : Nat) (t : Thread) : State := { s with threads := tput s.threads k t }
/-- The state with a wave replaced. -/
def State.putWave (s : State) (k : Nat) (w : Wave) : State := { s with waves := tput s.waves k w }
/-- The state with a crew replaced. -/
def State.putCrew (s : State) (k : Nat) (c : Crew) : State := { s with crews := tput s.crews k c }
/-- The state with a die replaced. -/
def State.putDie (s : State) (k : Nat) (d : Die) : State := { s with dies := tput s.dies k d }
/-- The state with a launch replaced. -/
def State.putLaunch (s : State) (k : Nat) (l : Launch) : State := { s with launches := tput s.launches k l }
/-- The state with an instance replaced. -/
def State.putInstance (s : State) (k : Nat) (i : Instance) : State := { s with instances := tput s.instances k i }
/-- The state with a pipeline replaced. -/
def State.putPipeline (s : State) (k : Nat) (p : Pipeline) : State := { s with pipelines := tput s.pipelines k p }
/-- The state with a thread changed. -/
def State.modThread (s : State) (k : Nat) (f : Thread → Thread) : State := s.putThread k (f (s.thread k))
/-- The state with a wave changed. -/
def State.modWave (s : State) (k : Nat) (f : Wave → Wave) : State := s.putWave k (f (s.wave k))
/-- The state with a crew changed. -/
def State.modCrew (s : State) (k : Nat) (f : Crew → Crew) : State := s.putCrew k (f (s.crew k))
/-- The state with a die changed. -/
def State.modDie (s : State) (k : Nat) (f : Die → Die) : State := s.putDie k (f (s.die k))
/-- The state with a launch changed. -/
def State.modLaunch (s : State) (k : Nat) (f : Launch → Launch) : State := s.putLaunch k (f (s.launch k))
/-- The state with an instance changed. -/
def State.modInstance (s : State) (k : Nat) (f : Instance → Instance) : State := s.putInstance k (f (s.instance' k))

/-- The current thread, its wave, its crew and their keys. -/
def State.curT (s : State) : Thread := s.thread s.cur
/-- The key of the current wave. -/
def State.curWk (s : State) : Nat := waveOf s.cur
/-- The current wave. -/
def State.curW (s : State) : Wave := s.wave s.curWk
/-- The key of the current crew. -/
def State.curCk (s : State) : Nat := crewOf s.curWk
/-- The current crew. -/
def State.curC (s : State) : Crew := s.crew s.curCk
/-- The die of the current crew. -/
def State.curDie (s : State) : Nat := s.curC.die
/-- The current mask (R88). -/
def State.mask (s : State) : LaneMask := s.curT.mask

/-- `DIECLASS`, R9: 0 for the matrix dies 0 to 7, 1 for the stream dies 8 to 11. -/
def dieClass (d : Nat) : Nat := if d < 8 then 0 else 1
/-- Cores of a die, R11. -/
def coresOf (d : Nat) : Nat := if d < 8 then 256 else 192
/-- The heat of a core, R10. -/
def heatOf (core : Nat) : Nat := core / 8
/-- Heats in a division, R11. -/
def heatsPerDivision (d : Nat) : Nat := if d < 8 then 8 else 6
/-- The division of a core, R10. -/
def divisionOf (d core : Nat) : Nat := heatOf core / heatsPerDivision d
/-- Bytes of DRAM in a division's quarter, R145. -/
def quarterBytes (d : Nat) : Nat := if d < 8 then 16 * 2 ^ 30 else 96 * 2 ^ 30

/-- `TIMEW` of a die, R35. -/
def State.timew (s : State) (d : Nat) : Nat := s.clock - (s.die d).resetAt

/-- The clock of the compute dies at a throttle level, in MHz: cycles in a microsecond (R407). -/
def clockMHz (level : Nat) : Nat :=
  match level with
  | 0 | 1 | 2 | 3 => 1500
  | 4 => 1200
  | 5 => 1000
  | 6 => 800
  | _ => 500

/-- A scalar register without regard to late writes: s0 reads 0 (R32). -/
def Thread.sreg (t : Thread) (r : Nat) : Word := if r = 0 then 0 else tget 0 t.s r
/-- A capability register. -/
def Thread.creg (t : Thread) (r : Nat) : Cap := tget {} t.c r
/-- Write a scalar register: writes to s0 are discarded (R32). -/
def Thread.setS (t : Thread) (r : Nat) (v : Word) : Thread := if r = 0 then t else { t with s := sput 0 t.s r v }
/-- Write a capability register. -/
def Thread.setC (t : Thread) (r : Nat) (v : Cap) : Thread := { t with c := sput {} t.c r v }
/-- A vector register in a lane. -/
def Wave.vreg (w : Wave) (r lane : Nat) : Word := tget 0 w.v (32 * r + lane)
/-- Write a vector register in a lane. -/
def Wave.setV (w : Wave) (r lane : Nat) (v : Word) : Wave := { w with v := sput 0 w.v (32 * r + lane) v }
/-- A predicate register: p0 reads 1 in every lane (R32). -/
def Wave.preg (w : Wave) (r : Nat) : LaneMask := if r = 0 then BitVec.allOnes 32 else tget 0 w.p r
/-- Write a predicate register in the lanes of a mask: writes to p0 are discarded (R32). -/
def Wave.setP (w : Wave) (r : Nat) (mask v : LaneMask) : Wave :=
  if r = 0 then w else { w with p := sput 0 w.p r ((v &&& mask) ||| (w.preg r &&& ~~~mask)) }
/-- An in-flight counter, R97. -/
def Wave.counter (w : Wave) (path : Nat) : Nat := tget 0 w.counters path
/-- The state with a counter changed. -/
def Wave.setCounter (w : Wave) (path n : Nat) : Wave := { w with counters := sput 0 w.counters path n }

/-- Apply the register writes of an access (R97): a fragment that is gone gets none (R90, R104). -/
def applyWrite (wk : Nat) (s : State) : RegWrite → State
  | .s t r v => if thas s.threads t then s.modThread t (fun x => x.setS r v) else s
  | .c t r v => if thas s.threads t then s.modThread t (fun x => x.setC r v) else s
  | .v r lane m v => s.modWave wk (fun w => w.setV r lane (merge m v (w.vreg r lane)))
  | .p r m v => s.modWave wk (fun w => w.setP r m v)

/-- Complete an access: its registers are written and its counter falls (R97). -/
def completeAccess (s : State) (id : Nat) (a : Access) : State :=
  let s := a.writes.foldl (applyWrite a.wave) s
  let s := { s with accesses := terase s.accesses id }
  s.modWave a.wave (fun w => w.setCounter a.path (w.counter a.path - 1))

/-- Complete every outstanding access of a wave that no engine command keeps, in issue order. -/
def completeAccesses (s : State) (wk : Nat) : State :=
  s.accesses.foldl (fun s e => if e.2.wave = wk ∧ e.2.command.isNone then completeAccess s e.1 e.2 else s) s

/-- The waves of a crew by key (sequencers too). -/
def State.wavesOf (s : State) (c : Nat) : List Nat := (s.waves.filter (fun e => crewOf e.1 = c)).map (·.1)
/-- The threads of a wave by key. -/
def State.threadsOf (s : State) (w : Nat) : List Nat := (s.threads.filter (fun e => waveOf e.1 = w)).map (·.1)
/-- The live fragments of a wave. -/
def State.liveOf (s : State) (w : Nat) : List Nat :=
  (s.threads.filter (fun e => waveOf e.1 = w && e.2.state == .live)).map (·.1)
/-- The lanes of a wave that have not ended. -/
def State.lanesLeft (s : State) (w : Nat) : LaneMask :=
  (s.threads.filter (fun e => waveOf e.1 = w)).foldl (fun m e => m ||| e.2.mask) 0

/-- The host-submitted launch from which a launch descends (R367, R368). -/
def rootLaunchGo (s : State) : Nat → Nat → Nat
  | 0, l => l
  | n + 1, l => match (s.launch l).parent with | none => l | some p => rootLaunchGo s n p
/-- The root of a launch. -/
def State.rootLaunch (s : State) (l : Nat) : Nat := rootLaunchGo s s.launches.length l

/-- Append an entry to a log (R368): when 256 entries wait, it is counted in the drop count. -/
def logAppend (l : Log) (e : LogEntry) : Log :=
  if l.head - l.tail == 256 then { l with drop := min (l.drop + 1) (2 ^ 64 - 1) }
  else { l with entries := tput l.entries (l.head % 256) e, head := l.head + 1 }

/-- Raise an MSI-X vector of a die function. -/
def raiseMsix (d : Die) (v : Nat) : Die := { d with msix := tput d.msix v (tget 0 d.msix v + 1) }

/-- The log is full (R368). -/
def logFull (l : Log) : Bool := l.head - l.tail == 256

/-- Append an entry to a die's fault log, with `TIMEW` of the moment, and raise vector 1; a full log counts the entry as lost and raises nothing
(R368). -/
def dieLog (s : State) (d : Nat) (e : LogEntry) : State :=
  s.modDie d (fun x =>
    let y := { x with log := logAppend x.log { e with timew := s.timew d } }
    if logFull x.log then y else raiseMsix y 1)

/-- Append an entry to the module's log: SRC 5, CORE with the die and the core, and vector 1 of function 0 where it is appended (R397). -/
def xdLog (s : State) (code detail die core : Nat) (epc : Word) : State :=
  let e : LogEntry := { code := code, detail := detail, epc := epc, core := die + 16 * core, timew := s.clock }
  { s with xd := { s.xd with log := logAppend s.xd.log e, msix := if logFull s.xd.log then s.xd.msix else tput s.xd.msix 1 (tget 0 s.xd.msix 1 + 1) } }

/-- A fault-log entry about a wave of a crew (R368). -/
def crewEntry (s : State) (ck wid code detail : Nat) : LogEntry :=
  let c := s.crew ck
  { code := code, detail := detail, asid := c.asid, crewid := c.crewid, wid := wid, core := c.core,
    lage := (s.launch (s.rootLaunch c.launch)).age }

end Sys2Proof.Machine
end

