-- ==== Sys2Proof/Machine/Queues.lean ====
section
/-! DEFINITION. The queues between stage instances: what a reader's cursor has before it, when a queue ends or is poisoned, and how
references and records go away (R259, R262, R265, R277, R281, R282). -/

namespace Sys2Proof.Machine

/-- The read cursor of an instance on its input: on its upstream's queue (R277), or of a stage 0 on its seeds (R258). -/
def cursorOf (s : State) (i : Nat) : Cursor :=
  let x := s.instance' i
  match x.upstream with
  | none => x.seedCursor
  | some u => tget {} (s.instance' u).cursors i

/-- Change the read cursor of an instance; one that has been freed stays so (R281). -/
def modCursor (s : State) (i : Nat) (f : Cursor → Cursor) : State :=
  match (s.instance' i).upstream with
  | none => s.modInstance i (fun x => { x with seedCursor := f x.seedCursor })
  | some u => s.modInstance u (fun x => { x with cursors := match tfind? x.cursors i with | some c => tput x.cursors i (f c) | none => x.cursors })

/-- Give an instance its read cursor on its upstream's queue (R277). -/
def addCursor (s : State) (u i : Nat) (c : Cursor) : State := s.modInstance u (fun x => { x with cursors := tput x.cursors i c })

/-- Records appended to the input of an instance: the seeds all stand from the start (R258). -/
def inputAppended (s : State) (i : Nat) : Nat :=
  match (s.instance' i).upstream with
  | none => (s.instance' i).seeds
  | some u => (s.instance' u).nextSeq

/-- Input occupancy: records appended beyond the cursor (R259, R277). -/
def inputOccupancy (s : State) (i : Nat) : Nat := inputAppended s i - (cursorOf s i).next

/-- Capacity of an input (R259). -/
def inputCapacity (s : State) (i : Nat) : Nat :=
  match (s.instance' i).upstream with
  | none => (s.instance' i).seeds
  | some u => (s.instance' u).qcap

/-- Input record size (R258). -/
def inputSize (s : State) (i : Nat) : Nat :=
  match (s.instance' i).upstream with
  | none => 8
  | some u => (s.instance' u).qsize

/-- The input is poisoned (R262, R379). -/
def inputPoisoned (s : State) (i : Nat) : Bool :=
  match (s.instance' i).upstream with
  | none => false
  | some u => (s.instance' u).poisoned

/-- Nothing more comes to the input: it has ended, or is poisoned. -/
def inputOver (s : State) (i : Nat) : Bool :=
  match (s.instance' i).upstream with
  | none => true
  | some u => (s.instance' u).ended || (s.instance' u).poisoned

/-- Records that a QTAKE may take now: a pending gap counts as one (R279). -/
def inputAvailable (s : State) (i : Nat) : Nat := inputOccupancy s i + (if (cursorOf s i).gap.isSome then 1 else 0)

/-- The input is exhausted (R259). -/
def exhausted (s : State) (i : Nat) : Bool := inputOver s i && inputAvailable s i == 0

/-- Output occupancy for the scheduler: the largest among the HOLD cursors (R278). -/
def outputOccupancy (x : Instance) : Nat :=
  x.cursors.foldl (fun m c => if c.2.drop then m else max m (x.nextSeq - c.2.next)) 0

/-- The high mark of a capacity (R259). -/
def highMark (cap : Nat) : Nat := cap - cap / 4

/-- End the output of one instance when the three conditions of R262 hold. -/
def endQueue (s : State) (i : Nat) : State :=
  let x := s.instance' i
  if x.closed || x.last || x.ended || x.poisoned || !x.eos || !exhausted s i || (cursorOf s i).taken != 0 then s
  else s.putInstance i (if inputPoisoned s i then { x with poisoned := true } else { x with ended := true })

/-- End every queue whose conditions hold (R262); upstream instances have lower keys. -/
def queueEnds (s : State) : State := s.instances.foldl (fun s e => endQueue s e.1) s

/-- Drop the records that every cursor has passed (R277). -/
def prune (x : Instance) : Instance :=
  { x with records := x.records.filter (fun r => x.cursors.any (fun c => c.2.next ≤ r.seq)) }

/-- Slots of the output queue that records hold: from the slowest cursor on (R277). -/
def slotsHeld (x : Instance) : Nat := x.cursors.foldl (fun m c => max m (x.nextSeq - c.2.next)) 0

/-- Make a record of a reading instance done (R265). -/
def recordDone (s : State) (inst : Nat) : State := modCursor s inst (fun c => { c with taken := c.taken - 1 })

/-- Whether an instance outlives the pipelines of killed launches: another pipeline of its path holds a reference (R282, R367). -/
def State.instanceSurvives (s : State) (i : Nat) (killed : List Nat) : Bool :=
  s.pipelines.any (fun e => e.2.path.contains i && !e.2.released && !killed.contains e.2.launch)

/-- Close an instance whose references are gone (R281): its queue and its cursor are freed; its crews leave it by CREW_STAGE_LEAVE. -/
def closeInstance (s : State) (i : Nat) : State :=
  let x := s.instance' i
  let s := s.putInstance i { x with refs := 0, closed := true, records := [], cursors := [], takers := [] }
  match x.upstream with
  | none => s
  | some u => s.modInstance u (fun y => prune { y with cursors := terase y.cursors i })

/-- Release one reference of every instance of a pipeline's path (R281): an instance at 0 closes; an accountable pipeline that
leaves hands the instance to the remaining holder read first, with the crews that run it, which take its `KITTYRATE` at the next refill, and those
that have not started its ASID and arguments (R282). -/
def releasePipeline (s : State) (p : Nat) : State :=
  let pl := s.pipeline p
  if pl.released then s
  else
    let s := s.putPipeline p { pl with released := true }
    pl.path.reverse.foldl (fun s i =>
      let x := s.instance' i
      let x := { x with refs := x.refs - 1 }
      if x.refs = 0 then closeInstance s i
      else if x.accountable = p then
        let heirs := s.pipelines.filter (fun e => e.2.path.contains i && !e.2.released)
        match minBy (fun e => [e.2.readAt, e.1]) heirs with
        | none => s.putInstance i x
        | some (q, ql) =>
          let s := s.putInstance i { x with accountable := q, asid := ql.asid }
          { s with crews := s.crews.map (fun e =>
              if e.2.stage = some i ∧ e.2.pipeline = some p then
                let c := { e.2 with pipeline := some q, launch := ql.launch, prio := ql.prio }
                (e.1, if c.started then c else { c with asid := ql.asid, args := ql.args, cargs := ql.cargs, nwaves := ql.nwaves, scb := ql.scb })
              else e) }
      else s.putInstance i x) s

end Sys2Proof.Machine
end

