-- ==== Sys2Proof/Machine/Scratch.lean ====
section
/-! DEFINITION. The bytes of a crew's scratchpad (R153, R166) and the trace ring that the VN8 keeps in it (R412 to R418). -/

namespace Sys2Proof.Machine

/-- A scratchpad byte: addresses are taken modulo 2^19 (R153). -/
def Crew.scratchByte (c : Crew) (a : Nat) : Byte := tget 0 c.scratch (a % 2 ^ 19)

/-- `n` scratchpad bytes, lowest address first. -/
def Crew.scratchBytes (c : Crew) (a n : Nat) : List Byte := (upTo n).map (fun i => c.scratchByte (a + i))

/-- The number that `n` scratchpad bytes hold. -/
def Crew.scratchNum (c : Crew) (a n : Nat) : Nat := numOfBytes (c.scratchBytes a n)

/-- Write scratchpad bytes one after the other; the last write to a byte stands (R153). -/
def Crew.scratchPut (c : Crew) (a : Nat) : List Byte → Crew
  | [] => c
  | b :: t => Crew.scratchPut { c with scratch := sput 0 c.scratch (a % 2 ^ 19) b } (a + 1) t

/-- A write of bytes; a write of a whole 8-byte word clears its poison (R394). -/
def Crew.scratchWrite (c : Crew) (a : Nat) (bs : List Byte) : Crew :=
  let whole := (upTo (bs.length / 8 + 1)).filter (fun i =>
    let wd := a / 8 + i
    a ≤ 8 * wd && 8 * wd + 8 ≤ a + bs.length)
  { c.scratchPut a bs with scratchPoison := c.scratchPoison.filter (fun p => !(whole.map (fun i => (a / 8 + i) % 2 ^ 16)).contains p) }

/-- Whether any of `n` bytes lies in a poisoned word; the word's address. -/
def Crew.scratchPoisoned (c : Crew) (a n : Nat) : Option Nat :=
  ((upTo n).map (fun i => (a + i) % 2 ^ 19 / 8)).find? (fun p => c.scratchPoison.contains p)

/-- Fields of `TRACECTL`, R412. -/
def traceEn (t : Word) : Bool := t.getLsbD 0 && bits t.toNat 32 4 < 12
def traceSw (t : Word) : Bool := t.getLsbD 1
def traceLoss (t : Word) : Bool := t.getLsbD 3
def traceSync (t : Word) : Nat := bits t.toNat 4 4
def traceRing (t : Word) : Nat := bits t.toNat 8 19 / 16 * 16
def traceSize (t : Word) : Nat := 2 ^ (bits t.toNat 32 4 + 4)
def traceDropped (t : Word) : Nat := bits t.toNat 48 16

/-- `TRACECTL` with LOSS and DROPPED replaced. -/
def traceSet (t : Word) (loss : Bool) (dropped : Nat) : Word :=
  word (t.toNat % 2 ^ 48 / 16 * 16 + t.toNat % 8 + (if loss then 8 else 0) + min dropped 65535 * 2 ^ 48)

/-- The free bytes of the ring: F of R413, unsigned. -/
def traceRoom (c : Crew) (t : Word) : Nat :=
  let w := c.scratchNum (traceRing t) 8
  let r := c.scratchNum (traceRing t + 8) 8
  (traceSize t + 2 ^ 64 - (w + 2 ^ 64 - r) % 2 ^ 64) % 2 ^ 64

/-- Write bytes to the ring and advance WPTR (R413). -/
def tracePut (c : Crew) (t : Word) (bs : List Byte) : Crew :=
  let w := c.scratchNum (traceRing t) 8
  let c := (upTo bs.length).foldl (fun c j =>
    c.scratchWrite ((traceRing t + 16 + (w + j) % traceSize t) % 2 ^ 19) [bs.getD j 0]) c
  c.scratchWrite (traceRing t) (bytesOf 8 (w + bs.length))

/-- The address of a fragment's next instruction (R417): behind the JOIN or the BAR at which it is parked, unless a `REP` has more iterations of
the BAR. -/
def Thread.nextAddress (t : Thread) : Word :=
  match t.state with
  | .joined => t.pc + 4
  | .barred =>
    if (match t.rep with | some r => decide (r.i + 1 < r.count) | none => false) then t.pc
    else t.pc + word (match t.hold with | some h => h.len | none => 0)
  | _ => t.pc

/-- One SYNC packet, R415, R417: the issuing fragment's PC is `pc`, any other fragment's its next instruction. -/
def syncPacket (s : State) (d tk k : Nat) (pc : Word) (last : Bool) : List Byte :=
  let t := s.thread k
  let st := match t.state with | .live => 0 | .deferred => 2 | _ => 1
  bytesOf 1 (6 * 32 + lowestLane t.mask) ++ bytesOf 1 (st + if last then 128 else 0) ++ bytesOf 1 t.joins.length ++ [0] ++
    bytesOf 4 t.mask.toNat ++ bytesOf 4 (if k = tk then pc else t.nextAddress).toNat ++ bytesOf 4 (s.timew d)

/-- Write packets by the rule of R413 until one does not fit: that one becomes the LOSS packet, and the rest are dropped. -/
def tracePutAll (tw : Nat) : List (List Byte) → Crew → Word → Crew × Word
  | [], c, t => (c, t)
  | b :: rest, c, t =>
    if b.length + 8 ≤ traceRoom c t then tracePutAll tw rest (tracePut c t b) t
    else
      let c := tracePut c t (bytesOf 4 (7 * 32 + (b.headD 0).toNat % 32) ++ bytesOf 4 tw)
      (c, traceSet t true (traceDropped t + 1 + rest.length))

/-- A SYNC set of the wave of a thread (R417). -/
def traceSyncSet (s : State) (tk : Nat) (pc : Word) : State :=
  let wk := waveOf tk
  let w := s.wave wk
  if !traceEn w.tracectl || traceLoss w.tracectl || isSequencer wk then s
  else
    let ck := crewOf wk
    let d := (s.crew ck).die
    let ks := sortBy (fun k => [lowestLane (s.thread k).mask]) (s.threadsOf wk)
    let pks := (upTo ks.length).map (fun i => syncPacket s d tk (ks.getD i 0) pc (i + 1 == ks.length))
    let (c, t) := tracePutAll (s.timew d) pks (s.crew ck) w.tracectl
    (s.putCrew ck c).putWave wk { w with tracectl := t, traceLast := s.clock, tracePackets := 0 }

/-- Emit a packet of the wave (R413 to R416): `body` is the bytes from byte 2 on; `fid` the emitting fragment's lowest lane; `pc`
the fragment's address in a SYNC set before the packet. -/
def traceEmitAt (s : State) (tk : Nat) (pc : Word) (kind fid : Nat) (body : List Byte) : State :=
  let wk := waveOf tk
  if !traceEn (s.wave wk).tracectl || isSequencer wk then s
  else
    let ck := crewOf wk
    let d := (s.crew ck).die
    let w0 := s.wave wk
    let s := if !traceLoss w0.tracectl && traceSync w0.tracectl != 0 && traceSync w0.tracectl ≤ w0.tracePackets
      then traceSyncSet s tk pc else s
    let w := s.wave wk
    let c := s.crew ck
    let head := 32 * kind + fid
    if traceLoss w.tracectl then
      if 16 * (s.threadsOf wk).length + (2 + body.length) + 8 ≤ traceRoom c w.tracectl then
        let s := s.putWave wk { w with tracectl := traceSet w.tracectl false (traceDropped w.tracectl) }
        let s := traceSyncSet s tk pc
        let w := s.wave wk
        (s.putCrew ck (tracePut (s.crew ck) w.tracectl (bytesOf 1 head ++ [0] ++ body))).putWave wk
          { w with traceLast := s.clock, tracePackets := w.tracePackets + 1 }
      else s.putWave wk { w with tracectl := traceSet w.tracectl true (traceDropped w.tracectl + 1) }
    else
      let dist := s.clock - w.traceLast
      let time := if 255 < dist then bytesOf 1 fid ++ bytesOf 3 (min dist (2 ^ 24 - 1)) else []
      let pkt := time ++ bytesOf 1 head ++ bytesOf 1 (if 255 < dist then 0 else dist) ++ body
      if pkt.length + 8 ≤ traceRoom c w.tracectl then
        (s.putCrew ck (tracePut c w.tracectl pkt)).putWave wk { w with traceLast := s.clock, tracePackets := w.tracePackets + 1 }
      else
        (s.putCrew ck (tracePut c w.tracectl (bytesOf 4 (7 * 32 + fid) ++ bytesOf 4 (s.timew d)))).putWave wk
          { w with tracectl := traceSet w.tracectl true (traceDropped w.tracectl + 1), traceLast := s.clock }

/-- Emit a packet of the instruction that a fragment is issuing. -/
def traceEmit (s : State) (tk kind fid : Nat) (body : List Byte) : State := traceEmitAt s tk (s.thread tk).pc kind fid body

end Sys2Proof.Machine
end

