-- ==== Sys2Proof/Machine/Kill.lean ====
section
/-! DEFINITION. Killing crews and launches (R367, R379, R384) and posting asynchronous events to waves (R376). -/

namespace Sys2Proof.Machine

/-- The launches that descend from a root, the root among them (R367). -/
def State.family (s : State) (root : Nat) : List Nat :=
  (s.launches.filter (fun e => s.rootLaunch e.1 = root)).map (·.1)

/-- The wave that an asynchronous event of an agent goes to (R376): the wave itself, the wave that dealt the sequencer, or the live
wave with the lowest `WID`. -/
def asyncTarget (s : State) (agent : Nat) : Option Nat :=
  let first := if isSequencer agent then (s.thread (32 * agent)).dealer else agent
  if thas s.waves first && !(s.wave first).ended && !isSequencer first then some first
  else ((s.wavesOf (crewOf agent)).filter (fun w => !isSequencer w && !(s.wave w).ended)).head?

/-- SRC of the fault-log entry of an asynchronous event (R368, R376): a sequencer's fault, a wave's lost access, else an engine. -/
def asyncSrc (code detail : Nat) : Nat :=
  if code = 0x42 ∧ detail = 18 then 1 else if code = 0x42 ∧ detail = 19 then 2 else if code = 0x51 then 0 else 3

/-- Post an asynchronous event (R376); with no live wave it goes to the fault log alone. -/
def postAsync (s : State) (agent code detail : Nat) (faddr : Word) : State :=
  match asyncTarget s agent with
  | some w => s.modWave w (fun x => { x with pending := x.pending ++ [⟨code, detail, faddr⟩] })
  | none => dieLog s (s.crew (crewOf agent)).die { crewEntry s (crewOf agent) 0xFF code detail with faddr := faddr, src := asyncSrc code detail }

/-- The `FADDR` of a matrix command that stops (R377, R378): its tile, and of an MSTA the first row not wholly performed. -/
def MatrixCmd.report (m : MatrixCmd) : Nat :=
  if m.op = .msta then m.next * 256 + m.f.d.toNat % 8
  else if m.op = .mbar then 0
  else if m.op = .mldaSp ∨ m.op = .mldaReg ∨ m.op = .mldbSp ∨ m.op = .mldbReg then bits m.f.imm.toNat 3 6 % 8
  else m.f.d.toNat % 8

/-- The records of R377 for the commands of a crew that have started and are aborted: DETAIL and `FADDR`. -/
def abortRecords (c : Crew) : List (Nat × Nat) :=
  (c.channels.filterMap (fun q => match q.2 with | m :: _ => if m.started then some (q.1, m.next) else none | [] => none)) ++
    ((c.commands.filter (·.2.started)).map (fun m => (8, m.2.report))) ++ ((c.subs.filter (·.2.taken)).map (fun x => (10 + x.1, x.2.tile)))

/-- A started collective loses a member (R367, R406): the command stops on every member, which receives ENGINEFAULT 9. -/
def stopStarted (s : State) (ck : Nat) : State :=
  let die := (s.crew ck).die
  match (s.die die).collectives.head? with
  | none => s
  | some x =>
    let members := (upTo 12).filter (fun d => bitAt x.mask d)
    let of (d : Nat) : Option Collective := (s.die d).collectives.head?.filter (fun y => y.mask == x.mask && y.occurrence == x.occurrence)
    let runs := match members.head?.bind of with | some y => y.started | none => false
    if x.crew != ck || !runs then s
    else
      members.foldl (fun s d =>
        match of d with
        | none => s
        | some y => postAsync (s.modDie d (fun e => { e with collectives := e.collectives.tail })) (waveOf y.thread) 0x42 9 0) s

/-- Remove everything of a crew that runs (R367): threads, waves, accesses, commands, subscriptions; its held records become done
(R379); its core is free because the crew is ended. -/
def dropCrew (s : State) (ck : Nat) : State :=
  let s := (s.waves.filter (fun e => crewOf e.1 = ck)).foldl (fun s e =>
    e.2.records.foldl (fun s r => recordDone s r.2.1) s) s
  let s := s.modCrew ck (fun c => { c with
    state := .ended, channels := [], subs := [], commands := [], semQueue := [], gangs := [], reord := [], kittyQueue := [],
    resv := [], forerunner := none, frame := none })
  { s with
    threads := s.threads.filter (fun e => crewOf (waveOf e.1) ≠ ck)
    waves := s.waves.filter (fun e => crewOf e.1 ≠ ck)
    accesses := s.accesses.filter (fun e => crewOf e.2.wave ≠ ck)
    instances := s.instances.map (fun e => (e.1, { e.2 with takers := e.2.takers.filter (fun t => crewOf (waveOf t) ≠ ck) }))
    dies := s.dies.map (fun e => (e.1, { e.2 with collectives := e.2.collectives.filter (fun c => c.crew ≠ ck) })) }

/-- The partner of a pair learns that its crew has ended or is lost (R381). -/
def breakPair (s : State) (ck : Nat) : State :=
  match (s.crew ck).pair with
  | none => s
  | some p => s.modCrew p (fun c => { c with pairEnded := !c.pairBroken })

/-- Kill one crew; `e` holds what the log says of the crew `by'` at which the kill arose. A collective of its that has started stops everywhere; the events pending for it are entered in the fault log
(R376), then the commands that are aborted (R377; log 131), then the kill itself (R368). -/
def killCrew (s : State) (detail : Nat) (e : LogEntry) (log : Bool) (by' ck : Nat) : State :=
  let c := s.crew ck
  if c.state = .ended then s
  else
    let s := stopStarted s ck
    let s := if log then
        let s := (s.waves.filter (fun e => crewOf e.1 = ck)).foldl (fun s e => e.2.pending.foldl (fun s ev =>
          dieLog s c.die { crewEntry s ck (widOf e.1) ev.code ev.detail with faddr := ev.faddr, src := asyncSrc ev.code ev.detail }) s) s
        let s := (abortRecords c).foldl (fun s r => dieLog s c.die { crewEntry s ck 0xFF 0x42 r.1 with faddr := word r.2, src := 3 }) s
        let own := crewEntry s ck (if ck = by' then e.wid else 0xFF) 0x60 detail
        dieLog s c.die (if ck = by' then
            { own with cause2 := e.cause2, src := e.src, epc := e.epc, faddr := e.faddr, fmask := e.fmask }
          else { own with cause2 := e.cause2, src := 5 })
      else s
    let s := match c.stage with
      | some i => s.modInstance i (fun x => { x with poisoned := true })
      | none => s
    queueEnds (breakPair (dropCrew s ck) ck)

/-- Kill launches and their crews (R367): the launches do not complete and count nothing; a crew that runs an instance with
surviving references passes to its new accountable pool; the crews of `spared` go on (R381); other crews are killed, the crew at which the kill
arose first. -/
def killLaunches (s : State) (ls : List Nat) (detail : Nat) (e : LogEntry) (log : Bool) (by' : Nat) (spared : List Nat := []) : State :=
  let s := ls.foldl (fun s l => s.modLaunch l (fun x => { x with killed := true })) s
  let victims := (s.crews.filter (fun e => ls.contains e.2.launch && e.2.state != .ended && !spared.contains e.1 &&
    (e.1 == by' || !(match e.2.stage with | some i => s.instanceSurvives i ls | none => false)))).map (·.1)
  let s := (victims.filter (· == by') ++ victims.filter (· != by')).foldl (fun s ck => killCrew s detail e log by' ck) s
  let ps := (s.pipelines.filter (fun e => ls.contains e.2.launch && !e.2.released)).map (·.1)
  let s := ps.foldl releasePipeline s
  { s with dies := s.dies.map (fun e => (e.1, { e.2 with
      devQueues := e.2.devQueues.map (fun q => (q.1, q.2.filter (fun p => !ls.contains p.parent))) })) }

/-- Kill the launch from which a crew descends and every launch below it (R367, DETAIL 1, 2 or 5), but for spared crews. -/
def killFamily (s : State) (ck detail : Nat) (e : LogEntry) (spared : List Nat := []) : State :=
  killLaunches s (s.family (s.rootLaunch (s.crew ck).launch)) detail e true ck spared

end Sys2Proof.Machine
end

