-- ==== Sys2Proof/Machine/Ops.lean ====
section
/-! DEFINITION. The named operations that meanings share: registers with their latencies (R39, R40, R365), completing an
instruction, holding it, TAKING A TRAP (R359, R361, R376) and returning from one (R360). -/

namespace Sys2Proof.Machine

/-- The result of a meaning. -/
abbrev Out := Host.Outcome State Fault Refusal

/-! ### Registers -/

/-- The bits of `m` that are not in `k`. -/
def without (m k : Nat) : Nat := m - (m &&& k)

/-- The late writes of the current wave that a read of bits of (file, key) may meet, in order. Scalar and capability registers are a fragment's own
(R88). -/
def lateEntries (s : State) (file key mask : Nat) : List Late :=
  s.curW.late.filter (fun l => l.file == file && l.key == key && l.mask &&& mask != 0 && (l.thread == s.cur || file == 1 || file == 2))

/-- A read meets a write: one that has landed, one of the instruction's own position, no other of another fragment (R132), and freely one of its
own fragment that it comes too early for (R365). -/
def meets (s : State) (file key slot : Nat) (l : Late) : Bool :=
  decide (l.landAt ≤ s.clock) || (l.thread == s.cur && (l.by' == s.curT.position ||
    Config.earlyReadIsNew s.fresh (((l.by' * 4 + file) * 2 ^ 12 + key) * 32 + slot)))

/-- What a read of the bits of a mask finds: in each bit the new value, or the value before the first write of it that the read does not meet, of
those behind the last that it meets. -/
def earlyRead (s : State) (file key mask slot new : Nat) : Nat :=
  ((lateEntries s file key mask).foldr (fun l (acc : Nat × Nat) =>
    if meets s file key slot l then (acc.1, without acc.2 l.mask)
    else (without acc.1 (l.mask &&& acc.2) + (l.old &&& l.mask &&& acc.2), acc.2)) (new, 2 ^ 129 - 1)).1

/-- Scalar register operand. -/
def readS (s : State) (r : Nat) : Word :=
  if r = 0 then 0 else word (earlyRead s 0 r 1 0 (s.curT.sreg r).toNat)

/-- Capability register operand. -/
def readC (s : State) (r : Nat) : Cap :=
  let c := s.curT.creg r
  let n := earlyRead s 3 r 1 0 (c.raw.toNat + if c.tag then 2 ^ 128 else 0)
  ⟨BitVec.ofNat 128 n, n / 2 ^ 128 == 1⟩

/-- Vector register operand in a lane, read in elements of width `w`: each element is wholly old or wholly new (R365). -/
def readV (s : State) (w r lane : Nat) : Word :=
  let new := s.curW.vreg r lane
  match s.curW.late with
  | [] => new
  | _ :: _ =>
    (upTo (64 / max w 1)).foldl (fun x k =>
      setElem w k x (elem w k (word (earlyRead s 1 (32 * r + lane) (elemMask w k).toNat k new.toNat)))) new

/-- Predicate register operand: each lane is wholly old or wholly new. -/
def readP (s : State) (r : Nat) : LaneMask :=
  if r = 0 then BitVec.allOnes 32
  else
    let new := s.curW.preg r
    match s.curW.late with
    | [] => new
    | _ :: _ => maskOf ((upTo 32).filter (fun L => bitAt (earlyRead s 2 r (2 ^ L) L new.toNat) L))

/-- The late writes that still matter: bits that a landed later write has replaced are gone, and so is an entry that has landed and that no
read of its fragment can come too early for (R40). -/
def stillLate (s : State) : List Late → List Late
  | [] => []
  | l :: rest =>
    let m := (rest.filter (fun k => k.file == l.file && k.key == l.key && decide (k.landAt ≤ s.clock) &&
      (k.thread == l.thread || l.file == 1 || l.file == 2))).foldl (fun m k => without m k.mask) l.mask
    if m = 0 || (decide (l.landAt ≤ s.clock) && decide (l.due ≤ (s.thread l.thread).position)) then stillLate s rest
    else { l with mask := m } :: stillLate s rest

/-- Note a write of latency `lt` to the bits of a mask; `old` is the register before. One of latency 0 lands at once and replaces what is
still to land. -/
def noteLate (s : State) (lt file key mask old : Nat) : State :=
  let pos := s.curT.position
  let l : Late := if lt = 0 then ⟨s.cur, file, key, old, s.clock, 0, pos, mask⟩ else ⟨s.cur, file, key, old, s.clock + lt + 1, pos + lt + 1, pos, mask⟩
  s.modWave s.curWk (fun w => { w with late := stillLate s (w.late ++ [l]) })

/-- Write a scalar register with latency `lt`. -/
def writeS (s : State) (lt r : Nat) (v : Word) : State :=
  if r = 0 then s else
  (noteLate s lt 0 r (2 ^ 64 - 1) (s.curT.sreg r).toNat).modThread s.cur (fun t => t.setS r v)

/-- Write a capability register with latency `lt`. -/
def writeC (s : State) (lt r : Nat) (v : Cap) : State :=
  let o := s.curT.creg r
  (noteLate s lt 3 r (2 ^ 129 - 1) (o.raw.toNat + if o.tag then 2 ^ 128 else 0)).modThread s.cur (fun t => t.setC r v)

/-- Write the bits of a mask of a vector register in a lane with latency `lt`. -/
def writeV (s : State) (lt r lane : Nat) (mask v : Word) : State :=
  let o := s.curW.vreg r lane
  if mask = 0 then s else
  (noteLate s lt 1 (32 * r + lane) mask.toNat o.toNat).modWave s.curWk (fun w => w.setV r lane (merge mask v (w.vreg r lane)))

/-- Write a predicate register in the lanes of a mask with latency `lt`. -/
def writeP (s : State) (lt r : Nat) (mask v : LaneMask) : State :=
  if r = 0 then s else
  (noteLate s lt 2 r mask.toNat (s.curW.preg r).toNat).modWave s.curWk (fun w => w.setP r mask v)

/-- Operand B of a base instruction, or of an extended form that takes a scalar B: the literal or s[B] (R23, R100). -/
def operandB (s : State) : Word :=
  match s.ir.lit with
  | some v => v
  | none => readS s s.ir.b.toNat

/-! ### Completing and holding -/

/-- The address of the instruction in issue: a prefixed instruction stands behind its `REP`. -/
def ownPc (s : State) : Word := s.curT.pc + word (match s.curT.rep with | some r => r.prefixLen | none => 0)

/-- The address of the next instruction. -/
def nextPc (s : State) : Word := s.curT.pc + word s.len

/-- The fragment after it has issued an instruction and goes on at `pc`: its stall count and its position (R38, R40, R95). -/
def Thread.issuedAt (t : Thread) (clock stall : Nat) (pc : Word) : Thread :=
  { t with
    pc := pc, last := if t.hold.isSome then t.last else clock, position := t.position + 1 + stall
    readyAt := max (clock + 1) ((match t.hold with | some h => h.since | none => clock) + 1 + stall)
    hold := none, doneLanes := 0, answers := [], retried := [], missed := none, lock := none, waitLine := none, park := none }

/-- Go on at an address: the instruction completes (a branch, or the end of any other). -/
def jumpTo (s : State) (pc : Word) : State :=
  s.modThread s.cur (fun t => t.issuedAt s.clock s.ir.stall.toNat pc)

/-- The state in which a held instruction of a thread is executed again. -/
def resumed (s : State) (t : Nat) : State :=
  match (s.thread t).hold with
  | some h => { s with cur := t, ir := h.f, len := h.len }
  | none => { s with cur := t }

/-- Complete the instruction: the fragment goes on at the next one; inside a `REP`, at the next iteration (R116). -/
def finish (s : State) : State :=
  match s.curT.rep with
  | none => jumpTo s (nextPc s)
  | some r =>
    if r.i + 1 < r.count then
      s.modThread s.cur (fun t => { t with
        rep := some { r with i := r.i + 1, first := false }, last := if t.hold.isSome then t.last else s.clock, readyAt := s.clock + 1
        hold := none, doneLanes := 0, answers := [], retried := [], missed := none, lock := none, waitLine := none, park := none })
    else
      let s := jumpTo s (nextPc s)
      (s.modThread s.cur (fun t => { t with rep := none })).modWave s.curWk (fun w => { w with repidx := 0 })

/-- What issues one instruction in a cycle: a quarter of a core, or a sequencer (R95, R201). -/
def issuerOf (k : Nat) : Nat :=
  let w := waveOf k
  8 * crewOf w + (if isSequencer w then 4 + widOf w % 2 else widOf w % 4)

/-- The current instruction is not ready (R94): it has not issued, its quarter may issue another, and it is looked at again in the next
cycle. A `REP` before it has not issued either (R38). -/
def stallIssue (s : State) : State :=
  { s with issued := s.issued.erase (issuerOf s.cur), passed := s.cur :: s.passed }.modThread s.cur (fun t => { t with
    notReadyAt := some s.clock, rep := match t.rep with | some r => if r.first then none else t.rep | none => none })

/-- Hold the fragment at the instruction (R189); the first time, this is its issue. -/
def holdWith (s : State) (i : Instr) (arg : Nat) (peers : List Nat) : State :=
  s.modThread s.cur (fun t =>
    match t.hold with
    | some h => { t with hold := some { h with arg := arg, peers := peers } }
    | none => { t with hold := some ⟨i, s.clock, arg, peers, s.ir, s.len, s.curW.pts, []⟩, last := s.clock })

/-- Hold the fragment at the instruction. -/
def holdAt (s : State) (i : Instr) : State :=
  match s.curT.hold with
  | some _ => s
  | none => holdWith s i 0 []

/-- Raise a counter of the wave and note the access (R97). -/
def addAccess (s : State) (path : Nat) (writes : List RegWrite) : State :=
  let id := tnext s.accesses
  let s := { s with accesses := tput s.accesses id ⟨s.curWk, path, s.clock + 1 + Config.latency s.fresh (2 * id), writes, none, 0⟩ }
  s.modWave s.curWk (fun w => w.setCounter path (w.counter path + 1))

/-- Raise a counter of the wave for an access whose parts are still being performed (R97, R156): its number. -/
def openAccess (s : State) (path : Nat) : State × Nat :=
  let id := tnext s.accesses
  ({ s with accesses := tput s.accesses id ⟨s.curWk, path, 2 ^ 64, [], none, 0⟩ }.modWave s.curWk
    (fun w => w.setCounter path (w.counter path + 1)), id)

/-- Every part of an access is performed: it completes, with its register writes, after a free latency. -/
def closeAccess (s : State) (id : Nat) (writes : List RegWrite) : State :=
  match tfind? s.accesses id with
  | none => s
  | some a =>
    { s with accesses := tput s.accesses id { a with doneAt := s.clock + 1 + Config.latency s.fresh (2 * id), writes := writes } }

/-- Raise a wave's `PTS` to at least `p`. -/
def raisePts (s : State) (wk p : Nat) : State := s.modWave wk (fun w => { w with pts := max w.pts p })

/-- The `p` of R177 for an access of the current instruction: the wave's `PTS` at its issue, however long it has been held since (R344). -/
def issuePts (s : State) : Nat := match s.curT.hold with | some h => h.pts | none => s.curW.pts

/-- The held instruction `h` of thread `k` issued after the held instruction `g` of thread `j`. -/
def Hold.after (h : Hold) (k : Nat) (g : Hold) (j : Nat) : Bool := decide (g.since < h.since) || (g.since == h.since && decide (j < k))

/-- An access of the current instruction took a time: `PTS` is no lower afterwards, and neither is a later access of the instruction, or of an
instruction of the wave that issued after it and is held (R165, R175). -/
def accessedAt (s : State) (ts : Nat) : State :=
  let s := raisePts s s.curWk ts
  match s.curT.hold with
  | none => s
  | some g => { s with threads := s.threads.map (fun e =>
      (e.1, if waveOf e.1 = s.curWk then
        { e.2 with hold := e.2.hold.map (fun h => if e.1 = s.cur || h.after e.1 g s.cur then { h with pts := max h.pts ts } else h) } else e.2)) }

/-! ### Releases, acquires and waits (R181, R189) -/

/-- Every access that the wave has issued is performed (R180): loads and stores are performed at issue, those that wait for a line or
a page are open. -/
def performedAll (s : State) (wk : Nat) : Bool :=
  s.accesses.all (fun e => !(e.2.wave == wk && e.2.command.isNone && e.2.doneAt == 2 ^ 64))

/-- A CREW release of the current agent, whose earlier accesses are performed (R181). -/
def crewRelease (s : State) : State := s.modCrew s.curCk (fun c => { c with relMark := max c.relMark s.curW.pts })

/-- A CREW acquire of the current agent (R181). -/
def crewAcquire (s : State) : State := raisePts s s.curWk s.curC.relMark

/-- Complete when a condition holds; until then the fragment is held (R189). -/
def waitFor (i : Instr) (s : State) (ok : Bool) (act : State → State) : Out :=
  .next (if ok then finish (act s) else holdAt s i)

/-! ### Traps -/

/-- The number of a hold of this operation names no access. -/
def countsHold (i : Instr) : Bool :=
  [Instr.fence, .fenceEvict, .sleep, .sleepLit, .mwait, .yield, .mmap, .mrda, .mrdaSt, .reord, .qput].contains i

/-- The open access of the instruction that holds a thread. -/
def State.openOf (s : State) (t : Nat) : Option (Nat × Access) :=
  match (s.thread t).hold with
  | none => none
  | some h =>
    if h.arg = 0 || countsHold h.op then none
    else
      match tfind? s.accesses (h.arg - 1) with
      | some a => if a.wave = waveOf t ∧ a.doneAt = 2 ^ 64 ∧ a.command.isNone then some (h.arg - 1, a) else none
      | none => none

/-- The open access of the instruction that holds a thread has nothing more to perform: it completes without register writes, in its turn (R97). -/
def State.loseOpen (s : State) (t : Nat) : State := match s.openOf t with | some e => closeAccess s e.1 [] | none => s

/-- Whether a command that the wave issued, or an access with parts to perform, has not completed (R359). -/
def commandsOutstanding (s : State) (wk : Nat) : Bool :=
  let c := s.crew (crewOf wk)
  s.accesses.any (fun e => e.2.wave == wk && e.2.doneAt == 2 ^ 64) ||
  c.channels.any (fun q => q.2.any (fun x => x.agent == wk)) ||
  c.commands.any (fun m => m.2.agents.contains wk) ||
  s.dies.any (fun d => d.2.collectives.any (fun x => waveOf x.thread == wk))

/-- A fault of a sequencer (R377): it becomes idle, and the wave that dealt it receives ENGINEFAULT 18 or 19. -/
def sequencerFault (s : State) (t code : Nat) : State :=
  let w := waveOf t
  let pc := (s.thread t).pc
  let s := s.modThread t (fun x => { x with state := .idle, hold := none, trap := none, tag := none })
  let s := s.modCrew (crewOf w) (fun c => { c with
    forerunner := if c.forerunner = some w then none else c.forerunner, kittyQueue := lerase t c.kittyQueue })
  postAsync s w 0x42 (if widOf w = 32 then 18 else 19) (word (code * 2 ^ 56 + pc.toNat % 2 ^ 56))

/-- A thread no longer waits for a debit (R227): its instruction has trapped, or it has ended. -/
def leaveKitty (s : State) (t : Nat) : State :=
  let ck := crewOf (waveOf t)
  if (s.crew ck).kittyQueue.contains t then s.modCrew ck (fun c => { c with kittyQueue := lerase t c.kittyQueue }) else s

/-- The handler capability is one: tagged, with right X, in the wave's code object (R359). -/
def handlerOk (c : Crew) (h : Cap) : Bool :=
  h.tag && h.raw.getLsbD 125 && (h.raw.extractLsb' 46 32).toNat == c.codeObj

/-- Trap entry (R359): the wave's fixed-latency writes have landed and its accesses are complete; `EPC`, `CAUSE`, `FADDR`, `FMASK`
and `REPIDX` are written; then the fragment enters its handler with s56 to s63 saved and HM set, or the crew is killed. -/
def enterTrap (s : State) (t code detail : Nat) (faddr : Word) (fmask : LaneMask) (epc : Word) : State :=
  let wk := waveOf t
  let s := traceSyncSet s t (s.thread t).pc
  let s := completeAccesses s wk
  let w := s.wave wk
  let x := s.thread t
  let cause := word (detail % 256 * 256 + code)
  let s := s.putWave wk { w with
    late := [], epc := epc, cause := cause, faddr := faddr, fmask := fmask, trapPc := epc
    repidx := match x.rep with | some r => BitVec.ofNat 16 r.i | none => w.repidx }
  let h := x.creg 15
  if w.hm || !handlerOk (s.crew (crewOf wk)) h then
    killFamily s (crewOf wk) (if w.hm then 2 else 1)
      { code := 0x60, detail := 0, wid := widOf wk, src := 0, epc := epc, faddr := faddr, fmask := fmask, cause2 := cause }
  else
    let s := s.modWave wk (fun w => { w with hm := true, handler := some t, shadow := (upTo 8).map (fun i => x.sreg (56 + i)) })
    s.putThread t { x with
      state := .live, pc := (h.raw.extractLsb' 2 44).setWidth 64, hold := none, rep := none, trap := none, doneLanes := 0
      answers := [], retried := [], missed := none, lock := none, waitLine := none, park := none, readyAt := s.clock + 1, last := s.clock }

/-- Take a trap of a thread: a sequencer stops (R377); a fragment enters its handler at once, or once the commands of its wave have
completed (R359). `next` says that `EPC` is the address of the next instruction (R113). -/
def takeTrapOf (s : State) (t code detail : Nat) (faddr : Word) (fmask : LaneMask) (next : Bool) : State :=
  let x := s.thread t
  let s := leaveKitty s t
  let epc := if next then x.pc + word s.len else x.pc
  let s := s.loseOpen t
  if isSequencer (waveOf t) then sequencerFault s t code
  else if commandsOutstanding s (waveOf t) then
    s.modThread t (fun x => { x with trap := some (code, detail, faddr, fmask, epc), hold := none })
  else enterTrap s t code detail faddr fmask epc

/-- A trap of the current instruction: the next state. -/
def trapWith (s : State) (code detail : Nat) (faddr : Word) (fmask : LaneMask) : Out :=
  .next (takeTrapOf s s.cur code detail faddr fmask false)

/-- A trap without address information. -/
def trap (s : State) (code detail : Nat) : Out := trapWith s code detail 0 0

/-- ILLEGAL with a sub-cause of R358. -/
def illegal (s : State) (detail : Nat) : Out := trap s 0x01 detail

/-- ARITH with the operand's field (R357). -/
def arith (s : State) (detail : Nat) : Out := trap s 0x30 detail

/-- `FADDR` of a memory trap, R357. -/
def faddrOf (creg lane : Nat) (off : Int) : Word := word (creg % 16 * 2 ^ 49 + lane % 32 * 2 ^ 44 + wrap 44 off)

/-- Return from a trap (R360): s56 to s63 restored, HM cleared, the held fragments released, the fragment at `EPC`; the interrupted
instruction runs again only in the lanes that `FMASK` does not name. -/
def returnFromTrap (s : State) : State :=
  let s := traceSyncSet s s.cur s.curT.pc
  let w := s.curW
  let s := s.modThread s.cur (fun t =>
    let t := (upTo 8).foldl (fun t i => t.setS (56 + i) (w.shadow.getD i 0)) t
    { t.issuedAt s.clock s.ir.stall.toNat w.epc with doneLanes := if w.epc = w.trapPc then w.fmask else 0 })
  s.modWave s.curWk (fun w => { w with hm := false, handler := none, shadow := [] })

end Sys2Proof.Machine
end

