-- ==== Sys2Proof/Machine/Fragments.lean ====
section
/-! DEFINITION. Fragments, the crew barrier and the end of fragments and waves (R87 to R93, R190, R380). -/

namespace Sys2Proof.Machine

/-- A thread is ready, as far as its instruction's own needs do not hold it (R94). -/
def State.ready (s : State) (k : Nat) : Bool :=
  let t := s.thread k
  let w := s.wave (waveOf k)
  t.state == .live && decide (t.readyAt ≤ s.clock) && t.hold.isNone && t.trap.isNone && !w.parked &&
    (match w.handler with | none => true | some h => h == k) && (s.crew (crewOf (waveOf k))).state == .running

/-- The number in a late write whose fragment has ended. -/
def noThread : Nat := 2 ^ 60

/-- A register write of an access without what concerns fragments and lanes that are gone. -/
def keptWrite (gone : List Nat) (lanes : LaneMask) (w : RegWrite) : Option RegWrite :=
  match w with
  | .s t _ _ => if gone.contains t then none else some w
  | .c t _ _ => if gone.contains t then none else some w
  | .v _ L _ _ => if lanes.getLsbD L then none else some w
  | .p r m v => if m &&& ~~~lanes = 0 then none else some (.p r (m &&& ~~~lanes) v)

/-- Fragments are gone, and lanes with them: what their outstanding loads and atomics would write is discarded (R104, R112), so that no
later fragment in their place receives it. -/
def dropWrites (s : State) (wk : Nat) (gone : List Nat) (lanes : LaneMask) : State :=
  { s with accesses := s.accesses.map (fun e =>
      if e.2.wave = wk then (e.1, { e.2 with writes := e.2.writes.filterMap (keptWrite gone lanes) }) else e) }

/-- Bring deferred fragments, oldest first, to free live places (R92). -/
def reviveGo : Nat → State → Nat → State
  | 0, s, _ => s
  | n + 1, s, wk =>
    if 8 ≤ (s.liveOf wk).length then s
    else
      let ds := (s.threadsOf wk).filter (fun k => (s.thread k).state == .deferred)
      match minBy (fun k => [(s.thread k).age, k]) ds with
      | none => s
      | some k => reviveGo n (s.modThread k (fun t => { t with state := .live, last := s.clock })) wk

/-- Bring deferred fragments to free live places (R92). -/
def revive (s : State) (wk : Nat) : State := reviveGo 32 s wk

/-- The fragments parked at a join record. -/
def parkedAt (s : State) (wk r : Nat) : List Nat :=
  (s.threadsOf wk).filter (fun k => (s.thread k).state == .joined && (s.thread k).joins.head? == some r)

/-- The cycle by which every fixed-latency write of some fragments has landed (R40). -/
def landedAt (s : State) (wk : Nat) (ks : List Nat) : Nat :=
  ((s.wave wk).late.filter (fun l => ks.contains l.thread)).foldl (fun m l => max m l.landAt) 0

/-- Merge the fragments parked at a record, if every lane that it expects and that has not ended is held by them (R90). A
SYNC set before the trace's MERGE shows the fragments as they were (R417): the fragment that issues the JOIN, if one does, at it. -/
def tryMerge (s : State) (wk r : Nat) (issuer : Option Nat := none) : State :=
  let w := s.wave wk
  let rec' := tget {} w.joins r
  let ks := parkedAt s wk r
  let have' := ks.foldl (fun m k => m ||| (s.thread k).mask) 0
  let left := rec'.expect &&& s.lanesLeft wk
  if left = 0 ∨ have' ≠ left then s
  else
    let stay := ks.filter (fun k => (s.thread k).mask &&& rec'.stay ≠ 0)
    match (match stay.head? with
      | some k => some k
      | none => minBy (fun k => [lowestLane (s.thread k).mask]) ks) with
    | none => s
    | some k =>
      let s := match issuer with
        | some j => traceEmit s j 4 (lowestLane have') []
        | none => traceEmitAt s k (s.thread k).nextAddress 4 (lowestLane have') []
      let t := s.thread k
      let ready := max (max (s.clock + 1) t.readyAt) (landedAt s wk ks)
      let s := dropWrites { s with threads := s.threads.filter (fun e => !(ks.contains e.1 && e.1 != k)) } wk (ks.filter (· != k)) 0
      let s := s.putThread k { t with
        mask := have', joins := t.joins.tail, state := .live, pc := t.pc + 4, last := s.clock, readyAt := ready, hold := none }
      s.modWave wk (fun w => { w with
        joins := terase w.joins r
        late := w.late.filterMap (fun l =>
          if !ks.contains l.thread then some l
          else if l.file = 1 ∨ l.file = 2 ∨ l.thread = k then some { l with thread := k, due := 0 } else none) })

/-- Test every record of a wave again (R91). -/
def tryMerges (s : State) (wk : Nat) : State :=
  (s.wave wk).joins.foldl (fun s e => tryMerge s wk e.1) s

/-- A wave has arrived at the crew barrier (R93, R190). -/
def arrivedAtBarrier (s : State) (wk : Nat) : Bool :=
  let ks := (s.threadsOf wk).filter (fun k => (s.thread k).state != .joined)
  !ks.isEmpty && ks.all (fun k => (s.thread k).state == .barred) && (upTo 6).all (fun p => (s.wave wk).counter p == 0)

/-- Leave the barrier: barred fragments go on behind their `BAR`, or at the next iteration of its `REP` (R116), as live places allow. DESIGN CHOICE: where more than 8 leave, those
that stand first in the wave's table become live and the others deferred (log 125). -/
def leaveBarrier (s : State) (mark wk : Nat) : State :=
  let ks := (s.threadsOf wk).filter (fun k => (s.thread k).state == .barred)
  let s := ks.foldl (fun s k =>
    let state := if (s.liveOf wk).length < 8 then ThreadState.live else .deferred
    let u := (finish (resumed s k)).modThread k (fun t => { t with state := state })
    { u with cur := s.cur, ir := s.ir, len := s.len }) s
  raisePts s wk mark

/-- Open the crew barrier when every wave that has not ended has arrived: each arrival is a CREW release, each leaving a CREW
acquire (R181, R190). -/
def barrierCheck (s : State) (ck : Nat) : State :=
  let ws := (s.wavesOf ck).filter (fun w => !isSequencer w && !(s.wave w).ended)
  if ws.isEmpty || !ws.all (arrivedAtBarrier s) then s
  else
    let mark := ws.foldl (fun m w => max m (s.wave w).pts) (s.crew ck).relMark
    let s := s.modCrew ck (fun c => { c with relMark := mark, barPhase := c.barPhase + 1 })
    ws.foldl (fun s w => leaveBarrier s mark w) s

/-- A gang loses a member (R380): the waiting members leave with a synchronous GANGFAIL, and later joint instructions fail until the
gang is defined again. -/
def gangLose (s : State) (ck wid : Nat) (ended : Bool) : State :=
  (s.crew ck).gangs.foldl (fun s e =>
    let g := e.2
    match g.waves.findIdx? (fun w => w == wid) with
    | none => s
    | some rank =>
      let detail := (if ended then 64 else 0) + rank
      let s := s.modCrew ck (fun c => { c with
        gangs := tput c.gangs e.1 { g with waiting := [], failed := some (g.failed.getD detail) }, kittyQueue := lerase (2 ^ 40 + e.1) c.kittyQueue })
      g.waiting.foldl (fun s m => if widOf (waveOf m.thread) = wid then s else takeTrapOf s m.thread 0x40 detail 0 0 false) s) s

/-- The events that wait for a wave that has ended go to its crew's next live wave, or to the fault log alone, which is their delivery
(R376, R377). -/
def passEvents (s : State) (wk : Nat) : State :=
  let es := (s.wave wk).pending
  let s := s.modWave wk (fun w => { w with pending := [] })
  es.foldl (fun s e =>
    let s := if e.code = 0x42 ∧ e.detail < 8 ∧ (asyncTarget s wk).isNone then
        s.modCrew (crewOf wk) (fun c => { c with chanFault := lerase e.detail c.chanFault })
      else s
    postAsync s wk e.code e.detail e.faddr) s

/-- A wave ends (R87, R246, R376, R380). -/
def endWave (s : State) (wk : Nat) : State :=
  let ck := crewOf wk
  let s := passEvents (s.modWave wk (fun w => { w with ended := true, monitor := none, joins := [], late := [] })) wk
  let s := (s.wave wk).records.foldl (fun s r => recordDone s r.2.1) s
  let s := s.modWave wk (fun w => { w with records := [] })
  let s := s.modCrew ck (fun c => { c with forerunner := if c.forerunner = some wk then none else c.forerunner })
  queueEnds (barrierCheck (gangLose s ck (widOf wk) true) ck)

/-- A fragment ends and its lanes leave the wave (R91): their records are done, merges are tested again, a deferred fragment may
become live, and the last fragment ends the wave. -/
def endFragment (s : State) (t : Nat) : State :=
  let wk := waveOf t
  let lanes := lanesOf (s.thread t).mask
  let s := leaveKitty (dropWrites { s with threads := terase s.threads t } wk [t] (s.thread t).mask) t
  let s := ((s.wave wk).records.filter (fun r => lanes.contains r.1)).foldl (fun s r => recordDone s r.2.1) s
  let s := s.modWave wk (fun w => { w with
    records := w.records.filter (fun r => !lanes.contains r.1)
    late := w.late.filterMap (fun l =>
      if l.thread != t then some l
      else if l.file = 1 ∨ l.file = 2 then some { l with thread := noThread, due := 0 } else none) })
  if (s.threadsOf wk).isEmpty then endWave s wk
  else queueEnds (barrierCheck (revive (tryMerges s wk) wk) (crewOf wk))

end Sys2Proof.Machine
end

