-- ==== Sys2Proof/Machine/Numbers.lean ====
section
/-! DEFINITION. Number formats and arithmetic (R63 to R81): a value is exact (an integer times a power of two) until it is rounded
once into a format. -/

namespace Sys2Proof.Machine

/-- A value: a NaN with its sign and its fraction aligned to 52 bits, an infinity, or sign * m * 2^e (zero keeps its sign). -/
inductive FVal where
  | nan (neg : Bool) (frac : Nat)
  | inf (neg : Bool)
  | fin (neg : Bool) (m : Nat) (e : Int)
  deriving DecidableEq, Repr

/-- The layout of a format: exponent bits, fraction bits (R65, R68). -/
structure Fmt where
  eb : Nat
  fb : Nat
  deriving DecidableEq, Repr

/-- The format of a floating type code, R30, R65, R68. -/
def fmtOf (t : Nat) : Fmt :=
  match t with
  | 8 => ⟨5, 10⟩
  | 9 => ⟨8, 7⟩
  | 10 => ⟨8, 23⟩
  | 11 => ⟨11, 52⟩
  | 12 => ⟨4, 3⟩
  | _ => ⟨5, 2⟩

/-- The exponent bias. -/
def Fmt.bias (f : Fmt) : Nat := 2 ^ (f.eb - 1) - 1

/-- Whether a type code is an integer, R30. -/
def isIntType (t : Nat) : Bool := t < 8
/-- Whether a type code is a signed integer. -/
def isSignedType (t : Nat) : Bool := t < 4

/-- The default NaN (R65, R66). -/
def defaultNan : FVal := .nan false (2 ^ 51)

/-- The value of a code of a floating type (R65, R68). -/
def decodeF (t x : Nat) : FVal :=
  let f := fmtOf t
  let neg := bitAt x (f.eb + f.fb)
  let e := bits x f.fb f.eb
  let fr := bits x 0 f.fb
  if e = 2 ^ f.eb - 1 ∧ t ≠ 12 then
    if fr = 0 then .inf neg else .nan neg (fr * 2 ^ (52 - f.fb))
  else if t = 12 ∧ e = 15 ∧ fr = 7 then .nan neg (fr * 2 ^ (52 - f.fb))
  else if e = 0 then .fin neg fr (1 - (f.bias : Int) - f.fb)
  else .fin neg (2 ^ f.fb + fr) ((e : Int) - f.bias - f.fb)

/-- Whether rounding takes the candidate of larger magnitude: `odd` the lowest bit kept, `cmp` how the part cut off compares with
half (0 below, 1 equal, 2 above), `any` whether anything is cut off (R74). -/
def roundsAway (rm : Nat) (neg odd : Bool) (cmp : Nat) (any : Bool) : Bool :=
  match rm with
  | 0 => cmp == 2 || (cmp == 1 && odd)
  | 1 => false
  | 2 => any && neg
  | _ => any && !neg

/-- m * 2^e rounded to an integer multiple of 2^q: the multiple. -/
def roundToGrid (rm : Nat) (neg : Bool) (m : Nat) (e q : Int) : Nat :=
  if e ≥ q then m * 2 ^ (e - q).toNat
  else
    let sh := (q - e).toNat
    let k := m / 2 ^ sh
    let r := m % 2 ^ sh
    let h := 2 ^ (sh - 1)
    if roundsAway rm neg (k % 2 == 1) (if r < h then 0 else if r = h then 1 else 2) (r != 0) then k + 1 else k

/-- Where a result exceeds the largest finite value (R75): true gives an infinity, false the largest finite value. -/
def overflowInf (rm : Nat) (sat neg : Bool) : Bool :=
  !sat && (match rm with | 0 => true | 1 => false | 2 => neg | _ => !neg)

/-- The code of the largest finite magnitude. -/
def maxFinite (t : Nat) : Nat :=
  let f := fmtOf t
  if t = 12 then 0x7E else (2 ^ f.eb - 2) * 2 ^ f.fb + (2 ^ f.fb - 1)

/-- The code of an infinity, or E4M3's NaN in its place (R75). -/
def infCode (t : Nat) : Nat :=
  let f := fmtOf t
  if t = 12 then 0x7F else (2 ^ f.eb - 1) * 2 ^ f.fb

/-- round_F of an exact value into a floating type (R74, R75). -/
def roundF (t rm : Nat) (sat : Bool) (v : FVal) : Nat :=
  let f := fmtOf t
  let sgn (neg : Bool) : Nat := if neg then 2 ^ (f.eb + f.fb) else 0
  match v with
  | .nan neg fr =>
    if t = 12 then sgn neg + 0x7F
    else if t = 13 then sgn neg + 0x7E
    else
      let k := fr % 2 ^ 52 / 2 ^ (52 - f.fb)
      sgn neg + (2 ^ f.eb - 1) * 2 ^ f.fb + (if bitAt k (f.fb - 1) then k else k + 2 ^ (f.fb - 1))
  | .inf neg => sgn neg + (if sat then maxFinite t else infCode t)
  | .fin neg 0 _ => sgn neg
  | .fin neg m e =>
    let top : Int := (Nat.log2 m : Int) + e
    let emin : Int := 1 - (f.bias : Int)
    let q : Int := max top emin - f.fb
    let k := roundToGrid rm neg m e q
    let (k, q) := if k = 2 ^ (f.fb + 1) then (2 ^ f.fb, q + 1) else (k, q)
    let code := if k < 2 ^ f.fb then k else ((q + f.fb + f.bias).toNat) * 2 ^ f.fb + (k - 2 ^ f.fb)
    if code ≤ maxFinite t then sgn neg + code
    else sgn neg + (if overflowInf rm sat neg then infCode t else maxFinite t)

/-- The range of an integer type. -/
def intMin (t : Nat) : Int := if isSignedType t then -((2 ^ (widthOf t - 1) : Nat) : Int) else 0
def intMax (t : Nat) : Int :=
  if isSignedType t then ((2 ^ (widthOf t - 1) : Nat) : Int) - 1 else ((2 ^ widthOf t : Nat) : Int) - 1

/-- An exact integer in an integer type: its low bits, or the nearest value of the range (R28, R64). -/
def intResult (t : Nat) (sat : Bool) (x : Int) : Nat :=
  wrap (widthOf t) (if sat then max (intMin t) (min (intMax t) x) else x)

/-- The value of an element of an integer type. -/
def intOf (t x : Nat) : Int := if isSignedType t then signed (widthOf t) x else (x : Int)

/-- A floating value rounded to an integer type: NaN gives 0, the range saturates (R75, R76). -/
def floatToInt (t rm : Nat) (v : FVal) : Nat :=
  match v with
  | .nan _ _ => 0
  | .inf neg => wrap (widthOf t) (if neg then intMin t else intMax t)
  | .fin neg m e =>
    let k : Int := roundToGrid rm neg m e 0
    intResult t true (if neg then -k else k)

/-- An integer as an exact value. -/
def ofInt (x : Int) : FVal := .fin (decide (x < 0)) x.natAbs 0

/-- The value of a code of any element type. -/
def valueOf (t x : Nat) : FVal := if isIntType t then ofInt (intOf t x) else decodeF t x

/-- A conversion between element types (R75, R76, R127). -/
def convert (ts td rm : Nat) (sat : Bool) (x : Nat) : Nat :=
  if isIntType td then
    if isIntType ts then intResult td sat (intOf ts x) else floatToInt td rm (decodeF ts x)
  else roundF td rm sat (valueOf ts x)

/-- Whether a value is a NaN. -/
def FVal.isNan : FVal → Bool
  | .nan _ _ => true
  | _ => false

/-- The sign of a value. -/
def FVal.isNeg : FVal → Bool
  | .nan n _ => n
  | .inf n => n
  | .fin n _ _ => n

/-- The value with its sign set. -/
def FVal.withNeg (neg : Bool) : FVal → FVal
  | .nan _ f => .nan neg f
  | .inf _ => .inf neg
  | .fin _ m e => .fin neg m e

/-- The value with its sign inverted. -/
def FVal.negate (v : FVal) : FVal := v.withNeg (!v.isNeg)

/-- The signed integer m * 2^(e - q) of a finite value at a grid not coarser than its own. -/
def scaled (neg : Bool) (m : Nat) (e q : Int) : Int :=
  let k : Int := m * 2 ^ (e - q).toNat
  if neg then -k else k

/-- The exact sum of two values that are no NaN; the sign of an exact zero by R67. -/
def addV (rm : Nat) : FVal → FVal → FVal
  | .inf a, .inf b => if a = b then .inf a else defaultNan
  | .inf a, _ => .inf a
  | _, .inf b => .inf b
  | .fin na ma ea, .fin nb mb eb =>
    let q := min ea eb
    let x := scaled na ma ea q + scaled nb mb eb q
    if x = 0 then .fin (if na = nb then na else rm == 2) 0 0
    else .fin (decide (x < 0)) x.natAbs q
  | a, _ => a

/-- The exact product of two values that are no NaN (R66, R67). -/
def mulV : FVal → FVal → FVal
  | .inf a, .inf b => .inf (a != b)
  | .inf a, .fin nb mb _ => if mb = 0 then defaultNan else .inf (a != nb)
  | .fin na ma _, .inf b => if ma = 0 then defaultNan else .inf (na != b)
  | .fin na ma ea, .fin nb mb eb => .fin (na != nb) (ma * mb) (ea + eb)
  | a, _ => a

/-- The first NaN of some operands, else the result of the operation (R66). -/
def firstNan (ops : List FVal) (r : FVal) : FVal := (ops.find? FVal.isNan).getD r

/-- A + B. -/
def addF (rm : Nat) (a b : FVal) : FVal := firstNan [a, b] (addV rm a b)
/-- A * B. -/
def mulF (a b : FVal) : FVal := firstNan [a, b] (mulV a b)
/-- A * B + C, exact; a NaN of the product is an invalid operation. -/
def fmaF (rm : Nat) (a b c : FVal) : FVal :=
  firstNan [a, b, c] (let p := mulV a b; if p.isNan then p else addV rm p c)

/-- The value times 2^n. -/
def FVal.scale (n : Int) : FVal → FVal
  | .fin neg m e => .fin neg m (e + n)
  | v => v

/-- Comparison of two values that are no NaN: -1, 0 or 1 as an `Ordering`; -0 equals +0. -/
def compareV : FVal → FVal → Ordering
  | .inf a, .inf b => if a = b then .eq else if a then .lt else .gt
  | .inf a, _ => if a then .lt else .gt
  | _, .inf b => if b then .gt else .lt
  | .fin na ma ea, .fin nb mb eb =>
    let q := min ea eb
    compare (scaled na ma ea q) (scaled nb mb eb q)
  | _, _ => .eq

/-- A is the smaller of two values that are no NaN, -0 being smaller than +0 (R125). -/
def lessV (a b : FVal) : Bool :=
  match compareV a b with
  | .lt => true
  | .gt => false
  | .eq => a.isNeg && !b.isNeg

/-- VFMIN and VFMAX (R125). -/
def minMaxF (isMax : Bool) (a b : FVal) : FVal :=
  match a.isNan, b.isNan with
  | true, true => a
  | true, false => b
  | false, true => a
  | false, false => if isMax then (if lessV a b then b else a) else (if lessV b a then b else a)

/-- The square root of a value, with a sticky bit below the bits that any format keeps (R124). -/
def sqrtF : FVal → FVal
  | .nan n f => .nan n f
  | .inf neg => if neg then defaultNan else .inf false
  | .fin neg m e =>
    if m = 0 then .fin neg 0 0
    else if neg then defaultNan
    else
      let k : Nat := if e % 2 = 0 then 128 else 129
      let n := m * 2 ^ k
      let r := isqrt n
      let sticky := if r * r = n then 0 else 1
      .fin false (2 * r + sticky) ((e - k) / 2 - 1)

/-- Rounded to an integral value of its own (R124, VFRND). -/
def integralF (rm : Nat) : FVal → FVal
  | .fin neg m e => .fin neg (roundToGrid rm neg m e 0) 0
  | v => v

/-- A rounding into F32 and back, for a step of R77. -/
def roundVal (t rm : Nat) (v : FVal) : FVal := decodeF t (roundF t rm false v)

/-- `.SEQ` (R77): the terms one at a time, with one rounding in type `t` for each. -/
def seqSum (t rm : Nat) (c : FVal) (ts : List FVal) : FVal := ts.foldl (fun acc x => roundVal t rm (addF rm acc x)) c

/-! ### The exact state (R78 to R80) -/

/-- Whether a finite magnitude is at least 2^128. -/
def beyond128 (m : Nat) (e : Int) : Bool := m != 0 && decide ((128 : Int) ≤ (Nat.log2 m : Int) + e)

/-- Add a term to an exact state (R78). -/
def exactAdd (x : ExactState) (t : FVal) : ExactState :=
  let n := min (x.n + 1) (2 ^ 48 - 1)
  let x := { x with n := n, ovf := x.ovf || decide (2 ^ 42 ≤ n) }
  match t with
  | .nan _ _ => { x with nan := true }
  | .inf neg => if neg then { x with ninf := true } else { x with pinf := true }
  | .fin neg m e =>
    if beyond128 m e then (if neg then { x with ninf := true } else { x with pinf := true })
    else
      let g : Int := roundToGrid 0 neg m e (-149)
      { x with q := wrap 320 (x.q + (if neg then -g else g)) }

/-- Read an exact state as a value that is still exact, or the special result (R79). -/
def exactValue (x : ExactState) : FVal :=
  if x.nan || x.ovf || (x.pinf && x.ninf) then defaultNan
  else if x.pinf then .inf false
  else if x.ninf then .inf true
  else
    let v := signed 320 x.q
    .fin (decide (v < 0)) v.natAbs (-149)

/-- Read an exact state into F32 (R79). -/
def exactRead (rm : Nat) (x : ExactState) : Nat := roundF 10 rm false (exactValue x)

/-- Combine two exact states (R80). -/
def exactCombine (x y : ExactState) : ExactState :=
  let n := min (x.n + y.n) (2 ^ 48 - 1)
  { q := (x.q + y.q) % 2 ^ 320, n := n, nan := x.nan || y.nan, pinf := x.pinf || y.pinf, ninf := x.ninf || y.ninf
    ovf := x.ovf || y.ovf || decide (2 ^ 42 ≤ n) }

/-- The exact state of some terms. -/
def exactOf (ts : List FVal) : ExactState := ts.foldl exactAdd {}

/-! ### `.FREE` (R81) -/

/-- The magnitude of a value. -/
def FVal.magnitude (v : FVal) : FVal := v.withNeg false

/-- The exact sum of finite values. -/
def exactSum (ts : List FVal) : FVal := ts.foldl (addV 0) (.fin true 0 0)

/-- A sum in `.FREE` order: the value that the part proposes where R81 allows it, else the exact sum rounded once. DESIGN CHOICE: c counts among the
terms where it is a NaN or an infinity (log 143). -/
def freeSum (choice index : Nat) (c : FVal) (ts : List FVal) : Nat :=
  let all := c :: ts
  let ni := all.any (fun v => v.isNan)
  let pi := all.any (fun v => v == .inf false)
  let mi := all.any (fun v => v == .inf true)
  if ni || (pi && mi) then 0x7FC00000
  else if pi then 0x7F800000
  else if mi then 0xFF800000
  else
    let s := exactSum all
    let big := exactSum (all.map FVal.magnitude)
    let n := ts.length
    let bound := addV 0 (mulV (.fin false (n + 1) (-24)) big) (.fin false (n + 1) (-149))
    let x := Config.freeSum choice index % 2 ^ 32
    let v := decodeF 10 x
    let beyond := lessV (.fin false (2 ^ 24 - 1) 104) big
    let ok := match v with
      | .nan _ _ => false
      | .inf _ => beyond
      | .fin _ _ _ => !lessV bound (addV 0 v s.negate).magnitude
    if ok then x else roundF 10 0 false s

/-! ### Block formats and row codes (R69 to R73) -/

/-- The magnitude of an E2M1 code in halves (R69). -/
def e2m1Halves (c : Nat) : Nat :=
  match c % 8 with
  | 0 => 0 | 1 => 1 | 2 => 2 | 3 => 3 | 4 => 4 | 5 => 6 | 6 => 8 | _ => 12

/-- The value of an MXF4 element with its scale byte (R69). DESIGN CHOICE: an element of a NaN block reads as the positive default NaN (log 142). -/
def mxValue (scale c : Nat) : FVal :=
  if scale = 0xFF then .nan false (2 ^ 51) else .fin (bitAt c 3) (e2m1Halves c) ((scale : Int) - 128)

/-- The E2M1 code of a finite value divided by 2^(X - 127), rounded onto the magnitudes and saturated at 6 (R70, R74). -/
def mxEncode (rm : Nat) (scale : Nat) (neg : Bool) (m : Nat) (e : Int) : Nat :=
  let top : Int := (Nat.log2 m : Int) + e - ((scale : Int) - 127)
  let q : Int := (if m = 0 then 0 else max top 0) - 1
  let k := roundToGrid rm neg m (e - ((scale : Int) - 127)) q
  let h := if q < 0 then k else k * 2 ^ (q + 1).toNat
  let code := if h ≤ 4 then h else if h ≤ 6 then 5 else if h ≤ 8 then 6 else 7
  (if neg then 8 else 0) + code

/-- Encode 32 values into MXF4: the element codes and the scale (R70). -/
def mxEncodeBlock (rm : Nat) (vs : List FVal) : List Nat × Nat :=
  if vs.any (fun v => match v with | .fin _ _ _ => false | _ => true) then (vs.map (fun _ => 0), 0xFF)
  else
    let tops := vs.filterMap (fun v => match v with | .fin _ m e => if m = 0 then none else some ((Nat.log2 m : Int) + e) | _ => none)
    let x : Nat := match tops with
      | [] => 0
      | t :: r => (max 0 (min 254 (r.foldl max t - 2 + 127))).toNat
    (vs.map (fun v => match v with | .fin neg m e => mxEncode rm x neg m e | _ => 0), x)

/-- Magnitude bits of an SX format (R71): SX2 2, SX4 4, SX7 7. -/
def sxBits (mod : Nat) : Nat := match mod with | 0 => 2 | 1 => 4 | _ => 7

/-- Bytes of an SX block (R71). -/
def sxBytes (mod : Nat) : Nat := match mod with | 0 => 8 | 1 => 12 | _ => 18

/-- The value of element `k` of an SX block held as a number (R71). -/
def sxValue (mod block k : Nat) : FVal :=
  let m := sxBits mod
  let e := bits block 0 8
  let code := bits block (16 + k * (m + 1)) (m + 1)
  let sigma := bits block (8 + 2 * (k / 4)) 2
  if e = 0xFF ∨ code = 2 ^ m then defaultNan
  else .fin (bitAt code m) (code % 2 ^ m) ((e : Int) - 127 - sigma - m)

/-- The magnitude to which a value rounds at an exponent and sub-scale. -/
def sxMag (m rm e sigma : Nat) (v : FVal) : Nat :=
  match v with
  | .fin neg k x => roundToGrid rm neg k x ((e : Int) - 127 - sigma - m)
  | .inf _ => 2 ^ m
  | .nan _ _ => 0

/-- Every value of a list rounds to a magnitude of at most 2^m - 1. -/
def sxFits (m rm e sigma : Nat) (vs : List FVal) : Bool := vs.all (fun v => sxMag m rm e sigma v < 2 ^ m)

/-- Encode 16 values into an SX block (R72): the block as a number. -/
def sxEncode (mod rm : Nat) (sat : Bool) (vs : List FVal) : Nat :=
  let m := sxBits mod
  let e := ((upTo 255).find? (fun e => sxFits m rm e 0 vs)).getD 254
  let sig (g : Nat) : Nat := ([3, 2, 1, 0].find? (fun k => sxFits m rm e k ((vs.drop (4 * g)).take 4))).getD 0
  let code (k : Nat) : Nat :=
    match vs.getD k defaultNan with
    | .nan _ _ => 2 ^ m
    | v =>
      let g := sxMag m rm e (sig (k / 4)) v
      if 2 ^ m ≤ g then (if sat then (if v.isNeg then 2 ^ m else 0) + (2 ^ m - 1) else 2 ^ m)
      else if g = 0 then 0 else (if v.isNeg then 2 ^ m else 0) + g
  (upTo 16).foldl (fun b k => b + code k * 2 ^ (16 + k * (m + 1)))
    (e + (upTo 4).foldl (fun b g => b + sig g * 2 ^ (8 + 2 * g)) 0)

/-- Decode a row code to F32: OFFSET + SCALE * code, rounded once (R73). -/
def rowDecode (scale offset code : Nat) : Nat :=
  let sc := decodeF 8 scale
  let off := decodeF 8 offset
  roundF 10 0 false (match sc, off with
    | .fin _ _ _, .fin _ _ _ => addV 0 off (mulV sc (.fin false code 0))
    | _, _ => firstNan [sc, off] (match mulV sc (.fin false code 0) with | .nan n f => .nan n f | p => addV 0 p off))

end Sys2Proof.Machine
end

