-- ==== Sys2Proof/WellFormed.lean ====
section
/-! DEFINITION. The code of each operation (R42, R43), which fields each instruction word uses (R22 to R30 and the encoding table
of each class), and the two checks on a word: no reserved field is set (ILLEGAL 2 of R358) and every used field holds an
accepted value (ILLEGAL 3). -/

namespace Sys2Proof

/-- The opcode of a base operation (R42), and whether it is the row with the literal; none for an extended form or an event. -/
def Instr.baseCode : Instr → Option (Nat × Bool)
  | .nop => some (0x00, false)
  | .rep => some (0x01, false)
  | .repLit => some (0x01, true)
  | .grp => some (0x02, false)
  | .smov => some (0x03, false)
  | .smovLit => some (0x03, true)
  | .sadd => some (0x04, false)
  | .saddLit => some (0x04, true)
  | .ssub => some (0x05, false)
  | .ssubLit => some (0x05, true)
  | .smul => some (0x06, false)
  | .smulLit => some (0x06, true)
  | .smulhi => some (0x07, false)
  | .smulhiLit => some (0x07, true)
  | .smulhn => some (0x08, false)
  | .smulhnLit => some (0x08, true)
  | .sdiv => some (0x09, false)
  | .sdivLit => some (0x09, true)
  | .sdivn => some (0x0A, false)
  | .sdivnLit => some (0x0A, true)
  | .srem => some (0x0B, false)
  | .sremLit => some (0x0B, true)
  | .sremn => some (0x0C, false)
  | .sremnLit => some (0x0C, true)
  | .sand => some (0x0D, false)
  | .sandLit => some (0x0D, true)
  | .sor => some (0x0E, false)
  | .sorLit => some (0x0E, true)
  | .sxor => some (0x0F, false)
  | .sxorLit => some (0x0F, true)
  | .sshl => some (0x10, false)
  | .sshlLit => some (0x10, true)
  | .sshr => some (0x11, false)
  | .sshrLit => some (0x11, true)
  | .ssar => some (0x12, false)
  | .ssarLit => some (0x12, true)
  | .srol => some (0x13, false)
  | .srolLit => some (0x13, true)
  | .smin => some (0x14, false)
  | .sminLit => some (0x14, true)
  | .smax => some (0x15, false)
  | .smaxLit => some (0x15, true)
  | .sminn => some (0x16, false)
  | .sminnLit => some (0x16, true)
  | .smaxn => some (0x17, false)
  | .smaxnLit => some (0x17, true)
  | .sclz => some (0x18, false)
  | .spop => some (0x19, false)
  | .sbfx => some (0x1A, false)
  | .sbfxLit => some (0x1A, true)
  | .sbfi => some (0x1B, false)
  | .sbfiLit => some (0x1B, true)
  | .sseq => some (0x1C, false)
  | .sseqLit => some (0x1C, true)
  | .sslt => some (0x1D, false)
  | .ssltLit => some (0x1D, true)
  | .ssltn => some (0x1E, false)
  | .ssltnLit => some (0x1E, true)
  | .ssel => some (0x1F, false)
  | .sselLit => some (0x1F, true)
  | .sld => some (0x20, false)
  | .sldLit => some (0x20, true)
  | .sldw => some (0x21, false)
  | .sldwLit => some (0x21, true)
  | .sst => some (0x22, false)
  | .sstLit => some (0x22, true)
  | .sstw => some (0x23, false)
  | .sstwLit => some (0x23, true)
  | .cmov => some (0x28, false)
  | .cadd => some (0x29, false)
  | .caddLit => some (0x29, true)
  | .cwin => some (0x2A, false)
  | .cwinLit => some (0x2A, true)
  | .cred => some (0x2B, false)
  | .credLit => some (0x2B, true)
  | .cget => some (0x2C, false)
  | .csetoff => some (0x2D, false)
  | .csetoffLit => some (0x2D, true)
  | .cld => some (0x2E, false)
  | .cldLit => some (0x2E, true)
  | .cst => some (0x2F, false)
  | .cstLit => some (0x2F, true)
  | .br => some (0x30, false)
  | .brLit => some (0x30, true)
  | .brz => some (0x31, false)
  | .brzLit => some (0x31, true)
  | .brnz => some (0x32, false)
  | .brnzLit => some (0x32, true)
  | .brany => some (0x33, false)
  | .branyLit => some (0x33, true)
  | .brall => some (0x34, false)
  | .brallLit => some (0x34, true)
  | .brnone => some (0x35, false)
  | .brnoneLit => some (0x35, true)
  | .call => some (0x36, false)
  | .callLit => some (0x36, true)
  | .ret => some (0x37, false)
  | .loop => some (0x38, false)
  | .loopLit => some (0x38, true)
  | .split => some (0x39, false)
  | .splitLit => some (0x39, true)
  | .join => some (0x3A, false)
  | .exit => some (0x3B, false)
  | .yield => some (0x3C, false)
  | .sleep => some (0x3D, false)
  | .sleepLit => some (0x3D, true)
  | .trap => some (0x3E, false)
  | .trapLit => some (0x3E, true)
  | .sret => some (0x3F, false)
  | .csrr => some (0x40, false)
  | .csrw => some (0x41, false)
  | .csrwLit => some (0x41, true)
  | .trc => some (0x42, false)
  | .trcLit => some (0x42, true)
  | .bkpt => some (0x43, false)
  | .pand => some (0x48, false)
  | .por => some (0x49, false)
  | .pxor => some (0x4A, false)
  | .pandn => some (0x4B, false)
  | .pnot => some (0x4C, false)
  | .pmov => some (0x4D, false)
  | .pset => some (0x4E, false)
  | .psetLit => some (0x4E, true)
  | .pget => some (0x4F, false)
  | .pcnt => some (0x50, false)
  | .pfirst => some (0x51, false)
  | _ => none

/-- The class and FN of an extended form (R43); VCMP and VCMPM stand at the first of their eight FN (R126). -/
def Instr.extCode : Instr → Option (Nat × Nat)
  | .vadd => some (0x60, 0)
  | .vsub => some (0x60, 1)
  | .vmul => some (0x60, 2)
  | .vmulh => some (0x60, 3)
  | .vmad => some (0x60, 4)
  | .vmin => some (0x60, 5)
  | .vmax => some (0x60, 6)
  | .vabs => some (0x60, 7)
  | .vneg => some (0x60, 8)
  | .vand => some (0x60, 9)
  | .vor => some (0x60, 10)
  | .vxor => some (0x60, 11)
  | .vandn => some (0x60, 12)
  | .vshl => some (0x60, 13)
  | .vshr => some (0x60, 14)
  | .vsar => some (0x60, 15)
  | .vrot => some (0x60, 16)
  | .vclz => some (0x60, 17)
  | .vpop => some (0x60, 18)
  | .vbfx => some (0x60, 19)
  | .vbfi => some (0x60, 20)
  | .vsel => some (0x60, 21)
  | .vmov => some (0x60, 22)
  | .vfadd => some (0x61, 0)
  | .vfsub => some (0x61, 1)
  | .vfmul => some (0x61, 2)
  | .vfma => some (0x61, 3)
  | .vfms => some (0x61, 4)
  | .vfmin => some (0x61, 5)
  | .vfmax => some (0x61, 6)
  | .vfabs => some (0x61, 7)
  | .vfneg => some (0x61, 8)
  | .vfrnd => some (0x61, 9)
  | .vfcls => some (0x61, 10)
  | .vfsqt => some (0x61, 11)
  | .vfdot => some (0x61, 12)
  | .vfscl => some (0x61, 13)
  | .vcmp => some (0x62, 0)
  | .vcmpm => some (0x62, 8)
  | .vcvt => some (0x63, 0)
  | .vpack => some (0x63, 1)
  | .vunpk => some (0x63, 2)
  | .vsxp => some (0x63, 3)
  | .vsxu => some (0x63, 4)
  | .vmxp => some (0x63, 5)
  | .vmxu => some (0x63, 6)
  | .vqdec => some (0x63, 7)
  | .vex2 => some (0x64, 0)
  | .vlg2 => some (0x64, 1)
  | .vrcp => some (0x64, 2)
  | .vrsq => some (0x64, 3)
  | .vsin => some (0x64, 4)
  | .vcos => some (0x64, 5)
  | .vtanh => some (0x64, 6)
  | .vshfl => some (0x65, 0)
  | .vbcast => some (0x65, 1)
  | .vrdx => some (0x65, 2)
  | .vscan => some (0x65, 3)
  | .vread => some (0x65, 4)
  | .vwrite => some (0x65, 5)
  | .vddx => some (0x65, 6)
  | .vddy => some (0x65, 7)
  | .vrotl => some (0x65, 8)
  | .vbsi => some (0x66, 0)
  | .vbsr => some (0x66, 1)
  | .vbsp => some (0x66, 2)
  | .vbsc => some (0x66, 3)
  | .vrng => some (0x67, 0)
  | .vld => some (0x68, 0)
  | .vst => some (0x68, 1)
  | .vldb => some (0x68, 2)
  | .vstb => some (0x68, 3)
  | .spld => some (0x68, 4)
  | .spst => some (0x68, 5)
  | .spldb => some (0x68, 6)
  | .spstb => some (0x68, 7)
  | .vpref => some (0x68, 8)
  | .vatom => some (0x69, 0)
  | .satom => some (0x69, 1)
  | .spatom => some (0x69, 2)
  | .bar => some (0x6A, 0)
  | .arrv => some (0x6A, 1)
  | .waitb => some (0x6A, 2)
  | .waitc => some (0x6A, 3)
  | .fence => some (0x6A, 4)
  | .fenceEvict => some (0x6A, 4)
  | .mon => some (0x6A, 5)
  | .mwait => some (0x6A, 6)
  | .sema => some (0x6A, 7)
  | .semr => some (0x6A, 8)
  | .semt => some (0x6A, 9)
  | .evph => some (0x6A, 10)
  | .fencev => some (0x6A, 11)
  | .strm => some (0x6B, 0)
  | .subs => some (0x6B, 1)
  | .unsub => some (0x6B, 2)
  | .tmpl => some (0x6B, 3)
  | .xgo => some (0x6B, 4)
  | .deal => some (0x6C, 0)
  | .meld => some (0x6C, 1)
  | .gang => some (0x6C, 2)
  | .mres => some (0x6D, 0)
  | .mrel => some (0x6D, 1)
  | .mldaSp => some (0x6D, 2)
  | .mldaReg => some (0x6D, 2)
  | .mldbSp => some (0x6D, 3)
  | .mldbReg => some (0x6D, 3)
  | .mma => some (0x6D, 4)
  | .mmap => some (0x6D, 5)
  | .mzero => some (0x6D, 6)
  | .mrda => some (0x6D, 7)
  | .mrdaSt => some (0x6D, 7)
  | .mwra => some (0x6D, 8)
  | .msta => some (0x6D, 9)
  | .mbar => some (0x6D, 10)
  | .mcmd => some (0x6D, 11)
  | .mcmdEnd => some (0x6D, 11)
  | .qput => some (0x6E, 0)
  | .qtake => some (0x6E, 1)
  | .qdone => some (0x6E, 2)
  | .qeos => some (0x6E, 3)
  | .launch => some (0x6E, 4)
  | .ared => some (0x6F, 0)
  | .agath => some (0x6F, 1)
  | .trace => some (0x70, 0)
  | .qbox => some (0x70, 1)
  | .refit => some (0x70, 2)
  | .reord => some (0x70, 3)
  | .ldlod => some (0x71, 0)
  | .ldlodp => some (0x71, 1)
  | .lodq => some (0x71, 2)
  | .henc => some (0x72, 0)
  | .hgrad => some (0x72, 1)
  | .egath => some (0x72, 2)
  | _ => none

/-- FN of an extended form: the condition of VCMP and VCMPM lies in its low bits (R126). -/
def Fields.fn (x : Fields) (cls fn : Nat) : Nat := if cls = 0x62 then fn + x.cc.toNat else fn

/-- Which fields a base instruction uses: register or number fields B, A, D, the bits of X, and whether operand B accepts a literal. -/
structure BaseUse where
  b : Bool
  a : Bool
  d : Bool
  x : BitVec 2
  lit : Bool
  deriving DecidableEq, Repr

/-- The fields of each base opcode, by the forms of R101 to R115; none for a reserved opcode. REP and GRP are laid out by R44, R45. -/
def baseUse (opc : Nat) : Option BaseUse :=
  match opc with
  | 0x00 | 0x3B | 0x3C | 0x3F | 0x43 => some ⟨false, false, false, 0, false⟩
  | 0x01 => some ⟨true, true, true, 0, true⟩
  | 0x02 => some ⟨false, true, true, 0, false⟩
  | 0x03 => some ⟨true, false, true, 0, true⟩
  | 0x18 | 0x19 => some ⟨false, true, true, 0, false⟩
  | 0x1A => some ⟨true, true, true, 1, true⟩
  | 0x21 => some ⟨true, true, true, 1, true⟩
  | 0x28 => some ⟨false, true, true, 0, false⟩
  | 0x2C => some ⟨false, true, true, 3, false⟩
  | 0x30 => some ⟨true, false, false, 0, true⟩
  | 0x31 | 0x32 | 0x33 | 0x34 | 0x35 => some ⟨true, true, false, 0, true⟩
  | 0x36 | 0x38 => some ⟨true, false, true, 0, true⟩
  | 0x37 => some ⟨false, true, false, 0, false⟩
  | 0x39 => some ⟨true, true, true, 0, true⟩
  | 0x3A => some ⟨false, false, true, 0, false⟩
  | 0x3D | 0x3E | 0x42 => some ⟨true, false, false, 0, true⟩
  | 0x40 => some ⟨false, true, true, 0, false⟩
  | 0x41 => some ⟨true, false, true, 0, true⟩
  | 0x48 | 0x49 | 0x4A | 0x4B => some ⟨true, true, true, 0, false⟩
  | 0x4C | 0x4D | 0x4F | 0x50 | 0x51 => some ⟨false, true, true, 0, false⟩
  | 0x4E => some ⟨true, false, true, 0, true⟩
  | n =>
    if 0x04 ≤ n ∧ n ≤ 0x1F then some ⟨true, true, true, 0, true⟩
    else if 0x20 ≤ n ∧ n ≤ 0x23 then some ⟨true, true, true, 0, true⟩
    else if 0x29 ≤ n ∧ n ≤ 0x2F then some ⟨true, true, true, 0, true⟩
    else none

/-- No reserved field of a base word is set (R26, R38, R44, R45, R100); with a literal, field B is zero (R23). -/
def baseReservedOk (opc : Nat) (x : Fields) : Bool :=
  match baseUse opc with
  | none => false
  | some u =>
    (u.lit || x.lit.isNone) &&
    (if x.lit.isSome then x.b == 0 else (u.b || x.b == 0)) &&
    (u.a || x.a == 0) && (u.d || x.d == 0) && ((x.x &&& ~~~ u.x) == 0) &&
    (opc != 0x01 || (x.stall == 0 && x.d &&& 0x38 == 0 && x.b &&& 0x38 == 0 && (x.lit.isNone || x.a == 0))) &&
    (opc != 0x02 || x.a &&& 0x30 == 0)

/-- Every used field of a base word holds an accepted value: the count of GRP is 1 to 8 (R45). -/
def baseValuesOk (opc : Nat) (x : Fields) : Bool :=
  opc != 0x02 || (1 ≤ x.a.toNat && x.a.toNat ≤ 8)

/-- Which fields an extended form uses. `mod` and `imm` are masks of the bits used. -/
structure ExtUse where
  a : Bool := false
  b : Bool := false
  c : Bool := false
  d : Bool := false
  lit : Bool := false
  abs : Bool := false
  na : Bool := false
  nb : Bool := false
  sat : Bool := false
  rm : Bool := false
  t : Bool := false
  p : Bool := false
  subp : Bool := false
  ec : Bool := false
  mod : BitVec 3 := 0
  imm : BitVec 32 := 0
  deriving DecidableEq, Repr

/-- Integer type codes I8 to N64 (R30). -/
def tIsInt (t : BitVec 4) : Bool := t.toNat < 8
/-- Signed integer type codes (R30). -/
def tIsSigned (t : BitVec 4) : Bool := t.toNat < 4
/-- Unsigned integer type codes (R30). -/
def tIsUnsigned (t : BitVec 4) : Bool := 4 ≤ t.toNat && t.toNat < 8
/-- F16, BF16, F32, F64, the formats R75 calls IEEE. -/
def tIsFloat (t : BitVec 4) : Bool := 8 ≤ t.toNat && t.toNat < 12
/-- A type code with an element width (0x0 to 0xD, R30). -/
def tHasWidth (t : BitVec 4) : Bool := t.toNat < 14

/-- A vector form D, A, B with predication (R120). -/
def vecAB : ExtUse := { a := true, b := true, d := true, lit := true, t := true, p := true, subp := true }
/-- A vector form D, A with predication. -/
def vecA : ExtUse := { a := true, d := true, t := true, p := true, subp := true }
/-- The same with the source modifiers N of R120. -/
def vecABN : ExtUse := { vecAB with abs := true, na := true, nb := true }

/-- Fields of class 0x60 (R121 to R123). -/
def use60 (fn : Nat) (x : Fields) : Option ExtUse :=
  match fn with
  | 0 | 1 | 2 => some { vecABN with sat := true }
  | 3 | 5 | 6 => some vecABN
  | 4 => some { vecABN with c := true, sat := true }
  | 7 | 8 => some { vecA with sat := true }
  | 9 | 10 | 11 | 12 | 13 | 14 | 15 | 16 => some vecAB
  | 17 | 18 => some vecA
  | 19 | 20 => some { vecA with imm := 0x7F3F }
  | 21 => some { vecAB with c := true }
  | 22 => some { vecA with a := false, b := x.imm &&& 0xF == 0, lit := x.imm &&& 0xF == 0, imm := 0xF }
  | _ => none

/-- Fields of class 0x61 (R124, R125). -/
def use61 (fn : Nat) : Option ExtUse :=
  match fn with
  | 0 | 1 | 2 => some { vecABN with sat := true, rm := true }
  | 3 | 4 | 12 => some { vecABN with c := true, sat := true, rm := true }
  | 5 | 6 => some vecABN
  | 7 | 8 | 10 => some vecA
  | 9 => some { vecA with rm := true }
  | 11 => some { vecA with sat := true, rm := true }
  | 13 => some { vecAB with sat := true, rm := true }
  | _ => none

/-- Fields of class 0x63 (R127 to R129). -/
def use63 (fn : Nat) : Option ExtUse :=
  match fn with
  | 0 | 2 => some { vecA with sat := true, rm := true, imm := 0x3F }
  | 1 => some { vecAB with sat := true, rm := true, imm := 0xF }
  | 3 | 4 => some { vecA with subp := false, sat := true, rm := true, mod := 7 }
  | 5 | 6 => some { vecA with subp := false, rm := true, mod := 7 }
  | 7 => some { vecAB with mod := 7, imm := 0xF }
  | _ => none

/-- Fields of class 0x65 (R133 to R136). -/
def use65 (fn : Nat) (x : Fields) : Option ExtUse :=
  let red : ExtUse := { vecA with mod := 7, sat := x.mod == 0 && tIsInt x.t, rm := x.mod == 0 && tIsFloat x.t }
  match fn with
  | 0 => some vecAB
  | 1 => some { vecA with imm := 0x7FF }
  | 2 => some { red with imm := 3 }
  | 3 => some { red with imm := 4 }
  | 4 => some { vecA with p := false, subp := false, mod := 1, c := x.mod &&& 1 == 0, imm := if x.mod &&& 1 == 0 then 0 else 0x7FF }
  | 5 => some { vecA with mod := 1, c := x.mod &&& 1 == 0, imm := if x.mod &&& 1 == 0 then 0 else 0x7FF }
  | 6 | 7 => some { vecA with rm := true, imm := 0x1F }
  | 8 => some { vecA with imm := 0x1F }
  | _ => none

/-- Fields of class 0x68 (R157, R158, R164). -/
def use68 (fn : Nat) (x : Fields) : Option ExtUse :=
  match fn with
  | 0 | 1 | 4 | 5 => some { vecAB with imm := 0x0FFFFFFF }
  | 2 | 3 | 6 | 7 => some { vecAB with subp := false, mod := 7, c := x.t == 0xE && x.mod == 3, imm := 0x0FFFFFFF }
  | 8 => some { vecAB with d := false, t := false, subp := false, mod := 3, imm := 0x0FFFFFFF }
  | _ => none

/-- The operation of an atomic, IMM[31:28] (R169). -/
def atomicOp (x : Fields) : Nat := (x.imm >>> 28).toNat

/-- Fields of class 0x69 (R169 to R172). -/
def use69 (fn : Nat) (x : Fields) : Option ExtUse :=
  let at' : ExtUse := { vecAB with c := true, d := x.mod &&& 1 == 1, rm := atomicOp x == 8, mod := 7, imm := 0xF3FFFFFF }
  match fn with
  | 0 => some at'
  | 1 => some { at' with p := false, subp := false, imm := 0xF0FFFFFF }
  | 2 => some { at' with mod := 1 }
  | _ => none

/-- Fields of class 0x6A (R188). -/
def use6A (fn : Nat) (x : Fields) : Option ExtUse :=
  match fn with
  | 0 => some {}
  | 1 => some { d := true, a := true, imm := 0xFFFF }
  | 2 => some { a := true, b := true, lit := true }
  | 3 => some { b := true, lit := true, imm := 7 }
  | 4 => some (if x.mod &&& 1 == 1 then { a := true, mod := 1 } else { mod := 1, imm := 7 })
  | 5 => some { a := true, b := true, lit := true, imm := 0xFFFFFF }
  | 6 => some { d := true, b := true, lit := true }
  | 7 | 9 => some { d := true, imm := 0xFFFF003F }
  | 8 => some { imm := 0xFFFF003F }
  | 10 => some { imm := 0xF }
  | 11 => some { d := true, a := true, b := true, c := true, lit := true }
  | _ => none

/-- Fields of class 0x6B (R200). -/
def use6B (fn : Nat) : Option ExtUse :=
  match fn with
  | 0 | 3 => some { a := true, b := true, lit := true, imm := 0x3F }
  | 1 => some { d := true, a := true, b := true, c := true, lit := true, imm := 0x13F }
  | 2 => some { a := true }
  | 4 => some { b := true, lit := true, imm := 0x70 }
  | _ => none

/-- Fields of class 0x6C (R200, R236): a GANG of n waves uses the low 5n bits of IMM. -/
def use6C (fn : Nat) (x : Fields) : Option ExtUse :=
  match fn with
  | 0 => some { b := true, lit := true, mod := 1 }
  | 1 => some { mod := 3 }
  | 2 => some { d := true, mod := 7, imm := BitVec.ofNat 32 (2 ^ (5 * x.mod.toNat) - 1) }
  | _ => none

/-- Fields of class 0x6D (R226, R234, R238, R242, R244 to R246). GANG has a meaning only when GEN is set (R237): log 52. -/
def use6D (fn : Nat) (x : Fields) : Option ExtUse :=
  let blk : BitVec 3 := if x.t == 0xE then 7 else 0
  let gang : BitVec 32 := if x.imm.getLsbD 31 then 0xE0000000 else 0x80000000
  match fn with
  | 0 => some { d := true, b := true, lit := true, t := true, mod := blk, ec := true }
  | 1 => some { d := true, ec := true }
  | 2 | 3 =>
    some (if x.imm.getLsbD 15 then { a := true, ec := true, imm := gang ||| 0x1EFFFF }
      else { a := true, b := true, lit := true, ec := true, imm := if fn == 3 then 0x1FFFF else 0xFFFF })
  | 4 | 5 => some { d := true, t := true, mod := blk, ec := true, rm := (x.imm >>> 18) &&& 3 == 0, imm := gang ||| 0x1FFFFF }
  | 6 => some { d := true, ec := true, imm := 1 }
  | 7 => some (if x.imm.getLsbD 12 then { d := true, a := true, ec := true, imm := 0x1000 }
      else { vecA with ec := true, rm := true, imm := 0xFFF })
  | 8 => some { vecA with ec := true, imm := 0xFFF }
  | 9 => some { d := true, a := true, b := true, lit := true, c := x.imm.getLsbD 13, t := true, sat := true, rm := true, ec := true, imm := 0x03FFFFFF }
  | 10 => some { a := true, ec := true, imm := 0xFFFF }
  | 11 => some { ec := true, imm := 0x01FFFFFF }
  | _ => none

/-- Fields of class 0x6E (R263). -/
def use6E (fn : Nat) : Option ExtUse :=
  match fn with
  | 0 => some { a := true, p := true, imm := 0x11F }
  | 1 => some { d := true, c := true, p := true, imm := 0x11F1F }
  | 2 => some { p := true }
  | 3 => some {}
  | 4 => some { a := true, b := true, lit := true }
  | _ => none

/-- Fields of class 0x6F (R200, R219, R221, R222). -/
def use6F (fn : Nat) (x : Fields) : Option ExtUse :=
  match fn with
  | 0 => some { a := true, b := true, lit := true, t := true, mod := 7, rm := x.mod == 0 && tIsFloat x.t, imm := 0x1FFFF }
  | 1 => some { a := true, b := true, lit := true, t := true, imm := 0x1FFFF }
  | _ => none

/-- Fields of class 0x70 (R302). -/
def use70 (fn : Nat) : Option ExtUse :=
  match fn with
  | 0 | 1 => some { d := true, a := true, b := true, c := true, t := true, p := true }
  | 2 => some { a := true, b := true, lit := true }
  | 3 => some { a := true, b := true, lit := true, imm := 0xFFFFFFFF }
  | _ => none

/-- Fields of class 0x71 (R287). -/
def use71 (fn : Nat) : Option ExtUse :=
  match fn with
  | 0 | 2 => some { d := true, a := true, b := true, c := true, lit := true, t := true, p := true, mod := 3, imm := 0xF }
  | 1 => some { d := true, a := true, b := true, lit := true, t := true, p := true, mod := 2, imm := 0xF }
  | _ => none

/-- Fields of class 0x72 (R317). -/
def use72 (fn : Nat) : Option ExtUse :=
  match fn with
  | 0 => some { d := true, a := true, b := true, c := true, t := true, p := true, imm := 0xF }
  | 1 => some { d := true, a := true, b := true, c := true, t := true, p := true, imm := 0x1F }
  | 2 => some { d := true, a := true, b := true, c := true, t := true, p := true, rm := true, mod := 7, imm := 0x3FFFF }
  | _ => none

/-- The fields an extended form uses (R26); none for a reserved class or FN. -/
def extUse (opc fn : Nat) (x : Fields) : Option ExtUse :=
  match opc with
  | 0x60 => use60 fn x
  | 0x61 => use61 fn
  | 0x62 => if fn < 16 then some vecABN else none
  | 0x63 => use63 fn
  | 0x64 => if fn < 7 then some { vecA with abs := true, na := true } else none
  | 0x65 => use65 fn x
  | 0x66 =>
    match fn with
    | 0 | 1 => some { vecAB with imm := 0x7F }
    | 2 => some vecAB
    | 3 => some vecA
    | _ => none
  | 0x67 => if fn = 0 then some vecAB else none
  | 0x68 => use68 fn x
  | 0x69 => use69 fn x
  | 0x6A => use6A fn x
  | 0x6B => use6B fn
  | 0x6C => use6C fn x
  | 0x6D => use6D fn x
  | 0x6E => use6E fn
  | 0x6F => use6F fn x
  | 0x70 => use70 fn
  | 0x71 => use71 fn
  | 0x72 => use72 fn
  | _ => none

/-- A literal stands only where operand B is a source (R23). -/
def extLiteralOk (opc fn : Nat) (x : Fields) : Bool :=
  match extUse opc fn x with
  | none => false
  | some u => u.lit || x.lit.isNone

/-- No reserved field of an extended form is set (R26); with a literal, field B is zero (R23). -/
def extReservedOk (opc fn : Nat) (x : Fields) : Bool :=
  match extUse opc fn x with
  | none => false
  | some u =>
    (if x.lit.isSome then x.b == 0 else (u.b || x.b == 0)) &&
    (u.a || x.a == 0) && (u.c || x.c == 0) && (u.d || x.d == 0) &&
    (u.abs || !x.abs) && (u.na || !x.na) && (u.nb || !x.nb) && (u.sat || !x.sat) &&
    (u.rm || x.rm == 0) && (u.t || x.t == 0) && (u.p || (x.p == 0 && !x.pn)) && (u.subp || !x.subp) &&
    (u.ec || x.ec == 0) && ((x.mod &&& ~~~ u.mod) == 0) && ((x.imm &&& ~~~ u.imm) == 0)

/-- The types and orders of a reduction, R134, R221: MOD names the operation, `ord` the order. -/
def reduceOk (op : Nat) (ord : Nat) (t : BitVec 4) (bitwise : Bool) : Bool :=
  match op with
  | 0 => (tIsInt t && ord == 0) || (tIsFloat t && (ord == 0 || (t == 0xA && ord ≤ 2)))
  | 1 | 2 => (tIsInt t || tIsFloat t) && ord == 0
  | 3 | 4 | 5 => bitwise && tIsInt t && ord == 0
  | _ => false

/-- The formats of a matrix operand, R225, R231. -/
def matrixFormatOk (x : Fields) : Bool :=
  x.t == 0x8 || x.t == 0x9 || x.t == 0xC || x.t == 0xD || (x.t == 0xE && x.mod.toNat ≤ 3)

/-- The types of an atomic operation, R170. -/
def atomicTypeOk (op : Nat) (t : BitVec 4) : Bool :=
  let int := t == 2 || t == 3 || t == 6 || t == 7
  let flt := t == 0xA || t == 0xB
  if op ≤ 5 then int else if op ≤ 7 then int || flt else if op ≤ 10 then flt else false

/-- Every used field of an extended form holds an accepted value (R362, third row). -/
def extValuesOk (opc fn : Nat) (x : Fields) : Bool :=
  let scopeOk (n : Nat) : Bool := n % 8 != 7
  let noNeg : Bool := !(tIsUnsigned x.t && (x.abs || x.na || x.nb))
  match opc with
  | 0x60 =>
    if fn = 22 then tHasWidth x.t && x.imm.toNat < 4
    else if fn = 7 ∨ fn = 8 then tIsSigned x.t
    else tIsInt x.t && noNeg
  | 0x61 => if fn = 12 then x.t == 8 || x.t == 9 else tIsFloat x.t
  | 0x62 => (tIsInt x.t || tIsFloat x.t) && noNeg
  | 0x63 =>
    match fn with
    | 0 | 1 | 2 => tHasWidth x.t && x.imm.toNat % 16 < 14
    | 3 | 4 => x.t == 0xE && x.mod.toNat ≤ 2
    | 5 | 6 => x.t == 0xE && x.mod == 3
    | _ => x.t == 0xF && x.mod.toNat ≤ 1
  | 0x64 => x.t == 8 || x.t == 9 || x.t == 0xA
  | 0x65 =>
    match fn with
    | 2 => reduceOk x.mod.toNat (x.imm.toNat % 4) x.t true
    | 3 => reduceOk x.mod.toNat 0 x.t true
    | 6 | 7 => x.t == 8 || x.t == 9 || x.t == 0xA
    | 8 => x.t == 7
    | _ => tIsInt x.t || tIsFloat x.t
  | 0x66 =>
    x.t == 7 &&
    (match fn with
     | 0 => x.imm.toNat ≤ 64
     | 1 => 1 ≤ x.imm.toNat && x.imm.toNat ≤ 64
     | _ => true)
  | 0x67 => x.t == 6 || x.t == 0xA
  | 0x68 =>
    (x.imm.toNat / 2 ^ 24) % 4 != 3 &&
    (match fn with
     | 0 | 1 | 4 | 5 => tHasWidth x.t
     | 8 => x.mod.toNat % 4 != 3
     | _ => (x.t == 0xE && x.mod.toNat ≤ 3 && (x.imm.toNat / 2 ^ 26) % 4 == 0) || (x.t == 0xF && x.mod.toNat ≤ 1))
  | 0x69 => atomicTypeOk (atomicOp x) x.t && (fn == 1 || (x.imm.toNat / 2 ^ 24) % 4 != 3)
  | 0x6A =>
    match fn with
    | 3 => x.imm.toNat < 6
    | 4 => scopeOk x.imm.toNat
    | _ => true
  | 0x6C =>
    match fn with
    | 1 => x.mod != 0
    | 2 => 2 ≤ x.mod.toNat && x.mod.toNat ≤ 6 && x.d.toNat < 4
    | _ => true
  | 0x6D =>
    match fn with
    | 0 => x.ec == 0 && matrixFormatOk x
    | 4 | 5 =>
      let ord := (x.imm.toNat / 2 ^ 18) % 4
      matrixFormatOk x && ord != 3 && x.ec.toNat == (if ord == 1 then 3 else 2)
    | 7 => x.ec == 0 && (x.imm.getLsbD 12 || x.t == 0xA)
    | 8 => x.ec == 0 && x.t == 0xA
    | 9 =>
      x.ec == 0 && (x.t == 0xA || x.t == 8 || x.t == 9 || x.t == 0xC || x.t == 0xD) &&
      (x.imm.toNat / 2 ^ 14) % 4 ≤ 1 && scopeOk (x.imm.toNat / 2 ^ 23)
    | _ => x.ec == 0
  | 0x6F =>
    scopeOk (x.imm.toNat / 2 ^ 9) && scopeOk (x.imm.toNat / 2 ^ 13) &&
    (if fn = 0 then reduceOk x.mod.toNat (x.imm.toNat % 4) x.t false && x.imm.toNat % 4 != 3
     else tHasWidth x.t && x.imm.toNat % 4 == 0)
  | 0x70 => if fn ≤ 1 then x.t == 0xA else true
  | 0x71 => x.t == 0xA
  | 0x72 =>
    match fn with
    | 0 => x.t == 9
    | 1 => x.t == 0xA
    | _ => x.t == 0xF && x.mod.toNat ≤ 1 && x.imm.toNat % 4 != 3
  | _ => true

/-- Rows that share a class and FN are told apart by one bit of the word (R188, R234, R242, R246). -/
def formOk (i : Instr) (x : Fields) : Bool :=
  match i with
  | .fence => x.mod &&& 1 == 0
  | .fenceEvict => x.mod &&& 1 == 1
  | .mldaSp | .mldbSp => !x.imm.getLsbD 15
  | .mldaReg | .mldbReg => x.imm.getLsbD 15
  | .mrda => !x.imm.getLsbD 12
  | .mrdaSt => x.imm.getLsbD 12
  | .mcmd => !x.imm.getLsbD 24
  | .mcmdEnd => x.imm.getLsbD 24
  | _ => true

/-- The fields that a base word has (R24), the others zero. -/
def Fields.baseOnly (x : Fields) : Fields := { b := x.b, a := x.a, d := x.d, x := x.x, stall := x.stall, lit := x.lit }

/-- The fields that an extended form has (R25), the others zero; the condition only in class 0x62. -/
def Fields.extOnly (cls : Nat) (x : Fields) : Fields := { x with x := 0, cc := if cls = 0x62 then x.cc else 0 }

/-- No reserved field of the word is set: ILLEGAL 2 otherwise. -/
def reservedOk (i : Instr) (x : Fields) : Bool :=
  match i.baseCode with
  | some (opc, _) => baseReservedOk opc x
  | none =>
    match i.extCode with
    | some (cls, fn) => extReservedOk cls (x.fn cls fn) x
    | none => true

/-- Every used field of the word holds an accepted value: ILLEGAL 3 otherwise. -/
def valuesOk (i : Instr) (x : Fields) : Bool :=
  match i.baseCode with
  | some (opc, _) => baseValuesOk opc x
  | none =>
    match i.extCode with
    | some (cls, fn) => extValuesOk cls (x.fn cls fn) x
    | none => true

/-- The literal of the word stands where R23 allows one, and is there exactly if the row is one with a literal. -/
def literalOk (i : Instr) (x : Fields) : Bool :=
  match i.baseCode with
  | some (_, lit) => x.lit.isSome == lit
  | none =>
    match i.extCode with
    | some (cls, fn) => extLiteralOk cls (x.fn cls fn) x
    | none => true

/-- The fields hold nothing that the word has no place for. -/
def placedOk (i : Instr) (x : Fields) : Bool :=
  match i.baseCode with
  | some _ => x == x.baseOnly
  | none =>
    match i.extCode with
    | some (cls, _) => x == x.extOnly cls
    | none => x == {}

/-- An instruction that a word encodes (a base or an extended form), as against an event. -/
def Instr.isWord (i : Instr) : Bool := i.baseCode.isSome || i.extCode.isSome

/-- A well-formed instruction: its form exists, no reserved field is set and every field holds an accepted value. -/
def wellFormed (i : Instr) (x : Fields) : Bool :=
  i.isWord && placedOk i x && literalOk i x && formOk i x && reservedOk i x && valuesOk i x

end Sys2Proof
end

