-- ==== Sys2Proof/Machine/Operands.lean ====
section
/-! DEFINITION. Operand forms: which registers an instruction reads and writes and the checks on them (R32 to R34, R40, R116, R363 to
R365), which agent accepts it (R201, R247, R263, R358), predication (R29), source modifiers (R27), the vector operands and the
element loop (R120). -/

namespace Sys2Proof.Machine

/-! ### Register uses -/

/-- A use of registers by an operand field: `field` 0 D, 1 A, 2 B, 3 C, 4 a predicate run (the DETAIL of R357); `file` 0 s, 1 v, 2 p,
3 c, 4 a; the first register, how many, whether it is read and whether it is written. -/
structure RegUse where
  field : Nat
  file : Nat
  first : Nat
  count : Nat := 1
  rd : Bool := true
  wr : Bool := false
  deriving DecidableEq, Repr

/-- Destination D in a file. -/
def useD (x : Fields) (file : Nat) (count : Nat := 1) : List RegUse := [⟨0, file, x.d.toNat, count, false, true⟩]
/-- Field D as a source. -/
def readD (x : Fields) (file : Nat) (count : Nat := 1) : List RegUse := [⟨0, file, x.d.toNat, count, true, false⟩]
/-- Field D as source and destination. -/
def bothD (x : Fields) (file : Nat) : List RegUse := [⟨0, file, x.d.toNat, 1, true, true⟩]
/-- Source A in a file. -/
def useA (x : Fields) (file : Nat) (count : Nat := 1) : List RegUse := [⟨1, file, x.a.toNat, count, true, false⟩]
/-- Source B in a file, unless it is the literal (R23). -/
def useB (x : Fields) (file : Nat) (count : Nat := 1) : List RegUse :=
  if x.lit.isSome then [] else [⟨2, file, x.b.toNat, count, true, false⟩]
/-- Source C in a file. -/
def useC (x : Fields) (file : Nat) (count : Nat := 1) : List RegUse := [⟨3, file, x.c.toNat, count, true, false⟩]

/-- Registers of a base instruction (R101 to R116). -/
def baseUses (opc : Nat) (x : Fields) : List RegUse :=
  match opc with
  | 0x01 => if x.lit.isSome then [] else useA x 0
  | 0x02 => useD x 0
  | 0x03 => useD x 0 ++ useB x 0
  | 0x18 | 0x19 => useD x 0 ++ useA x 0
  | 0x1B | 0x1F => bothD x 0 ++ useA x 0 ++ useB x 0
  | 0x20 | 0x21 => useD x 0 ++ useA x 3 ++ useB x 0
  | 0x22 | 0x23 => readD x 0 ++ useA x 3 ++ useB x 0
  | 0x28 => useD x 3 ++ useA x 3
  | 0x29 | 0x2A | 0x2B | 0x2D | 0x2E => useD x 3 ++ useA x 3 ++ useB x 0
  | 0x2C => useD x 0 ++ useA x 3
  | 0x2F => readD x 3 ++ useA x 3 ++ useB x 0
  | 0x30 => useB x 0
  | 0x31 | 0x32 => useA x 0 ++ useB x 0
  | 0x33 | 0x34 | 0x35 | 0x39 => useA x 2 ++ useB x 0
  | 0x36 => useD x 0 ++ useB x 0
  | 0x37 => useA x 0
  | 0x38 => bothD x 0 ++ useB x 0
  | 0x3D | 0x3E | 0x41 | 0x42 => useB x 0
  | 0x40 => useD x 0
  | 0x48 | 0x49 | 0x4A | 0x4B => useD x 2 ++ useA x 2 ++ useB x 2
  | 0x4C | 0x4D => useD x 2 ++ useA x 2
  | 0x4E => useD x 2 ++ useB x 0
  | 0x4F | 0x50 | 0x51 => useD x 0 ++ useA x 2
  | _ => if 0x04 ≤ opc ∧ opc ≤ 0x1E then useD x 0 ++ useA x 0 ++ useB x 0 else []

/-- The width that predication counts (R29, R125, R127 to R129). -/
def predWidth (opc fn : Nat) (x : Fields) : Nat :=
  if opc = 0x61 ∧ fn = 12 then 32
  else if x.t = 0xF then 32
  else if widthOf x.t.toNat = 0 then 64 else widthOf x.t.toNat

/-- How many predicates an instruction's predication reads (R29). -/
def predCount (opc fn : Nat) (x : Fields) : Nat := if x.subp then 64 / predWidth opc fn x else 1

/-- The predicate operand (R29). -/
def useP (opc fn : Nat) (x : Fields) : List RegUse := [⟨4, 2, x.p.toNat, predCount opc fn x, true, false⟩]

/-- Registers of an SX or MXF4 block (R128). -/
def blockRegs (mod : Nat) : Nat := match mod with | 0 => 1 | 1 => 2 | _ => 3

/-- NR: registers for each lane of a memory access (R158). -/
def runOf (x : Fields) : Nat := 2 ^ bits x.imm.toNat 26 2

/-- AM, the address mode (R158): 0 INDEX, 1 SCALED, 2 UNIT. -/
def modeOf (x : Fields) : Nat := bits x.imm.toNat 24 2

/-- Registers of the run of a block form (R162). -/
def blockRun (x : Fields) : Nat := if x.t = 0xF then 1 + runOf x else blockRegs x.mod.toNat

/-- The index operand B of a memory form: a scalar register in UNIT mode (R159). -/
def useIndex (x : Fields) : List RegUse := useB x (if modeOf x = 2 then 0 else 1)

/-- Registers of the vector classes 0x60 to 0x67 (R120 to R138). -/
def vectorUses (opc fn : Nat) (x : Fields) : List RegUse :=
  match opc, fn with
  | 0x60, 22 => useD x 1 ++ (if x.imm.toNat % 16 = 0 then useB x 1 else [])
  | 0x60, 20 => bothD x 1 ++ useA x 1
  | 0x60, 7 | 0x60, 8 | 0x60, 17 | 0x60, 18 | 0x60, 19 => useD x 1 ++ useA x 1
  | 0x60, 4 | 0x60, 21 | 0x61, 3 | 0x61, 4 | 0x61, 12 => useD x 1 ++ useA x 1 ++ useB x 1 ++ useC x 1
  | 0x61, 7 | 0x61, 8 | 0x61, 9 | 0x61, 10 | 0x61, 11 => useD x 1 ++ useA x 1
  | 0x62, _ =>
    (if fn < 8 then [⟨if x.d.toNat < 32 then 4 else 0, 2, x.d.toNat, 64 / predWidth opc fn x, false, true⟩] else useD x 1) ++
      useA x 1 ++ useB x 1
  | 0x63, 0 | 0x63, 2 => useD x 1 ++ useA x 1
  | 0x63, 3 => useD x 1 (blockRegs x.mod.toNat) ++ useA x 1 8
  | 0x63, 4 => useD x 1 8 ++ useA x 1 (blockRegs x.mod.toNat)
  | 0x63, 5 => useD x 1 3 ++ useA x 1 16
  | 0x63, 6 => useD x 1 16 ++ useA x 1 3
  | 0x64, _ => useD x 1 ++ useA x 1
  | 0x65, 1 | 0x65, 2 | 0x65, 3 | 0x65, 6 | 0x65, 7 | 0x65, 8 => useD x 1 ++ useA x 1
  | 0x65, 4 => useD x 0 ++ useA x 1 ++ (if x.mod.getLsbD 0 then [] else useC x 0)
  | 0x65, 5 => useD x 1 ++ useA x 0 ++ (if x.mod.getLsbD 0 then [] else useC x 0)
  | 0x66, 3 => useD x 1 ++ useA x 1
  | _, _ => useD x 1 ++ useA x 1 ++ useB x 1

/-- Registers of the memory, atomic and synchronisation classes 0x68 to 0x6A (R157, R169, R188). -/
def memoryUses (opc fn : Nat) (x : Fields) : List RegUse :=
  let scale := if x.t = 0xE ∧ x.mod = 3 then useC x 1 else []
  let pair := if bits x.imm.toNat 28 4 = 7 then 2 else 1
  match opc, fn with
  | 0x68, 0 => useD x 1 (runOf x) ++ useA x 3 ++ useIndex x
  | 0x68, 1 => readD x 1 (runOf x) ++ useA x 3 ++ useIndex x
  | 0x68, 2 => useD x 1 (blockRun x) ++ useA x 3 ++ useIndex x ++ scale
  | 0x68, 3 => readD x 1 (blockRun x) ++ useA x 3 ++ useIndex x ++ scale
  | 0x68, 4 => useD x 1 (runOf x) ++ useA x 0 ++ useIndex x
  | 0x68, 5 => readD x 1 (runOf x) ++ useA x 0 ++ useIndex x
  | 0x68, 6 => useD x 1 (blockRun x) ++ useA x 0 ++ useIndex x ++ scale
  | 0x68, 7 => readD x 1 (blockRun x) ++ useA x 0 ++ useIndex x ++ scale
  | 0x68, _ => useA x 3 ++ useIndex x
  | 0x69, 0 => (if x.mod.getLsbD 0 then useD x 1 else []) ++ useA x 3 ++ useIndex x ++ useC x 1 pair
  | 0x69, 1 => (if x.mod.getLsbD 0 then useD x 0 else []) ++ useA x 3 ++ useB x 0 ++ useC x 0 pair
  | 0x69, _ => (if x.mod.getLsbD 0 then useD x 1 else []) ++ useA x 0 ++ useIndex x ++ useC x 1 pair
  | 0x6A, 1 => useD x 0 ++ useA x 0
  | 0x6A, 2 => useA x 0 ++ useB x 0
  | 0x6A, 3 => useB x 0
  | 0x6A, 4 => if x.mod.getLsbD 0 then useA x 3 else []
  | 0x6A, 5 => useA x 3 ++ useB x 0
  | 0x6A, 6 => useD x 0 ++ useB x 0
  | 0x6A, 7 | 0x6A, 9 => useD x 2
  | 0x6A, 11 => useD x 0 ++ useA x 3 ++ useB x 0 ++ useC x 3
  | _, _ => []

/-- Registers of the engine and unit classes 0x6B to 0x72 (R200, R226, R263, R287, R302, R317). Runs whose length a record gives are
checked where the record is read. -/
def unitUses (opc fn : Nat) (x : Fields) : List RegUse :=
  let imm := x.imm.toNat
  let rows := bits imm 6 6 + 1
  match opc, fn with
  | 0x6B, 0 | 0x6B, 3 => useA x 3 ++ useB x 0
  | 0x6B, 1 => useD x 0 ++ useA x 3 ++ useB x 0 ++ useC x 0
  | 0x6B, 2 => useA x 0
  | 0x6B, _ => useB x 0
  | 0x6C, 0 => useB x 0
  | 0x6D, 0 => useB x 0
  | 0x6D, 2 | 0x6D, 3 => if x.imm.getLsbD 15 then useA x 1 (bits imm 17 4 + 1) else useA x 0 ++ useB x 0
  | 0x6D, 4 | 0x6D, 5 | 0x6D, 6 => readD x 4
  | 0x6D, 7 => if x.imm.getLsbD 12 then useD x 0 ++ useA x 4 else useD x 1 rows ++ useA x 4
  | 0x6D, 8 => readD x 4 ++ useA x 1 rows
  | 0x6D, 9 =>
    readD x 4 ++ useA x (if x.imm.getLsbD 12 then 3 else 0) ++ useB x 0 ++ (if x.imm.getLsbD 13 then useC x 1 else [])
  | 0x6D, 10 => useA x 0
  | 0x6E, 0 => useA x 1 (imm % 32 + 1)
  | 0x6E, 1 => useD x 1 (imm % 32 + 1) ++ [⟨3, 0, x.c.toNat, 1, false, true⟩]
  | 0x6E, 4 => useA x 3 ++ useB x 0
  | 0x6F, _ => useA x 3 ++ useB x 0
  | 0x70, 0 => useD x 1 4 ++ useA x 3 ++ useB x 1 3 ++ useC x 1 3
  | 0x70, 1 => useD x 1 ++ useA x 3 ++ useB x 1 4 ++ useC x 3
  | 0x70, 2 => useA x 3 ++ useB x 0
  | 0x70, _ => useA x 1 ++ useB x 0
  | 0x71, 0 => useD x 1 3 ++ useA x 3 ++ useB x 1 ++ useC x 1 (if x.mod.getLsbD 0 then 1 else 2)
  | 0x71, 1 => useD x 1 3 ++ useA x 3 ++ useB x 1
  | 0x71, _ => useD x 1 ++ useA x 3 ++ useB x 1 ++ useC x 1 (if x.mod.getLsbD 0 then 1 else 2)
  | 0x72, 0 => useD x 1 ++ useA x 3 ++ useB x 1 3 ++ useC x 0
  | 0x72, 1 => readD x 0 ++ useA x 3 ++ useB x 1 3 ++ useC x 1
  | 0x72, _ => useD x 1 (bits imm 2 4 + 1) ++ useA x 3 ++ useB x 1 ++ useC x 3
  | _, _ => []

/-- Whether an extended form reads the predicate operand: it uses P (R26, R29). -/
def usesP (opc fn : Nat) (x : Fields) : Bool := match extUse opc fn x with | some u => u.p | none => false

/-- The register uses of an instruction, in the order D, A, B, C, predicate. -/
def regUses (i : Instr) (x : Fields) : List RegUse :=
  match i.baseCode, i.extCode with
  | some (opc, _), _ => baseUses opc x
  | none, some (opc, fn) =>
    (if opc < 0x68 then vectorUses opc fn x else if opc < 0x6B then memoryUses opc fn x else unitUses opc fn x) ++
      (if usesP opc fn x then useP opc fn x else [])
  | none, none => []

/-- The size of a register file (R32): the allotment bounds the vector file (R34). -/
def fileBound (vallot file : Nat) : Nat :=
  match file with | 0 => 64 | 1 => vallot | 2 => 32 | 3 => 16 | _ => 8

/-- The field of the first use beyond its file (R363). -/
def firstBeyond (vallot : Nat) (us : List RegUse) : Option Nat :=
  (us.find? (fun u => fileBound vallot u.file < u.first + u.count)).map (·.field)

/-! ### Latencies and checks at issue -/

/-- The fixed latency of an instruction (R39); none where it is variable. -/
def latencyOf (i : Instr) (x : Fields) : Option Nat :=
  match i.baseCode, i.extCode with
  | some (opc, _), _ =>
    if opc = 0x40 then some 1
    else if 0x06 ≤ opc ∧ opc ≤ 0x08 then some 2
    else if 0x09 ≤ opc ∧ opc ≤ 0x0C then some 7
    else if (0x20 ≤ opc ∧ opc ≤ 0x23) ∨ opc = 0x2E ∨ opc = 0x2F then none
    else some 0
  | none, some (opc, fn) =>
    match opc, fn with
    | 0x60, 2 | 0x60, 3 | 0x60, 4 => some 3
    | 0x60, _ => some 1
    | 0x61, 12 => some 4
    | 0x61, 11 => some 7
    | 0x61, _ | 0x63, _ | 0x67, _ => some 3
    | 0x62, _ => some 2
    | 0x64, _ => some 6
    | 0x65, 2 => some (if x.imm.toNat % 4 = 1 then 7 else 6)
    | 0x65, 3 => some 6
    | 0x65, _ => some 5
    | 0x66, _ => some 4
    | _, _ => none
  | none, none => none

/-- The late writes with the bits that no later write of the same fragment replaces: the results that a reader would read (R40). -/
def unreplaced : List Late → List Late
  | [] => []
  | l :: rest =>
    let m := (rest.filter (fun k => k.thread == l.thread && k.file == l.file && k.key == l.key)).foldl (fun m k => without m k.mask) l.mask
    if m = 0 then unreplaced rest else { l with mask := m } :: unreplaced rest

/-- A read of a register comes before the rule of R40 allows (R365). -/
def readShort (s : State) (u : RegUse) : Bool :=
  u.rd && (unreplaced s.curW.late).any (fun l =>
    l.thread == s.cur && l.file == u.file && l.by' != s.curT.position && s.curT.position < l.due &&
    (let k := if l.file = 1 then l.key / 32 else l.key
     u.first ≤ k && k < u.first + u.count))

/-- The file of the first short operand of an instruction while `SCBCHK`.EN = 1 (R365). -/
def stallShort (s : State) (us : List RegUse) : Option Nat :=
  if s.curW.scbchk && !isSequencer s.curWk then (us.find? (readShort s)).map (·.file) else none

/-- Base opcodes that a sequencer accepts (R201). -/
def sequencerBase (opc : Nat) : Bool := opc == 0 || (3 ≤ opc && opc ≤ 0x1F) || opc == 0x38 || opc == 0x3B

/-- Extended forms that a sequencer accepts (R201, R247): a predicate destination other than p0 does not exist there. -/
def sequencerExt (opc fn : Nat) (x : Fields) : Bool :=
  match opc with
  | 0x6A => !(fn == 0 || fn == 5 || fn == 6 || fn == 11) && !((fn == 7 || fn == 9) && x.d != 0)
  | 0x6B => true
  | 0x6D =>
    !(fn == 7 || fn == 8) && !((fn == 2 || fn == 3) && x.imm.getLsbD 15) && !(fn == 9 && x.imm.getLsbD 13) &&
    !(2 ≤ fn && fn ≤ 5 && x.imm.getLsbD 31)
  | _ => false

/-- The issuing agent accepts the instruction (R201, R247, R263, R358). -/
def agentAccepts (s : State) (i : Instr) : Bool :=
  if isSequencer s.curWk then
    match i.baseCode, i.extCode with
    | some (opc, _), _ => sequencerBase opc
    | none, some (opc, fn) => sequencerExt opc fn s.ir
    | none, none => false
  else
    match i.extCode with
    | some (0x6E, fn) => fn == 4 || s.curC.stage.isSome
    | _ => true

/-- The unit that an instruction needs is absent from its die (R14, R363): the class. -/
def unitAbsent (s : State) (i : Instr) : Option Nat :=
  match i.extCode with
  | some (opc, _) => if 0x70 ≤ opc ∧ opc ≤ 0x72 ∧ dieClass s.curDie = 0 then some opc else none
  | none => none

/-- The trap that the checks at issue find, before any check of the instruction's own (log 13): code and detail. -/
def entryTrap (s : State) (i : Instr) : Option (Nat × Nat) :=
  match unitAbsent s i with
  | some opc => some (0x04, opc)
  | none =>
    if !agentAccepts s i then some (0x01, 4)
    else
      match stallShort s (regUses i s.ir) with
      | some file => some (0x02, file)
      | none => (firstBeyond s.curC.vallot (regUses i s.ir)).map (fun f => (0x03, f))

/-- The current thread exists and the checks at issue find nothing. -/
def admits (s : State) (i : Instr) : Bool := thas s.threads s.cur && (entryTrap s i).isNone

/-- Run a meaning behind the checks at issue. -/
def guarded (i : Instr) (s : State) (body : State → Out) : Out :=
  if !thas s.threads s.cur then .fault .noAgent
  else
    match entryTrap s i with
    | some (code, detail) => trap s code detail
    | none => body s

/-! ### Predication and vector operands -/

/-- The lanes that the instruction still runs in: the fragment's mask less the lanes done before a park or a trap (R156, R360). -/
def State.lanes (s : State) : LaneMask := s.mask &&& ~~~ s.curT.doneLanes

/-- The predicates of an instruction, one for each sub-element of width `w` with SUBP, else one (R29). -/
def readPreds (s : State) (w : Nat) : List LaneMask :=
  (upTo (if s.ir.subp then 64 / w else 1)).map (fun k => readP s (s.ir.p.toNat + k))

/-- Sub-element `k` of a lane is selected (R29). -/
def picks (x : Fields) (ps : List LaneMask) (k L : Nat) : Bool :=
  (ps.getD (if x.subp then k else 0) 0).getLsbD L != x.pn

/-- The bits of the selected sub-elements of width `w` of a lane. -/
def pickMask (x : Fields) (ps : List LaneMask) (w L : Nat) : Word :=
  (upTo (64 / w)).foldl (fun m k => if picks x ps k L then m ||| elemMask w k else m) 0

/-- Some sub-element of the lane is selected. -/
def picksAny (x : Fields) (ps : List LaneMask) (w L : Nat) : Bool := (upTo (64 / w)).any (fun k => picks x ps k L)

/-- The lanes that run the instruction and have a selected sub-element, ascending. -/
def activeLanes (s : State) (w : Nat) : List Nat :=
  let ps := readPreds s w
  (lanesOf s.lanes).filter (picksAny s.ir ps w)

/-- A word built from its elements of width `w`. -/
def ofElems (w : Nat) (f : Nat → Nat) : Word := (upTo (64 / w)).foldl (fun r k => setElem w k r (f k)) 0

/-- Vector operand A, B or C in a lane; a literal B stands in every lane (R23). -/
def vecA (s : State) (w L : Nat) : Word := readV s w s.ir.a.toNat L
/-- Vector operand B in a lane. -/
def vecB (s : State) (w L : Nat) : Word := match s.ir.lit with | some v => v | none => readV s w s.ir.b.toNat L
/-- Vector operand C in a lane. -/
def vecC (s : State) (w L : Nat) : Word := readV s w s.ir.c.toNat L

/-- A source modifier on an element (R27): the absolute value, then the negation; of a float, on the sign bit alone. -/
def modified (t : Nat) (abs neg : Bool) (e : Nat) : Nat :=
  let w := widthOf t
  if t < 8 then
    let a := if abs ∧ signed w e < 0 then wrap w (-(signed w e)) else e
    if neg then wrap w (-(a : Int)) else a
  else
    let m := e % 2 ^ (w - 1)
    let sgn := if abs then 0 else e / 2 ^ (w - 1) % 2
    m + (if neg then 1 - sgn else sgn) * 2 ^ (w - 1)

/-- Element k of operand A after its modifiers. -/
def elemA (s : State) (L k : Nat) : Nat :=
  let t := s.ir.t.toNat
  modified t s.ir.abs s.ir.na (elem (widthOf t) k (vecA s (widthOf t) L))
/-- Element k of operand B after its modifiers. -/
def elemB (s : State) (L k : Nat) : Nat :=
  let t := s.ir.t.toNat
  modified t s.ir.abs s.ir.nb (elem (widthOf t) k (vecB s (widthOf t) L))
/-- Element k of operand C. -/
def elemC (s : State) (L k : Nat) : Nat := elem (widthOf s.ir.t.toNat) k (vecC s (widthOf s.ir.t.toNat) L)

/-- Write a word for each active lane into v[D], in the selected sub-elements of width `w` (R29, R120). Every source is read from
the state before. -/
def writeLanes (s : State) (lt w : Nat) (f : Nat → Word) : State :=
  let ps := readPreds s w
  (activeLanes s w).foldl (fun u L => writeV u lt s.ir.d.toNat L (pickMask s.ir ps w L) (f L)) s

/-- The element loop of R120 for elements of the type T. -/
def elementwise (s : State) (lt : Nat) (f : Nat → Nat → Nat) : State :=
  let w := widthOf s.ir.t.toNat
  writeLanes s lt w (fun L => ofElems w (f L))

end Sys2Proof.Machine
end

