-- ==== Sys2Proof/Machine/Memory.lean ====
section
/-! DEFINITION. Memory: bytes, granule tags (R142), poison (R394), monitors (R195), and capabilities as values (R140). Memory is one
table from a flat key (die, space, address) to bytes; a byte that nothing has written reads 0 (log 2). -/

namespace Sys2Proof.Machine

/-- The key of a physical address (space in bits [51:48]) of a die (R145); host memory, which every die reaches, is one space. DESIGN CHOICE: of a base,
a root or a sum that has bits above 51, the 52 low bits are the address (log 144). -/
def keyOf (die phys : Nat) : Nat :=
  let a := phys % 2 ^ 52
  if a / 2 ^ 48 = 2 then 12 * 2 ^ 52 + a else die * 2 ^ 52 + a
/-- The die of a key; 12 is host memory. -/
def dieOfKey (key : Nat) : Nat := key / 2 ^ 52
/-- The space of a key. -/
def spaceOf (key : Nat) : Nat := key / 2 ^ 48 % 16
/-- Whether a key lies in host memory. -/
def isHost (key : Nat) : Bool := 12 * 2 ^ 52 ≤ key
/-- The line of a key: 64 bytes (R151). -/
def lineOf (key : Nat) : Nat := key / 64

/-- Whether a key names a byte that the part has: DRAM of the die, its window of the second tier, host memory (R11, R145, R349). -/
def State.has (s : State) (key : Nat) : Bool :=
  match spaceOf key with
  | 0 => dieOfKey key < 12 && key % 2 ^ 48 < 4 * quarterBytes (dieOfKey key)
  | 1 => dieOfKey key < 12 && key % 2 ^ 48 < (s.die (dieOfKey key)).window
  | 2 => isHost key
  | _ => false

/-- The key lies in a context region of its die: the top 1 GiB of a quarter, which only the VN8 writes (R371). -/
def inFrames (key : Nat) : Bool :=
  let q := quarterBytes (dieOfKey key)
  !isHost key && spaceOf key == 0 && decide (key % 2 ^ 48 < 4 * q) && decide (q - 2 ^ 30 ≤ key % 2 ^ 48 % q)

/-- Read a byte of memory. -/
def State.byte (s : State) (key : Nat) : Byte := tget 0 s.mem key
/-- Read `n` bytes of memory, lowest address first. -/
def State.bytes (s : State) (key n : Nat) : List Byte := (upTo n).map (fun i => s.byte (key + i))
/-- Read an `n`-byte number. -/
def State.num (s : State) (key n : Nat) : Nat := numOfBytes (s.bytes key n)

/-- Write bytes into a memory table. -/
def memPut (m : Table Byte) (key : Nat) : List Byte → Table Byte
  | [] => m
  | b :: t => memPut (sput 0 m key b) (key + 1) t

/-- The granules that `n` bytes at a key touch (R142). -/
def granules (key n : Nat) : List Nat :=
  if n = 0 then [] else (upTo ((key + n - 1) / 16 - key / 16 + 1)).map (fun i => key / 16 + i)

/-- Write bytes, and the tag 0 of every granule touched (R142). -/
def State.write (s : State) (key : Nat) (bs : List Byte) : State :=
  { s with mem := memPut s.mem key bs, tags := s.tags.filter (fun g => !(granules key bs.length).contains g) }

/-- Write a granule with a tag (R142): host memory holds no tags (R107). -/
def State.writeTagged (s : State) (key : Nat) (bs : List Byte) (tag : Bool) : State :=
  let s := s.write key bs
  if tag && !isHost key then { s with tags := linsert (key / 16) s.tags } else s

/-- The tag of the granule at a key (R142): a poisoned granule reads 0 (R394). -/
def State.tag (s : State) (key : Nat) : Bool := s.tags.contains (key / 16) && !s.poison.contains (lineOf key)

/-- Whether a line is poisoned (R394). -/
def State.poisoned (s : State) (key : Nat) : Bool := s.poison.contains (lineOf key)

/-- Clear the poison of the lines that a write covers whole (R394). -/
def State.cleanse (s : State) (key n : Nat) : State :=
  { s with poison := s.poison.filter (fun l => !(key ≤ 64 * l && 64 * l + 64 ≤ key + n)) }

/-- A store to a line at a logical time triggers the monitors armed on it (R195). -/
def State.trigger (s : State) (line ts : Nat) : State :=
  if s.waves.any (fun e => match e.2.monitor with | some m => m.line == line | none => false) then
    { s with waves := s.waves.map (fun e => (e.1, { e.2 with
        monitor := e.2.monitor.map (fun m => if m.line = line ∧ m.ts < ts then { m with hit := true } else m) })) }
  else s

/-! ### Capabilities -/

/-- RIGHTS, R140: bit 7 R, 6 W, 5 X, 4 A, 3 G, 2 L, 1 E, 0 S. -/
def Cap.rights (c : Cap) : Nat := bits c.raw.toNat 120 8
/-- G, the window granule exponent. -/
def Cap.g (c : Cap) : Nat := bits c.raw.toNat 114 6
/-- BASE, in granules. -/
def Cap.base (c : Cap) : Nat := bits c.raw.toNat 96 18
/-- LEN, in granules. -/
def Cap.len (c : Cap) : Nat := bits c.raw.toNat 78 18
/-- OBJ, the object index. -/
def Cap.obj (c : Cap) : Nat := bits c.raw.toNat 46 32
/-- OFF, the offset. -/
def Cap.off (c : Cap) : Nat := bits c.raw.toNat 2 44

/-- A capability's bits with the field at `lo` of `n` bits replaced. -/
def Cap.withField (c : Cap) (lo n v : Nat) : BitVec 128 :=
  BitVec.ofNat 128 (c.raw.toNat - bits c.raw.toNat lo n * 2 ^ lo + v % 2 ^ n * 2 ^ lo)

/-- The window as a byte range: none with g above 26 (R140). -/
def Cap.window (c : Cap) : Nat × Nat := if 26 < c.g then (0, 0) else (c.base * 2 ^ c.g, (c.base + c.len) * 2 ^ c.g)

/-- [e, e + n) lies inside the window. -/
def Cap.covers (c : Cap) (e : Int) (n : Nat) : Bool :=
  decide ((c.window.1 : Int) ≤ e) && decide (e + n ≤ (c.window.2 : Int)) && decide (0 ≤ e)

/-- The tag of a capability derived from `c` (R106). -/
def Cap.derivedTag (c : Cap) : Bool := c.tag && !bitAt c.rights 0

/-- The capability that 16 bytes and a tag hold: tag 0 where bits [1:0] are not 0 (R142). -/
def capOf (bs : List Byte) (tag : Bool) : Cap :=
  let n := numOfBytes bs
  ⟨BitVec.ofNat 128 n, tag && n % 4 == 0⟩

/-- The bytes of a capability. -/
def Cap.toBytes (c : Cap) : List Byte := bytesOf 16 c.raw.toNat

/-! ### Fabric packets -/

/-- The agent of an atomic that a die's front end sends to its home (R335); the others are threads. -/
def frontAgent : Nat := 2 ^ 60

/-- The crew that stands for a die's front end in its page-request groups (R390). -/
def frontCrew : Nat := 2 ^ 60

/-- Put a packet on the fabric, with the next sequence number of its pair and the sender's incarnation (R331, R337). On a route that is up
it arrives before its sender would send it again (R400). -/
def sendPacket (s : State) (p : Packet) : State :=
  let d := s.die p.src
  let seq := tget 0 d.sendSeq p.dst
  let s := s.putDie p.src { d with sendSeq := tput d.sendSeq p.dst (seq + 1) }
  let id := tnext s.packets
  { s with packets := tput s.packets id { p with
      incarnation := d.incarnation, seq := seq, route := if d.linksDown.contains (2 * p.dst) then 1 else 0, sentAt := s.clock, arriveAt := s.clock + 1 + Config.latency s.fresh (2 * id + 1) % 29998 } }

end Sys2Proof.Machine
end

