-- ==== Sys2Proof/Machine/Translate.lean ====
section
/-! DEFINITION. The checks on an access in the order of R385, object entries (R144), extent trees (R147), peer entries (R386) and host
pages (R348, R390): from (agent, capability, offset) to a physical location, or to what stops the access; the object-table entries, leaves and
peer pages that a die has found and keeps until they are invalidated or make room (R149, R150, R336). -/

namespace Sys2Proof.Machine

/-- In whose name an access is made: die, ASID, the resolved extents of versioned objects (R146), and the core whose memory port translates
(R149); none for the die's own front end. -/
structure Ctx where
  die : Nat
  asid : Nat
  cur : Table Nat := []
  core : Option Nat := none
  deriving DecidableEq, Repr

/-- The context of a crew. -/
def Crew.ctx (c : Crew) : Ctx := ⟨c.die, c.asid, c.cur, some c.core⟩

/-- What an instruction asks of an access (R385): the DETAIL of CAPTAG, the rights, the alignment, the object kind it needs (0 any,
1 LOD, 2 versioned), and whether it writes or is an atomic. -/
structure Need where
  field : Nat := 0
  rights : Nat
  align : Nat := 1
  kind : Nat := 0
  write : Bool := false
  atomic : Bool := false
  deriving DecidableEq, Repr

/-- What stops an access: a trap; a page fault on a die (R156, R388); a host page that ATS does not translate (R390); a migration lock
(R187); a physical address that does not exist; a line of another die that must be fetched first, shared or exclusive (R339), for an access whose
policy lets the remote-data cache allocate it or not (R335); or by an atomic at its home, whose answer has a key and whose operands are sent unless they are under way (R340). -/
inductive Stop where
  | trap (code detail : Nat)
  | page (die asid obj page why : Nat) (write atomic tail : Bool)
  | host (page : Nat)
  | locked (die asid obj : Nat)
  | hole (key : Nat)
  | remote (line : Nat) (exclusive alloc : Bool)
  | atHome (line answer : Nat) (op : List Nat)
  deriving DecidableEq, Repr

/-- What a translation has found, for the structures that keep it (R149, R150, R336): the die and the core whose port translated, the object,
its entry's words, the leaf of its page (page, value, key), the page of a peer object, and where a run-table entry predicts the access. -/
structure Found where
  die : Nat
  core : Option Nat
  asid : Nat
  obj : Nat
  entry : Nat × Nat × Nat × Nat
  leaf : Option LeafEntry := none
  peer : Option PeerEntry := none
  predicted : Option Nat := none
  deriving DecidableEq, Repr

/-- Where an access goes: the byte's key, its policy and placement, the leaf it came through, whether through a peer entry, and its range
in the eviction schedule (R152). -/
structure Loc where
  key : Nat
  pol : Nat := 0
  apl : Nat := 0
  leaf : Option Nat := none
  peer : Bool := false
  range : Nat := 15
  /-- Of an access that goes on in another line or another extent (R146): the bytes in the first place, and the key of the second place. -/
  second : Option (Nat × Nat) := none
  /-- Of a host page whose reads the host answers with an error (R395). -/
  fails : Bool := false
  found : Option Found := none
  /-- Of a host page: the die, the page, and its translation, which the die keeps (R348). -/
  ats : Option (Nat × Nat × HostPage) := none
  deriving DecidableEq, Repr

/-! ### Rights, as bits of the rights byte (R105) -/
def rightR : Nat := 128
def rightW : Nat := 64
def rightX : Nat := 32
def rightA : Nat := 16
def rightL : Nat := 4

/-- The rights of `need` that `have'` lacks. -/
def missing (need have' : Nat) : Nat := (upTo 8).foldl (fun m k => if bitAt need k && !bitAt have' k then m + 2 ^ k else m) 0

/-- The four words of an object-table entry (R144). -/
structure Entry where
  w0 : Nat
  w1 : Nat
  w2 : Nat
  w3 : Nat
  deriving DecidableEq, Repr

/-- V. -/
def Entry.valid (e : Entry) : Bool := bitAt e.w0 63
/-- KIND: 1 contiguous, 2 paged, 3 peer, 4 LOD, 5 versioned. -/
def Entry.kind (e : Entry) : Nat := bits e.w0 60 3
/-- POL. -/
def Entry.pol (e : Entry) : Nat := bits e.w0 56 4
/-- APL. -/
def Entry.apl (e : Entry) : Nat := bits e.w0 54 2
/-- SIZE. -/
def Entry.size (e : Entry) : Nat := bits e.w0 0 44
/-- The bound on offsets (R141, R146). -/
def Entry.bound (e : Entry) : Nat := if e.kind = 5 then 2 * e.size else e.size

/-- The key of the entry of an object. -/
def entryKey (s : State) (die asid obj : Nat) : Nat := keyOf die ((tget {} (s.die die).asids asid).base + 32 * obj)

/-- The words of an entry. -/
def Entry.words (e : Entry) : Nat × Nat × Nat × Nat := (e.w0, e.w1, e.w2, e.w3)

/-- The key under which a die holds an entry. -/
def heldKey (asid obj : Nat) : Nat := asid * 2 ^ 32 + obj

/-- The entry of an object as it stands in the table of a die and ASID (R143): beyond the count, none. -/
def storedEntry (s : State) (die asid obj : Nat) : Option Entry :=
  if obj < (tget {} (s.die die).asids asid).count then
    let k := entryKey s die asid obj
    some ⟨s.num k 8, s.num (k + 8) 8, s.num (k + 16) 8, s.num (k + 24) 8⟩
  else none

/-- The entry of an object by which a die translates: as an access last found it, until it is invalidated (R150), else as it stands. -/
def entryOf (s : State) (die asid obj : Nat) : Option Entry :=
  match storedEntry s die asid obj with
  | none => none
  | some e => match tfind? (s.die die).held (heldKey asid obj) with | some w => some ⟨w.1, w.2.1, w.2.2.1, w.2.2.2⟩ | none => some e

/-- The entry of an object would be read from a poisoned line (R395): it is in the table, and the die does not hold it. -/
def entryPoisoned (s : State) (die asid obj : Nat) : Bool :=
  decide (obj < (tget {} (s.die die).asids asid).count) && !thas (s.die die).held (heldKey asid obj) && s.poisoned (entryKey s die asid obj)

/-- A walk of an extent tree (R147): the physical address, the leaf's value and key, or why it fails (R389). -/
structure Walk where
  phys : Nat
  leaf : Nat
  leafKey : Nat
  deriving DecidableEq, Repr

/-- The physical address of an offset whose page a leaf maps (R147). -/
def leafPhys (v off : Nat) : Nat :=
  if bitAt v 52 then bits v 21 31 * 2 ^ 21 + off % 2 ^ 21 else bits v 16 36 * 2 ^ 16 + off % 2 ^ 16

/-- What a leaf gives (R147, R389): V, then reserved values, then RES. -/
def walkLeaf (v key off : Nat) (large : Bool) : Except Nat Walk :=
  if !bitAt v 63 then .error 0
  else if bitAt v 52 != large || bits v 57 2 == 3 || 4 ≤ bits v 53 4 || 3 ≤ bits v 48 4 || (large && bits v 16 5 != 0) then .error 3
  else if !bitAt v 62 then .error 1
  else
    .ok ⟨leafPhys v off, v, key⟩

/-- Walk the levels below `n` from a node at a physical address. -/
def walkFrom (s : State) (die off : Nat) : Nat → Nat → Except Nat Walk
  | 0, node => let key := keyOf die (node + 8 * bits off 16 5); walkLeaf (s.num key 8) key off false
  | n + 1, node =>
    let index := if n = 2 then bits off 39 5 else if n = 1 then bits off 30 9 else bits off 21 9
    let key := keyOf die (node + 8 * index)
    let v := s.num key 8
    if !bitAt v 63 then .error (if n = 0 ∧ bitAt v 52 then 0 else 2)
    else if bitAt v 52 then (if n = 0 then walkLeaf v key off true else .error 3)
    else if 3 ≤ bits v 48 4 then .error 3
    else walkFrom s die off n (bits v 8 44 * 2 ^ 8)

/-- Walk the tree of a paged or LOD object from its root. -/
def walkTree (s : State) (die root off : Nat) : Except Nat Walk := walkFrom s die off 3 root

/-- The keys of the tree entries that a walk reads for an offset, `n` levels and a leaf below a node. -/
def walkKeys (s : State) (die off : Nat) : Nat → Nat → List Nat
  | 0, node => [keyOf die (node + 8 * bits off 16 5)]
  | n + 1, node =>
    let key := keyOf die (node + 8 * (if n = 2 then bits off 39 5 else if n = 1 then bits off 30 9 else bits off 21 9))
    let v := s.num key 8
    key :: (if bitAt v 63 && !bitAt v 52 then walkKeys s die off n (bits v 8 44 * 2 ^ 8) else [])

/-- A leaf of the extent cache maps the page of an offset of an object. -/
def LeafEntry.maps (x : LeafEntry) (asid obj off : Nat) : Bool :=
  x.asid == asid && x.obj == obj && (if bitAt x.leaf 52 then x.page / 32 == off / 2 ^ 21 else x.page == off / 2 ^ 16)

/-- The leaf of an offset: from the core's extent cache (R149), else by a walk. -/
def findLeaf (s : State) (die : Nat) (core : Option Nat) (asid obj root off : Nat) : Except Nat Walk :=
  match core.bind (fun k => (tget [] (s.die die).extents k).find? (fun x => x.maps asid obj off)) with
  | some x => .ok ⟨leafPhys x.leaf off, x.leaf, x.leafKey⟩
  | none => walkTree s die root off

/-- The walk for an offset, which no leaf of the core's extent cache spares, reads a poisoned line (R395). -/
def walkPoisoned (s : State) (die : Nat) (core : Option Nat) (asid obj root off : Nat) : Bool :=
  !core.any (fun k => (tget [] (s.die die).extents k).any (fun x => x.maps asid obj off)) && (walkKeys s die off 3 root).any s.poisoned

/-- Where the core's run table predicts an offset of an object (R149). -/
def predictedPhys (d : Die) (core : Option Nat) (asid obj off : Nat) : Option Nat :=
  (core.bind (fun k => (tget [] d.runs k).find? (fun r =>
    r.asid == asid && r.obj == obj && decide (r.first ≤ off / 2 ^ 16) && decide (off / 2 ^ 16 ≤ r.last)))).map
    (fun r => r.phys + (off - r.first * 2 ^ 16))

/-- The export entry that an id names on a die (R332): its two words. -/
def exportOf (s : State) (die id : Nat) : Nat × Nat := tget (0, 0) (s.die die).exports (id % 4096)

/-- The importer's and the exporter's checks of R386 for an access of importer `die`; the exporter's entry on success. DESIGN CHOICE: an
exporter of another partition, which no import crosses (R351), does not name the importer (log 132). -/
def peerCheck (s : State) (die : Nat) (e : Entry) (rights : Nat) : Except Stop (Nat × Nat × Nat × Entry) :=
  let id := bits e.w1 0 32
  let x := bits e.w1 32 4
  let (w0, w1) := exportOf s x id
  let asid := bits w0 32 13
  let obj := bits w0 0 32
  let held := if (s.die x).fenced then 0 else (s.die x).incarnation
  if bits e.w1 36 8 != held then .error (.trap 0x13 1)
  else if !bitAt w0 63 || bits w1 48 16 != bits id 16 16 then .error (.trap 0x13 2)
  else if !bitAt w0 (48 + die) || (s.die x).partition != (s.die die).partition then .error (.trap 0x13 3)
  else
    let have' := (if bitAt w0 62 then rightR else 0) + (if bitAt w0 61 then rightW else 0) + (if bitAt w0 60 then rightA else 0)
    let miss := missing (rights &&& (rightR + rightW + rightA)) have'
    if miss != 0 then .error (.trap 0x12 (miss + 1))
    else if entryPoisoned s x asid obj then .error (.trap 0x50 2)
    else
      match entryOf s x asid obj with
      | none => .error (.trap 0x22 6)
      | some xe => if xe.valid && (xe.kind == 1 || xe.kind == 2) then .ok (x, asid, obj, xe) else .error (.trap 0x22 6)

/-- The translation of a host page for a die: the one that it has received, until the host invalidates it, else what the host has mapped (R348). PRESUMED:
the host invalidates a translation as ATS has it, page by page; the die keeps any number of them (log 150). -/
def atsPage (s : State) (die page : Nat) : Option HostPage :=
  match tfind? (s.die die).ats page with
  | some p => some p
  | none => tfind? s.hostPages page

/-- The physical address of a space-2 access (R348, R390) for a die and ASID: an atomic reads and writes. -/
def hostLoc (s : State) (die asid phys : Nat) (write : Bool) (loc : Loc) (atomic : Bool := false) : Except Stop Loc :=
  let a := phys % 2 ^ 48
  let page := (die * 8192 + asid) * 2 ^ 36 + a / 4096
  match atsPage s die page with
  | none => .error (.host page)
  | some p =>
    if (write && !p.write) || ((!write || atomic) && !p.read) then .error (.trap 0x21 3)
    else .ok { loc with key := keyOf 12 (2 * 2 ^ 48 + p.frame * 4096 + a % 4096), pol := 3, fails := p.fails, ats := some (die, page, p) }

/-- A physical location on a die: host memory through ATS, every other space as it stands. -/
def physLoc (s : State) (die asid phys : Nat) (write : Bool) (loc : Loc) (atomic : Bool := false) : Except Stop Loc :=
  if phys % 2 ^ 52 / 2 ^ 48 = 2 then hostLoc s die asid phys write loc atomic
  else
    let key := keyOf die phys
    if s.has key then .ok { loc with key := key } else .error (.hole key)

/-- Translate an offset through an entry that is contiguous, versioned, paged or LOD (R144 to R147), by the memory port of a core. DESIGN CHOICE: a
reserved POL or APL in word 0 refuses nothing: POL 4 to 15 act as NOCACHE, APL 3 as HOME (log 145). -/
def entryLoc (s : State) (die asid obj : Nat) (cur : Table Nat) (e : Entry) (off : Nat) (write atomic : Bool) (core : Option Nat := none) :
    Except Stop Loc :=
  let found : Found := { die := die, core := core, asid := asid, obj := obj, entry := e.words }
  match e.kind with
  | 1 => physLoc s die asid (e.w1 + off) write { key := 0, pol := e.pol, apl := e.apl, found := some found } atomic
  | 5 =>
    let c := match tfind? cur obj with | some c => c | none => e.w3 % 2
    let other := if e.size ≤ off then 1 - c else c
    physLoc s die asid ((if other = 1 then e.w2 else e.w1) + (if e.size ≤ off then off - e.size else off)) write
      { key := 0, pol := e.pol, apl := e.apl, found := some found } atomic
  | _ =>
    if walkPoisoned s die core asid obj e.w1 off then .error (.trap 0x50 2) else
    match findLeaf s die core asid obj e.w1 off with
    | .error why => .error (.page die asid obj (off / 2 ^ 16) why write atomic false)
    | .ok w =>
      if write && bitAt w.leaf 59 then .error (.locked die asid obj)
      else
        let page := if bitAt w.leaf 52 then off / 2 ^ 21 * 32 else off / 2 ^ 16
        physLoc s die asid w.phys write {
          key := 0, pol := bits w.leaf 53 4, apl := bits w.leaf 57 2, leaf := some w.leafKey
          found := some { found with
            leaf := some ⟨asid, obj, page, w.leaf, w.leafKey⟩
            predicted := (predictedPhys (s.die die) core asid obj off).bind (fun p => if p = w.phys then none else some p) } } atomic

/-- The checks of R385 on a capability and its object before any offset: steps 1 to 3; the entry. -/
def objectCheck (s : State) (ctx : Ctx) (c : Cap) (need : Need) : Except Stop Entry :=
  if !c.tag then .error (.trap 0x10 need.field)
  else if entryPoisoned s ctx.die ctx.asid c.obj then .error (.trap 0x50 2)
  else
    match entryOf s ctx.die ctx.asid c.obj with
    | none => .error (.trap 0x22 1)
    | some t =>
      if !t.valid then .error (.trap 0x22 2)
      else if t.kind == 0 || 6 ≤ t.kind then .error (.trap 0x22 3)
      else if (need.kind == 1 && t.kind != 4) || (need.kind == 2 && t.kind != 5) then .error (.trap 0x22 4)
      else if missing need.rights c.rights != 0 then .error (.trap 0x12 (missing need.rights c.rights))
      else .ok t

/-- The range of the eviction schedule that holds an offset of an object (R152): the lowest-numbered one, or 15. DESIGN CHOICE: the offset of a line
is that of the byte through which an access reaches it (log 146). -/
def rangeOf (d : Die) (asid obj e : Nat) : Nat :=
  match d.schedule with
  | none => 15
  | some x =>
    ((upTo 15).find? (fun k => match x.ranges[k]? with
      | some (a, o, first, last) => a == asid && o == obj && decide (first ≤ e) && decide (e ≤ last)
      | none => false)).getD 15

/-- The home page of a peer object's offset, from the importer's peer translation cache (R336), else by the exporter's translation. -/
def peerPage (s : State) (die x asid obj id : Nat) (xe : Entry) (e : Nat) (need : Need) : Except Stop Loc :=
  match (s.die die).peers.find? (fun p => p.exporter == x && p.id == id && p.page == e / 2 ^ 16) with
  | some p =>
    if need.write && p.leafKey != 0 && bitAt p.leaf 59 then .error (.locked x asid obj)
    else physLoc s x asid (p.phys + e % 2 ^ 16) need.write {
      key := 0, leaf := if p.leafKey = 0 then none else some (p.leafKey - 1), apl := if p.leafKey = 0 then xe.apl else bits p.leaf 57 2 }
  | none => entryLoc s x asid obj [] xe e need.write need.atomic

/-- What the importer keeps of a peer page that it has found (R336). -/
def peerFound (x id e : Nat) (t : Entry) (l : Loc) : PeerEntry :=
  let leaf := (l.found.bind (·.leaf)).map (fun y => (y.leaf, y.leafKey + 1))
  { exporter := x, id := id, page := e / 2 ^ 16, phys := l.key % 2 ^ 52 - e % 2 ^ 16, pol := t.pol
    leaf := (leaf.getD (0, 0)).1, leafKey := (leaf.getD (0, 0)).2 }

/-- Steps 7 and 8 of R385: the translation of an offset that passed the other checks. DESIGN CHOICE: through a peer entry the default
placement of an atomic is that of the exporter's entry or leaf (log 127). -/
def resolve (s : State) (ctx : Ctx) (obj : Nat) (t : Entry) (e : Nat) (need : Need) : Except Stop Loc :=
  if t.kind == 3 then
    match peerCheck s ctx.die t need.rights with
    | .error st => .error st
    | .ok (x, asid, xobj, xe) =>
      let id := bits t.w1 0 32
      match peerPage s ctx.die x asid xobj id xe e need with
      | .ok l =>
        if isHost l.key then .error (.trap 0x22 5)
        else
          let kept := if l.found.isSome then some (peerFound x id e t l) else none
          .ok { l with pol := t.pol, peer := true, found := some { die := ctx.die, core := none, asid := ctx.asid, obj := obj, entry := t.words, peer := kept } }
      | .error (.host _) => .error (.trap 0x22 5)
      | .error (.trap 0x21 _) => .error (.trap 0x22 5)
      | .error st => .error st
  else
    match entryLoc s ctx.die ctx.asid obj ctx.cur t e need.write need.atomic ctx.core with
    | .ok l => .ok { l with range := rangeOf (s.die ctx.die) ctx.asid obj e }
    | .error st => .error st

/-- Where an access of `n` bytes at offset `e` goes: it has a second place where it passes the end of a line, or of an extent of a versioned object
(R146). DESIGN CHOICE: such an access goes on in the other line or extent (log 147). -/
def resolveSpan (s : State) (ctx : Ctx) (obj : Nat) (t : Entry) (e n : Nat) (need : Need) : Except Stop Loc :=
  match resolve s ctx obj t e need with
  | .error st => .error st
  | .ok l =>
    let toLine := 64 - l.key % 64
    let n1 := if t.kind = 5 ∧ e < t.size then min toLine (t.size - e) else toLine
    if n ≤ n1 ∨ 64 < n then .ok l
    else
      match resolve s ctx obj t (e + n1) need with
      | .error st => .error st
      | .ok m => .ok { l with second := some (n1, m.key) }

/-- The checks of R385 on an access of `n` bytes at offset `e`, and its translation. DESIGN CHOICE: a write to a context region, which an object maps
with right R alone (R371), lacks right W (log 134). -/
def translate (s : State) (ctx : Ctx) (c : Cap) (e : Int) (n : Nat) (need : Need) : Except Stop Loc :=
  match objectCheck s ctx c need with
  | .error st => .error st
  | .ok t =>
    if e % need.align != 0 then .error (.trap 0x11 2)
    else if !c.covers e n then .error (.trap 0x11 0)
    else if (t.bound : Int) < e + n then .error (.trap 0x11 1)
    else
      match resolveSpan s ctx c.obj t e.toNat n need with
      | .error st => .error st
      | .ok l =>
        if need.write && (inFrames l.key || l.second.any (fun x => inFrames x.2)) then
          .error (.trap 0x12 (if need.atomic then rightW + rightA else rightW))
        else .ok l

/-- Put an entry first in a list that keeps the `n` most recently used ones. -/
def useRecent {α : Type} [DecidableEq α] (n : Nat) (x : α) (xs : List α) : List α := (x :: xs.filter (fun y => y ≠ x)).take n

/-- The leaf's page joins the run of the run table that it continues, or begins a run (R149): the table keeps 32. -/
def noteRun (x : LeafEntry) (rs : List RunEntry) : List RunEntry :=
  let n := if bitAt x.leaf 52 then 32 else 1
  let phys := leafPhys x.leaf 0
  let covers (r : RunEntry) : Bool := r.asid == x.asid && r.obj == x.obj && decide (r.first ≤ x.page) && decide (x.page ≤ r.last)
  match rs.find? covers with
  | some r =>
    if r.phys + (x.page - r.first) * 2 ^ 16 = phys then useRecent 32 r rs
    else useRecent 32 ⟨x.asid, x.obj, x.page, x.page + n - 1, phys⟩ (rs.filter (fun r => !covers r))
  | none =>
    match rs.find? (fun r => r.asid == x.asid && r.obj == x.obj && r.last + 1 == x.page && r.phys + (x.page - r.first) * 2 ^ 16 == phys) with
    | some r => useRecent 32 { r with last := x.page + n - 1 } (rs.filter (fun y => y ≠ r))
    | none => useRecent 32 ⟨x.asid, x.obj, x.page, x.page + n - 1, phys⟩ rs

/-- What the structures of a die keep of a translation (R149, R150, R336): 256 leaves and 32 runs of a core, 512 pages of peer objects. -/
def Die.keep (d : Die) (f : Found) : Die :=
  let d := { d with held := tput d.held (heldKey f.asid f.obj) f.entry }
  let d := match f.core, f.leaf with
    | some k, some x => { d with
        extents := tput d.extents k (useRecent 256 x (tget [] d.extents k)), runs := tput d.runs k (noteRun x (tget [] d.runs k)) }
    | _, _ => d
  match f.peer with
  | some p => { d with peers := useRecent 512 p d.peers }
  | none => d

/-- The die keeps a translation that it has received by ATS (R348). -/
def keepAts (s : State) (l : Loc) : State :=
  match l.ats with
  | some (die, page, p) => s.modDie die (fun d => { d with ats := tput d.ats page p })
  | none => s

/-- Nothing of an object's old translations is kept on a die any more (R150). -/
def Die.forget (d : Die) (asid obj : Nat) : Die :=
  { d with
    held := terase d.held (heldKey asid obj)
    extents := d.extents.map (fun e => (e.1, e.2.filter (fun x => !(x.asid == asid && x.obj == obj))))
    runs := d.runs.map (fun e => (e.1, e.2.filter (fun x => !(x.asid == asid && x.obj == obj)))) }

/-- Nothing of an ASID's old translations is kept on a die any more: its table is another. -/
def Die.forgetAsid (d : Die) (asid : Nat) : Die :=
  { d with
    held := d.held.filter (fun e => e.1 / 2 ^ 32 != asid), ats := d.ats.filter (fun e => e.1 / 2 ^ 36 % 8192 != asid)
    extents := d.extents.map (fun e => (e.1, e.2.filter (fun x => x.asid != asid)))
    runs := d.runs.map (fun e => (e.1, e.2.filter (fun x => x.asid != asid))) }

/-- Set ACC, and DIRTY on a write, in the leaf that an access came through (R147), unless software has replaced the leaf; the translation is
kept (R149, R336, R348). -/
def touchLeaf (s : State) (l : Loc) (write : Bool) : State :=
  let s := keepAts s l
  let s := match l.found with | some f => s.modDie f.die (fun d => d.keep f) | none => s
  match l.leaf with
  | none => s
  | some k =>
    let v := s.num k 8
    let v' := v ||| 2 ^ 60 ||| (if write then 2 ^ 61 else 0)
    if v = v' || !bitAt v 63 then s else s.write k (bytesOf 8 v')

end Sys2Proof.Machine
end

