-- ==== Sys2Proof/Machine/Access.lean ====
section
/-! DEFINITION. Performing an access: logical timestamps and leases (R175 to R180), the remote-data cache and the home directory as far
as an access meets them (R338 to R340), poison (R395), and what a stopped access does to its fragment (R156, R187, R361, R388). -/

namespace Sys2Proof.Machine

/-- A completed read: the time, the bytes, the tag of their granule. -/
structure Got where
  ts : Nat
  bytes : List Byte
  tag : Bool
  deriving DecidableEq, Repr

/-- The state of the home directory for a line (R338). -/
def State.dir (s : State) (line : Nat) : DirEntry := tget {} s.directory line

/-- Change the directory entry of a line. -/
def State.putDir (s : State) (line : Nat) (e : DirEntry) : State := { s with directory := sput {} s.directory line e }

/-- wts and mrts at the home (R176). -/
def State.stamps (s : State) (line : Nat) : Nat × Nat := tget (0, 0) s.lines line

/-- Set wts and mrts at the home. -/
def State.stamp (s : State) (line wts mrts : Nat) : State := { s with lines := sput (0, 0) s.lines line (wts, mrts) }

/-- Sets of a cache of 16 ways (R151): an L1 of 256 KiB, else an L2 slice of 8 MiB. -/
def setsOf (cache : Nat) : Nat := if cache < 256 then 256 else 8192

/-- Sets of a division's memory-side cache of 16 ways (R11, R151): 16 MiB on a matrix die, 64 MiB on a stream die. -/
def mscSets (die : Nat) : Nat := if dieClass die = 0 then 16384 else 65536

/-- The home division of a line of a die: its quarter of DRAM (R145), of a tier line bits [22:21] of its address (R155). -/
def homeDivision (line : Nat) : Nat :=
  let key := 64 * line
  if spaceOf key = 1 then key / 2 ^ 21 % 4 else key % 2 ^ 48 / quarterBytes (dieOfKey key)

/-- The rank of a range in the current phase of the die's eviction schedule (R152): without one all are equal. -/
def rankOf (d : Die) (range : Nat) : Nat :=
  match d.schedule with
  | none => 0
  | some e => bits (e.phases.getD e.phase 0) (4 * range) 4

/-- The key of a line in a table of caches. -/
def cacheKey (cache line : Nat) : Nat := cache * 2 ^ 52 + line % 2 ^ 46

/-- The line that a cached key stands for on a die. -/
def cachedLine (die k : Nat) : Nat := die * 2 ^ 46 + k % 2 ^ 52

/-- Fill a line into its division's memory-side cache, or find it there (R151): the victim of a full set is the line of the lowest rank,
ties to the lowest way (R152), and a dirty victim is written back to DRAM. -/
def mscFill (s : State) (die line range : Nat) (dirty : Bool) : State :=
  let d := s.die die
  let cache := homeDivision line
  let k := cacheKey cache line
  match tfind? d.msc k with
  | some x => s.putDie die { d with msc := tput d.msc k { x with dirty := x.dirty || dirty } }
  | none =>
    let same := d.msc.filter (fun e => e.1 / 2 ^ 52 == cache && e.1 % mscSets die == line % mscSets die)
    match (upTo 16).find? (fun w => same.all (fun e => e.2.way != w)) with
    | some w => s.putDie die { d with msc := tput d.msc k { dirty := dirty, range := range, way := w } }
    | none =>
      match minBy (fun (e : Nat × MscLine) => [rankOf d e.2.range, e.2.way]) same with
      | none => s
      | some e =>
        let s := s.putDie die { d with msc := tput (terase d.msc e.1) k { dirty := dirty, range := range, way := e.2.way } }
        let victim := cachedLine die e.1
        if e.2.dirty && !thas s.owners victim then { s with dram := terase s.dram victim } else s

/-- Keep what DRAM holds of a line whose bytes are about to change in a cache of its die. -/
def keepDram (s : State) (line : Nat) : State :=
  if thas s.dram line then s else { s with dram := tput s.dram line (s.bytes (64 * line) 64) }

/-- A line goes back to DRAM from every cache that may hold it dirty: what NOCACHE leaves behind (R148). -/
def writeBack (s : State) (die line : Nat) : State :=
  let s := { s with owners := terase s.owners line, dram := terase s.dram line }
  s.modDie die (fun d => { d with msc := terase d.msc (cacheKey (homeDivision line) line) })

/-- Put a line into a cache of a die: into its way, a free way, or the way of the victim of its set, the least recently used line of an
L1, the line of lowest rank of an L2 slice, ties to the lowest way (R151, R152). A victim that the slice owns is written back to the
memory-side cache of its home division, which owns it then (R151, R176). -/
def cachePut (s : State) (die cache line : Nat) (x : CacheLine) : State :=
  let d := s.die die
  let k := cacheKey cache line
  match tfind? d.copies k with
  | some y => s.putDie die { d with copies := tput d.copies k { x with way := y.way } }
  | none =>
    let same := d.copies.filter (fun e => e.1 / 2 ^ 52 == cache && e.1 % setsOf cache == line % setsOf cache)
    match (upTo 16).find? (fun w => same.all (fun e => e.2.way != w)) with
    | some w => s.putDie die { d with copies := tput d.copies k { x with way := w } }
    | none =>
      match minBy (fun (e : Nat × CacheLine) => if cache < 256 then [e.2.used, e.2.way] else [rankOf d e.2.range, e.2.way]) same with
      | none => s
      | some e =>
        let s := s.putDie die { d with copies := tput (terase d.copies e.1) k { x with way := e.2.way } }
        let victim := cachedLine die e.1
        if cache ≥ 256 ∧ tfind? s.owners victim = some (cache - 256) then
          mscFill { s with owners := terase s.owners victim } die victim e.2.range true
        else s

/-- A copy that may serve: its lease was granted less than 1,024 cycles ago (R178). -/
def freshCopy (s : State) (d : Die) (cache line : Nat) : Option CacheLine :=
  match tfind? d.copies (cacheKey cache line) with
  | some x => if s.clock < x.granted + 1024 then some x else none
  | none => none

/-- The lease that the owner with stamps (w, m) grants to a load at `ts` (R177): the time of the load, the rts, and mrts afterwards. `renew` says
that the load brings a time that no copy covers. -/
def ownerLease (ts w m : Nat) (renew : Bool) : Nat × Nat × Nat :=
  if !renew ∧ max ts w ≤ m then (max ts w, min m (max ts w + 63), m)
  else
    let t := if renew then ts else max ts w
    if w ≤ t + 63 then (max t w, t + 63, max m (t + 63)) else (w, w + 63, max m (w + 63))

/-- What the copies of a line in some caches, nearest first, offer a load at `p` (R177): the time so far, the copy whose lease covers it, and whether
any copy was there. -/
def lookCopies (s : State) (die : Nat) (caches : List (Nat × Bool)) (line p : Nat) : Nat × Option CacheLine × Bool :=
  let d := s.die die
  let look (acc : Nat × Option CacheLine × Bool) (c : Nat × Bool) : Nat × Option CacheLine × Bool :=
    match acc.2.1, freshCopy s d c.1 line with
    | none, some x => if max acc.1 x.wts ≤ x.rts then (max acc.1 x.wts, some x, true) else (max acc.1 x.wts, none, true)
    | _, _ => acc
  caches.foldl look (p, none, false)

/-- A line served from a copy or from its owner under R177: the time of the load, the line as read, and the state with the leases
that the load took. `caches` are the copies it may use, nearest first, each with whether it allocates (R148, R151); `msc` says that the
memory-side cache allocates. A copy that does not cover the load's time renews from the level below. -/
def loadHome (s : State) (die : Nat) (caches : List (Nat × Bool)) (msc : Bool) (range key p : Nat) : State × CacheLine × Nat :=
  let line := lineOf key
  let (ts, hit, copied) := lookCopies s die caches line p
  let (s, x, ts) := match hit with
    | some x => (s, x, ts)
    | none =>
      let (w, m) := s.stamps line
      let (ts, rts, m') := ownerLease ts w m copied
      let x : CacheLine := {
        wts := w, rts := rts, bytes := s.bytes (64 * line) 64, tags := (upTo 4).map (fun g => s.tag (64 * line + 16 * g))
        range := range, granted := s.clock }
      let s := if msc && !thas s.owners line then mscFill s die line range false else s
      (s.stamp line w m', x, ts)
  (caches.foldl (fun s c => if c.2 then cachePut s die c.1 line { x with used := s.clock } else s) s, x, ts)

/-- Bytes of a line that a load reads. -/
def CacheLine.slice (x : CacheLine) (key n : Nat) : List Byte := (x.bytes.drop (key % 64)).take n

/-- Evict a line of the remote-data cache: a dirty line is written back, a clean owned one reported, a shared copy dropped with its highest rts
kept (R179, R339). The packet keeps the bytes of a clean line too, for a sender whose report cannot be delivered (R400). -/
def evictLine (s : State) (die line : Nat) (r : RdcLine) : State :=
  let s := s.modDie die (fun d => { d with rdc := terase d.rdc line })
  let back (state : Nat) (data : Bool) : State := sendPacket s {
    kind := .wb, src := die, dst := dieOfKey (64 * line), line := line, wts := r.wts, mrts := r.mrts, hasData := data
    bytes := r.bytes, state := state, poison := r.poison, touched := r.touched }
  match r.state with
  | .s => s.modDie die (fun d => { d with ghosts := tput d.ghosts line (max (tget 0 d.ghosts line) r.mrts) })
  | .e => back 2 false
  | .m => back 0 true
  | .o => back 1 true

/-- A request of a die for a line is under way: on the fabric, at the home, or its answer on the way back. -/
def requestUnderway (s : State) (die line : Nat) : Bool :=
  s.packets.any (fun e => e.2.line == line &&
    (((e.2.kind == .rd || e.2.kind == .rdx || e.2.kind == .upg) && e.2.src == die) || ((e.2.kind == .data || e.2.kind == .grant) && e.2.dst == die))) ||
  (let e := s.dir line
   e.waiting.any (fun r => r.die == die && r.kind < 3) || (match e.busy with | some r => r.die == die && r.kind < 3 | none => false))

/-- Sets of a die's remote-data cache: 64 MiB or 96 MiB of 16 ways (R151). -/
def rdcSets (die : Nat) : Nat := if dieClass die = 0 then 65536 else 98304

/-- The least recently used line of a full set that no request names leaves the remote-data cache (R151); a line that no access may allocate
stands in no way of it (R335). -/
def makeRoom (s : State) (die line : Nat) : State :=
  let d := s.die die
  let set := d.rdc.filter (fun e => e.2.alloc && e.1 % rdcSets die == line % rdcSets die && e.1 != line)
  if set.length < 16 then s
  else
    match minBy (fun (e : Nat × RdcLine) => [e.2.used, e.1]) (set.filter (fun e => !requestUnderway s die e.1)) with
    | none => s
    | some e => evictLine s die e.1 e.2

/-- The caches of a core that a load of a policy uses: its L1 (the core's number) and its heat's L2 slice (256 and up). -/
def cachesOf (core pol : Nat) : List (Nat × Bool) := [(core, pol == 0), (256 + heatOf core, pol ≤ 1)]

/-- The run table predicted another address than the walk found (R149): the access is replayed, and the predicted line of the die may have been
allocated in the caches; the model allocates it (log 30). -/
def loadPredicted (s : State) (die : Nat) (core : Option Nat) (p : Nat) (l : Loc) : State :=
  match core, l.found.bind (·.predicted) with
  | some c, some phys =>
    let key := keyOf die phys
    if s.has key && !isHost key && (s.dir (lineOf key)).busy.isNone && (s.dir (lineOf key)).state == .i then
      (loadHome s die (cachesOf c l.pol) (l.pol ≤ 2) l.range key p).1
    else s
  | _, _ => s

/-- A line cannot be read at its home: its entry is busy, or another die holds it dirty or exclusive (R338). -/
def lineAway (s : State) (line : Nat) : Bool :=
  let e := s.dir line
  e.busy.isSome || e.state == .o || e.state == .x

/-- The copies that a load of a core may use: none for an engine. -/
def loadCaches (core : Option Nat) (pol : Nat) : List (Nat × Bool) := match core with | some c => cachesOf c pol | none => []

/-- A line of the remote-data cache has served an access of a policy: one that allocates it gives it a way of its set, which another line may
have to leave (R151, R335). -/
def rdcServe (s : State) (die line : Nat) (r : RdcLine) (pol : Nat) : State :=
  let s := if !r.alloc ∧ pol ≤ 2 then makeRoom s die line else s
  s.modDie die (fun d => { d with rdc := tput d.rdc line { r with used := s.clock, alloc := r.alloc || pol ≤ 2, served := true } })

/-- Load `n` bytes that lie in one line (R177) for an agent of a die with program timestamp `p`; `core` is none for an engine. A copy whose lease
covers the load serves it wherever the line is owned. -/
def loadOne (s : State) (die : Nat) (core : Option Nat) (p : Nat) (l : Loc) (n : Nat) : Except Stop (State × Got) :=
  let line := lineOf l.key
  if isHost l.key then (if l.fails then .error (.trap 0x50 8) else .ok (touchLeaf s l false, ⟨p, s.bytes l.key n, false⟩))
  else if dieOfKey l.key = die then
    let covered := (lookCopies s die (loadCaches core l.pol) line p).2.1.isSome
    if !covered && lineAway s line then .error (.remote line false (l.pol ≤ 2))
    else if !covered && s.poisoned l.key then .error (.trap 0x50 2)
    else
      let (s, x, ts) := loadHome (loadPredicted s die core p l) die (loadCaches core l.pol) (l.pol ≤ 2) l.range l.key p
      .ok (touchLeaf s l false, ⟨ts, x.slice l.key n, l.key % 16 == 0 && x.tags.getD (l.key % 64 / 16) false⟩)
  else
    match tfind? (s.die die).rdc line with
    | none => .error (.remote line false (l.pol ≤ 2))
    | some r =>
      if r.poison then .error (.trap 0x50 2)
      else
        let ts := max p r.wts
        .ok (touchLeaf (rdcServe s die line { r with mrts := if ts ≤ r.mrts then r.mrts else ts + 63 } l.pol) l false,
          ⟨ts, (r.bytes.drop (l.key % 64)).take n, false⟩)

/-- Load `n` bytes (R177): where they lie in two places, one after the other, and the capability that they might be has no tag. -/
def loadAt (s : State) (die : Nat) (core : Option Nat) (p : Nat) (l : Loc) (n : Nat) : Except Stop (State × Got) :=
  match l.second with
  | none => loadOne s die core p l n
  | some (n1, k) =>
    match loadOne s die core p l n1 with
    | .error st => .error st
    | .ok (s, g) =>
      match loadOne s die core g.ts { l with key := k } (n - n1) with
      | .error st => .error st
      | .ok (s, h) => .ok (s, ⟨h.ts, g.bytes ++ h.bytes, false⟩)

/-- Replace bytes of a line held as a list. -/
def patch (line : List Byte) (off : Nat) (bs : List Byte) : List Byte := line.take off ++ bs ++ line.drop (off + bs.length)

/-- The time of a store at an owner with stamps (w, m) (R177). -/
def storeTime (p w m : Nat) : Nat := max p (max (w + 1) (m + 1))

/-- Whether a store to a line may go ahead: no other die holds it (R179). -/
def storeStopAt (s : State) (die key pol : Nat) : Option Stop :=
  let line := lineOf key
  if isHost key then none
  else if dieOfKey key = die then
    let e := s.dir line
    if e.busy.isSome || e.state != .i then some (.remote line true (pol ≤ 2)) else none
  else
    match tfind? (s.die die).rdc line with
    | some r => if r.state == .e || r.state == .m then none else some (.remote line true (pol ≤ 2))
    | none => some (.remote line true (pol ≤ 2))

/-- Whether a store may go ahead, in both of its places. -/
def storeStop (s : State) (die : Nat) (l : Loc) : Option Stop :=
  match storeStopAt s die l.key l.pol with
  | some st => some st
  | none => l.second.bind (fun x => storeStopAt s die x.2 l.pol)

/-- Where a store to a line at home leaves it (R148, R151, R176): owned by the L2 slice of the storing core, whose copy is then the line itself;
else dirty in the memory-side cache; or, for NOCACHE, in DRAM. -/
def placeStore (s : State) (die : Nat) (core : Option Nat) (line : Nat) (l : Loc) (ts : Nat) (write : State → State) : State :=
  if 3 ≤ l.pol then writeBack (write s) die line
  else
    let s := write (keepDram s line)
    match core with
    | some c =>
      if l.pol ≤ 1 then
        let x : CacheLine := {
          wts := ts, rts := ts, bytes := s.bytes (64 * line) 64, tags := (upTo 4).map (fun g => s.tag (64 * line + 16 * g))
          range := l.range, used := s.clock, granted := s.clock }
        cachePut { s with owners := tput s.owners line (heatOf c) } die (256 + heatOf c) line x
      else mscFill { s with owners := terase s.owners line } die line l.range true
    | none => mscFill { s with owners := terase s.owners line } die line l.range true

/-- Write bytes of one line at its home at a time, for an agent that no core's caches serve: into the memory-side cache. -/
def writeHome (s : State) (die ts key : Nat) (bs : List Byte) : State :=
  if isHost key then { s with mem := memPut s.mem key bs }
  else ((placeStore s die none (lineOf key) { key := key } ts (fun s => s.write key bs)).stamp (lineOf key) ts ts).trigger (lineOf key) ts

/-- The core whose memory port an access came through (R149). -/
def Loc.core (l : Loc) : Option Nat := l.found.bind (·.core)

/-- The earliest time of a store of program time `p` at a key whose line the die may write (R177): above its owner's wts and mrts. -/
def keyTime (s : State) (die p key : Nat) : Nat :=
  if isHost key then p
  else if dieOfKey key = die then let (w, m) := s.stamps (lineOf key); storeTime p w m
  else match tfind? (s.die die).rdc (lineOf key) with | some r => storeTime p r.wts r.mrts | none => p

/-- The earliest time of a store of program time `p` at a place: one time for both of its parts. -/
def placeTime (s : State) (die p : Nat) (l : Loc) : Nat :=
  match l.second with
  | none => keyTime s die p l.key
  | some x => keyTime s die (keyTime s die p l.key) x.2

/-- Store bytes in one line at its owner at a time, with a tag for a whole granule (CST) or none. DESIGN CHOICE: a store to host memory triggers no
monitor (log 128). -/
def storeOne (s : State) (die ts : Nat) (l : Loc) (bs : List Byte) (tag : Bool) : State :=
  let line := lineOf l.key
  if isHost l.key then { s with mem := memPut s.mem l.key bs }
  else if dieOfKey l.key = die then
    let s := placeStore s die l.core line l ts (fun s => if tag then s.writeTagged l.key bs true else s.write l.key bs)
    (s.stamp line ts ts).trigger line ts
  else
    match tfind? (s.die die).rdc line with
    | none => s
    | some r =>
      let r := { r with
        state := RdcState.m, wts := ts, mrts := ts, bytes := patch r.bytes (l.key % 64) bs
        touched := (granules (l.key % 64) bs.length).foldl (fun ts g => linsert g ts) r.touched }
      (rdcServe s die line r l.pol).trigger line ts

/-- A line of the remote-data cache has just been used (R151). -/
def useLine (s : State) (die line : Nat) : State :=
  match tfind? (s.die die).rdc line with
  | some r => s.modDie die (fun d => { d with rdc := tput d.rdc line { r with used := s.clock } })
  | none => s

/-- Store bytes at a place at a time, in its one or two lines, through its leaf: a tag stands only in a whole granule. -/
def storeAs (s : State) (die ts : Nat) (l : Loc) (bs : List Byte) (tag : Bool) : State :=
  let s := touchLeaf s l true
  match l.second with
  | none => storeOne s die ts l bs (tag && l.key % 16 == 0)
  | some (n1, k) => storeOne (storeOne (useLine s die (lineOf k)) die ts l (bs.take n1) false) die ts { l with key := k } (bs.drop n1) false

/-- A store by an agent of program time `p` (R177): the new state and its time. The caller has asked `storeStop`. -/
def storeAt (s : State) (die p : Nat) (l : Loc) (bs : List Byte) (tag : Bool) : State × Nat :=
  let ts := placeTime s die p l
  (storeAs s die ts l bs tag, ts)

/-- Clear the poison that a write of whole lines clears (R394), at home or in the remote-data cache. -/
def cleanseAt (s : State) (die key n : Nat) : State :=
  if dieOfKey key = die then s.cleanse key n
  else if n = 64 ∧ key % 64 = 0 then
    match tfind? (s.die die).rdc (lineOf key) with
    | none => s
    | some r => s.modDie die (fun d => { d with rdc := tput d.rdc (lineOf key) { r with poison := false } })
  else s

/-- What stops an atomic at a place of the die: copies on other dies, or poison (R395). -/
def atomicStop (s : State) (die : Nat) (l : Loc) : Option Stop :=
  match storeStop s die l with
  | some st => some st
  | none =>
    if isHost l.key then (if l.fails then some (.trap 0x50 8) else none)
    else if s.poisoned l.key || (match l.second with | some x => s.poisoned x.2 | none => false) then some (.trap 0x50 2)
    else none

/-- The key of a byte of an access. -/
def Loc.keyAt (l : Loc) (j : Nat) : Nat :=
  match l.second with
  | some (n1, k) => if j < n1 then l.key + j else k + (j - n1)
  | none => l.key + j

/-- Write the bytes of an access in memory, and the tags 0. -/
def State.writeAt (s : State) (l : Loc) (bs : List Byte) : State :=
  match l.second with
  | none => s.write l.key bs
  | some (n1, k) => (s.write l.key (bs.take n1)).write k (bs.drop n1)

/-- The lines of an access. -/
def Loc.lines (l : Loc) : List Nat := lineOf l.key :: (match l.second with | some x => [lineOf x.2] | none => [])

/-- The bytes in memory of an access. -/
def State.bytesAt (s : State) (l : Loc) (n : Nat) : List Byte := (upTo n).map (fun j => s.byte (l.keyAt j))

/-- The place of an access that the memory-side unit of its home performs: no L2 slice takes the line (R173). -/
def Loc.home (l : Loc) : Loc := { l with pol := max l.pol 2 }

/-- Read and write one place at one time (R170, R177) for a line homed on the die: the new state, the old number and the time. -/
def atomicAt (s : State) (die p : Nat) (l : Loc) (n : Nat) (f : Nat → Nat) : Except Stop (State × Nat × Nat) :=
  match atomicStop s die l with
  | some st => .error st
  | none =>
      let old := numOfBytes (s.bytesAt l n)
      let (s, ts) := storeAt s die p l (bytesOf n (f old)) false
      .ok (s, old, ts)

/-! ### Requests for lines of other dies -/

/-- Send a message about a line from a home to a die, or the other way. -/
def message (s : State) (kind : PacketKind) (src dst line : Nat) : State :=
  sendPacket s { kind := kind, src := src, dst := dst, line := line }

/-- The home starts to serve a request that needs other copies gone (R339, R340): invalidations to the sharers, a recall to the owner or
supplier; its answers are awaited. A request for ownership keeps the requester's own copy. -/
def startRecall (s : State) (home line : Nat) (r : HomeRequest) : State :=
  let e := s.dir line
  let keeps (d : Nat) : Bool := (r.kind == 1 || r.kind == 2) && d == r.die
  let others := e.sharers.filter (fun d => !keeps d && !(s.die d).fenced)
  let owned := (e.state == .o || e.state == .x) && !keeps e.owner && !(s.die e.owner).fenced
  let shares := if owned then others.filter (fun d => d != e.owner) else others
  let s := shares.foldl (fun s d => message s .inv home d line) s
  let s := if owned then message s .recall home e.owner line else s
  s.putDir line { e with
    busy := some r, invalidating := !owned, awaiting := if owned then shares ++ [e.owner] else shares, ackRts := 0, since := s.clock }

/-- An access of the home die waits for copies of its own line on other dies (R179, R338): the home recalls them, unless the line is
busy already. -/
def recallForHome (s : State) (die line : Nat) : State :=
  let e := s.dir line
  if e.busy.isSome then
    (if e.waiting.any (fun r => r.kind == 4) || (match e.busy with | some r => r.kind == 4 | none => false) then s
     else s.putDir line { e with waiting := e.waiting ++ [{ kind := 4, die := die }] })
  else
    let s := startRecall s die line { kind := 4, die := die }
    let e := s.dir line
    if e.awaiting.isEmpty then s.putDir line { e with busy := none, state := .i, sharers := [] } else s

/-- Ask for a line (R339): RD to share it, RDX to own it, UPG where the die holds a copy; at home, a recall. A line that some access may allocate is
kept when it comes (R335). -/
def requestLine (s : State) (die line : Nat) (exclusive alloc : Bool) : State :=
  let home := dieOfKey (64 * line)
  if home = die then recallForHome s die line
  else
  let s := if alloc then s.modDie die (fun d => { d with keeps := linsert line d.keeps }) else s
  if requestUnderway s die line then s
  else
    let kind : PacketKind := if !exclusive then .rd else if thas (s.die die).rdc line then .upg else .rdx
    message s kind die home line

/-! ### Stopped accesses -/

/-- Post a fault on a page, or join the request for it (R388). -/
def requestPage (s : State) (die asid obj page kind why : Nat) : State × Nat :=
  let d := s.die die
  match d.requests.find? (fun e => e.2.asid == asid && e.2.obj == obj && e.2.page == page) with
  | some (k, r) =>
    (s.putDie die { d with requests := tput d.requests k { r with kind := r.kind ||| kind, why := why } }, die * 2 ^ 32 + k)
  | none =>
    let k := tnext d.requests
    (s.putDie die { d with requests := tput d.requests k { asid := asid, obj := obj, page := page, kind := kind, why := why } }, die * 2 ^ 32 + k)

/-- Send a PRI page request for a host page in the name of a crew or the front end, or join the one under way (R390, R391): the number of the
index; none when every index is held. DESIGN CHOICE: the pages that a crew misses in one cycle make one group, of at most 32 (log 129). -/
def requestGroup (s : State) (die asid crew incarnation page : Nat) : State × Option Nat :=
  let d := s.die die
  let mine (x : PriIndex) : Bool := x.asid == asid && x.crew == crew && x.incarnation == incarnation
  match d.pri.find? (fun e => mine e.2 && e.2.pages.contains page) with
  | some (k, _) => (s, some k)
  | none =>
    match d.pri.find? (fun e => mine e.2 && e.2.since == s.clock && decide (e.2.pages.length < 32)) with
    | some (k, x) => (s.putDie die { d with pri := tput d.pri k { x with pages := x.pages ++ [page] } }, some k)
    | none =>
      match tfree d.pri 512 with
      | none => (s, none)
      | some k => (s.putDie die { d with pri := tput d.pri k ⟨asid, crew, incarnation, [page], s.clock⟩ }, some k)

/-- Send a PRI page request for a host page that an agent of a crew misses. -/
def requestHostPage (s : State) (wk page : Nat) : State × Option Nat :=
  let c := s.crew (crewOf wk)
  requestGroup s c.die c.asid (crewOf wk) c.incarnation page

/-- Park the wave of the current thread on a request (R156): its other accesses go on and complete in their time, in issue order (R97).
`faddr` is `FADDR` should the request fail. -/
def parkWave (s : State) (request : Nat) (faddr : Word) : State :=
  let wk := s.curWk
  let s := s.modThread s.cur (fun t => { t with park := some (request, faddr), waitLine := none })
  s.modWave wk (fun w => { w with parked := true, pages := if w.pages.contains request then w.pages else w.pages ++ [request] })

/-- The kind byte of a page request (R388). -/
def requestKind (why : Nat) (write atomic tail : Bool) : Nat :=
  (if write then 1 else 0) + (if atomic then 2 else 0) + (if why = 2 then 4 else 0) + (if tail then 8 else 0)

/-- Hold the fragment at a stopped access of a path: the counter is raised when it first issues (R97). -/
def holdAccess (s : State) (i : Instr) (path : Option Nat) : State :=
  match path, s.curT.hold with
  | some p, none => let (s, id) := openAccess s p; holdWith s i (id + 1) []
  | _, _ => holdAt s i

/-- The accesses of the instruction are performed: its counter is raised, or was when it first issued (R97), and its registers are
written on completion. -/
def doneAccess (s : State) (path : Nat) (writes : List RegWrite) : State :=
  match s.curT.hold with
  | some h => if h.arg = 0 then addAccess s path writes else closeAccess s (h.arg - 1) writes
  | none => addAccess s path writes

/-- Send an atomic to its home (R340): the answer is awaited under its key. -/
def sendAtomic (s : State) (line answer : Nat) (op : List Nat) : State :=
  let s := sendPacket s { kind := .at', src := s.curDie, dst := dieOfKey (64 * line), line := line, op := op, agent := s.cur }
  s.modThread s.cur (fun t => { t with answers := tput t.answers answer 0 })

/-- What a stopped access does: `done` are the lanes of this instruction that have completed, `faddr` the field of R357 (0 for ARITH). A
trap is taken; a page fault parks the wave; a lock or a line of another die holds the fragment, which tries again. -/
def stopAt (i : Instr) (path : Option Nat) (s : State) (faddr : Word) (done : LaneMask) (st : Stop) : Out :=
  let all := s.curT.doneLanes ||| done
  let s := s.modThread s.cur (fun t => { t with doneLanes := all })
  match st with
  | .trap code detail => trapWith s code detail (if code = 0x30 then 0 else faddr) all
  | .hole key => .fault (.noSuchAddress key)
  | .locked die asid obj =>
    let k := (die * 8192 + asid) * 2 ^ 32 + obj
    .next (holdAccess (s.modThread s.cur (fun t =>
      { t with waitLine := none, lock := match t.lock with | some (c, j) => if j = k then some (c, k) else some (s.clock, k) | none => some (s.clock, k) })) i path)
  | .remote line exclusive alloc =>
    .next (holdAccess (requestLine (s.modThread s.cur (fun t => { t with waitLine := some line, lock := none })) s.curDie line exclusive alloc) i path)
  | .atHome line answer op =>
    let s := s.modThread s.cur (fun t => { t with waitLine := some line, lock := none })
    let s := if op.isEmpty then s else sendAtomic s line answer op
    .next (holdAccess s i path)
  | .page die asid obj page why write atomic tail =>
    let (s, r) := requestPage s die asid obj page (requestKind why write atomic tail) why
    .next (parkWave (holdAccess s i path) r faddr)
  | .host page =>
    if s.curT.retried.contains page then trapWith s 0x21 3 faddr all
    else if (s.die s.curDie).priFailed then trapWith s 0x21 4 faddr all
    else
      match requestHostPage (s.modThread s.cur (fun t => { t with missed := some page })) s.curWk page with
      | (s, some k) => .next (parkWave (holdAccess s i path) (2 ^ 40 + s.curDie * 2 ^ 32 + k) faddr)
      | (s, none) => .next (holdAccess s i path)

/-- The path counter can be raised (R97). -/
def roomOn (s : State) (path : Nat) : Bool := s.curW.counter path < 63 || s.curT.hold.isSome

/-- The instruction that holds a thread has an access still to perform: one that raised a counter, or one that waits for a line or a lock. -/
def State.accessing (s : State) (k : Nat) : Bool :=
  let t := s.thread k
  (s.openOf k).isSome || ((t.waitLine.isSome || t.lock.isSome) && t.hold.any (fun h => h.op != .instructionFetchFault))

/-- An earlier instruction of the wave has an access still to perform, which no page keeps (R156, R165): a later one is performed after it. One that has
asked for a line has had its turn, and is performed when the line comes (R343). -/
def earlierOpen (s : State) : Bool :=
  s.curT.waitLine.isNone && s.threads.any (fun e => waveOf e.1 == s.curWk && e.1 != s.cur && e.2.park.isNone && s.accessing e.1 &&
    (match e.2.hold, s.curT.hold with | some h, some g => g.after s.cur h e.1 | some _, none => true | none, _ => false))

/-! ### Scalar accesses through a capability -/

/-- The effective offset of a scalar access (R104): c[A].offset + B, a signed sum. -/
def scalarOffset (s : State) : Int :=
  let off : Word := word (readC s s.ir.a.toNat).off + operandB s
  off.toInt

/-- A scalar load of `n` bytes through c[A] at the operand's offset: what a body makes of it becomes the register writes. -/
def scalarLoad (i : Instr) (s : State) (n : Nat) (out : State → Got → List RegWrite) : Out :=
  guarded i s (fun s =>
    if !roomOn s 0 then .next (stallIssue s)
    else if earlierOpen s then .next (holdAccess s i (some 0))
    else
      let e := scalarOffset s
      let c := readC s s.ir.a.toNat
      let stop := stopAt i (some 0) s (faddrOf s.ir.a.toNat 0 e) 0
      match translate s s.curC.ctx c e n { rights := rightR, align := n } with
      | .error st => stop st
      | .ok l =>
        match loadAt s s.curDie (some s.curC.core) (issuePts s) l n with
        | .error st => stop st
        | .ok (s, g) => .next (finish (doneAccess (accessedAt s g.ts) 0 (out s g))))

/-- A scalar store of bytes through c[A]. -/
def scalarStore (i : Instr) (s : State) (n : Nat) (data : State → List Byte) (tag : State → Bool) : Out :=
  guarded i s (fun s =>
    if !roomOn s 1 then .next (stallIssue s)
    else if earlierOpen s then .next (holdAccess s i (some 1))
    else
      let e := scalarOffset s
      let c := readC s s.ir.a.toNat
      let stop := stopAt i (some 1) s (faddrOf s.ir.a.toNat 0 e) 0
      match translate s s.curC.ctx c e n { rights := rightW, align := n, write := true } with
      | .error st => stop st
      | .ok l =>
        match storeStop s s.curDie l with
        | some st => stop st
        | none =>
          let (u, ts) := storeAt s s.curDie (issuePts s) l (data s) (tag s && !l.peer)
          .next (finish (doneAccess (accessedAt u ts) 1 [])))

end Sys2Proof.Machine
end

