-- ==== Sys2Proof/Machine/VectorMemory.lean ====
section
/-! DEFINITION. Vector loads and stores of memory and of the scratchpad, and the prefetch, class 0x68 (R157 to R168): lane by lane in
ascending order, each lane whole or not at all (R361). -/

namespace Sys2Proof.Machine

/-- The lane loop of an access: what each lane does to the state and the register writes that it adds; the lanes done; and the lane
that stopped, with its offset and why. -/
structure LaneRun where
  s : State
  writes : List RegWrite := []
  done : LaneMask := 0
  stop : Option (Nat × Int × Stop) := none

/-- What a lane does: the state in which it is done or has stopped, and its register writes, or its offset and why it stopped. -/
abbrev LaneBody := State → Nat → State × Except (Int × Stop) (List RegWrite)

/-- Run one more lane, unless an earlier one has stopped. -/
def laneStep (f : LaneBody) (r : LaneRun) (L : Nat) : LaneRun :=
  match r.stop with
  | some _ => r
  | none =>
    match f r.s L with
    | (s, .ok ws) => { r with s := s, writes := r.writes ++ ws, done := r.done ||| (1#32 <<< L) }
    | (s, .error (e, st)) => { r with s := s, stop := some (L, e, st) }

/-- Run lanes in ascending order. -/
def runLanes (s : State) (ls : List Nat) (f : LaneBody) : LaneRun := ls.foldl (laneStep f) { s := s }

/-- A lane that has no effect where it stops. -/
def wholeLane (f : State → Nat → Except (Int × Stop) (State × List RegWrite)) : LaneBody := fun s L =>
  match f s L with
  | .ok (s, ws) => (s, .ok ws)
  | .error x => (s, .error x)

/-- An instruction that is performed at the scratchpad's banks, in issue order, whatever waits in memory (R166). -/
def onBanks (i : Instr) : Bool := [Instr.spld, .spst, .spldb, .spstb, .spatom].contains i

/-- An access of the instruction's lanes on a path: without a selected lane it does nothing (R167); a lane that stops leaves the lanes
below it done, their registers written (R361). `addr` gives the field of R357 for a lane and an offset. -/
def laneAccessWith (i : Instr) (s : State) (path : Nat) (addr : Nat → Int → Word) (ls : List Nat) (f : LaneBody) : Out :=
  if ls.isEmpty then .next (finish (if s.curT.hold.isSome then doneAccess s path [] else s))
  else if !roomOn s path then .next (stallIssue s)
  else if !onBanks i && earlierOpen s then .next (holdAccess s i (some path))
  else
    let r := runLanes s ls f
    match r.stop with
    | none => .next (finish (doneAccess r.s path r.writes))
    | some (L, e, st) => stopAt i (some path) (r.writes.foldl (applyWrite s.curWk) r.s) (addr L e) r.done st

/-- An access of lanes that have no effect where they stop. -/
def laneAccessAt (i : Instr) (s : State) (path : Nat) (addr : Nat → Int → Word) (ls : List Nat)
    (f : State → Nat → Except (Int × Stop) (State × List RegWrite)) : Out :=
  laneAccessWith i s path addr ls (wholeLane f)

/-- An access of the instruction's lanes through one capability register. -/
def laneAccess (i : Instr) (s : State) (path creg : Nat) (ls : List Nat)
    (f : State → Nat → Except (Int × Stop) (State × List RegWrite)) : Out :=
  laneAccessAt i s path (faddrOf creg) ls f

/-! ### Addresses -/

/-- The signed displacement of IMM (R158). -/
def dispOf (x : Fields) : Int := signed 24 x.imm.toNat

/-- The bytes of a lane's block (R159). -/
def blockBytes (x : Fields) : Nat :=
  if x.t = 0xF then 4 + 8 * runOf x else if x.mod = 3 then 16 else sxBytes x.mod.toNat

/-- The span of R159. -/
def spanBytes (x : Fields) (block : Bool) : Nat := if block then blockBytes x else 8 * runOf x

/-- The base of the addresses: c[A].OFF, or s[A] for the scratchpad (R159). -/
def baseOf (s : State) (mem : Bool) : Int :=
  if mem then (readC s s.ir.a.toNat).off else (readS s s.ir.a.toNat).toNat

/-- e_L, exactly (R159). -/
def laneOffset (s : State) (mem : Bool) (span L : Nat) : Int :=
  let b := baseOf s mem + dispOf s.ir
  match modeOf s.ir with
  | 0 => b + (vecB s 64 L).toInt
  | 1 => b + (vecB s 64 L).toInt * span
  | _ => b + (operandB s).toInt + span * L

/-- Where an MXF4 scale byte lies: base + v[C][L], without the displacement (R162). -/
def scaleOffset (s : State) (mem : Bool) (L : Nat) : Int := baseOf s mem + (vecC s 64 L).toInt

/-- The alignment of a block form (R160). -/
def blockAlign (x : Fields) : Nat :=
  if x.t = 0xF then 4 else match x.mod.toNat with | 0 => 8 | 1 => 4 | 2 => 2 | _ => 16

/-- One access of a lane: the offset, the bytes, the alignment asked of the offset, and the register and bit that they stand at. -/
structure Piece where
  off : Int
  n : Nat
  align : Nat
  reg : Nat
  lo : Nat
  deriving DecidableEq, Repr

/-- The selected elements of a lane, ascending (R161). -/
def elementPieces (s : State) (ps : List LaneMask) (mem : Bool) (L : Nat) : List Piece :=
  let w := widthOf s.ir.t.toNat
  let e := laneOffset s mem (spanBytes s.ir false) L
  (upTo (runOf s.ir)).flatMap (fun r =>
    ((upTo (64 / w)).filter (fun k => picks s.ir ps k L)).map (fun k =>
      ⟨e + (8 * r + k * (w / 8) : Nat), w / 8, w / 8, s.ir.d.toNat + r, k * w⟩))

/-- The bytes of a lane's block or row (R162) by ascending address, the scale byte of an MXF4 block among them (R165). -/
def blockPieces (s : State) (mem : Bool) (L : Nat) : List Piece :=
  let x := s.ir
  let e := laneOffset s mem (spanBytes x true) L
  let al (j : Nat) : Nat := if j = 0 then blockAlign x else 1
  let place (j : Nat) : Nat × Nat :=
    if x.t = 0xF then (if j < 4 then (0, 8 * j) else (1 + (j - 4) / 8, 8 * ((j - 4) % 8))) else (j / 8, 8 * (j % 8))
  let ps : List Piece := (upTo (blockBytes x)).map (fun j => ⟨e + (j : Nat), 1, al j, x.d.toNat + (place j).1, (place j).2⟩)
  if x.t = 0xE ∧ x.mod = 3 then
    let o := scaleOffset s mem L
    ps.filter (fun p => decide (p.off ≤ o)) ++ [⟨o, 1, 1, x.d.toNat + 2, 0⟩] ++ ps.filter (fun p => decide (o < p.off))
  else ps

/-- The lanes of a form and the accesses of a lane. -/
def lanesFor (s : State) (block : Bool) : List Nat := activeLanes s (if block then 64 else widthOf s.ir.t.toNat)

/-- The accesses of a lane. -/
def piecesOf (s : State) (block mem : Bool) (L : Nat) : List Piece :=
  if block then blockPieces s mem L else elementPieces s (readPreds s (widthOf s.ir.t.toNat)) mem L

/-- The register write of a piece of a lane. -/
def Piece.load (p : Piece) (L : Nat) (bs : List Byte) : RegWrite :=
  .v p.reg L (word ((2 ^ (8 * p.n) - 1) * 2 ^ p.lo)) (word (numOfBytes bs * 2 ^ p.lo))

/-- The bytes that a store takes from a piece's register (R161): read at issue. -/
def Piece.data (p : Piece) (s : State) (w L : Nat) : List Byte := bytesOf p.n ((readV s w p.reg L).toNat / 2 ^ p.lo)

/-- The zeros that VLDB writes to the bits of its run that hold no block data (R162). -/
def blankRun (s : State) (block : Bool) (L : Nat) : List RegWrite :=
  if block then (upTo (blockRun s.ir)).map (fun r => .v (s.ir.d.toNat + r) L (BitVec.allOnes 64) 0) else []

/-! ### Memory -/

/-- Load the pieces of a lane in order, raising `PTS` (R165, R177). -/
def loadPieces (c : Cap) (L : Nat) : List Piece → State → Except (Int × Stop) (State × List RegWrite)
  | [], s => .ok (s, [])
  | p :: t, s =>
    match translate s s.curC.ctx c p.off p.n { rights := rightR, align := p.align } with
    | .error st => .error (p.off, st)
    | .ok l =>
      match loadAt s s.curDie (some s.curC.core) (issuePts s) l p.n with
      | .error st => .error (p.off, st)
      | .ok (s, g) =>
        match loadPieces c L t (accessedAt s g.ts) with
        | .error x => .error x
        | .ok (s, ws) => .ok (s, p.load L g.bytes :: ws)

/-- Where the pieces of a lane's store go: every check before any of them is performed (R361). -/
def placePieces (s : State) (c : Cap) : List Piece → Except Stop (List (Piece × Loc))
  | [] => .ok []
  | p :: t =>
    match translate s s.curC.ctx c p.off p.n { rights := rightW, align := p.align, write := true } with
    | .error st => .error st
    | .ok l =>
      match placePieces s c t with
      | .error st => .error st
      | .ok ps => .ok ((p, l) :: ps)

/-- The lines that the pieces cover whole: their poison goes (R394). -/
def wholeLines (ps : List (Piece × Loc)) : List Nat :=
  let keys := ps.flatMap (fun q => (upTo q.1.n).map q.2.keyAt)
  let heads := (keys.map lineOf).eraseDups
  heads.filter (fun l => (upTo 64).all (fun j => keys.contains (64 * l + j)))

/-- The key among the answers of a thread under which a held store keeps how many pieces of the lane in work it has performed. -/
def piecesKey : Nat := 2 ^ 22

/-- Store the pieces of a lane in order from number `i` on, raising `PTS` (R165, R177): each as soon as its line is owned (R343). Where one must wait,
its number is kept. -/
def storePieces (w L : Nat) : List (Piece × Loc) → Nat → State → State × Option Stop
  | [], _, s => (s, none)
  | q :: t, i, s =>
    match storeStop s s.curDie q.2 with
    | some st => (s.modThread s.cur (fun x => { x with answers := sput 0 x.answers piecesKey i }), some st)
    | none =>
      let (u, ts) := storeAt s s.curDie (issuePts s) q.2 (q.1.data s w L) false
      storePieces w L t (i + 1) (accessedAt u ts)

/-- A lane of a vector store: its checks, then its pieces from where they stand; the lines that it covers whole lose their poison. -/
def storeLane (block : Bool) (c : Cap) : LaneBody := fun s L =>
  let e := laneOffset s true (spanBytes s.ir block) L
  match placePieces s c (piecesOf s block true L) with
  | .error st => (s, .error (e, st))
  | .ok ps =>
    let i := tget 0 s.curT.answers piecesKey
    match storePieces (if block then 8 else widthOf s.ir.t.toNat) L (ps.drop i) i s with
    | (u, some st) => (u, .error (e, st))
    | (u, none) =>
      ((wholeLines ps).foldl (fun u l => cleanseAt u u.curDie (64 * l) 64)
        (if i = 0 then u else u.modThread u.cur (fun x => { x with answers := terase x.answers piecesKey })), .ok [])

/-- A vector load (R161, R162). -/
def vectorLoad (i : Instr) (block : Bool) (s : State) : Out :=
  guarded i s (fun s =>
    let c := readC s s.ir.a.toNat
    laneAccess i s 0 s.ir.a.toNat (lanesFor s block) (fun u L =>
      match loadPieces c L (piecesOf s block true L) u with
      | .error (_, st) => .error (laneOffset s true (spanBytes s.ir block) L, st)
      | .ok (u, ws) => .ok (u, blankRun s block L ++ ws)))

/-- A vector store (R161, R162). -/
def vectorStore (i : Instr) (block : Bool) (s : State) : Out :=
  guarded i s (fun s =>
    laneAccessWith i s 1 (faddrOf s.ir.a.toNat) (lanesFor s block) (storeLane block (readC s s.ir.a.toNat)))

/-- VLD, R161. -/
def execVld (s : State) : Out := vectorLoad .vld false s
/-- VST, R161. -/
def execVst (s : State) : Out := vectorStore .vst false s
/-- VLDB, R162. -/
def execVldb (s : State) : Out := vectorLoad .vldb true s
/-- VSTB, R162. -/
def execVstb (s : State) : Out := vectorStore .vstb true s

/-! ### The scratchpad (R163, R166) -/

/-- A scratchpad address: modulo 2^19 (R153, R160). -/
def scratchAddr (off : Int) : Nat := wrap 19 off

/-- A scratchpad load (R163): a poisoned word traps UNCORR 4 with the word's address in `FADDR` (R395). -/
def scratchLoad (i : Instr) (block : Bool) (s : State) : Out :=
  guarded i s (fun s =>
    laneAccess i s 2 0 (lanesFor s block) (fun u L =>
      let ps := piecesOf s block false L
      match ps.findSome? (fun p => u.curC.scratchPoisoned (scratchAddr p.off) p.n) with
      | some wd => .error ((8 * wd : Nat), .trap 0x50 4)
      | none => .ok (u, blankRun s block L ++ ps.map (fun p => p.load L (u.curC.scratchBytes (scratchAddr p.off) p.n)))))

/-- A scratchpad store (R163): the highest lane's byte stands; a word that a lane covers whole loses its poison (R394). -/
def scratchStore (i : Instr) (block : Bool) (s : State) : Out :=
  guarded i s (fun s =>
    let w := if block then 8 else widthOf s.ir.t.toNat
    laneAccess i s 2 0 (lanesFor s block) (fun u L =>
      let ps := piecesOf s block false L
      let addrs := ps.flatMap (fun p => (upTo p.n).map (fun j => (scratchAddr p.off + j) % 2 ^ 19))
      let whole := u.curC.scratchPoison.filter (fun wd => (upTo 8).all (fun j => addrs.contains (8 * wd + j)))
      let c := ps.foldl (fun c p => c.scratchWrite (scratchAddr p.off) (p.data s w L)) u.curC
      .ok (u.putCrew u.curCk { c with scratchPoison := c.scratchPoison.filter (fun wd => !whole.contains wd) }, [])))

/-- SPLD, R163. -/
def execSpld (s : State) : Out := scratchLoad .spld false s
/-- SPST, R163. -/
def execSpst (s : State) : Out := scratchStore .spst false s
/-- SPLDB, R163. -/
def execSpldb (s : State) : Out := scratchLoad .spldb true s
/-- SPSTB, R163. -/
def execSpstb (s : State) : Out := scratchStore .spstb true s

/-! ### Prefetch (R164) -/

/-- Bring one line of a die to a level for a core: what a policy of NOCACHE fills is nothing. -/
def fillLine (s : State) (core level key pol range p : Nat) : State :=
  let line := lineOf key
  let d := dieOfKey key
  if 3 ≤ pol || s.poisoned key then s
  else if level = 2 then (if thas s.owners line then s else mscFill s d line range false)
  else (loadHome s d ((cachesOf core pol).filter (fun c => level = 0 || 256 ≤ c.1)) true range key p).1

/-- Prefetches of a die whose lines have come back to their home are performed (R164). -/
def fillPrefetched (s : State) (die : Nat) : State :=
  let (now, wait) := (s.die die).prefetches.partition (fun x => !lineAway s (lineOf x.1))
  if now.isEmpty then s
  else now.foldl (fun s x => fillLine s (x.2.1 / 4) (x.2.1 % 4) x.1 x.2.2.1 x.2.2.2.1 x.2.2.2.2) (s.modDie die (fun d => { d with prefetches := wait }))

/-- Bring one line to a level: nothing for a line of host memory or a poisoned line. A line that another die holds dirty is recalled first. -/
def prefetchLine (s : State) (level : Nat) (l : Loc) : State :=
  let line := lineOf l.key
  let d := s.curDie
  if isHost l.key || 3 ≤ l.pol then s
  else if dieOfKey l.key = d || level = 2 then
    let home := dieOfKey l.key
    if !lineAway s line then fillLine s s.curC.core level l.key l.pol l.range (issuePts s)
    else (requestLine s home line false true).modDie home (fun x => { x with
      prefetches := x.prefetches ++ [(l.key, 4 * s.curC.core + level, l.pol, l.range, issuePts s)] })
  else if thas (s.die d).rdc line then s
  else requestLine s d line false true

/-- The first offsets of the lines that [e, e + n) touches. -/
def lineStarts (e : Int) (n : Nat) : List Int :=
  (upTo (n / 64 + 2)).map (fun j => if j = 0 then e else e + (64 * j : Nat) - (e % 64)) |>.filter (fun a => a < e + n)

/-- VPREF, R164: it traps nothing, parks nothing and writes no register. -/
def execVpref (s : State) : Out :=
  guarded .vpref s (fun s =>
    let c := readC s s.ir.a.toNat
    let n := spanBytes s.ir false
    .next (finish ((activeLanes s 64).foldl (fun u L =>
      let e := laneOffset s true n L
      match translate u u.curC.ctx c e n { rights := 0 } with
      | .error (.trap _ _) => u
      | _ => (lineStarts e n).foldl (fun u a =>
          match translate u u.curC.ctx c a 1 { rights := 0 } with
          | .ok l => prefetchLine u s.ir.mod.toNat l
          | .error _ => u) u) s)))

end Sys2Proof.Machine
end

