-- ==== Sys2Proof/Machine/Atomics.lean ====
section
/-! DEFINITION. Atomics, class 0x69 (R169 to R173): what each operation computes, where it is performed, and the atomics at the home of
another die (R340). -/

namespace Sys2Proof.Machine

/-- OP of an atomic (R169). -/
def atomOp (x : Fields) : Nat := bits x.imm.toNat 28 4
/-- RET: the old value goes to D. -/
def atomRet (x : Fields) : Bool := x.mod.getLsbD 0
/-- PLC, the placement asked for (R173). -/
def atomPlc (x : Fields) : Nat := bits x.mod.toNat 1 2

/-- The new value of an atomic (R170) of type `t`: `x` the operand or the compare value, `y` the swap value;
16 is FENCEV's on its completion word (R198). -/
def atomicNew (op t rm old x y : Nat) : Nat :=
  let w := widthOf t
  match op with
  | 0 => (old + x) % 2 ^ w
  | 1 => if intOf t x < intOf t old then x else old
  | 2 => if intOf t old < intOf t x then x else old
  | 3 => old &&& x
  | 4 => old ||| x
  | 5 => old ^^^ x
  | 6 => x
  | 7 => if old = x then y else old
  | 8 => roundF t rm false (addF rm (decodeF t old) (decodeF t x))
  | 9 => roundF t 0 false (minMaxF false (decodeF t old) (decodeF t x))
  | 16 => if old % 2 ^ 32 = old / 2 ^ 32 then old / 2 ^ 32 * 2 ^ 32 else old
  | _ => roundF t 0 false (minMaxF true (decodeF t old) (decodeF t x))

/-- The rights an atomic needs (R170). -/
def atomRights (x : Fields) : Nat := rightA + rightW + (if atomRet x then rightR else 0)

/-- An operation and a type that PCI Express AtomicOps carry (R173). -/
def atomicOpsCarry (x : Fields) : Bool := (atomOp x == 0 || atomOp x == 6 || atomOp x == 7) && x.t.toNat < 8

/-- The placement that takes effect (R173): PLC, or the default of the page: 1 NEAR, 2 HOME, 3 HOST. -/
def placementOf (x : Fields) (l : Loc) : Nat := if atomPlc x = 0 then l.apl + 1 else atomPlc x

/-- Where an atomic leaves its line (R147, R173): NEAR in the issuing heat's L2 slice as the policy allows, else in the memory-side cache of its
home. -/
def atomicLoc (x : Fields) (l : Loc) : Loc := if placementOf x l = 1 then l else l.home

/-- The placement suits the line (R173). -/
def placementOk (x : Fields) (l : Loc) : Bool :=
  let eff := placementOf x l
  if isHost l.key then eff == 3 && atomicOpsCarry x else eff != 3

/-- One atomic of a lane: its offset, its key among the answers of its instruction, its operands, and where its old value goes. -/
structure AtomPiece where
  off : Int
  answer : Nat
  x : Nat
  y : Nat
  k : Nat
  deriving DecidableEq, Repr

/-- Check and place the atomics of a lane before any of them is performed (R361). -/
def placeAtomics (s : State) (c : Cap) (n : Nat) : List AtomPiece → Except Stop (List (AtomPiece × Loc))
  | [] => .ok []
  | p :: t =>
    match translate s s.curC.ctx c p.off n { rights := atomRights s.ir, align := n, write := true, atomic := true } with
    | .error st => .error st
    | .ok l =>
      if !placementOk s.ir l then .error (.trap 0x30 5)
      else
        match (if isHost l.key || dieOfKey l.key = s.curDie then atomicStop s s.curDie l else none) with
        | some st => .error st
        | none =>
          match placeAtomics s c n t with
          | .error st => .error st
          | .ok ps => .ok ((p, l) :: ps)

/-- What the home of another die has answered (R340) to the atomic with these operands: not yet (the message is to be sent, or under
way), poison, a redirect (R187), or the old value with its timestamp. -/
def remoteAnswer (s : State) (answer : Nat) (l : Loc) (op : List Nat) : Except Stop (Nat × Nat) :=
  let line := lineOf l.key
  match tfind? s.curT.answers answer with
  | none => .error (.atHome line answer op)
  | some 0 => .error (.atHome line answer [])
  | some 1 => .error (.trap 0x50 2)
  | some 2 => .error (.atHome line answer op)
  | some v => .ok ((v - 3) % 2 ^ 64, (v - 3) / 2 ^ 64)

/-- One atomic of the current instruction at the home of another die: its message holds the answer's key, the word's key and size, the
operation, type, rounding and operands, the issuer's `PTS` and the leaf it came through. -/
def remoteAtomic (s : State) (n : Nat) (p : AtomPiece) (l : Loc) : Except Stop (Nat × Nat) :=
  remoteAnswer s p.answer l [p.answer, l.key, n, atomOp s.ir, s.ir.t.toNat, s.ir.rm.toNat, p.x, p.y, (issuePts s),
    (match l.leaf with | some k => k + 1 | none => 0)]

/-- The homes of other dies have found the lines of a lane's atomics in place and free of poison: asked before the first is performed, where they
lie in more than one line, as a lane whose atomic fails performs none (R361). The question is the operation 17. -/
def probeAtomics (n : Nat) (all : List (AtomPiece × Loc)) (s : State) : Option Stop :=
  if (all.map (fun q => lineOf q.2.key)).eraseDups.length ≤ 1 then none
  else all.findSome? (fun q =>
    if isHost q.2.key || dieOfKey q.2.key == s.curDie then none
    else
      let k := 1024 + q.1.answer
      match remoteAnswer s k q.2 [k, q.2.key, n, 17, 0, 0, 0, 0, issuePts s, (match q.2.leaf with | some k => k + 1 | none => 0)] with
      | .error st => some st
      | .ok _ => none)

/-- Perform the atomics of a lane in order, raising `PTS` (R165, R170): the old values. -/
def performAtomics (n : Nat) : List (AtomPiece × Loc) → State → Except Stop (State × List (AtomPiece × Nat))
  | [], s => .ok (s, [])
  | (p, l) :: t, s =>
    let r := if isHost l.key || dieOfKey l.key = s.curDie then
        atomicAt s s.curDie (issuePts s) (atomicLoc s.ir l) n (fun old => atomicNew (atomOp s.ir) s.ir.t.toNat s.ir.rm.toNat old p.x p.y)
      else
        match remoteAtomic s n p l with
        | .error st => .error st
        | .ok (old, ts) => .ok (touchLeaf s l true, old, ts)
    match r with
    | .error st => .error st
    | .ok (s, old, ts) =>
      match performAtomics n t (accessedAt s ts) with
      | .error st => .error st
      | .ok (s, os) => .ok (s, (p, old) :: os)

/-- The operands x and y of element k of a lane (R171). -/
def atomOperands (s : State) (L k : Nat) : Nat × Nat :=
  let w := widthOf s.ir.t.toNat
  (elem w k (readV s w s.ir.c.toNat L), elem w k (readV s w (s.ir.c.toNat + 1) L))

/-- The atomics of a lane, ascending (R171). -/
def atomPieces (s : State) (mem : Bool) (L : Nat) : List AtomPiece :=
  let w := widthOf s.ir.t.toNat
  let ps := readPreds s w
  let e := laneOffset s mem 8 L
  ((upTo (64 / w)).filter (fun k => picks s.ir ps k L)).map (fun k =>
    ⟨e + (k * (w / 8) : Nat), 8 * L + k, (atomOperands s L k).1, (atomOperands s L k).2, k⟩)

/-- The write of an old value to element k of v[D] (R171). -/
def oldWrite (s : State) (L : Nat) (q : AtomPiece × Nat) : List RegWrite :=
  let w := widthOf s.ir.t.toNat
  if atomRet s.ir then [.v s.ir.d.toNat L (elemMask w q.1.k) (setElem w q.1.k 0 q.2)] else []

/-- VATOM, R171. -/
def execVatom (s : State) : Out :=
  guarded .vatom s (fun s =>
    let c := readC s s.ir.a.toNat
    let w := widthOf s.ir.t.toNat
    laneAccess .vatom s 5 s.ir.a.toNat (activeLanes s w) (fun u L =>
      let e := laneOffset s true 8 L
      match placeAtomics u c (w / 8) (atomPieces s true L) with
      | .error st => .error (e, st)
      | .ok ps =>
        match (match probeAtomics (w / 8) ps u with | some st => Except.error st | none => performAtomics (w / 8) ps u) with
        | .error st => .error (e, st)
        | .ok (u, os) => .ok (u, os.flatMap (oldWrite s L))))

/-- The old value of SATOM as a scalar (R172). -/
def scalarOld (s : State) (old : Nat) : Word := if s.ir.t = 2 then word (wrap 64 (signed 32 old)) else word old

/-- The offset of SATOM (R172). -/
def satomOffset (s : State) : Int := baseOf s true + dispOf s.ir + (operandB s).toInt

/-- The one atomic of SATOM (R172): a 32-bit type takes the low half of its operands. -/
def satomPiece (s : State) : AtomPiece :=
  let w := widthOf s.ir.t.toNat
  ⟨satomOffset s, 0, elem w 0 (readS s s.ir.c.toNat), elem w 0 (readS s (s.ir.c.toNat + 1)), 0⟩

/-- SATOM, R172. -/
def execSatom (s : State) : Out :=
  guarded .satom s (fun s =>
    if !roomOn s 5 then .next (stallIssue s)
    else if earlierOpen s then .next (holdAccess s .satom (some 5))
    else
      let c := readC s s.ir.a.toNat
      let n := widthOf s.ir.t.toNat / 8
      let stop := stopAt .satom (some 5) s (faddrOf s.ir.a.toNat 0 (satomOffset s)) 0
      match placeAtomics s c n [satomPiece s] with
      | .error st => stop st
      | .ok ps =>
        match performAtomics n ps s with
        | .error st => stop st
        | .ok (u, os) =>
          .next (finish (doneAccess u 5 (if atomRet s.ir then
            os.map (fun q => .s s.cur s.ir.d.toNat (scalarOld s q.2)) else []))))

/-- The scratchpad atomics of a lane, performed in order at the banks (R166, R171): the crew and the old values. -/
def scratchAtomics (s : State) (n : Nat) (ps : List AtomPiece) : State × List (AtomPiece × Nat) :=
  ps.foldl (fun (acc : State × List (AtomPiece × Nat)) p =>
    let a := scratchAddr p.off
    let old := acc.1.curC.scratchNum a n
    let new := atomicNew (atomOp s.ir) s.ir.t.toNat s.ir.rm.toNat old p.x p.y
    (acc.1.putCrew acc.1.curCk (acc.1.curC.scratchWrite a (bytesOf n new)), acc.2 ++ [(p, old)])) (s, [])

/-- SPATOM, R171: an address that is no multiple of w/8 traps CAPBOUND 2 with the scratchpad address, a poisoned word UNCORR 4. -/
def execSpatom (s : State) : Out :=
  guarded .spatom s (fun s =>
    let w := widthOf s.ir.t.toNat
    laneAccess .spatom s 5 0 (activeLanes s w) (fun u L =>
      let ps := atomPieces s false L
      match ps.find? (fun p => scratchAddr p.off % (w / 8) != 0) with
      | some p => .error ((scratchAddr p.off : Nat), .trap 0x11 2)
      | none =>
        match ps.findSome? (fun p => u.curC.scratchPoisoned (scratchAddr p.off) (w / 8)) with
        | some wd => .error ((8 * wd : Nat), .trap 0x50 4)
        | none =>
          let (u, os) := scratchAtomics u (w / 8) ps
          .ok (u, os.flatMap (oldWrite s L))))

end Sys2Proof.Machine
end

