-- ==== Sys2Proof/Machine/Flags.lean ====
section
/-! DEFINITION. The VN8 has no flags register; its conditions live in predicates and in scalar results. Here stand the conditions of
the compares (R126), the class mask of VFCLS (R125), and the counts over predicates (R108). -/

namespace Sys2Proof.Machine

/-- Whether a condition of R126 holds for operands that compare as `o`; none for unordered ones. -/
def condition (cc : Nat) (o : Option Ordering) : Bool :=
  match cc, o with
  | 0, some .eq => true
  | 1, some .eq => false
  | 1, _ => true
  | 2, some .lt => true
  | 3, some .lt => true
  | 3, some .eq => true
  | 4, some .gt => true
  | 5, some .gt => true
  | 5, some .eq => true
  | 6, none => true
  | 7, some _ => true
  | _, _ => false

/-- How two elements of a type compare (R126): none when unordered. -/
def compareElems (t a b : Nat) : Option Ordering :=
  if t < 8 then some (compare (intOf t a) (intOf t b))
  else
    let x := decodeF t a
    let y := decodeF t b
    if x.isNan || y.isNan then none else some (compareV x y)

/-- The class mask of a floating element (R125). -/
def classMask (t x : Nat) : Nat :=
  let f := fmtOf t
  match decodeF t x with
  | .nan _ _ => if bitAt x (f.fb - 1) then 2 ^ 9 else 2 ^ 8
  | .inf neg => if neg then 2 ^ 0 else 2 ^ 7
  | .fin neg m _ =>
    if m = 0 then (if neg then 2 ^ 3 else 2 ^ 4)
    else if bits x f.fb f.eb = 0 then (if neg then 2 ^ 2 else 2 ^ 5)
    else if neg then 2 ^ 1 else 2 ^ 6

/-- The number of lanes of a mask (R108). -/
def laneCount (m : LaneMask) : Nat := (lanesOf m).length

end Sys2Proof.Machine
end

