-- ==== Sys2Proof/Machine/Control.lean ====
section
/-! DEFINITION. Control transfer, fragments, waiting, traps, control registers and trace, OPC 0x00 and 0x30 to 0x43 (R109 to R115,
R89 to R92, R412 to R418), and the events that act on a thread: completion, expiry, trap entry, delivery, kill. -/

namespace Sys2Proof.Machine

/-! ### Branches -/

/-- The target of a branch: the instruction's own address plus B (R109). -/
def target (s : State) : Word := ownPc s + operandB s

/-- An address that an instruction may have (R22). -/
def aligned4 (a : Word) : Bool := a.toNat % 4 == 0

/-- Emit TAKEN or NTAKEN (R416). -/
def traceBranch (s : State) (taken : Bool) : State := traceEmit s s.cur (if taken then 2 else 1) (lowestLane s.mask) []

/-- A branch (R109): a target that is no multiple of 4 traps ILLEGAL 8 whichever way it goes. -/
def branch (i : Instr) (traced : Bool) (s : State) (taken : State → Bool) : Out :=
  guarded i s (fun s =>
    if !aligned4 (target s) then illegal s 8
    else
      let tk := taken s
      let s' := if traced then traceBranch s tk else s
      .next (jumpTo s' (if tk then target s else nextPc s)))

/-- BRANY's test. -/
def anyLane (s : State) : Bool := readP s s.ir.a.toNat &&& s.mask != 0
/-- BRALL's test. -/
def allLanes (s : State) : Bool := readP s s.ir.a.toNat &&& s.mask == s.mask

/-- NOP, R112. -/
def execNop (s : State) : Out := guarded .nop s (fun s => .next (finish s))
/-- BR, R109. -/
def execBr (s : State) : Out := branch .br false s (fun _ => true)
/-- BR with a literal displacement. -/
def execBrLit (s : State) : Out := branch .brLit false s (fun _ => true)
/-- BRZ, R109. -/
def execBrz (s : State) : Out := branch .brz true s (fun s => readS s s.ir.a.toNat == 0)
/-- BRZ with a literal displacement. -/
def execBrzLit (s : State) : Out := branch .brzLit true s (fun s => readS s s.ir.a.toNat == 0)
/-- BRNZ, R109. -/
def execBrnz (s : State) : Out := branch .brnz true s (fun s => readS s s.ir.a.toNat != 0)
/-- BRNZ with a literal displacement. -/
def execBrnzLit (s : State) : Out := branch .brnzLit true s (fun s => readS s s.ir.a.toNat != 0)
/-- BRANY, R109. -/
def execBrany (s : State) : Out := branch .brany true s anyLane
/-- BRANY with a literal displacement. -/
def execBranyLit (s : State) : Out := branch .branyLit true s anyLane
/-- BRALL, R109. -/
def execBrall (s : State) : Out := branch .brall true s allLanes
/-- BRALL with a literal displacement. -/
def execBrallLit (s : State) : Out := branch .brallLit true s allLanes
/-- BRNONE, R109. -/
def execBrnone (s : State) : Out := branch .brnone true s (fun s => !anyLane s)
/-- BRNONE with a literal displacement. -/
def execBrnoneLit (s : State) : Out := branch .brnoneLit true s (fun s => !anyLane s)

/-- CALL's meaning, R110. -/
def callOp (i : Instr) (s : State) : Out :=
  guarded i s (fun s =>
    if !aligned4 (target s) then illegal s 8
    else .next (jumpTo (writeS s 0 s.ir.d.toNat (nextPc s)) (target s)))

/-- CALL, R110. -/
def execCall (s : State) : Out := callOp .call s
/-- CALL with a literal displacement. -/
def execCallLit (s : State) : Out := callOp .callLit s

/-- RET, R110: it emits a DATA packet with the target (R416). -/
def execRet (s : State) : Out :=
  guarded .ret s (fun s =>
    let a := readS s s.ir.a.toNat
    if !aligned4 a then illegal s 8
    else .next (jumpTo (traceEmit s s.cur 5 (lowestLane s.mask) ([1, 0] ++ bytesOf 4 a.toNat)) a))

/-- LOOP's meaning, R110; its target is checked as a branch's (log 15). -/
def loopOp (i : Instr) (s : State) : Out :=
  guarded i s (fun s =>
    let v := readS s s.ir.d.toNat - 1
    if !aligned4 (target s) then illegal s 8
    else .next (jumpTo (writeS (traceBranch s (v != 0)) 0 s.ir.d.toNat v) (if v != 0 then target s else nextPc s)))

/-- LOOP, R110. -/
def execLoop (s : State) : Out := loopOp .loop s
/-- LOOP with a literal displacement. -/
def execLoopLit (s : State) : Out := loopOp .loopLit s

/-! ### Fragments -/

/-- A late write of a fragment `f` that divides: what it wrote in the detached lanes is then of `g`. The detached fragment's scalar and
capability registers are copies of what has landed (R89). -/
def splitLate (f g : Nat) (det stay : LaneMask) (l : Late) : List Late :=
  if l.thread != f then [l]
  else if l.file = 1 then [if det.getLsbD (l.key % 32) then { l with thread := g } else l]
  else if l.file = 2 then [{ l with mask := l.mask &&& stay.toNat }, { l with thread := g, mask := l.mask &&& det.toNat }]
  else [l]

/-- Divide the current fragment (R89): `tk` the taken lanes, `goal` the target. -/
def divide (s : State) (tk : LaneMask) (goal : Word) : State :=
  let wk := s.curWk
  let fl := s.mask &&& ~~~tk
  let f := s.curT
  let takenLeaves := decide (laneCount tk ≤ laneCount fl)
  let (det, detPc, stay, stayPc) := if takenLeaves then (tk, goal, fl, nextPc s) else (fl, nextPc s, tk, goal)
  let w := s.curW
  let r := tnext w.joins
  let slot := ((upTo 32).find? (fun k => !thas s.threads (32 * wk + k))).getD 31
  let g := 32 * wk + slot
  let live := (s.liveOf wk).length
  let s := s.modWave wk (fun w => { w with
    joins := tput w.joins r ⟨s.ir.d.toNat, tk ||| fl, stay⟩
    late := w.late.flatMap (splitLate s.cur g det stay) })
  let s := s.putThread s.cur ({ f with mask := stay, joins := r :: f.joins }.issuedAt s.clock s.ir.stall.toNat stayPc)
  let f' := s.curT
  s.putThread g { f' with
    mask := det, pc := detPc, age := s.clock, last := s.clock, state := if live < 8 then .live else .deferred, tag := none }

/-- SPLIT's meaning, R89, R111. -/
def splitOp (i : Instr) (s : State) : Out :=
  guarded i s (fun s =>
    let tk := readP s s.ir.a.toNat &&& s.mask
    if !aligned4 (target s) then illegal s 8
    else if tk = 0 then .next (jumpTo (traceBranch s false) (nextPc s))
    else if tk = s.mask then .next (jumpTo (traceBranch s true) (target s))
    else if 16 ≤ s.curT.joins.length then illegal s 9
    else
      let s' := traceEmit s s.cur 3 (lowestLane s.mask) ([BitVec.ofNat 8 s.ir.d.toNat, 0] ++ bytesOf 4 tk.toNat)
      .next (divide s' tk (target s)))

/-- SPLIT, R89, R111. -/
def execSplit (s : State) : Out := splitOp .split s
/-- SPLIT with a literal displacement. -/
def execSplitLit (s : State) : Out := splitOp .splitLit s

/-- JOIN, R90, R111: without a matching record it does nothing; else the fragment parks, and merges when every lane has come. -/
def execJoin (s : State) : Out :=
  guarded .join s (fun s =>
    let wk := s.curWk
    match s.curT.joins with
    | [] => .next (finish s)
    | r :: _ =>
      if (tget {} s.curW.joins r).token != s.ir.d.toNat then .next (finish s)
      else
        let s := s.modThread s.cur (fun t => { t with
          state := .joined, last := s.clock, position := t.position + 1 + s.ir.stall.toNat
          readyAt := s.clock + 1 + s.ir.stall.toNat })
        .next (barrierCheck (revive (tryMerge s wk r (some s.cur)) wk) (crewOf wk)))

/-- EXIT, R91, R112; on a sequencer it makes the sequencer idle (R201, R204). -/
def execExit (s : State) : Out :=
  guarded .exit s (fun s =>
    if isSequencer s.curWk then
      let s := s.modThread s.cur (fun t => { t with state := .idle, tag := none, last := s.clock })
      .next (s.modCrew s.curCk (fun c => { c with forerunner := if c.forerunner = some s.curWk then none else c.forerunner }))
    else .next (endFragment s s.cur))

/-! ### Waiting -/

/-- YIELD, R112: held until every other fragment of its quarter that was ready has issued once since, or until the bound of R96; the
hold's number counts the issue opportunities seen. -/
def execYield (s : State) : Out :=
  guarded .yield s (fun s =>
    let quarter (k : Nat) : Nat := 4 * crewOf (waveOf k) + widOf (waveOf k) % 4
    let mates := (s.threads.filter (fun e => e.1 != s.cur && !isSequencer (waveOf e.1) && quarter e.1 == quarter s.cur)).map (·.1)
    match s.curT.hold with
    | none =>
      let peers := mates.filter (fun k => s.ready k && !s.passed.contains k)
      if peers.isEmpty then .next (finish s) else .next (holdWith s .yield 0 peers)
    | some h =>
      let open' := h.peers.filter (fun k => thas s.threads k && (s.thread k).state == .live && (s.thread k).last ≤ h.since &&
        (match (s.thread k).notReadyAt with | some c => decide (c < h.since) | none => true))
      let seen := h.arg + (if mates.any (fun k => (s.thread k).last + 1 == s.clock) then 1 else 0)
      if open'.isEmpty || 63 ≤ seen then .next (finish s) else .next (holdWith s .yield seen open'))

/-- SLEEP's meaning, R112: held for min(B, 2^24) cycles. -/
def sleepOp (i : Instr) (s : State) : Out :=
  guarded i s (fun s =>
    let n := min (operandB s).toNat (2 ^ 24)
    match s.curT.hold with
    | some _ => .next s
    | none => if n = 0 then .next (finish s) else .next (holdWith s i (s.clock + n) []))

/-- SLEEP, R112. -/
def execSleep (s : State) : Out := sleepOp .sleep s
/-- SLEEP with a literal count. -/
def execSleepLit (s : State) : Out := sleepOp .sleepLit s

/-- SLEEP_EXPIRY, R112: the count has passed, and the fragment goes on. -/
def execSleepExpiry (s : State) : Out :=
  match (s.thread s.ev.subject).hold with
  | some h =>
    if (h.op = .sleep ∨ h.op = .sleepLit) ∧ h.arg ≤ s.clock then
      .next ((finish (resumed s s.ev.subject)).modThread s.ev.subject (fun t => { t with readyAt := max s.clock (min t.readyAt (h.since + 1 + h.f.stall.toNat)) }))
    else .next s
  | none => .next s

/-! ### Traps -/

/-- TRAP's meaning, R113: `EPC` is the next instruction. -/
def trapOp (i : Instr) (s : State) : Out :=
  guarded i s (fun s => .next (takeTrapOf s s.cur 0x05 ((operandB s).toNat % 256) 0 0 true))

/-- TRAP, R113. -/
def execTrap (s : State) : Out := trapOp .trap s
/-- TRAP with a literal B. -/
def execTrapLit (s : State) : Out := trapOp .trapLit s
/-- BKPT, R113. -/
def execBkpt (s : State) : Out := guarded .bkpt s (fun s => .next (takeTrapOf s s.cur 0x06 0 0 0 true))
/-- SRET, R113, R360; ILLEGAL 7 while HM = 0. -/
def execSret (s : State) : Out :=
  guarded .sret s (fun s => if s.curW.hm then .next (returnFromTrap s) else illegal s 7)

/-- A thread leaves every queue that its held instruction stands in (R376). -/
def leaveQueues (s : State) (t : Nat) : State :=
  let ck := crewOf (waveOf t)
  let s := s.modCrew ck (fun c => { c with
    semQueue := c.semQueue.map (fun q => (q.1, q.2.filter (fun w => match w with | .thread k _ => k != t | .sub _ => true)))
    kittyQueue := lerase t c.kittyQueue
    reord := c.reord.filter (fun r => r.1 != t)
    gangs := c.gangs.map (fun g => (g.1, { g.2 with waiting := g.2.waiting.filter (fun m => m.thread != t) })) })
  { s with instances := s.instances.map (fun e => (e.1, { e.2 with takers := lerase t e.2.takers })) }

/-- A wave ends as though every fragment had issued `EXIT`; its pending loads have no effect (R396). -/
def strikeWave (s : State) (wk : Nat) : State :=
  let ts := s.threadsOf wk
  let s := ts.foldl leaveQueues s
  endWave { s with
    threads := s.threads.filter (fun e => waveOf e.1 != wk)
    accesses := s.accesses.filter (fun e => !(e.2.wave == wk && e.2.command.isNone)) } wk

/-- TRAP_ENTRY, R359: the commands that the trap waited for have completed. -/
def execTrapEntry (s : State) : Out :=
  let t := s.ev.subject
  match (s.thread t).trap with
  | none => .next s
  | some (code, detail, faddr, fmask, epc) =>
    if commandsOutstanding s (waveOf t) then .next s else .next (enterTrap s t code detail faddr fmask epc)

/-- The fragment of a wave that takes an asynchronous trap (R376). -/
def asyncFragment (s : State) (wk : Nat) : Option Nat :=
  match minBy (fun k => [(s.thread k).last, (s.thread k).age, lowestLane (s.thread k).mask]) (s.liveOf wk) with
  | some k => some k
  | none => minBy (fun k => [lowestLane (s.thread k).mask]) (s.threadsOf wk)

/-- A fragment can be struck (R376): it stands before its next issue, or in a hold that the event ends. -/
def strikable (t : Thread) : Bool :=
  match t.hold with
  | none => true
  | some h => [Instr.sema, .waitc, .waitb, .meld, .bar, .mwait].contains h.op

/-- ASYNC_TRAP_DELIVERY, R376: the oldest pending event of a wave strikes one fragment, unless a trap is being handled. -/
def execAsyncTrapDelivery (s : State) : Out :=
  let wk := s.ev.subject
  let w := s.wave wk
  match w.pending, asyncFragment s wk with
  | e :: rest, some t =>
    if w.hm || w.parked || (s.threadsOf wk).any (fun k => (s.thread k).trap.isSome) || !strikable (s.thread t) then .next s
    else
      let s := s.putWave wk { w with pending := rest }
      let s := if e.code = 0x42 ∧ e.detail < 8 then s.modCrew (crewOf wk) (fun c => { c with chanFault := lerase e.detail c.chanFault }) else s
      .next (takeTrapOf (leaveQueues s t) t e.code e.detail e.faddr 0 false)
  | _, _ => .next s

/-- KILL, R367: the launch from which a crew descends, and every launch below it. -/
def execKill (s : State) : Out :=
  .next (killFamily s s.ev.subject s.ev.arg1 { code := 0x60, detail := s.ev.arg1, wid := 0xFF, src := 5 })

/-- ACCESS_COMPLETION, R97: registers are written and the counter falls; a barrier may open (R190). -/
def execAccessCompletion (s : State) : Out :=
  match tfind? s.accesses s.ev.subject with
  | none => .next s
  | some a => .next (barrierCheck (completeAccess s s.ev.subject a) (crewOf a.wave))

/-! ### Control registers and trace -/

/-- `LID` of a lane of a wave (R35): 32 * WID + lane, or the lane's original id after REORD. -/
def lidOf (w : Wave) (wk lane : Nat) : Word := (tfind? w.lid lane).getD (word (32 * widOf wk + lane))

/-- `KITTY` as read: all ones for an unmetered crew (R228). -/
def kittyRead (c : Crew) : Nat := if c.krate = 0 then 0xFFFFFFFF else c.kitty

/-- A control register (R35 to R37, R412). -/
def csrValue (s : State) (n : Nat) : Word :=
  let w := s.curW
  let c := s.curC
  match n with
  | 0x00 => word (c.vallot * 256 + c.prio * 16 + if w.hm then 1 else 0)
  | 0x01 => w.cause
  | 0x02 => w.epc
  | 0x03 => w.faddr
  | 0x04 => w.fmask.setWidth 64
  | 0x05 => w.repidx.setWidth 64
  | 0x08 => word (kittyRead c)
  | 0x09 => word c.krate
  | 0x10 => lidOf w s.curWk (lowestLane s.mask)
  | 0x11 => word (widOf s.curWk)
  | 0x12 => word c.crewid
  | 0x13 => word (heatOf c.core)
  | 0x14 => word (divisionOf c.die c.core)
  | 0x15 => word c.die
  | 0x16 => word (dieClass c.die)
  | 0x18 => word w.pts
  | 0x19 => word (s.timew c.die)
  | 0x1A => if w.scbchk then 1 else 0
  | 0x1B => if traceEn w.tracectl then w.tracectl else w.tracectl &&& ~~~1
  | 0x1C => word (min (s.liveOf s.curWk).length 15 +
      256 * min ((s.threadsOf s.curWk).filter (fun k => (s.thread k).state == .deferred)).length 15)
  | _ => 0

/-- CSRR, R114. -/
def execCsrr (s : State) : Out :=
  guarded .csrr s (fun s => .next (finish (writeS s 1 s.ir.d.toNat (csrValue s s.ir.a.toNat))))

/-- Write `TRACECTL` (R412): a SYNC set where the trace starts or its ring changes (R417). -/
def writeTrace (s : State) (v : Word) : State :=
  let old := s.curW.tracectl
  let v := v &&& 0xFFFF000F07FFFFFB
  let s := s.modWave s.curWk (fun w => { w with tracectl := v })
  if traceEn v && (!traceEn old || traceRing old != traceRing v || traceSize old != traceSize v) then traceSyncSet s s.cur (nextPc s) else s

/-- Write a control register: only the writable fields of R114 change. -/
def csrWrite (s : State) (n : Nat) (v : Word) : State :=
  match n with
  | 0x02 => s.modWave s.curWk (fun w => { w with epc := v })
  | 0x05 => s.modWave s.curWk (fun w => { w with repidx := v.setWidth 16 })
  | 0x1A => s.modWave s.curWk (fun w => { w with scbchk := v.getLsbD 0 })
  | 0x1B => writeTrace s v
  | _ => s

/-- CSRW's meaning, R114. -/
def csrwOp (i : Instr) (s : State) : Out :=
  guarded i s (fun s => .next (finish (csrWrite s s.ir.d.toNat (operandB s))))

/-- CSRW, R114. -/
def execCsrw (s : State) : Out := csrwOp .csrw s
/-- CSRW with a literal B. -/
def execCsrwLit (s : State) : Out := csrwOp .csrwLit s

/-- TRC's meaning, R115: a DATA packet when software packets are enabled. -/
def trcOp (i : Instr) (s : State) : Out :=
  guarded i s (fun s =>
    .next (finish (if traceSw s.curW.tracectl then
      traceEmit s s.cur 5 (lowestLane s.mask) ([0, 0] ++ bytesOf 4 (operandB s).toNat) else s)))

/-- TRC, R115. -/
def execTrc (s : State) : Out := trcOp .trc s
/-- TRC with a literal B. -/
def execTrcLit (s : State) : Out := trcOp .trcLit s

end Sys2Proof.Machine
end

