-- ==== Sys2Proof/Machine/Sync.lean ====
section
/-! DEFINITION. Synchronisation instructions, class 0x6A (R188 to R198): the crew barrier, barrier objects, waits, fences, the monitor,
semaphores (R196, R375), the eviction phase and the versioned fence. -/

namespace Sys2Proof.Machine

/-! ### Barriers and waits -/

/-- BAR, R190: the fragment parks at the crew barrier; this arrival may open it. -/
def execBar (s : State) : Out :=
  guarded .bar s (fun s =>
    let s := (holdAt s .bar).modThread s.cur (fun t => { t with state := .barred })
    .next (barrierCheck (revive s s.curWk) s.curCk))

/-- PHASE of a barrier object's word (R191). -/
def barrierPhase (b : Nat) : Nat := bits b 48 16

/-- A barrier object's word after `n` arrivals (R191): surplus arrivals are dropped. -/
def barrierArrive (b n : Nat) : Nat :=
  let pend := bits b 0 16
  let expect := bits b 32 16
  if pend ≤ n then (barrierPhase b + 1) % 2 ^ 16 * 2 ^ 48 + b % 2 ^ 48 / 2 ^ 16 * 2 ^ 16 + expect
  else b - n

/-- The count n of ARRV and MBAR. -/
def arrivals (s : State) : Nat := s.ir.imm.toNat % 2 ^ 16

/-- The trap of an arrival (R363): n = 0, or an object address that is no multiple of 8. -/
def arrivalTrap (s : State) : Option Nat :=
  if arrivals s = 0 then some 4 else if (readS s s.ir.a.toNat).toNat % 8 != 0 then some 1 else none

/-- ARRV, R191: a CREW release, then one bank access; a poisoned word traps UNCORR 4 (R395). -/
def execArrv (s : State) : Out :=
  guarded .arrv s (fun s =>
    let a := (readS s s.ir.a.toNat).toNat % 2 ^ 19
    match arrivalTrap s with
    | some d => arith s d
    | none =>
      if (s.curC.scratchPoisoned a 8).isSome then trapWith s 0x50 4 (faddrOf 0 0 a) 0
      else
        waitFor .arrv s (performedAll s s.curWk) (fun s =>
          let b := s.curC.scratchNum a 8
          let s := (crewRelease s).modCrew s.curCk (fun c => c.scratchWrite a (bytesOf 8 (barrierArrive b (arrivals s))))
          writeS s 0 s.ir.d.toNat (word (barrierPhase b))))

/-- WAITB, R192. -/
def execWaitb (s : State) : Out :=
  guarded .waitb s (fun s =>
    let a := (readS s s.ir.a.toNat).toNat % 2 ^ 19
    if (s.curC.scratchPoisoned a 8).isSome then trapWith s 0x50 4 (faddrOf 0 0 a) 0
    else waitFor .waitb s (barrierPhase (s.curC.scratchNum a 8) != (operandB s).toNat % 2 ^ 16) crewAcquire)

/-- WAITC, R98, R193. -/
def execWaitc (s : State) : Out :=
  guarded .waitc s (fun s =>
    waitFor .waitc s (s.curW.counter (bits s.ir.imm.toNat 0 3) ≤ (operandB s).toNat) id)

/-- The instruction has been issued: the accesses before it are those numbered below its hold's number. -/
def heldSince (i : Instr) (s : State) : State :=
  match s.curT.hold with
  | some _ => s
  | none => holdWith s i (tnext s.accesses) []

/-- The bound on the numbers of the accesses that were issued before the held instruction. -/
def issuedBefore (s : State) : Nat := match s.curT.hold with | some h => h.arg | none => tnext s.accesses

/-- FENCE, R194: every access that the wave issued before it is complete. -/
def execFence (s : State) : Out :=
  guarded .fence s (fun s =>
    let n := issuedBefore s
    if s.accesses.all (fun e => !(e.2.wave == s.curWk && e.1 < n)) then .next (finish s) else .next (heldSince .fence s))

/-- FENCE.EVICT, R194, R296: right L and a level-of-detail object; every load and encoding of that object that read its map before has
completed. -/
def execFenceEvict (s : State) : Out :=
  guarded .fenceEvict s (fun s =>
    let c := readC s s.ir.a.toNat
    match objectCheck s s.curC.ctx c { rights := rightL, kind := 1 } with
    | .error st => stopAt .fenceEvict none s (faddrOf s.ir.a.toNat 0 c.off) 0 st
    | .ok _ =>
      let n := issuedBefore s
      let k := entryKey s s.curDie s.curC.asid c.obj
      if s.accesses.all (fun e => !(e.2.lod == k + 1 && e.1 < n)) then .next (finish s) else .next (heldSince .fenceEvict s))

/-! ### The monitor (R195) -/

/-- The offset of MON. -/
def monOffset (s : State) : Int := baseOf s true + (operandB s).toInt + dispOf s.ir

/-- A store above `ts` to a line has been performed, as far as its owner on the die knows: a load from an old copy took an earlier time (R195). -/
def storedAfter (s : State) (die : Nat) (l : Loc) (ts : Nat) : Bool :=
  let line := lineOf l.key
  !isHost l.key && decide (ts < (if dieOfKey l.key = die then (s.stamps line).1 else match tfind? (s.die die).rdc line with | some r => r.wts | none => 0))

/-- MON, R195: it takes effect at a timestamp as a load would, and reads nothing into a register. -/
def execMon (s : State) : Out :=
  guarded .mon s (fun s =>
    let c := readC s s.ir.a.toNat
    let e := monOffset s
    let stop := stopAt .mon none s (faddrOf s.ir.a.toNat 0 e) 0
    let arm (s : State) (l : Loc) (ts : Nat) : Out :=
      let m : Monitor := { line := lineOf l.key, ts := ts, hit := storedAfter s s.curDie l ts }
      .next (finish ((accessedAt s ts).modWave s.curWk (fun w => { w with monitor := some m })))
    if earlierOpen s then .next (holdAt s .mon) else
    match translate s s.curC.ctx c e 1 { rights := rightR } with
    | .error st => stop st
    | .ok l =>
      match loadAt s s.curDie (some s.curC.core) (issuePts s) l 1 with
      | .ok (s, g) => arm s l g.ts
      | .error (.trap _ _) => arm s l (issuePts s)
      | .error st => stop st)

/-- MWAIT completes with a reason and disarms the monitor. -/
def mwaitDone (s : State) (reason : Nat) : State :=
  finish ((writeS s 0 s.ir.d.toNat (word reason)).modWave s.curWk (fun w => { w with monitor := none }))

/-- MWAIT, R195; the hold's number is the cycle in which its time has passed. -/
def execMwait (s : State) : Out :=
  guarded .mwait s (fun s =>
    match s.curW.monitor with
    | none => .next (mwaitDone s 0)
    | some m =>
      if m.hit then .next (mwaitDone s 1)
      else
        match s.curT.hold with
        | some _ => .next s
        | none =>
          let b := min (operandB s).toNat (2 ^ 32)
          if b = 0 then .next (mwaitDone s 2) else .next (holdWith s .mwait (s.clock + b) []))

/-- The state in which a held MWAIT of a thread completes, if it is one. -/
def heldMwait (s : State) (t : Nat) : Option (State × Hold) :=
  match (s.thread t).hold with
  | some h => if h.op = .mwait then some ({ s with cur := t, ir := h.f, len := h.len }, h) else none
  | none => none

/-- MWAIT_TIMEOUT, R195: its cycles have passed. -/
def execMwaitTimeout (s : State) : Out :=
  match heldMwait s s.ev.subject with
  | some (s, h) =>
    if h.arg ≤ s.clock then .next (mwaitDone s (if (s.curW.monitor.map (·.hit)).getD false then 1 else 2)) else .next s
  | none => .next s

/-- MWAIT_SPURIOUS_WAKE, R195: the wave is woken without a reason. -/
def execMwaitSpuriousWake (s : State) : Out :=
  match heldMwait s s.ev.subject with
  | some (s, _) => .next (mwaitDone s 0)
  | none => .next s

/-! ### Semaphores (R196, R375) -/

/-- The count of a semaphore. -/
def Crew.semCount (c : Crew) (k : Nat) : Nat := tget 0 c.sems k
/-- The waiters of a semaphore, oldest first. -/
def Crew.semWaiters (c : Crew) (k : Nat) : List SemWaiter := tget [] c.semQueue k
/-- Add to a semaphore, saturating (R196, R211). -/
def Crew.semAdd (c : Crew) (k n : Nat) : Crew := { c with sems := sput 0 c.sems k (min (c.semCount k + n) (2 ^ 32 - 1)) }
/-- Put a waiter at the end of a semaphore's queue, unless it stands there. -/
def Crew.semJoin (c : Crew) (k : Nat) (w : SemWaiter) : Crew :=
  if (c.semWaiters k).contains w then c else { c with semQueue := sput [] c.semQueue k (c.semWaiters k ++ [w]) }
/-- Withdraw a waiter. -/
def Crew.semLeave (c : Crew) (k : Nat) (w : SemWaiter) : Crew :=
  { c with semQueue := sput [] c.semQueue k ((c.semWaiters k).filter (fun x => x != w)) }
/-- A waiter may take n now: it stands at the head, or no one waits; and the count is enough. -/
def Crew.semMayTake (c : Crew) (k n : Nat) (w : SemWaiter) : Bool :=
  (match c.semWaiters k with | [] => true | h :: _ => h == w) && decide (n ≤ c.semCount k)
/-- Take n. -/
def Crew.semTake (c : Crew) (k n : Nat) : Crew := { c with sems := sput 0 c.sems k (c.semCount k - n) }
/-- A semaphore is closed (R375). -/
def Crew.semIsClosed (c : Crew) (k : Nat) : Bool := c.semClosed.contains k

/-- The semaphore and the count of an instruction. -/
def semOf (s : State) : Nat := bits s.ir.imm.toNat 0 6
/-- The count n of an instruction. -/
def semN (s : State) : Nat := bits s.ir.imm.toNat 16 16

/-- Write an outcome to p[D] in every lane of the fragment; a sequencer writes none (R201). -/
def outcomeP (s : State) (v : Bool) : State :=
  if isSequencer s.curWk then s else writeP s 0 s.ir.d.toNat s.mask (if v then BitVec.allOnes 32 else 0)

/-- SEMA, R196; CLOSED by R375. -/
def execSema (s : State) : Out :=
  guarded .sema s (fun s =>
    let k := semOf s
    let w := SemWaiter.thread s.cur (semN s)
    if s.curC.semIsClosed k then .next (finish (outcomeP (s.modCrew s.curCk (fun c => c.semLeave k w)) false))
    else if s.curC.semMayTake k (semN s) w then
      let s := s.modCrew s.curCk (fun c => (c.semTake k (semN s)).semLeave k w)
      .next (finish (outcomeP (crewAcquire s) true))
    else .next (holdAt (s.modCrew s.curCk (fun c => c.semJoin k w)) .sema))

/-- SEMR, R196: a CREW release, then the count grows. -/
def execSemr (s : State) : Out :=
  guarded .semr s (fun s =>
    waitFor .semr s (performedAll s s.curWk) (fun s => (crewRelease s).modCrew s.curCk (fun c => c.semAdd (semOf s) (semN s))))

/-- SEMT, R196; CLOSED by R375. -/
def execSemt (s : State) : Out :=
  guarded .semt s (fun s =>
    let k := semOf s
    if !s.curC.semIsClosed k && (s.curC.semWaiters k).isEmpty && semN s ≤ s.curC.semCount k then
      .next (finish (outcomeP (crewAcquire (s.modCrew s.curCk (fun c => c.semTake k (semN s)))) true))
    else .next (finish (outcomeP s false)))

/-! ### Eviction phase and versioned fence -/

/-- EVPH, R197: NPH is one less than the number of phases. -/
def execEvph (s : State) : Out :=
  guarded .evph s (fun s =>
    .next (finish (s.modDie s.curDie (fun d => { d with schedule := d.schedule.map (fun e =>
      { e with phase := (if s.ir.imm.getLsbD 3 then bits s.ir.imm.toNat 0 3 else e.phase + 1) % (e.nph + 1) }) }))))

/-- Flip CUR of a versioned object's entry (R144, R198), which the die then finds anew: crews that started earlier keep the value that they resolved (R146); crews that
start later start no lower than `ts`. -/
def flipVersion (s : State) (die asid obj : Nat) (e : Entry) (ts : Nat) : State :=
  let cur := e.w3 % 2
  let k := entryKey s die asid obj + 24
  let s := s.write k (bytesOf 8 (e.w3 - cur + (1 - cur)))
  let s := { s with crews := s.crews.map (fun (x : Nat × Crew) =>
    if x.2.die = die ∧ x.2.asid = asid ∧ x.2.started ∧ !thas x.2.cur obj then (x.1, { x.2 with cur := tput x.2.cur obj cur }) else x) }
  s.modDie die (fun d => { d.forget asid obj with flips := tput d.flips asid (max ts (tget 0 d.flips asid)) })

/-- FENCEV, R198. -/
def execFencev (s : State) : Out :=
  guarded .fencev s (fun s =>
    if earlierOpen s then .next (holdAt s .fencev) else
    let a := readC s s.ir.a.toNat
    let c := readC s s.ir.c.toNat
    let e : Int := c.off + (operandB s).toInt
    match objectCheck s s.curC.ctx a { rights := rightW, kind := 2 } with
    | .error st => stopAt .fencev none s (faddrOf s.ir.a.toNat 0 a.off) 0 st
    | .ok t =>
      let stop := stopAt .fencev none s (faddrOf s.ir.c.toNat 0 e) 0
      match translate s s.curC.ctx c e 8 { field := 1, rights := rightR + rightW + rightA, align := 8, write := true, atomic := true } with
      | .error st => stop st
      | .ok l =>
        let r := if isHost l.key || dieOfKey l.key = s.curDie then atomicAt s s.curDie (issuePts s) l 8 (fun w => atomicNew 16 7 0 w 0 0)
          else
            match remoteAnswer s 0 l [0, l.key, 8, 16, 7, 0, 0, 0, (issuePts s), (match l.leaf with | some k => k + 1 | none => 0)] with
            | .error st => .error st
            | .ok (old, ts) => .ok (touchLeaf s l true, old, ts)
        match r with
        | .error st => stop st
        | .ok (s, old, ts) =>
          let s := accessedAt s ts
          if old % 2 ^ 32 = old / 2 ^ 32 then
            .next (finish (writeS (flipVersion s s.curDie s.curC.asid a.obj t ts) 0 s.ir.d.toNat 1))
          else .next (finish (writeS s 0 s.ir.d.toNat 0)))

end Sys2Proof.Machine
end

