-- ==== Sys2Proof/Machine/Engine.lean ====
section
/-! DEFINITION. What the engines share: their accesses to memory (R183, R213, R374, R385), their waits for pages, and the fault that a
stopped command reports (R376, R377). -/

namespace Sys2Proof.Machine

/-- Why an engine's access does not go ahead, and `FADDR` of the log entry. -/
abbrev EngineStop := Stop × Word

/-- The context of an agent's crew. -/
def ctxOf (s : State) (wk : Nat) : Ctx := (s.crew (crewOf wk)).ctx

/-- The pieces of [e, e + n) that lie in one line each. -/
def linePieces (e : Int) (n : Nat) : List (Int × Nat) :=
  let first := min n (64 - (e % 64).toNat)
  (if first = 0 then [] else [(e, first)]) ++
    (upTo ((n - first + 63) / 64)).map (fun j => (e + (first + 64 * j : Nat), min 64 (n - first - 64 * j)))

/-- How an agent reaches memory: the checks and the translation of an access to [e, e + n) (R385). -/
abbrev Reach := State → Int → Nat → Need → Except Stop Loc

/-- The pieces of a read in order, from a time on: the bytes and the highest timestamp. -/
def readPieces (reach : Reach) (die : Nat) (need : Need) : List (Int × Nat) → State → Nat → Except Stop (State × List Byte × Nat)
  | [], s, p => .ok (s, [], p)
  | (e, n) :: t, s, p =>
    match reach s e n need with
    | .error st => .error st
    | .ok l =>
      match loadAt s die none p l n with
      | .error st => .error st
      | .ok (s, g) =>
        match readPieces reach die need t s g.ts with
        | .error st => .error st
        | .ok (s, bs, q) => .ok (s, g.bytes ++ bs, q)

/-- A read of [e, e + n) by an engine (R213): the whole range is checked first (R385). -/
def readVia (reach : Reach) (s : State) (die : Nat) (e : Int) (n p : Nat) (need : Need) : Except Stop (State × List Byte × Nat) :=
  match reach s e n need with
  | .error st => .error st
  | .ok _ => readPieces reach die need (linePieces e n) s p

/-- An engine reads [e, e + n) through a capability (R213). -/
def engineRead (s : State) (ctx : Ctx) (c : Cap) (e : Int) (n p : Nat) (need : Need) : Except Stop (State × List Byte × Nat) :=
  readVia (fun s => translate s ctx c) s ctx.die e n p need

/-- Where the pieces of a write go: every check before any of it is performed. -/
def writePlaces (reach : Reach) (s : State) (die : Nat) (need : Need) : List (Int × Nat) → Except Stop (List (Loc × Nat))
  | [] => .ok []
  | (e, n) :: t =>
    match reach s e n need with
    | .error st => .error st
    | .ok l =>
      match storeStop s die l with
      | some st => .error st
      | none =>
        match writePlaces reach s die need t with
        | .error st => .error st
        | .ok ls => .ok ((l, n) :: ls)

/-- Perform the pieces of a write in order: whole lines lose their poison (R394). -/
def performWrite (die : Nat) (ls : List (Loc × Nat)) (s : State) (bs : List Byte) (p : Nat) : State × Nat :=
  let r := ls.foldl (fun (acc : State × List Byte × Nat) l =>
    let (s, ts) := storeAt acc.1 die acc.2.2 l.1 (acc.2.1.take l.2) false
    (cleanseAt s die l.1.key l.2, acc.2.1.drop l.2, max acc.2.2 ts)) (s, bs, p)
  (r.1, r.2.2)

/-- A write of bytes at e (R213): wholly performed or not performed. -/
def writeVia (reach : Reach) (s : State) (die : Nat) (e : Int) (bs : List Byte) (p : Nat) (need : Need) : Except Stop (State × Nat) :=
  match reach s e bs.length need with
  | .error st => .error st
  | .ok _ =>
    match writePlaces reach s die need (linePieces e bs.length) with
    | .error st => .error st
    | .ok ls => .ok (performWrite die ls s bs p)

/-- An engine writes bytes at e through a capability (R213). -/
def engineWrite (s : State) (ctx : Ctx) (c : Cap) (e : Int) (bs : List Byte) (p : Nat) (need : Need) : Except Stop (State × Nat) :=
  writeVia (fun s => translate s ctx c) s ctx.die e bs p need

/-- The bytes of a place that a store may be performed at: at home, or in a line that the die owns (R338). -/
def ownBytes (s : State) (die key n : Nat) : List Byte :=
  if isHost key || dieOfKey key == die then s.bytes key n
  else
    match tfind? (s.die die).rdc (lineOf key) with
    | none => []
    | some r => (r.bytes.drop (key % 64)).take n

/-- Read and write one place of at most a line at one time (R170, R186): the new state, the old number and the time. -/
def updateVia (reach : Reach) (s : State) (die : Nat) (e : Int) (n p : Nat) (need : Need) (f : Nat → Nat) : Except Stop (State × Nat × Nat) :=
  match reach s e n need with
  | .error st => .error st
  | .ok l =>
    match storeStop s die l with
    | some st => .error st
    | none =>
      if (if isHost l.key then l.fails else s.poisoned l.key) then .error (.trap 0x50 (if isHost l.key then 8 else 2))
      else
        let old := numOfBytes (ownBytes s die l.key n)
        let (s, ts) := storeAt s die p l (bytesOf n (f old)) false
        .ok (s, old, ts)

/-- A physical address that the driver gave a die, in an ASID for space 2 (R253). -/
def physReach (die asid phys : Nat) : Reach := fun s e _ need => physLoc s die asid (phys + e.toNat) need.write { key := 0 } need.atomic

/-- The program time at which the host is known to stand: after every access performed so far, as it may have read any of them. DESIGN CHOICE:
the spec gives none; the host's stores take times above it, and the front end reads a packet, a command or a request at it (R182, R185; log 130). -/
def hostTime (s : State) : Nat :=
  s.dies.foldl (fun m e => e.2.rdc.foldl (fun m r => max m (max r.2.wts r.2.mrts)) (e.2.ghosts.foldl (fun m g => max m g.2) m))
    (s.lines.foldl (fun m e => max m (max e.2.1 e.2.2)) 0)

/-- An atomic of a die's front end (R252, R335): at home as it stands, else at the home of the line by an AT whose answer is awaited under `key`. -/
def frontAtomic (reach : Reach) (s : State) (die key : Nat) (e : Int) (n p : Nat) (need : Need) (op x : Nat) : Except Stop (State × Nat × Nat) :=
  match reach s e n need with
  | .error st => .error st
  | .ok l =>
    let t := if n = 4 then 6 else 7
    if isHost l.key || dieOfKey l.key = die then atomicAt s die p l n (fun old => atomicNew op t 0 old x 0)
    else
      let line := lineOf l.key
      let message := [key, l.key, n, op, t, 0, x, 0, p, (match l.leaf with | some k => k + 1 | none => 0)]
      match tfind? (s.die die).answers key with
      | none => .error (.atHome line key message)
      | some 0 => .error (.atHome line key [])
      | some 1 => .error (.trap 0x50 2)
      | some 2 => .error (.atHome line key message)
      | some v => .ok (touchLeaf (s.modDie die (fun d => { d with answers := terase d.answers key })) l true, (v - 3) % 2 ^ 64, (v - 3) / 2 ^ 64)

/-- The front end of a die sends an atomic to its home (R340). -/
def sendFrontAtomic (s : State) (die line key : Nat) (op : List Nat) : State :=
  let s := sendPacket s { kind := .at', src := die, dst := dieOfKey (64 * line), line := line, op := op, agent := frontAgent }
  s.modDie die (fun d => { d with answers := tput d.answers key 0 })

/-- What a stopped access does to the front end: it waits and tries again, or the access is refused with a code and a DETAIL. A host page that ATS
does not translate is asked for by PRI (R390). -/
def frontStop (s : State) (die : Nat) (st : Stop) : Except Fault (State × Option (Nat × Nat)) :=
  match st with
  | .trap code detail => .ok (s, some (code, detail))
  | .hole key => .error (.noSuchAddress key)
  | .remote line exclusive alloc => .ok (requestLine s die line exclusive alloc, none)
  | .page d asid obj page why write atomic tail => .ok ((requestPage s d asid obj page (requestKind why write atomic tail) why).1, none)
  | .host page =>
    let d := s.die die
    if d.priRetried.contains page then .ok (s.putDie die { d with priRetried := lerase page d.priRetried }, some (0x21, 3))
    else
    match tfind? d.priStopped page with
    | some k => .ok (s.putDie die { d with priStopped := terase d.priStopped page }, some (0x21, k))
    | none =>
    if d.priFailed then .ok (s, some (0x21, 4))
    else .ok ((requestGroup s die (page / 2 ^ 36 % 8192) frontCrew 0 page).1, none)
  | .locked _ _ _ => .ok (s, none)
  | .atHome line key op => .ok (if op.isEmpty then s else sendFrontAtomic s die line key op, none)

/-- The entry at HEAD of a ring of `n` entries, and the time of its read, an acquire at SYSTEM scope (R253, R346, R350): none while there is none.
DESIGN CHOICE: while TAIL - HEAD exceeds N, nothing is read (log 135). -/
def readRing (reach : Reach) (s : State) (die n head : Nat) : Except Stop (State × Option (List Byte × Nat)) :=
  match readVia reach s die 0 8 (hostTime s) { rights := rightR } with
  | .error st => .error st
  | .ok (s, t, _) =>
    let ahead := (numOfBytes t + 2 ^ 64 - head) % 2 ^ 64
    if ahead = 0 ∨ n < ahead then .ok (s, none)
    else
      match readVia reach s die (0x40 + 64 * (head % n) : Nat) 64 (hostTime s) { rights := rightR } with
      | .error st => .error st
      | .ok (s, b, ts) => .ok (s, some (b, ts))

/-- HEAD + 1 is stored in a ring (R253). -/
def advanceRing (reach : Reach) (s : State) (die head : Nat) : Except Stop State :=
  match writeVia reach s die 8 (bytesOf 8 ((head + 1) % 2 ^ 64)) (hostTime s) { rights := rightW, write := true } with
  | .error st => .error st
  | .ok (s, _) => .ok s

/-- STAT of a management command and vector 0 (R346). STAT of a command from the ring is written there, with a release at SYSTEM scope; a place
that cannot be written yet is tried again in the next cycle. -/
def endCommand (s : State) (die stat : Nat) (ring : Bool) : State :=
  let d := s.die die
  let ended (s : State) : State := s.modDie die (fun d => raiseMsix { d with mgmtCount := d.mgmtCount + 1, mgmtStat := stat, mgmtPending := none } 0)
  match (if ring then d.mgmt else none) with
  | none => ended s
  | some q =>
    let off := 0x78 + 64 * ((q.head + 2 ^ 64 - 1) % 2 ^ 64 % q.n)
    match writeVia (physReach die q.asid q.ring) s die (off : Nat) (bytesOf 8 stat) (hostTime s) { rights := rightW, write := true } with
    | .ok (s, _) => ended s
    | .error st =>
      match frontStop s die st with
      | .ok (s, none) => s
      | .ok (s, some _) => ended s
      | .error _ => ended s

/-- A management command is over once every importer has acknowledged (R336) and its telemetry record is written (R356): a host page of the record that
ATS does not translate is asked for by PRI (R348), and a refused one makes STAT 1. -/
def finishCommand (s : State) (die : Nat) : State :=
  let d := s.die die
  match d.mgmtPending with
  | none => s
  | some (stat, ring) =>
    if !d.mgmtWait.isEmpty then s
    else
      match d.mgmtTelem with
      | none => endCommand s die stat ring
      | some (asid, addr, bs) =>
        let written (s : State) (stat : Nat) : State := endCommand (s.modDie die (fun d => { d with mgmtTelem := none })) die stat ring
        match writeVia (physReach die asid addr) s die 0 bs (hostTime s) { rights := rightW, write := true } with
        | .ok (s, _) => written s stat
        | .error st =>
          match frontStop s die st with
          | .ok (s, none) => s
          | .ok (s, some _) => written s 1
          | .error _ => written s 1

/-- What an engine asks for when it reads or writes. -/
def engineR : Need := { rights := rightR }
/-- What an engine asks for when it writes. -/
def engineW : Need := { rights := rightW, write := true }

/-- What a stopped access does to an engine command of a wave (R374): a refusal or poison stops it; a page or a line is waited for. `faddr` is the
`FADDR` of its log entry should it be refused. -/
def engineWait (s : State) (wk : Nat) (w : EngineWait) (st : Stop) (faddr : Word) : Except Fault (State × EngineWait) :=
  let die := (s.crew (crewOf wk)).die
  match st with
  | .trap code detail => .ok (s, { w with refused := some (code, detail) })
  | .hole key => .error (.noSuchAddress key)
  | .locked _ _ _ => .ok (s, w)
  | .atHome line _ _ => .ok (s, { w with line := some line })
  | .remote line exclusive alloc => .ok (requestLine s die line exclusive alloc, { w with line := some line })
  | .page d asid obj page why write atomic tail =>
    let (s, r) := requestPage s d asid obj page (requestKind why write atomic tail) why
    .ok (s, { w with page := some r, faddr := faddr })
  | .host page =>
    if w.retried.contains page then .ok (s, { w with refused := some (0x21, 3) })
    else if (s.die die).priFailed then .ok (s, { w with refused := some (0x21, 4) })
    else
      match requestHostPage s wk page with
      | (s, some k) => .ok (s, { w with page := some (2 ^ 40 + die * 2 ^ 32 + k), missed := some page, faddr := faddr })
      | (s, none) => .ok (s, w)

/-- The page that a command waits for has not come. -/
def EngineWait.held (w : EngineWait) : Bool := w.page.isSome

/-- Log a refused access of an engine (R385): an entry with SRC 3. -/
def logRefusal (s : State) (wk code detail : Nat) (faddr : Word) : State :=
  if code = 0x50 ∨ code = 0x51 then s
  else
    let ck := crewOf wk
    let e := crewEntry s ck (widOf wk) code detail
    dieLog s (s.crew ck).die { e with faddr := faddr, src := 3 }

/-- The time of an engine command's writes counts among those of its crew (R183). -/
def noteWrites (s : State) (ck p : Nat) : State := s.modCrew ck (fun c => { c with wroteTs := max c.wroteTs p })

/-- A part of the command has been performed: it waits for no line. -/
def EngineWait.done (w : EngineWait) : EngineWait := { w with line := none }

/-- Add to a semaphore of a crew (R196). -/
def semRaise (s : State) (ck k n : Nat) : State := s.modCrew ck (fun c => c.semAdd k n)

/-- The release of an engine command at a scope (R181, R182, R184): CREW and wider scopes reach the crew. -/
def engineRelease (s : State) (ck scope pts : Nat) : State :=
  if scope = 0 then s else s.modCrew ck (fun c => { c with relMark := max c.relMark pts })

/-- The acquire of an engine command for an issuer (R183): its earlier accesses are performed, and at CREW and wider scopes the release
mark counts; the command's time. -/
def acquiredPts (s : State) (wk scope pts : Nat) : Nat := if scope = 0 then pts else max pts (s.crew (crewOf wk)).relMark

/-- A latency that the spec leaves to the part, of the step in progress (log 3). -/
def engineDelay (s : State) (id : Nat) : Nat := s.clock + 1 + Config.latency s.fresh (2 ^ 32 + id)

/-- A record in memory that an instruction reads through c[A] at an offset that must be a multiple of 64 (R207, R209, R218): its bytes
and the tags of its granules. -/
def readRecord (s : State) (e : Int) (n : Nat) : Except Stop (State × List Byte × List Bool) :=
  let c := readC s s.ir.a.toNat
  match translate s s.curC.ctx c e n { rights := rightR, align := 64 } with
  | .error st => .error st
  | .ok _ =>
    (upTo (n / 16)).foldl (fun (acc : Except Stop (State × List Byte × List Bool)) j =>
      match acc with
      | .error st => .error st
      | .ok (s, bs, ts) =>
        match translate s s.curC.ctx c (e + (16 * j : Nat)) 16 { rights := rightR } with
        | .error st => .error st
        | .ok l =>
          match loadAt s s.curDie (some s.curC.core) (issuePts s) l 16 with
          | .error st => .error st
          | .ok (s, g) => .ok (accessedAt s g.ts, bs ++ g.bytes, ts ++ [g.tag])) (.ok (s, [], []))

/-- Run a body on a record that an instruction reads through c[A] at an offset (R362: reserved bits are ignored). -/
def withRecord (i : Instr) (s : State) (e : Int) (n : Nat) (body : State → List Byte → List Bool → Out) : Out :=
  if earlierOpen s then .next (holdAt s i) else
  match readRecord s e n with
  | .error st => stopAt i none s (faddrOf s.ir.a.toNat 0 e) 0 st
  | .ok (s, bs, ts) => body s bs ts

end Sys2Proof.Machine
end

