-- ==== Sys2Proof/Machine/Front.lean ====
section
/-! DEFINITION. The launch front end: packets, argument blocks, launches and their completion, task graphs and frame ticks (R250 to
R255, R268 to R272, R362, R370, R384, R424). -/

namespace Sys2Proof.Machine

/-! ### The front end's accesses -/

/-- The checks of R385 on an access by object index, in the ASID of a queue (R250). -/
def objReach (die asid obj : Nat) : Reach := fun s e n need =>
  if entryPoisoned s die asid obj then .error (.trap 0x50 2) else
  match entryOf s die asid obj with
  | none => .error (.trap 0x22 1)
  | some t =>
    if !t.valid then .error (.trap 0x22 2)
    else if t.kind == 0 || 6 ≤ t.kind then .error (.trap 0x22 3)
    else if e % need.align != 0 then .error (.trap 0x11 2)
    else if e < 0 then .error (.trap 0x11 0)
    else if (t.bound : Int) < e + n then .error (.trap 0x11 1)
    else resolve s { die := die, asid := asid } obj t e.toNat need

/-- A fault-log entry of the front end (R368, R424): SRC 4, and LAGE the age of the root of the launch `l` that it concerns or that made the packet;
0 for a host's packet that has started none (log 163). -/
def frontLog (s : State) (die asid code detail index : Nat) (l : Option Nat) : State :=
  let age := match l with | some l => (s.launch (s.rootLaunch l)).age | none => 0
  dieLog s die { code := code, detail := detail, asid := asid, epc := word index, src := 4, lage := age }

/-! ### Packets (R250) -/

/-- KIND. -/
def pkKind (b : List Byte) : Nat := field b 0 1
/-- A bit of FLAGS: 0 PAIR, 1 SCBCHK, 2 CMPL, 3 FRAME, 4 AFTER. -/
def pkFlag (b : List Byte) (k : Nat) : Bool := bitAt (field b 1 1) k
/-- PRIO. -/
def pkPrio (b : List Byte) : Nat := field b 2 1 % 4
/-- VALLOT. -/
def pkVallot (b : List Byte) : Nat := field b 3 1
/-- WAVES. -/
def pkWaves (b : List Byte) : Nat := field b 4 1
/-- CREWS. -/
def pkCrews (b : List Byte) : Nat := field b 8 4
/-- KRATE. -/
def pkKrate (b : List Byte) : Nat := field b 0x0C 4
/-- TOBJ. -/
def pkTobj (b : List Byte) : Nat := field b 0x10 4
/-- AOBJ. -/
def pkAobj (b : List Byte) : Nat := field b 0x14 4
/-- TOFF. -/
def pkToff (b : List Byte) : Nat := field b 0x18 8
/-- AOFF. -/
def pkAoff (b : List Byte) : Nat := field b 0x20 8
/-- COBJ. -/
def pkCobj (b : List Byte) : Nat := field b 0x28 4
/-- COFF. -/
def pkCoff (b : List Byte) : Nat := field b 0x30 8

/-- A vector allotment: 8 to 64 in steps of 8 (R34, R250). -/
def vallotOk (v : Nat) : Bool := v % 8 == 0 && 8 ≤ v && v ≤ 64

/-- KIND, VALLOT, WAVES and CREWS are in their ranges (R250, R362). -/
def packetOk (b : List Byte) : Bool :=
  let k := pkKind b
  1 ≤ k && k ≤ 4 &&
    (k == 3 || k == 4 || (1 ≤ pkWaves b && pkWaves b ≤ 32 && 1 ≤ pkCrews b && !(pkFlag b 0 && pkCrews b % 2 == 1))) &&
    (k != 1 || vallotOk (pkVallot b))

/-- The alignments of R250 and R269 hold as well, for a packet that the front end reads (R424). -/
def packetAligned (b : List Byte) : Bool :=
  ((pkKind b != 1 && pkKind b != 2) || pkAoff b % 16 == 0) && (!pkFlag b 2 || pkCoff b % 8 == 0) && (pkKind b != 3 || pkToff b % 128 == 0)

/-- A core of a die that has been retired, with its heat or by itself (R409). -/
def coreRetired (d : Die) (core : Nat) : Bool := d.retiredCores.contains core || d.retiredHeats.contains (heatOf core)

/-- A good neighbour pair is left on a die (R240, R409). -/
def pairLeft (s : State) (die : Nat) : Bool :=
  (upTo (coresOf die / 2)).any (fun k => !coreRetired (s.die die) (2 * k) && !coreRetired (s.die die) (2 * k + 1))

/-- Where a packet comes from: its queue, its place, what it inherits, and its argument block when `LAUNCH` has read it. -/
structure Source where
  die : Nat
  asid : Nat
  queue : Nat
  opened : Nat
  index : Nat
  prio : Nat
  parent : Option Nat := none
  pts : Nat := 0
  completion : Option (Nat × Nat) := none
  args : Option (Table Word × Table Cap) := none
  node : Option (Nat × Nat) := none
  /-- The launch's age, where it is not the cycle of its start (R270, R272). -/
  age : Option Nat := none
  deriving DecidableEq, Repr

/-- A source is a host queue: its argument block keeps tags (R251, R328). -/
def Source.host (x : Source) : Bool := x.queue < 64

/-! ### Argument blocks (R251) -/

/-- Read the granules of a block in order: bytes and tag of each, and the highest time. -/
def readGranules (reach : Reach) (die : Nat) : Nat → Int → State → Nat → Except Stop (State × List (List Byte × Bool) × Nat)
  | 0, _, s, p => .ok (s, [], p)
  | k + 1, e, s, p =>
    match reach s e 16 { rights := rightR } with
    | .error st => .error st
    | .ok l =>
      match loadAt s die none p l 16 with
      | .error st => .error st
      | .ok (s, g) =>
        match readGranules reach die k (e + 16) s g.ts with
        | .error st => .error st
        | .ok (s, gs, q) => .ok (s, (g.bytes, g.tag) :: gs, q)

/-- The argument block at an offset, a multiple of 16: registers s1 to s63 and c0 to c15. A tag is kept for a host packet, else where the
capability carries G. -/
def readArgs (reach : Reach) (s : State) (die : Nat) (e : Int) (p : Nat) (keep : Bool) : Except Stop (State × Table Word × Table Cap × Nat) :=
  match reach s e 768 { rights := rightR, align := 16 } with
  | .error st => .error st
  | .ok _ =>
    match readGranules reach die 48 e s p with
    | .error st => .error st
    | .ok (s, gs, q) =>
      let bs := gs.flatMap (·.1)
      let args : Table Word := (upTo 63).foldl (fun t i => sput 0 t (i + 1) (word (field bs (8 * (i + 1)) 8))) []
      let cap (n : Nat) : Cap :=
        let g := gs.getD (32 + n) ([], false)
        let c := capOf g.1 g.2
        if keep || bitAt c.rights 3 then c else { c with tag := false }
      .ok (s, args, (upTo 16).foldl (fun t n => sput {} t n (cap n)) [], q)

/-! ### Crews and launches -/

/-- Create the crews `CREWID` from `n` on of a launch from a template crew: the context incarnation comes from the die's counter (R390),
and the crews of a paired launch are partners two by two (R240). -/
def createCrews (s : State) (die : Nat) (mk : Nat → Crew) (paired : Bool) : Nat → Nat → State
  | 0, _ => s
  | k + 1, n =>
    let ck := tnext s.crews
    let d := s.die die
    let c := mk n
    let s := s.putCrew ck { c with
      crewid := n, incarnation := (d.crewCount + 1) % 65536, paired := paired
      pair := if paired then some (if n % 2 = 0 then ck + 1 else ck - 1) else none }
    createCrews (s.putDie die { d with crewCount := (d.crewCount + 1) % 65536 }) die mk paired k (n + 1)

/-- The record of a launch that starts now. -/
def Source.launch (x : Source) (s : State) (kind : Nat) : Launch :=
  { die := x.die, asid := x.asid, kind := kind, age := x.age.getD s.clock, prio := x.prio, parent := x.parent, completion := x.completion,
    queue := x.queue, opened := x.opened, index := x.index, node := x.node, pts := x.pts }

/-- The argument block of a packet: as `LAUNCH` read it, or from AOBJ at AOFF (R250). -/
def sourceArgs (s : State) (x : Source) (b : List Byte) : Except Stop (State × Table Word × Table Cap × Nat) :=
  match x.args with
  | some (a, c) => .ok (s, a, c, x.pts)
  | none => readArgs (objReach x.die x.asid (pkAobj b)) s x.die (pkAoff b : Nat) x.pts x.host

/-- Start a GRID packet (R252): its crews join the waiting crews. -/
def startGrid (s : State) (x : Source) (b : List Byte) : Except Stop State :=
  match sourceArgs s x b with
  | .error st => .error st
  | .ok (s, args, cargs, pts) =>
    let l := tnext s.launches
    let s := s.putLaunch l (x.launch s 1)
    .ok (createCrews s x.die (fun _ => {
      die := x.die, launch := l, age := x.age.getD s.clock, prio := x.prio, asid := x.asid, codeObj := pkTobj b, entry := word (pkToff b)
      nwaves := pkWaves b, vallot := pkVallot b, scb := pkFlag b 1, args := args, cargs := cargs, startPts := pts
      krate := pkKrate b, kitty := min (16 * pkKrate b) (2 ^ 32 - 1) }) (pkFlag b 0) (pkCrews b) 0)

/-- Skip a packet or a node (R424). -/
def skipPacket (s : State) (x : Source) (index : Nat) : State := frontLog s x.die x.asid 0x30 6 index x.parent

/-! ### Task graphs (R269 to R272) -/

/-- A graph of a die: one of its NODE packets' nodes is armed, queued or running (R272). -/
def graphLive (s : State) (die asid obj : Nat) : Bool :=
  s.launches.any (fun e => e.2.die == die && e.2.asid == asid && e.2.kind == 3 && !e.2.done && !e.2.killed &&
    (match e.2.node with | some n => n.1 == obj | none => false))

/-- Drop the graphs of a die that have no node left. -/
def pruneGraphs (s : State) (die : Nat) : State :=
  s.modDie die (fun d => { d with graphs := d.graphs.filter (fun g => graphLive s die g.asid g.obj) })

/-- A graph record of a die. -/
def findGraph (s : State) (die asid obj : Nat) : Option Graph := (s.die die).graphs.find? (fun g => g.asid == asid && g.obj == obj)

/-- Replace a graph record of a die where it stands, or add it. -/
def putGraph (s : State) (die : Nat) (g : Graph) : State :=
  let same (h : Graph) : Bool := h.asid == g.asid && h.obj == g.obj
  s.modDie die (fun d => { d with graphs := if d.graphs.any same then d.graphs.map (fun h => if same h then g else h) else d.graphs ++ [g] })

/-- BUDGET of a graph, in microseconds (R269). -/
def readBudget (s : State) (die asid obj : Nat) : Except Stop (State × Nat) :=
  match readVia (objReach die asid obj) s die 8 8 0 { rights := rightR } with
  | .error st => .error st
  | .ok (s, bs, _) => .ok (s, numOfBytes bs % 2 ^ 32)

/-- When a window that a tick opened closes (R272); none with a BUDGET of 0. -/
def windowEnd (s : State) (tick budget : Nat) : Option Nat := if budget = 0 then none else some (tick + budget * clockMHz s.xd.level)

/-- Start the GRIDPKT of a node whose NODE launch is `l` (R270, R271). A node without a valid GRID packet is skipped and stays in STATE 3 (R424), and
so does one whose packet or arguments are refused. -/
def runNode (s : State) (l : Nat) : Except Stop State :=
  let n := s.launch l
  let (obj, off) := n.node.getD (0, 0)
  let refused (code d : Nat) : State := (frontLog s n.die n.asid code d off (some l)).modLaunch l (fun y => { y with done := true, starting := false })
  match readVia (objReach n.die n.asid obj) s n.die (off : Nat) 64 n.pts { rights := rightR } with
  | .error (.trap code d) => .ok (refused code d)
  | .error st => .error st
  | .ok (u, b, q) =>
    let x : Source := {
      die := n.die, asid := n.asid, queue := n.queue, opened := n.opened, index := n.index, prio := n.prio, parent := some l
      pts := q, completion := if pkFlag b 2 then some (pkCobj b, pkCoff b) else none, node := some (obj, off), age := n.heldAge }
    if pkKind b != 1 || !packetOk b || !packetAligned b || (pkFlag b 0 && !pairLeft u n.die) then
      .ok ((skipPacket u x off).modLaunch l (fun y => { y with done := true, starting := false }))
    else
      match startGrid (u.modLaunch l (fun y => { y with starting := false })) x b with
      | .error (.trap code d) => .ok (refused code d)
      | r => r

/-- A node is to start: at once, in a later cycle where its packet cannot be read yet, or at the next tick while its graph's window has closed
(R272). Its launch's age is this cycle. -/
def startNode (s : State) (l : Nat) : State :=
  let n := s.launch l
  let later (s : State) : State := s.modLaunch l (fun y => { y with heldAge := some s.clock })
  match findGraph s n.die n.asid (n.node.getD (0, 0)).1 with
  | some g => if g.closed then later (putGraph s n.die { g with heldNodes := g.heldNodes ++ [l] }) else tryNode (later s) n.die
  | none => tryNode (later s) n.die
where
  tryNode (s : State) (die : Nat) : State :=
    match runNode s l with
    | .ok s => s
    | .error st =>
      let s := s.modLaunch l (fun y => { y with starting := true })
      match frontStop s die st with
      | .ok (s, _) => s
      | .error _ => s

/-- Read a NODE packet (R270): the node is armed, or started when no predecessor is left. A node whose STATE is reserved is skipped, and nothing of its
record is used (R362, R424). -/
def readNode (s : State) (x : Source) (b : List Byte) : Except Stop State :=
  let obj := pkTobj b
  let off := pkToff b
  match readVia (objReach x.die x.asid obj) s x.die ((off + 0x40 : Nat) : Int) 8 x.pts { rights := rightR + rightW, align := 8 } with
  | .error st => .error st
  | .ok (s, bs, _) =>
  if 5 ≤ numOfBytes bs then .ok (skipPacket s x off) else
  match updateVia (objReach x.die x.asid obj) s x.die ((off + 0x40 : Nat) : Int) 16 x.pts { rights := rightR + rightW, align := 8, write := true }
      (fun old => (if old / 2 ^ 64 = 0 then 3 else 2) + old / 2 ^ 64 * 2 ^ 64) with
  | .error st => .error st
  | .ok (s, old, ts) =>
    let l := tnext s.launches
    let s := s.putLaunch l { x.launch s 3 with node := some (obj, off), pts := ts }
    let s : Except Stop State := match findGraph s x.die x.asid obj with
      | some _ => .ok s
      | none =>
        match readBudget s x.die x.asid obj with
        | .error st => .error st
        | .ok (s, budget) =>
          let close := match (s.die x.die).lastTick with
            | some t => (windowEnd s t budget).bind (fun e => if s.clock < e then some e else none)
            | none => none
          .ok (putGraph s x.die { asid := x.asid, obj := obj, closeAt := close })
    match s with
    | .error st => .error st
    | .ok s => .ok (if old / 2 ^ 64 = 0 then startNode s l else s)

/-- Decrement the counts of a node's successors in slot order, starting those that become free (R270); an access that is refused is logged, and the
others go on. -/
def releaseSuccessors (die asid obj : Nat) (l : Option Nat) : List Nat → State → Nat → Except Stop (State × Nat)
  | [], s, p => .ok (s, p)
  | y :: t, s, p =>
    match updateVia (objReach die asid obj) s die ((y + 0x40 : Nat) : Int) 16 p { rights := rightR + rightW, align := 8, write := true }
        (fun old =>
          let count := (old / 2 ^ 64 + 2 ^ 64 - 1) % 2 ^ 64
          (if count = 0 ∧ old % 2 ^ 64 = 2 then 3 else old % 2 ^ 64) + count * 2 ^ 64) with
    | .error (.trap code d) => releaseSuccessors die asid obj l t (frontLog s die asid code d y l) p
    | .error st => .error st
    | .ok (s, old, q) =>
      let go := old / 2 ^ 64 = 1 ∧ old % 2 ^ 64 = 2
      let ready := s.launches.find? (fun e => e.2.die == die && e.2.asid == asid && e.2.kind == 3 && e.2.node == some (obj, y) &&
        !e.2.done && !e.2.killed && !e.2.nodeDone)
      match (if go then ready else none) with
      | none => releaseSuccessors die asid obj l t s q
      | some e => releaseSuccessors die asid obj l t (startNode (s.modLaunch e.1 (fun x => { x with pts := max x.pts q })) e.1) q

/-- A node completes (R270): its STATE, its successors, and the graph word; an access that is refused is logged. -/
def completeNode (s : State) (die asid obj off p : Nat) (l : Option Nat) : Except Stop State :=
  match updateVia (objReach die asid obj) s die ((off + 0x40 : Nat) : Int) 64 p { rights := rightR + rightW, align := 8, write := true }
      (fun old => old - old % 2 ^ 64 + 4) with
  | .error (.trap code d) => .ok (frontLog s die asid code d off l)
  | .error st => .error st
  | .ok (s, old, q) =>
    let slots := (upTo 4).filterMap (fun k =>
      let v := old / 2 ^ (64 * (2 + k)) % 2 ^ 64
      if bitAt v 63 then some (v % 2 ^ 44) else none)
    match releaseSuccessors die asid obj l slots s q with
    | .error st => .error st
    | .ok (s, q) =>
      match updateVia (objReach die asid obj) s die 0 8 q { rights := rightR + rightW + rightA, align := 8, write := true, atomic := true }
          (fun old => old / 2 ^ 32 * 2 ^ 32 + (old + 1) % 2 ^ 32) with
      | .error (.trap code d) => .ok (frontLog s die asid code d off l)
      | .error st => .error st
      | .ok (s, _, _) => .ok s

/-- Start nodes that a close held, at the ages that they had (R272). -/
def startHeld (s : State) (ls : List Nat) : State := ls.foldl (fun s l => startNode.tryNode l s (s.launch l).die) s

/-- The node's crew belongs to a graph. -/
def ofGraph (s : State) (die : Nat) (g : Graph) (c : Crew) : Bool :=
  let l := s.launch c.launch
  c.die == die && l.kind == 1 && l.asid == g.asid && (match l.node with | some n => n.1 == g.obj | none => false)

/-- A frame tick for the graphs of a die in turn (R272): the pre-empted crews rejoin the waiting crews, held nodes start, and a new window
opens; a BUDGET that cannot be read for a refusal is logged and opens none. -/
def tickGraphs (die : Nat) : List Graph → State → Except Stop State
  | [], s => .ok s
  | g :: t, s =>
    match (match readBudget s die g.asid g.obj with | .error (.trap code d) => Except.ok (frontLog s die g.asid code d 8 none, 0) | r => r) with
    | .error st => .error st
    | .ok (s, budget) =>
      let s := putGraph s die { g with closeAt := windowEnd s s.clock budget, closed := false, heldNodes := [] }
      let s := { s with crews := s.crews.map (fun e =>
        if ofGraph s die g e.2 then
          (e.1, { e.2 with
            budgetHeld := false, stopFor := if e.2.stopFor = some 1 then (if e.2.state = .stopping then some 0 else none) else e.2.stopFor
            state := if e.2.state = .preempted then .waiting else e.2.state })
        else e) }
      tickGraphs die t (startHeld s g.heldNodes)

/-- A frame tick (R255, R272). -/
def frameTick (s : State) (die : Nat) : Except Stop State :=
  let s := pruneGraphs s die
  match tickGraphs die (s.die die).graphs s with
  | .error st => .error st
  | .ok s => .ok (s.modDie die (fun d => { d with lastTick := some s.clock }))

/-- The nodes of a graph that are to start and wait for their packet (R270, R272). -/
def waitingNodes (s : State) (die : Nat) (g : Graph) : List Nat :=
  (s.launches.filter (fun e => e.2.die == die && e.2.asid == g.asid && e.2.starting && !e.2.killed && !e.2.done &&
    (match e.2.node with | some n => n.1 == g.obj | none => false))).map (·.1)

/-- BUDGET_WINDOW_CLOSE, R272: of the graph of object `arg1` in ASID `arg2` the running crews are pre-empted, and those that have not started are held, as
are the nodes that are to start and wait for their packet. -/
def execBudgetWindowClose (s : State) : Out :=
  let die := s.ev.subject
  match findGraph s die s.ev.arg2 s.ev.arg1 with
  | none => .next s
  | some g =>
    match g.closeAt with
    | none => .next s
    | some e =>
      if s.clock < e then .next s
      else
        let ls := waitingNodes s die g
        let s := putGraph s die { g with closeAt := none, closed := true, heldNodes := g.heldNodes ++ ls }
        let s := ls.foldl (fun s l => s.modLaunch l (fun y => { y with starting := false })) s
        .next { s with crews := s.crews.map (fun e =>
          if ofGraph s die g e.2 then
            (e.1, match e.2.state with
              | .running => { e.2 with stopFor := some 1 }
              | .stopping => { e.2 with stopFor := some 1 }
              | .waiting => { e.2 with budgetHeld := true }
              | _ => e.2)
          else e) }

/-! ### Completion (R252) -/

/-- A launch whose work is over (R252, R255, R270). -/
def launchReady (s : State) (l : Nat) : Bool :=
  let x := s.launch l
  thas s.launches l && !x.done && !x.killed &&
    s.crews.all (fun e => !(e.2.launch == l) || e.2.state == .ended) &&
    s.launches.all (fun e => !(e.2.parent == some l) || e.2.done) &&
    !((s.die x.die).devQueues.any (fun q => q.2.any (fun p => p.parent == l))) &&
    (x.kind != 3 || x.nodeDone) && (x.kind != 4 || x.signal.isNone)

/-- The time that a launch's completion releases: its own and its children's (R183). -/
def releaseTime (s : State) (l : Nat) : Nat :=
  s.launches.foldl (fun m e => if e.2.parent = some l then max m e.2.pts else m) (s.launch l).pts

/-- Add 1 to the completion word of a launch, an atomic of the front end (R252, R335); a refusal is logged and adds nothing. -/
def addCompletion (s : State) (l : Nat) (x : Launch) (p : Nat) : Except Stop State :=
  match x.completion with
  | none => .ok s
  | some (obj, off) =>
    match frontAtomic (objReach x.die x.asid obj) s x.die l (off : Nat) 8 (p + 1) { rights := rightW + rightA, align := 8, write := true, atomic := true } 0 1 with
    | .error (.trap code d) => .ok (frontLog s x.die x.asid code d x.index (some l))
    | .error st => .error st
    | .ok (s, _, _) => .ok s

/-- The node work of a launch that completes: only a GRID launch of a node has any. -/
def nodeCompletion (s : State) (x : Launch) (p : Nat) : Except Stop State :=
  match x.kind, x.node, x.parent with
  | 1, some (obj, off), some l =>
    match completeNode s x.die x.asid obj off (p + 1) x.parent with
    | .error st => .error st
    | .ok s => .ok (s.modLaunch l (fun y => { y with nodeDone := true }))
  | _, _, _ => .ok s

/-- LAUNCH_COMPLETE, R252: the completion word, and the node of a task graph (R270), once their lines and pages are there. -/
def execLaunchComplete (s : State) : Out :=
  let l := s.ev.subject
  if !launchReady s l then .next s
  else
    let x := s.launch l
    let p := releaseTime s l
    let wait (st : Stop) : Out := match frontStop s x.die st with | .error f => .fault f | .ok (s, _) => .next s
    match addCompletion s l x p with
    | .error st => wait st
    | .ok u =>
      match nodeCompletion u x p with
      | .error st => wait st
      | .ok u => .next (pruneGraphs (u.modLaunch l (fun y => { y with done := true, pts := p })) x.die)

/-! ### Queues (R253, R254) -/

/-- HOST_QUEUE_TAIL, R253: a new TAIL; more than N packets break the queue (R370). -/
def execHostQueueTail (s : State) : Out :=
  let die := s.ev.subject
  let q := s.ev.arg1
  match tfind? (s.die die).hostQueues q with
  | none => .next s
  | some x =>
    if !x.isOpen then .next s
    else
      match readVia (physReach die x.asid x.ring) s die 0 8 (hostTime s) { rights := rightR } with
      | .error st =>
        (match frontStop s die st with
         | .error f => .fault f
         | .ok (s, _) => .next s)
      | .ok (s, bs, _) =>
        let tail := numOfBytes bs
        let broken := decide (x.n < (tail + 2 ^ 64 - x.head) % 2 ^ 64)
        let s := s.modDie die (fun d => { d with hostQueues := tput d.hostQueues q { x with tail := tail, isOpen := !broken } })
        .next (if broken then frontLog s die x.asid 0x01 11 q none else s)

/-- The next packet of a die (R254): device queues before host queues, lower numbers first. Its source and its bytes; a host packet's are
read from its ring, with `pts` the time of the read: an acquire at SYSTEM scope (R185; log 130). -/
def nextPacket (s : State) (die : Nat) : Option (Except Stop (State × Source × List Byte)) :=
  let d := s.die die
  match (upTo 4).findSome? (fun c => ((tget [] d.devQueues c).head?).map (fun p => (c, p))) with
  | some (c, p) =>
    let x : Source := {
      die := die, asid := p.asid, queue := 64 + c, opened := 0, index := tget 0 d.devCount c, prio := pkPrio p.bytes
      parent := some p.parent, pts := p.pts, completion := p.completion, args := some (p.args, p.cargs) }
    some (.ok (s, x, p.bytes))
  | none =>
    match (upTo 64).findSome? (fun q => (tfind? d.hostQueues q).bind (fun x => if x.isOpen && x.head != x.tail then some (q, x) else none)) with
    | none => none
    | some (q, x) =>
      match readVia (physReach die x.asid x.ring) s die ((0x40 + 64 * (x.head % x.n) : Nat) : Int) 64 (hostTime s) { rights := rightR } with
      | .error st => some (.error st)
      | .ok (s, b, ts) =>
        let y : Source := {
          die := die, asid := x.asid, queue := q, opened := x.openedAt, index := x.head, prio := pkPrio b, pts := ts
          completion := if pkFlag b 2 then some (pkCobj b, pkCoff b) else none }
        some (.ok (s, y, b))

/-- Remove the packet that was read: a host queue's HEAD advances (R253). -/
def consumePacket (s : State) (x : Source) : Except Stop State :=
  if x.queue < 64 then
    let h := tget ⟨0, 1, 0, 0, 0, 0, true⟩ (s.die x.die).hostQueues x.queue
    let next := (h.head + 1) % 2 ^ 64
    match writeVia (physReach x.die x.asid h.ring) s x.die 8 (bytesOf 8 next) 0 { rights := rightW, write := true } with
    | .error st => .error st
    | .ok (s, _) => .ok (s.modDie x.die (fun d => { d with hostQueues := tput d.hostQueues x.queue { h with head := next } }))
  else
    let c := x.queue - 64
    .ok (s.modDie x.die (fun d => { d with
      devQueues := sput [] d.devQueues c (tget [] d.devQueues c).tail
      devCount := tput d.devCount c (tget 0 d.devCount c + 1) }))

/-- The KIND of the next packet of a die, when it can be read. -/
def nextKind (s : State) (die : Nat) : Option Nat :=
  match nextPacket s die with
  | some (.ok (_, _, b)) => some (pkKind b)
  | some (.error _) => some 0
  | none => none

/-- Read the next packet and start it with the body, when its KIND is one the body takes (R253, R254): a packet with a bad field is
skipped (R424), one whose accesses are refused is logged and dropped, and one that waits stays. -/
def frontEnd (s : State) (die : Nat) (kinds : Nat → Bool) (start : State → Source → List Byte → Except Stop State) : Out :=
  let wait (s : State) (st : Stop) : Out :=
    match frontStop s die st with
    | .error f => .fault f
    | .ok (s, _) => .next s
  match nextPacket s die with
  | none => .next s
  | some (.error st) => wait s st
  | some (.ok (u, x, b)) =>
    if !kinds (pkKind b) then .next s
    else
      match consumePacket u x with
      | .error st => wait s st
      | .ok u =>
        if !packetOk b || !packetAligned b || (pkKind b ≤ 2 && pkFlag b 0 && !pairLeft s die) then .next (skipPacket u x x.index)
        else
          match start u x b with
          | .ok u => .next u
          | .error st =>
            match frontStop s die st with
            | .error f => .fault f
            | .ok (s, none) => .next s
            | .ok (_, some (code, d)) => .next (frontLog u x.die x.asid code d x.index x.parent)

/-- GRID_PACKET, R252; a packet of a reserved KIND is skipped (R424). -/
def execGridPacket (s : State) : Out := frontEnd s s.ev.subject (fun k => k = 1 ∨ k = 0 ∨ 5 ≤ k) startGrid

/-- A node of a die that is to start and waits for its packet. -/
def dueNode (s : State) (die : Nat) : Option Nat :=
  (s.launches.find? (fun e => e.2.die == die && e.2.starting && !e.2.killed && !e.2.done)).map (·.1)

/-- NODE_PACKET, R270: a node that waited for its packet is started, else one is read. -/
def execNodePacket (s : State) : Out :=
  match dueNode s s.ev.subject with
  | some l => .next (startNode.tryNode l s s.ev.subject)
  | none => frontEnd s s.ev.subject (fun k => k = 3) readNode

/-! ### Signals (R255) -/

/-- Every earlier packet of a signal's queue has completed (R255). DESIGN CHOICE: a packet that was skipped (R424), or dropped for a refused access,
made no launch and counts as completed (log 157). -/
def earlierDone (s : State) (l : Nat) : Bool :=
  let x := s.launch l
  s.launches.all (fun e => !(e.2.die == x.die && e.2.queue == x.queue && e.2.opened == x.opened && e.2.index < x.index &&
    !(e.2.kind == 1 && e.2.node.isSome)) || e.2.done)

/-- Perform a signal: a frame tick, or a store with a release (R255). -/
def performSignal (s : State) (l : Nat) : Except Stop State :=
  let x := s.launch l
  match x.signal with
  | none => .ok s
  | some (obj, off, v, frame) =>
    let p := s.launches.foldl (fun m e =>
      if e.2.die = x.die ∧ e.2.queue = x.queue ∧ e.2.opened = x.opened ∧ e.2.index < x.index ∧ e.2.done then max m e.2.pts else m) x.pts
    let done (s : State) (q : Nat) : State := s.modLaunch l (fun y => { y with signal := none, pts := max y.pts q })
    if frame then
      match frameTick s x.die with
      | .error st => .error st
      | .ok s => .ok (done s p)
    else
      match writeVia (objReach x.die x.asid obj) s x.die (off : Nat) (bytesOf 8 v) (p + 1) { rights := rightW, align := 8, write := true } with
      | .error st => .error st
      | .ok (s, q) => .ok (done s q)

/-- Read a SIGNAL packet: at once, or waiting for the earlier packets with AFTER (R255). -/
def readSignal (s : State) (x : Source) (b : List Byte) : Except Stop State :=
  let l := tnext s.launches
  let s := s.putLaunch l { x.launch s 4 with signal := some (pkTobj b, pkToff b, pkAoff b, pkFlag b 3) }
  if pkFlag b 4 then .ok s else performSignal s l

/-- A signal of a die that waited and may go. -/
def dueSignal (s : State) (die : Nat) : Option Nat :=
  (s.launches.find? (fun e => e.2.die == die && e.2.signal.isSome && !e.2.killed && !e.2.done && earlierDone s e.1)).map (·.1)

/-- SIGNAL_PACKET, R255: a signal that waited is performed, else one is read. -/
def execSignalPacket (s : State) : Out :=
  let die := s.ev.subject
  match dueSignal s die with
  | none => frontEnd s die (fun k => k = 4) readSignal
  | some l =>
    match performSignal s l with
    | .ok s => .next s
    | .error st =>
      match frontStop s die st with
      | .error f => .fault f
      | .ok (s, none) => .next s
      | .ok (s, some (code, d)) =>
        .next (frontLog (s.modLaunch l (fun y => { y with signal := none })) die (s.launch l).asid code d (s.launch l).index (some l))

end Sys2Proof.Machine
end

