-- ==== Sys2Proof/Machine/Bind.lean ====
section
/-! DEFINITION. BIND packets: pipeline descriptors, the matching of shared prefixes, and the assignment of a pool's crews to stages
(R257, R258, R260, R273 to R276, R280). -/

namespace Sys2Proof.Machine

/-- A stage entry of a pipeline descriptor (R257). -/
structure StageDesc where
  handle : Nat
  entry : Nat
  minc : Nat
  maxc : Nat
  join : Nat
  drop : Bool
  vallot : Nat
  qcap : Nat
  qsize : Nat
  qloc : Nat
  deriving DecidableEq, Repr

/-- Read stage `n` of a descriptor held as bytes. -/
def stageDesc (b : List Byte) (n : Nat) : StageDesc :=
  let o := 0x40 + 64 * n
  { handle := field b o 16, entry := field b (o + 0x10) 8, minc := field b (o + 0x18) 2, maxc := field b (o + 0x1A) 2
    join := field b (o + 0x1C) 1 % 4, drop := bitAt (field b (o + 0x1C) 1) 2, vallot := field b (o + 0x1D) 1
    qcap := field b (o + 0x20) 4, qsize := field b (o + 0x24) 2, qloc := field b (o + 0x26) 1 }

/-- A stage entry without a reserved value in what is used of it (R257, R258, R276): `last` is the last stage, `crews` the pool. -/
def StageDesc.ok (d : StageDesc) (last : Bool) (crews : Nat) : Bool :=
  1 ≤ d.maxc && d.minc ≤ d.maxc && d.join != 3 && vallotOk d.vallot &&
    (last || (1 ≤ d.qcap && d.qcap ≤ 65535 && 8 ≤ d.qsize && d.qsize ≤ 256 && d.qsize % 8 == 0 && d.qloc ≤ 2 && (d.qloc != 0 || crews == 1)))

/-- A descriptor: code object, seed count, stages; none when a join policy has a reserved value. -/
def descOf (b params : List Byte) : Option (Nat × Nat × List StageDesc) :=
  let nst := field b 0 2
  let ds := (upTo nst).map (stageDesc b)
  let seeds := ((upTo (params.length / 16)).find? (fun k => field params (16 * k) 8 == 0)).map (fun k => field params (16 * k + 8) 8)
  if ds.all (fun d => d.join != 3) then some (field b 4 4, seeds.getD 1, ds) else none

/-- The stages that a pipeline does not share have no reserved value. -/
def ownOk (own : List StageDesc) (crews : Nat) : Bool := (upTo own.length).all (fun n => (own.getD n (stageDesc [] 0)).ok (n + 1 == own.length) crews)

/-- Read the descriptor that a BIND names (R257): its first 64 bytes, its entries, and the parameter records of stage 0. -/
def readDesc (s : State) (x : Source) (b : List Byte) : Except Stop (State × Option (Nat × Nat × List StageDesc)) :=
  let reach := objReach x.die x.asid (pkTobj b)
  let o := pkToff b
  match readVia reach s x.die (o : Nat) 64 x.pts { rights := rightR } with
  | .error st => .error st
  | .ok (s, head, p) =>
    let nst := field head 0 2
    if nst = 0 ∨ 16 < nst then .ok (s, none)
    else
      match readVia reach s x.die (o : Nat) (64 + 64 * nst) p { rights := rightR } with
      | .error st => .error st
      | .ok (s, bs, p) =>
        let first := field bs 0x6C 2
        match readVia reach s x.die ((o + 0x40 + 64 * nst + 16 * first : Nat) : Int) (16 * field bs 0x6E 2) p { rights := rightR } with
        | .error st => .error st
        | .ok (s, ps, _) => .ok (s, descOf bs ps)

/-! ### Matching (R274 to R276) -/

/-- Two ASIDs of a die lie in one share domain (R275). -/
def sameDomain (d : Die) (a b : Nat) : Bool :=
  a == b || (match (tget {} d.asids a).share, (tget {} d.asids b).share with | some x, some y => x == y | _, _ => false)

/-- An instance that a new pipeline of a source may share (R275). -/
def mayShare (s : State) (x : Source) (i : Nat) : Bool :=
  let y := s.instance' i
  y.die == x.die && !y.closed && (y.qloc == 1 || y.qloc == 2) && !y.last && !y.ended && !y.poisoned && y.cursors.length < 8 &&
    sameDomain (s.die x.die) x.asid (s.pipeline y.accountable).asid

/-- The instances that stage `d` of a new pipeline matches behind a chain (R274). -/
def matches' (s : State) (x : Source) (seeds : Nat) (d : StageDesc) (chain : List Nat) : List Nat :=
  (s.instances.filter (fun e => mayShare s x e.1 && e.2.handle == d.handle &&
    (match chain.getLast? with
     | none => e.2.first && e.2.seeds == seeds
     | some u => e.2.upstream == some u))).map (·.1)

/-- The longest shareable chains. -/
def longestChains (s : State) (x : Source) (seeds : Nat) : List StageDesc → List (List Nat) → List (List Nat)
  | [], cs => cs
  | d :: t, cs =>
    match cs.flatMap (fun c => (matches' s x seeds d c).map (fun i => c ++ [i])) with
    | [] => cs
    | n :: ns => longestChains s x seeds t (n :: ns)

/-- The prefix that a new pipeline shares (R275, R276): the largest, of the oldest BIND; none when ORIGIN refuses. -/
def sharedPrefix (s : State) (x : Source) (seeds : Nat) (ds : List StageDesc) : List Nat :=
  let cs := longestChains s x seeds ds.dropLast [[]]
  let age (c : List Nat) : List Nat :=
    match c.getLast? with
    | none => [0]
    | some i => [(s.pipeline (s.instance' i).accountable).readAt, (s.instance' i).accountable]
  match minBy age cs with
  | none => []
  | some c =>
    match c.getLast? with
    | none => []
    | some i => if (ds.getD c.length (stageDesc [] 0)).join = 2 ∧ (s.instance' i).nextSeq ≠ 0 then [] else c

/-- Where the cursor of the first stage that is not shared starts (R276). -/
def joinCursor (d : StageDesc) (up : Instance) : Cursor :=
  { next := if d.join = 2 then 0 else up.nextSeq, drop := d.drop, waitFrame := d.join == 1 }

/-- Create the instances of the stages of a pipeline from a stage on, each reading the one before it. -/
def createStages (p : Nat) (x : Source) (codeObj seeds : Nat) : List StageDesc → List Nat → State → State × List Nat
  | [], path, s => (s, path)
  | d :: t, path, s =>
    let i := tnext s.instances
    let up := path.getLast?
    let joined := match up with | some u => (s.instance' u).accountable != p | none => false
    let inst : Instance := {
      die := x.die, asid := x.asid, handle := d.handle, first := up.isNone, codeObj := codeObj, entry := word d.entry
      minc := d.minc, maxc := d.maxc, vallot := d.vallot, qcap := if t.isEmpty then 0 else d.qcap
      qsize := if t.isEmpty then 0 else d.qsize, qloc := d.qloc, upstream := up, seeds := seeds, last := t.isEmpty, refs := 1, accountable := p }
    let s := s.putInstance i inst
    let s := match up with
      | some u => addCursor s u i (if joined then joinCursor d (s.instance' u) else { drop := d.drop })
      | none => s
    createStages p x codeObj seeds t (path ++ [i]) s

/-- The crews of a pool by stage (R260): MINC for each stage in order, then up to MAXC from the first. -/
def assignCrews (n : Nat) (stages : List (Nat × Nat × Nat)) : List Nat :=
  let least := stages.flatMap (fun st => List.replicate st.2.1 st.1)
  let more := stages.flatMap (fun st => List.replicate (st.2.2 - st.2.1) st.1)
  (least ++ more).take n

/-- BIND_PACKET's start (R258): the link engine matches a prefix, and the pool's crews join the waiting crews. -/
def startBind (s : State) (x : Source) (b : List Byte) : Except Stop State :=
  match readDesc s x b with
  | .error st => .error st
  | .ok (s, none) => .ok (skipPacket s x x.index)
  | .ok (s, some (codeObj, seeds, ds)) =>
    let path := sharedPrefix s x seeds ds
    let own := ds.drop path.length
    let n := pkCrews b
    if !ownOk own n ∨ n < (own.map (·.minc)).sum ∨ (own.map (·.maxc)).sum < n then .ok (skipPacket s x x.index)
    else
      match sourceArgs s x b with
      | .error st => .error st
      | .ok (s, args, cargs, pts) =>
        let l := tnext s.launches
        let p := tnext s.pipelines
        let s := s.putLaunch l (x.launch s 2)
        let s := path.foldl (fun s i => s.modInstance i (fun y => { y with refs := y.refs + 1 })) s
        let (s, full) := createStages p x codeObj seeds own path s
        let s := s.putPipeline p {
          die := x.die, asid := x.asid, path := full, shared := path.length, launch := l, readAt := s.clock, prio := x.prio
          krate := pkKrate b, scb := pkFlag b 1, nwaves := pkWaves b, args := args, cargs := cargs }
        let stages := (full.drop path.length).map (fun i => (i, (s.instance' i).minc, (s.instance' i).maxc))
        let order := assignCrews n stages
        .ok (createCrews s x.die (fun k =>
          let i := order.getD k 0
          let y := s.instance' i
          { die := x.die, launch := l, age := s.clock, prio := x.prio, asid := x.asid, codeObj := codeObj, entry := y.entry
            nwaves := pkWaves b, vallot := y.vallot, scb := pkFlag b 1, args := args, cargs := cargs, startPts := pts
            krate := pkKrate b, kitty := min (16 * pkKrate b) (2 ^ 32 - 1), pipeline := some p, stage := some i }) (pkFlag b 0) n 0)

/-- BIND_PACKET, R258. -/
def execBindPacket (s : State) : Out := frontEnd s s.ev.subject (fun k => k = 2) startBind

end Sys2Proof.Machine
end

