-- ==== Sys2Proof/Machine/Capability.lean ====
section
/-! DEFINITION. Capability instructions, OPC 0x28 to 0x2F (R105 to R107). -/

namespace Sys2Proof.Machine

/-- A result in c[D] with latency 0. -/
def capResult (i : Instr) (s : State) (f : Cap → Word → Cap) : Out :=
  guarded i s (fun s =>
    .next (finish (writeC s 0 s.ir.d.toNat (f (readC s s.ir.a.toNat) (operandB s)))))

/-- A result in c[D] from a B whose high bits must be zero, or whose value lies in a range (R105): else ARITH 2 (R362). -/
def capChecked (i : Instr) (s : State) (ok : Word → Bool) (f : Cap → Word → Cap) : Out :=
  guarded i s (fun s =>
    if !ok (operandB s) then arith s 2
    else .next (finish (writeC s 0 s.ir.d.toNat (f (readC s s.ir.a.toNat) (operandB s)))))

/-- CADD's result, R105. -/
def capAdd (c : Cap) (b : Word) : Cap := ⟨c.withField 2 44 (c.off + b.toNat), c.derivedTag⟩

/-- CSETOFF's result, R105. -/
def capSetOff (c : Cap) (b : Word) : Cap := ⟨c.withField 2 44 b.toNat, c.derivedTag⟩

/-- CRED's result, R105. -/
def capReduce (c : Cap) (b : Word) : Cap := ⟨c.withField 120 8 (c.rights &&& b.toNat % 256), c.derivedTag⟩

/-- CWIN's result, R105, R106: the tag goes unless the new window lies in the old one. -/
def capWindow (c : Cap) (b : Word) : Cap :=
  let g := bits b.toNat 36 6
  let len := bits b.toNat 18 18
  let base := bits b.toNat 0 18
  let raw := ((({ c with raw := c.withField 114 6 g } : Cap).withField 96 18 base))
  let raw := ({ c with raw := raw } : Cap).withField 78 18 len
  let inside := len = 0 ∨ (c.window.1 ≤ base * 2 ^ g ∧ (base + len) * 2 ^ g ≤ c.window.2)
  ⟨raw, c.derivedTag && decide inside⟩

/-- The window operand of CWIN: bits [63:42] zero, and g at most 26 (R105, R140, R362, log 14). -/
def windowOk (b : Word) : Bool := bits b.toNat 42 22 == 0 && bits b.toNat 36 6 ≤ 26

/-- The rights operand of CRED: bits [63:8] zero (R105). -/
def rightsOk (b : Word) : Bool := b.toNat < 256

/-- CGET's result (R105). -/
def capGet (x : BitVec 2) (c : Cap) : Word :=
  match x.toNat with
  | 0 => word c.off
  | 1 => word c.obj
  | 2 => word (c.g * 2 ^ 36 + c.len * 2 ^ 18 + c.base)
  | _ => word ((if c.tag then 256 else 0) + c.rights)

/-- CMOV, R105. -/
def execCmov (s : State) : Out := capResult .cmov s (fun c _ => c)
/-- CADD, R105. -/
def execCadd (s : State) : Out := capResult .cadd s capAdd
/-- CADD with a literal B. -/
def execCaddLit (s : State) : Out := capResult .caddLit s capAdd
/-- CWIN, R105, R106. -/
def execCwin (s : State) : Out := capChecked .cwin s windowOk capWindow
/-- CWIN with a literal B. -/
def execCwinLit (s : State) : Out := capChecked .cwinLit s windowOk capWindow
/-- CRED, R105. -/
def execCred (s : State) : Out := capChecked .cred s rightsOk capReduce
/-- CRED with a literal B. -/
def execCredLit (s : State) : Out := capChecked .credLit s rightsOk capReduce
/-- CGET, R105. -/
def execCget (s : State) : Out :=
  guarded .cget s (fun s => .next (finish (writeS s 0 s.ir.d.toNat (capGet s.ir.x (readC s s.ir.a.toNat)))))
/-- CSETOFF, R105. -/
def execCsetoff (s : State) : Out := capResult .csetoff s capSetOff
/-- CSETOFF with a literal B. -/
def execCsetoffLit (s : State) : Out := capResult .csetoffLit s capSetOff
/-- CLD, R107. -/
def execCld (s : State) : Out := scalarLoad .cld s 16 (fun s g => [.c s.cur s.ir.d.toNat (capOf g.bytes g.tag)])
/-- CLD with a literal offset. -/
def execCldLit (s : State) : Out := scalarLoad .cldLit s 16 (fun s g => [.c s.cur s.ir.d.toNat (capOf g.bytes g.tag)])
/-- CST, R107. -/
def execCst (s : State) : Out :=
  scalarStore .cst s 16 (fun s => (readC s s.ir.d.toNat).toBytes) (fun s => (readC s s.ir.d.toNat).tag)
/-- CST with a literal offset. -/
def execCstLit (s : State) : Out :=
  scalarStore .cstLit s 16 (fun s => (readC s s.ir.d.toNat).toBytes) (fun s => (readC s s.ir.d.toNat).tag)

end Sys2Proof.Machine
end

