-- ==== Sys2Proof/Machine/Vector.lean ====
section
/-! DEFINITION. Vector integer, float, compare, conversion, special-function and generator instructions, classes 0x60 to 0x64 and 0x67
(R120 to R131, R138). -/

namespace Sys2Proof.Machine

/-- The type of the instruction. -/
def ty (s : State) : Nat := s.ir.t.toNat
/-- Its element width. -/
def tw (s : State) : Nat := widthOf s.ir.t.toNat
/-- The latency of R39. -/
def lat (i : Instr) (s : State) : Nat := (latencyOf i s.ir).getD 0

/-- An element-by-element instruction (R120). -/
def vectorOp (i : Instr) (s : State) (f : State → Nat → Nat → Nat) : Out :=
  guarded i s (fun s => .next (finish (elementwise s (lat i s) (f s))))

/-! ### Integer, class 0x60 -/

/-- An integer element as its value. -/
def iA (s : State) (L k : Nat) : Int := intOf (ty s) (elemA s L k)
/-- An integer element of B. -/
def iB (s : State) (L k : Nat) : Int := intOf (ty s) (elemB s L k)
/-- An integer element of C. -/
def iC (s : State) (L k : Nat) : Int := intOf (ty s) (elemC s L k)
/-- An exact integer result in the type, saturated with SAT (R28, R121). -/
def iResult (s : State) (x : Int) : Nat := intResult (ty s) s.ir.sat x
/-- The shift amount (R121). -/
def shiftBy (s : State) (L k : Nat) : Nat := elemB s L k % tw s

/-- VADD, R121. -/
def execVadd (s : State) : Out := vectorOp .vadd s (fun s L k => iResult s (iA s L k + iB s L k))
/-- VSUB, R121. -/
def execVsub (s : State) : Out := vectorOp .vsub s (fun s L k => iResult s (iA s L k - iB s L k))
/-- VMUL, R121. -/
def execVmul (s : State) : Out := vectorOp .vmul s (fun s L k => iResult s (iA s L k * iB s L k))
/-- VMULH, R121. -/
def execVmulh (s : State) : Out :=
  vectorOp .vmulh s (fun s L k => wrap (tw s) (iA s L k * iB s L k / (2 ^ tw s : Nat)))
/-- VMAD, R121. -/
def execVmad (s : State) : Out := vectorOp .vmad s (fun s L k => iResult s (iA s L k * iB s L k + iC s L k))
/-- VMIN, R121. -/
def execVmin (s : State) : Out :=
  vectorOp .vmin s (fun s L k => if iB s L k < iA s L k then elemB s L k else elemA s L k)
/-- VMAX, R121. -/
def execVmax (s : State) : Out :=
  vectorOp .vmax s (fun s L k => if iA s L k < iB s L k then elemB s L k else elemA s L k)
/-- VABS, R121. -/
def execVabs (s : State) : Out := vectorOp .vabs s (fun s L k => iResult s (iA s L k).natAbs)
/-- VNEG, R121. -/
def execVneg (s : State) : Out := vectorOp .vneg s (fun s L k => iResult s (-(iA s L k)))
/-- VAND, R121. -/
def execVand (s : State) : Out := vectorOp .vand s (fun s L k => elemA s L k &&& elemB s L k)
/-- VOR, R121. -/
def execVor (s : State) : Out := vectorOp .vor s (fun s L k => elemA s L k ||| elemB s L k)
/-- VXOR, R121. -/
def execVxor (s : State) : Out := vectorOp .vxor s (fun s L k => elemA s L k ^^^ elemB s L k)
/-- VANDN, R121. -/
def execVandn (s : State) : Out :=
  vectorOp .vandn s (fun s L k => elemA s L k &&& (2 ^ tw s - 1 - elemB s L k))
/-- VSHL, R121. -/
def execVshl (s : State) : Out := vectorOp .vshl s (fun s L k => elemA s L k * 2 ^ shiftBy s L k)
/-- VSHR, R121. -/
def execVshr (s : State) : Out := vectorOp .vshr s (fun s L k => elemA s L k / 2 ^ shiftBy s L k)
/-- VSAR, R121. -/
def execVsar (s : State) : Out :=
  vectorOp .vsar s (fun s L k => wrap (tw s) (signed (tw s) (elemA s L k) / (2 ^ shiftBy s L k : Nat)))
/-- VROT, R121. -/
def execVrot (s : State) : Out :=
  vectorOp .vrot s (fun s L k => elemA s L k * 2 ^ shiftBy s L k + elemA s L k / 2 ^ (tw s - shiftBy s L k))
/-- VCLZ, R121. -/
def execVclz (s : State) : Out := vectorOp .vclz s (fun s L k => clz (tw s) (elemA s L k))
/-- VPOP, R121. -/
def execVpop (s : State) : Out := vectorOp .vpop s (fun s L k => popCount (tw s) (elemA s L k))

/-- Position and effective width of VBFX and VBFI (R122). -/
def vecField (s : State) : Nat × Nat :=
  let pos := bits s.ir.imm.toNat 0 6
  (pos, min (bits s.ir.imm.toNat 8 7) (tw s - pos))

/-- VBFX, R122. -/
def execVbfx (s : State) : Out :=
  vectorOp .vbfx s (fun s L k =>
    let (pos, wf) := vecField s
    let v := bits (elemA s L k) pos wf
    if wf = 0 then 0 else if isSignedType (ty s) then wrap (tw s) (signed wf v) else v)
/-- VBFI, R122. -/
def execVbfi (s : State) : Out :=
  vectorOp .vbfi s (fun s L k =>
    let (pos, wf) := vecField s
    let d := elem (tw s) k (readV s (tw s) s.ir.d.toNat L)
    d - bits d pos wf * 2 ^ pos + bits (elemA s L k) 0 wf * 2 ^ pos)
/-- VSEL, R121. -/
def execVsel (s : State) : Out :=
  vectorOp .vsel s (fun s L k => if elemC s L k != 0 then elemA s L k else elemB s L k)

/-- The lane's `LID` for VMOV (R123). -/
def laneId (s : State) (L : Nat) : Nat := ((tfind? s.curW.lid L).getD (word (32 * widOf s.curWk + L))).toNat

/-- VMOV, R123. -/
def execVmov (s : State) : Out :=
  vectorOp .vmov s (fun s L k =>
    match s.ir.imm.toNat % 16 with
    | 0 => elem (tw s) k (vecB s (tw s) L)
    | 1 => laneId s L
    | 2 => L
    | _ => 64 / tw s * L + k)

/-! ### Float, class 0x61 -/

/-- A floating element as its value. -/
def fA (s : State) (L k : Nat) : FVal := decodeF (ty s) (elemA s L k)
/-- A floating element of B. -/
def fB (s : State) (L k : Nat) : FVal := decodeF (ty s) (elemB s L k)
/-- A floating element of C. -/
def fC (s : State) (L k : Nat) : FVal := decodeF (ty s) (elemC s L k)
/-- RM as a number. -/
def rmOf (s : State) : Nat := s.ir.rm.toNat
/-- A value rounded into the type under RM and SAT (R28, R74, R75). -/
def fResult (s : State) (v : FVal) : Nat := roundF (ty s) (rmOf s) s.ir.sat v

/-- VFADD, R124. -/
def execVfadd (s : State) : Out := vectorOp .vfadd s (fun s L k => fResult s (addF (rmOf s) (fA s L k) (fB s L k)))
/-- VFSUB, R124: a NaN of B keeps its sign. -/
def execVfsub (s : State) : Out :=
  vectorOp .vfsub s (fun s L k =>
    fResult s (firstNan [fA s L k, fB s L k] (addV (rmOf s) (fA s L k) (fB s L k).negate)))
/-- VFMUL, R124. -/
def execVfmul (s : State) : Out := vectorOp .vfmul s (fun s L k => fResult s (mulF (fA s L k) (fB s L k)))
/-- VFMA, R124. -/
def execVfma (s : State) : Out :=
  vectorOp .vfma s (fun s L k => fResult s (fmaF (rmOf s) (fA s L k) (fB s L k) (fC s L k)))
/-- VFMS, R124: the negation of C belongs to the operation, so a NaN of C keeps its sign. -/
def execVfms (s : State) : Out :=
  vectorOp .vfms s (fun s L k =>
    fResult s (firstNan [fA s L k, fB s L k, fC s L k] (fmaF (rmOf s) (fA s L k) (fB s L k) (fC s L k).negate)))
/-- VFMIN, R125. -/
def execVfmin (s : State) : Out := vectorOp .vfmin s (fun s L k => fResult s (minMaxF false (fA s L k) (fB s L k)))
/-- VFMAX, R125. -/
def execVfmax (s : State) : Out := vectorOp .vfmax s (fun s L k => fResult s (minMaxF true (fA s L k) (fB s L k)))
/-- VFABS, R124: the sign bit alone. -/
def execVfabs (s : State) : Out := vectorOp .vfabs s (fun s L k => elemA s L k % 2 ^ (tw s - 1))
/-- VFNEG, R124: the sign bit alone. -/
def execVfneg (s : State) : Out := vectorOp .vfneg s (fun s L k => modified (ty s) false true (elemA s L k))
/-- VFRND, R124. -/
def execVfrnd (s : State) : Out := vectorOp .vfrnd s (fun s L k => fResult s (integralF (rmOf s) (fA s L k)))
/-- VFCLS, R125. -/
def execVfcls (s : State) : Out := vectorOp .vfcls s (fun s L k => classMask (ty s) (elemA s L k))
/-- VFSQT, R124. -/
def execVfsqt (s : State) : Out := vectorOp .vfsqt s (fun s L k => fResult s (sqrtF (fA s L k)))

/-- VFDOT's result in 32-bit element `j` (R125). -/
def dotPair (s : State) (L j : Nat) : Nat :=
  let c := decodeF 10 (elem 32 j (vecC s 32 L))
  let a0 := fA s L (2 * j)
  let b0 := fB s L (2 * j)
  let a1 := fA s L (2 * j + 1)
  let b1 := fB s L (2 * j + 1)
  let p0 := mulV a0 b0
  let p1 := mulV a1 b1
  let sum := firstNan [p0, p1] (
    match p0, p1, c with
    | .fin _ _ _, .fin _ _ _, .fin _ _ _ =>
      let t := addV (rmOf s) p0 p1
      -- an exact zero sum of R67: -0 only when every term is -0, or by the rounding mode
      (match addV (rmOf s) t c with
       | .fin n m e =>
         if m = 0 then .fin (if p0.isNeg == p1.isNeg && p1.isNeg == c.isNeg then c.isNeg else rmOf s == 2) 0 0 else .fin n m e
       | v => v)
    | _, _, _ => let t := addV (rmOf s) p0 p1; if t.isNan then t else addV (rmOf s) t c)
  roundF 10 (rmOf s) s.ir.sat (firstNan [a0, b0, a1, b1, c] sum)

/-- VFDOT, R125. -/
def execVfdot (s : State) : Out :=
  guarded .vfdot s (fun s => .next (finish (writeLanes s (lat .vfdot s) 32 (fun L => ofElems 32 (dotPair s L)))))

/-- VFSCL, R125: beyond +-2^14 the exponent no longer matters to any format. -/
def execVfscl (s : State) : Out :=
  vectorOp .vfscl s (fun s L k =>
    let n := max (-16384) (min 16384 (signed (tw s) (elem (tw s) k (vecB s (tw s) L))))
    fResult s ((fA s L k).scale n))

/-! ### Compares, class 0x62 -/

/-- The outcome of the condition on element k of lane L (R126). -/
def outcome (s : State) (L k : Nat) : Bool :=
  condition s.ir.cc.toNat (compareElems (ty s) (elemA s L k) (elemB s L k))

/-- VCMP, R126: one predicate for each sub-element (R33). -/
def execVcmp (s : State) : Out :=
  guarded .vcmp s (fun s =>
    let w := tw s
    let ps := readPreds s w
    .next (finish ((upTo (64 / w)).foldl (fun u k =>
      let lanes := (lanesOf s.lanes).filter (fun L => picks s.ir ps k L)
      writeP u (lat .vcmp s) (s.ir.d.toNat + k) (maskOf lanes) (maskOf (lanes.filter (fun L => outcome s L k)))) s)))

/-- VCMPM, R126. -/
def execVcmpm (s : State) : Out := vectorOp .vcmpm s (fun s L k => if outcome s L k then 2 ^ tw s - 1 else 0)

/-! ### Conversions, class 0x63 -/

/-- Source type, part and count of a conversion (R127). -/
def cvtShape (s : State) : Nat × Nat × Nat × Nat :=
  let ts := s.ir.imm.toNat % 16
  let ws := widthOf ts
  (ts, ws, bits s.ir.imm.toNat 4 2, 64 / max ws (tw s))

/-- The relation of widths and part that R127 asks. -/
def partOk (s : State) : Bool :=
  let (_, ws, h, _) := cvtShape s
  h < max ws (tw s) / min ws (tw s)

/-- The elements that VCVT writes: their mask in the lane and their values. -/
def cvtLane (s : State) (L : Nat) : Word × Word :=
  let (ts, ws, h, n) := cvtShape s
  let wd := tw s
  let a := vecA s ws L
  let cvt (x : Nat) : Nat := convert ts (ty s) (rmOf s) s.ir.sat x
  (upTo n).foldl (fun (acc : Word × Word) k =>
    if ws ≤ wd then (acc.1 ||| elemMask wd k, setElem wd k acc.2 (cvt (elem ws (k + h * n) a)))
    else (acc.1 ||| elemMask wd (k + h * n), setElem wd (k + h * n) acc.2 (cvt (elem ws k a)))) (0, 0)

/-- Write some elements of each lane, of those that predication selects. -/
def writeSome (s : State) (lt w : Nat) (f : Nat → Word × Word) : State :=
  let ps := readPreds s w
  (activeLanes s w).foldl (fun u L => writeV u lt s.ir.d.toNat L (pickMask s.ir ps w L &&& (f L).1) (f L).2) s

/-- VCVT, R127; ARITH 4 for a part that does not exist (R363). -/
def execVcvt (s : State) : Out :=
  guarded .vcvt s (fun s =>
    if !partOk s then arith s 4 else .next (finish (writeSome s (lat .vcvt s) (tw s) (cvtLane s))))

/-- VPACK, R127; ARITH 4 for another relation of the widths. -/
def execVpack (s : State) : Out :=
  guarded .vpack s (fun s =>
    let (ts, ws, _, n) := cvtShape s
    let wd := tw s
    if ws != 2 * wd then arith s 4
    else .next (finish (writeLanes s (lat .vpack s) wd (fun L => ofElems wd (fun k =>
      convert ts (ty s) (rmOf s) s.ir.sat (if k < n then elem ws k (vecA s ws L) else elem ws (k - n) (vecB s ws L)))))))

/-- VUNPK, R127; ARITH 4 for another relation of the widths or another part. -/
def execVunpk (s : State) : Out :=
  guarded .vunpk s (fun s =>
    let (_, ws, _, _) := cvtShape s
    if tw s != 2 * ws || !partOk s then arith s 4 else .next (finish (writeSome s (lat .vunpk s) (tw s) (cvtLane s))))

/-- A run of `n` registers from `r` in a lane, as a number. -/
def runNum (s : State) (r n L : Nat) : Nat :=
  (upTo n).foldl (fun x i => x + (readV s 64 (r + i) L).toNat * 2 ^ (64 * i)) 0

/-- Write a number into a run of `n` registers from v[D] in each active lane. -/
def writeRun (s : State) (lt n : Nat) (f : Nat → Nat) : State :=
  (activeLanes s 64).foldl (fun u L =>
    (upTo n).foldl (fun u i => writeV u lt (s.ir.d.toNat + i) L (BitVec.allOnes 64) (word (bits (f L) (64 * i) 64))) u) s

/-- F32 codes packed two to a register. -/
def packF32 (cs : List Nat) : Nat := (upTo cs.length).foldl (fun x i => x + cs.getD i 0 * 2 ^ (32 * i)) 0

/-- The F32 values of a run. -/
def runValues (s : State) (n L : Nat) : List FVal :=
  let x := runNum s s.ir.a.toNat (n / 2) L
  (upTo n).map (fun i => decodeF 10 (bits x (32 * i) 32))

/-- VSXP, R128. -/
def execVsxp (s : State) : Out :=
  guarded .vsxp s (fun s => .next (finish (writeRun s (lat .vsxp s) (blockRegs s.ir.mod.toNat) (fun L =>
    sxEncode s.ir.mod.toNat (rmOf s) s.ir.sat (runValues s 16 L)))))

/-- VSXU, R128: the bits of the run beyond the block do not matter. -/
def execVsxu (s : State) : Out :=
  guarded .vsxu s (fun s => .next (finish (writeRun s (lat .vsxu s) 8 (fun L =>
    let b := runNum s s.ir.a.toNat (blockRegs s.ir.mod.toNat) L
    packF32 ((upTo 16).map (fun k => roundF 10 0 false (sxValue s.ir.mod.toNat b k)))))))

/-- VMXP, R128. -/
def execVmxp (s : State) : Out :=
  guarded .vmxp s (fun s => .next (finish (writeRun s (lat .vmxp s) 3 (fun L =>
    let (codes, x) := mxEncodeBlock (rmOf s) (runValues s 32 L)
    (upTo 32).foldl (fun r i => r + codes.getD i 0 * 2 ^ (4 * i)) 0 + x * 2 ^ 128))))

/-- VMXU, R128. -/
def execVmxu (s : State) : Out :=
  guarded .vmxu s (fun s => .next (finish (writeRun s (lat .vmxu s) 16 (fun L =>
    let b := runNum s s.ir.a.toNat 3 L
    packF32 ((upTo 32).map (fun k => roundF 10 (rmOf s) false (mxValue (bits b 128 8) (bits b (4 * k) 4))))))))

/-- VQDEC, R129; ARITH 4 for a start index beyond the codes. -/
def execVqdec (s : State) : Out :=
  guarded .vqdec s (fun s =>
    let j := s.ir.imm.toNat % 16
    let w := if s.ir.mod = 0 then 8 else 4
    if (if s.ir.mod = 0 then 6 else 14) < j then arith s 4
    else .next (finish (writeLanes s (lat .vqdec s) 32 (fun L => ofElems 32 (fun k =>
      let h := (vecB s 16 L).toNat
      rowDecode (bits h 0 16) (bits h 16 16) (bits (vecA s w L).toNat (w * (j + k)) w))))))

/-! ### Special functions and the generator -/

/-- VRNG's function of key and counter (R138). -/
def drawBits (key i : Nat) : Nat :=
  let m := 2 ^ 32
  let x := (i ^^^ key % m) * 0x3A8F05C5 % m
  let x := x ^^^ x / 2 ^ 15
  let x := (x + key / m) % m * 0x91E10DA7 % m
  x ^^^ x / 2 ^ 16

/-- VRNG, R138. -/
def execVrng (s : State) : Out :=
  vectorOp .vrng s (fun s L k =>
    let x := drawBits (vecB s 64 L).toNat (elem 32 k (vecA s 32 L))
    if ty s = 6 then x else roundF 10 0 false (.fin false (x / 256) (-24)))

end Sys2Proof.Machine
end

