-- ==== Sys2Proof/Machine/CrossLane.lean ====
section
/-! DEFINITION. Cross-lane and bit-stream instructions, classes 0x65 and 0x66 (R132 to R137). -/

namespace Sys2Proof.Machine

/-- Elements in a register of the type (R132). -/
def flatCount (w : Nat) : Nat := 32 * (64 / w)

/-- Element `e` of v[A] by its flat index, in any lane of the wave (R132). -/
def flatA (s : State) (w e : Nat) : Nat := elem w (e % (64 / w)) (vecA s w (e / (64 / w)))

/-- The selected elements of the fragment in ascending flat index, as (lane, sub-element). -/
def selectedElems (s : State) (w : Nat) : List (Nat × Nat) :=
  let ps := readPreds s w
  (lanesOf s.lanes).flatMap (fun L => ((upTo (64 / w)).filter (fun k => picks s.ir ps k L)).map (fun k => (L, k)))

/-! ### Permutations -/

/-- VSHFL, R133. -/
def execVshfl (s : State) : Out :=
  vectorOp .vshfl s (fun s L k => flatA s (tw s) (elem (tw s) k (vecB s (tw s) L) % flatCount (tw s)))

/-- The element index in IMM. -/
def immIndex (s : State) : Nat := bits s.ir.imm.toNat 0 11

/-- VBCAST, R133; ARITH 4 for an index beyond the register. -/
def execVbcast (s : State) : Out :=
  guarded .vbcast s (fun s =>
    if flatCount (tw s) ≤ immIndex s then arith s 4
    else .next (finish (elementwise s (lat .vbcast s) (fun _ _ => flatA s (tw s) (immIndex s)))))

/-- The index of VREAD and VWRITE: s[C] or IMM, modulo E (R133). -/
def pickedIndex (s : State) : Nat :=
  (if s.ir.mod.getLsbD 0 then immIndex s else (readS s s.ir.c.toNat).toNat) % flatCount (tw s)

/-- An IMM index beyond the register (R363). -/
def immBeyond (s : State) : Bool := s.ir.mod.getLsbD 0 && flatCount (tw s) ≤ immIndex s

/-- VREAD, R133. -/
def execVread (s : State) : Out :=
  guarded .vread s (fun s =>
    if immBeyond s then arith s 4
    else
      let v := flatA s (tw s) (pickedIndex s)
      let r := if isIntType (ty s) && isSignedType (ty s) then wrap 64 (signed (tw s) v) else v
      .next (finish (writeS s (lat .vread s) s.ir.d.toNat (word r))))

/-- VWRITE, R133. -/
def execVwrite (s : State) : Out :=
  guarded .vwrite s (fun s =>
    if immBeyond s then arith s 4
    else
      let w := tw s
      let e := pickedIndex s
      let k := e % (64 / w)
      let v := readS s s.ir.a.toNat
      .next (finish (writeSome s (lat .vwrite s) w (fun L =>
        (if L = e / (64 / w) then elemMask w k else 0, setElem w k 0 v.toNat)))))

/-- VROTL, R133. -/
def execVrotl (s : State) : Out :=
  guarded .vrotl s (fun s =>
    .next (finish (writeLanes s (lat .vrotl s) 64 (fun L => vecA s 64 ((L + s.ir.imm.toNat % 32) % 32)))))

/-! ### Reductions -/

/-- The identity of a reduction (R135). -/
def identityOf (t op : Nat) : Nat :=
  let w := widthOf t
  if isIntType t then
    match op with
    | 1 => wrap w (intMax t)
    | 2 => wrap w (intMin t)
    | 3 => 2 ^ w - 1
    | _ => 0
  else
    match op with
    | 1 => infCode t
    | 2 => 2 ^ (w - 1) + infCode t
    | _ => 2 ^ (w - 1)

/-- The extreme of floating elements: NaNs are skipped; none is left: the default NaN (R134). -/
def extremeF (t : Nat) (isMax : Bool) (xs : List Nat) : Nat :=
  match xs.filter (fun x => !(decodeF t x).isNan) with
  | [] => roundF t 0 false defaultNan
  | x :: r => roundF t 0 false (r.foldl (fun a b => minMaxF isMax a (decodeF t b)) (decodeF t x))

/-- The extreme of integer elements. -/
def extremeI (t : Nat) (isMax : Bool) : List Nat → Nat
  | [] => 0
  | x :: r => r.foldl (fun a b =>
      if (if isMax then intOf t a < intOf t b else intOf t b < intOf t a) then b else a) x

/-- A reduction of elements in ascending order (R134): `op` by MOD, `ord` by IMM[1:0], `choice` the open choice of `.FREE`. -/
def reduce (t op ord rm : Nat) (sat : Bool) (choice : Nat) (xs : List Nat) : Nat :=
  if isIntType t then
    match op with
    | 0 => intResult t sat ((xs.map (intOf t)).foldl (· + ·) 0)
    | 1 => extremeI t false xs
    | 2 => extremeI t true xs
    | 3 => xs.foldl (· &&& ·) (2 ^ widthOf t - 1)
    | 4 => xs.foldl (· ||| ·) 0
    | _ => xs.foldl (· ^^^ ·) 0
  else
    match op with
    | 0 =>
      let vs := xs.map (decodeF t)
      if ord = 1 then exactRead rm (exactOf vs)
      else if ord = 2 then freeSum choice 0 (.fin true 0 0) vs
      else roundF t rm false (seqSum t rm (.fin true 0 0) vs)
    | 1 => extremeF t false xs
    | _ => extremeF t true xs

/-- VRDX, R134. -/
def execVrdx (s : State) : Out :=
  guarded .vrdx s (fun s =>
    let w := tw s
    let xs := (selectedElems s w).map (fun e => elem w e.2 (vecA s w e.1))
    let r := reduce (ty s) s.ir.mod.toNat (s.ir.imm.toNat % 4) (rmOf s) s.ir.sat s.fresh xs
    .next (finish (elementwise s (lat .vrdx s) (fun _ _ => r))))

/-- The result of a scan at an element (R135): an exclusive range without a number gives the identity. -/
def scanAt (s : State) (xs : List (Nat × Nat)) (e : Nat) : Nat :=
  let t := ty s
  let op := s.ir.mod.toNat
  let excl := s.ir.imm.getLsbD 2
  let range := (xs.filter (fun x => if excl then x.1 < e else x.1 ≤ e)).map (·.2)
  let live := if isIntType t || op == 0 then range else range.filter (fun x => !(decodeF t x).isNan)
  if excl && live.isEmpty then identityOf t op else reduce t op 0 (rmOf s) s.ir.sat 0 range

/-- VSCAN, R135. -/
def execVscan (s : State) : Out :=
  guarded .vscan s (fun s =>
    let w := tw s
    let n := 64 / w
    let xs := (selectedElems s w).map (fun e => (n * e.1 + e.2, elem w e.2 (vecA s w e.1)))
    .next (finish (elementwise s (lat .vscan s) (fun L k => scanAt s xs (n * L + k)))))

/-! ### Quad derivatives -/

/-- An element of a pair is valid (R136): lanes `L` and `M`. -/
def pairValid (s : State) (ps : List LaneMask) (k L M : Nat) : Bool :=
  s.mask.getLsbD L && s.mask.getLsbD M && picks s.ir ps k L && picks s.ir ps k M &&
  laneId s L / 4 == laneId s M / 4 && laneId s L % 4 == L % 4 && laneId s M % 4 == M % 4

/-- The lower lane of a lane's pair at a distance of 1 or 2. -/
def pairLow (step L : Nat) : Nat := if L / step % 2 = 1 then L - step else L

/-- The difference of a pair of elements in a type, `v` the elements by lane and sub-element (R136): none for an invalid pair. -/
def quadDiff (s : State) (ps : List LaneMask) (t rm : Nat) (v : Nat → Nat → FVal) (step L k : Nat) : Option Nat :=
  let lo := pairLow step L
  if pairValid s ps k lo (lo + step) then
    some (roundF t rm false (firstNan [v (lo + step) k, v lo k] (addV rm (v (lo + step) k) (v lo k).negate)))
  else none

/-- VDDX and VDDY (R136): `step` is 1 or 2, the distance of the lanes of a pair. -/
def derivative (i : Instr) (step : Nat) (s : State) : Out :=
  guarded i s (fun s =>
    let w := tw s
    let ps := readPreds s w
    let diff (L k : Nat) : Option Nat := quadDiff s ps (ty s) (rmOf s) (fun M j => decodeF (ty s) (elem w j (vecA s w M))) step L k
    let lanes := activeLanes s w
    let bad := lanes.filter (fun L => (upTo (64 / w)).any (fun k => picks s.ir ps k L && (diff L k).isNone))
    let u := elementwise s (lat i s) (fun L k => (diff L k).getD 0)
    .next (finish (writeP u (lat i s) (s.ir.imm.toNat % 32) (maskOf lanes) (maskOf bad))))

/-- VDDX, R136. -/
def execVddx (s : State) : Out := derivative .vddx 1 s
/-- VDDY, R136. -/
def execVddy (s : State) : Out := derivative .vddy 2 s

/-! ### Bit streams -/

/-- The stream of a register: 2,048 bits in lane order (R137). -/
def streamOf (s : State) (r : Nat) : Nat := (upTo 32).foldl (fun x L => x + (readV s 64 r L).toNat * 2 ^ (64 * L)) 0

/-- A stream with `n` bits from `o` replaced, those from 2,048 up dropped. -/
def streamPut (x o n v : Nat) : Nat := (x - bits x o n * 2 ^ o + v % 2 ^ n * 2 ^ o) % 2 ^ 2048

/-- Write the bits of a mask of a stream into v[D], in the lanes of the fragment. -/
def writeStream (s : State) (lt mask x : Nat) : State :=
  (lanesOf s.mask).foldl (fun u L => writeV u lt s.ir.d.toNat L (word (bits mask (64 * L) 64)) (word (bits x (64 * L) 64))) s

/-- Insert a value of `n L` bits at `o L` for each lane in turn: the stream and the bits written. -/
def streamInsert (s : State) (lanes : List Nat) (o n : Nat → Nat) : Nat × Nat :=
  lanes.foldl (fun (acc : Nat × Nat) L =>
    (streamPut acc.1 (o L) (n L) (vecA s 64 L).toNat, streamPut acc.2 (o L) (n L) (2 ^ n L - 1))) (streamOf s s.ir.d.toNat, 0)

/-- VBSI, R137; ARITH 4 for n = 0. -/
def execVbsi (s : State) : Out :=
  guarded .vbsi s (fun s =>
    let n := s.ir.imm.toNat % 128
    if n = 0 then arith s 4
    else
      let (x, m) := streamInsert s (activeLanes s 64) (fun L => (vecB s 64 L).toNat % 2048) (fun _ => n)
      .next (finish (writeStream s (lat .vbsi s) m x)))

/-- VBSR, R137. -/
def execVbsr (s : State) : Out :=
  guarded .vbsr s (fun s =>
    let n := s.ir.imm.toNat % 128
    let x := streamOf s s.ir.a.toNat
    .next (finish (writeLanes s (lat .vbsr s) 64 (fun L => word (bits x ((vecB s 64 L).toNat % 2048) n)))))

/-- The sum of the lengths of the active lanes below a lane (R137). -/
def lengthsBelow (len : Nat → Nat) (lanes : List Nat) (L : Nat) : Nat := ((lanes.filter (· < L)).map len).foldl (· + ·) 0

/-- VBSP, R137. DESIGN CHOICE: a lane's offset is used whole, so that bits at 2,048 and beyond are dropped (log 137). -/
def execVbsp (s : State) : Out :=
  guarded .vbsp s (fun s =>
    let lanes := activeLanes s 64
    let len (L : Nat) : Nat := (vecB s 64 L).toNat % 128
    let total := lengthsBelow len lanes 32
    let (x, m) := streamInsert s lanes (lengthsBelow len lanes) (fun L => min (len L) 64)
    let rest := 2 ^ 2048 - 2 ^ min total 2048
    .next (finish (writeStream s (lat .vbsp s) (m ||| rest) (x % 2 ^ min total 2048))))

/-- VBSC, R137. -/
def execVbsc (s : State) : Out :=
  guarded .vbsc s (fun s =>
    let lanes := activeLanes s 64
    .next (finish (writeLanes s (lat .vbsc s) 64 (fun L => word (lengthsBelow (fun M => (vecA s 64 M).toNat % 128) lanes L)))))

end Sys2Proof.Machine
end

