-- ==== Sys2Proof/Machine/Collectives.lean ====
section
/-! DEFINITION. Collectives (R218 to R223): queueing on a die's collective engine, matching over the members, and the leader's work. -/

namespace Sys2Proof.Machine

/-- The dies of a group mask. -/
def membersOf (mask : Nat) : List Nat := (upTo 12).filter (fun d => bitAt mask d)

/-- ARED and AGATH, R220: the group record is read, and the fragment goes on when its command is queued. DESIGN CHOICE: the queue of a die's collective
engine has no limit (log 140). -/
def collectiveOp (i : Instr) (gather : Bool) (s : State) : Out :=
  guarded i s (fun s =>
    withRecord i s ((readC s s.ir.a.toNat).off : Nat) 256 (fun s bs tags =>
      let mask := field bs 0 8
      if 2 ^ 12 ≤ mask || !bitAt mask s.curDie then arith s 6
      else
        let buf (m : Nat) : Cap := if bitAt mask m then capOf ((bs.drop (0x40 + 16 * m)).take 16) (tags.getD (4 + m) false) else {}
        let d := s.die s.curDie
        let occ := tget 0 d.matchCounts mask
        let x : Collective := {
          thread := s.cur, crew := s.curCk, gather := gather, mask := mask, occurrence := occ, bufs := (upTo 12).map buf,
          count := (operandB s).toNat, f := s.ir, pts := s.curW.pts, creg := s.ir.a.toNat, doneAt := engineDelay s 16 }
        .next (finish (s.putDie s.curDie { d with
          collectives := d.collectives ++ [x], matchCounts := tput d.matchCounts mask (occ + 1) }))))

/-- ARED, R221. -/
def execAred (s : State) : Out := collectiveOp .ared false s
/-- AGATH, R222. -/
def execAgath (s : State) : Out := collectiveOp .agath true s

/-- The command at the head of a die's collective engine. -/
def headCollective (s : State) (d : Nat) : Option Collective := (s.die d).collectives.head?

/-- ACQ, ASCOPE, REL, RSCOPE, SEN and SEM (R219). -/
def Collective.acq (x : Collective) : Bool := x.f.imm.getLsbD 12
/-- ASCOPE. -/
def Collective.ascope (x : Collective) : Nat := bits x.f.imm.toNat 9 3
/-- REL. -/
def Collective.rel (x : Collective) : Bool := x.f.imm.getLsbD 16
/-- RSCOPE. -/
def Collective.rscope (x : Collective) : Nat := bits x.f.imm.toNat 13 3
/-- SEN. -/
def Collective.sen (x : Collective) : Bool := x.f.imm.getLsbD 8
/-- SEM. -/
def Collective.sem (x : Collective) : Nat := bits x.f.imm.toNat 2 6
/-- ORDR. -/
def Collective.ordr (x : Collective) : Nat := bits x.f.imm.toNat 0 2

/-- The matched commands of a group, by ascending die: every member's head is the same occurrence of the mask, with the
acquire of each performed (R183, R220). -/
def matched (s : State) (mask : Nat) : Option (List Collective) :=
  let xs := (membersOf mask).map (headCollective s)
  if xs.all (fun x => match x with
      | some y => y.mask == mask && some y.occurrence == ((xs.headD none).map (·.occurrence)) && (!y.acq || performedAll s (waveOf y.thread))
      | none => false)
  then some (xs.filterMap id) else none

/-- A group of a die's command names a die that its packets do not reach: fenced, or of another partition (R351, R406). -/
def foreignGroup (s : State) (die mask : Nat) : Bool :=
  (membersOf mask).any (fun d => (s.die d).fenced || (s.die d).partition != (s.die die).partition)

/-- Two matched commands agree (R220). -/
def agrees (x y : Collective) : Bool :=
  x.gather == y.gather && x.f.t == y.f.t && x.f.mod == y.f.mod && x.ordr == y.ordr && x.f.rm == y.f.rm && x.count == y.count

/-- Take the matched commands off their engines. -/
def popCollectives (s : State) (mask : Nat) : State :=
  (membersOf mask).foldl (fun s d => s.modDie d (fun x => { x with collectives := x.collectives.tail })) s

/-- A collective stops: every member receives ENGINEFAULT 9 (R377). -/
def failCollective (s : State) (mask : Nat) (faddr : Nat) : State :=
  let xs := (membersOf mask).filterMap (headCollective s)
  xs.foldl (fun s x => postAsync s (waveOf x.thread) 0x42 9 (word faddr)) (popCollectives s mask)

/-- Replace the leader's command. -/
def putLeader (s : State) (leader : Nat) (x : Collective) : State :=
  s.modDie leader (fun d => { d with collectives := x :: d.collectives.tail })

/-- The bytes of an element. -/
def Collective.size (x : Collective) : Nat := widthOf x.f.t.toNat / 8

/-- Elements of the result: B, or all blocks of a gather. -/
def Collective.total (x : Collective) : Nat := if x.gather then (membersOf x.mask).length * x.count else x.count

/-- The members whose buffers give element `j`: all of them, or the one of the block's rank (R222). -/
def Collective.givers (x : Collective) (j : Nat) : List Nat :=
  if x.gather then [(membersOf x.mask).getD (j / x.count) 0] else membersOf x.mask

/-- The offset of element `j` in a buffer. -/
def Collective.offset (x : Collective) (m j : Nat) : Int := ((x.bufs.getD m {}).off + j * x.size : Nat)

/-- The leader reads the contributions to element `j`. -/
def readGivers (s : State) (x : Collective) (j : Nat) : List Nat → Nat → Except EngineStop (State × List Nat × Nat)
  | [], p => .ok (s, [], p)
  | m :: t, p =>
    match engineRead s (ctxOf s (waveOf x.thread)) (x.bufs.getD m {}) (x.offset m j) x.size p { engineR with field := 3 } with
    | .error st => .error (st, faddrOf x.creg 0 (x.offset m j))
    | .ok (s, bs, q) =>
      match readGivers s x j t q with
      | .error st => .error st
      | .ok (s, vs, q) => .ok (s, numOfBytes bs :: vs, q)

/-- Every member's buffer has its result (R220): increments, with the release where REL = 1. -/
def finishCollective (s : State) (mask pts : Nat) : State :=
  let xs := (membersOf mask).filterMap (headCollective s)
  xs.foldl (fun s x =>
    let s := noteWrites s x.crew pts
    let s := if x.rel then engineRelease s x.crew x.rscope pts else s
    if x.sen then semRaise s x.crew x.sem 1 else s) (popCollectives s mask)

/-- A stop of the leader's access. -/
def stopCollective (s : State) (leader : Nat) (x : Collective) (st : EngineStop) : Out :=
  match engineWait s (waveOf x.thread) x.wait st.1 st.2 with
  | .error f => .fault f
  | .ok (s, w) =>
    match w.refused with
    | some (code, d) => .next (failCollective (logRefusal s (waveOf x.thread) code d st.2) x.mask 2)
    | none => .next (putLeader s leader { x with wait := w, doneAt := engineDelay s 16 })

/-- A step of the leader on its element: read and reduce, or write the result to the next member. -/
def leaderStep (s : State) (leader : Nat) (x : Collective) : Out :=
  if x.total ≤ x.next then .next (finishCollective s x.mask x.pts)
  else
    match x.value with
    | none =>
      match readGivers s x x.next (x.givers x.next) x.pts with
      | .error st => stopCollective s leader x st
      | .ok (s, vs, q) =>
        let v := if x.gather then vs.headD 0 else reduce x.f.t.toNat x.f.mod.toNat x.ordr x.f.rm.toNat false s.fresh vs
        .next (putLeader s leader { x with value := some v, wrote := 0, pts := q, wait := x.wait.done, doneAt := s.clock + 1 })
    | some v =>
      match (membersOf x.mask)[x.wrote]? with
      | none => .next (putLeader s leader { x with next := x.next + 1, value := none, wrote := 0, doneAt := s.clock + 1 })
      | some m =>
        match engineWrite s (ctxOf s (waveOf x.thread)) (x.bufs.getD m {}) (x.offset m x.next) (bytesOf x.size v) x.pts
            { engineW with field := 3 } with
        | .error st => stopCollective s leader x (st, faddrOf x.creg 0 (x.offset m x.next))
        | .ok (s, q) => .next (putLeader s leader { x with wrote := x.wrote + 1, pts := q, wait := x.wait.done, doneAt := s.clock + 1 })

/-- The command at the head of a die's engine cannot be delivered to a member: it stops there with ENGINEFAULT 9 (R406). -/
def stopForeign (s : State) (die : Nat) : State :=
  match headCollective s die with
  | none => s
  | some x => postAsync (s.modDie die (fun d => { d with collectives := d.collectives.tail })) (waveOf x.thread) 0x42 9 0

/-- COLLECTIVE, R220 to R222, R377: a step of the matched command of a group mask, or the end of a die's command whose group it cannot reach. Its leader, the lowest member, compares the members' commands
before it reads; then it reads, reduces and writes element by element. -/
def execCollective (s : State) : Out :=
  let mask := s.ev.subject
  if s.ev.arg1 != 0 then .next (stopForeign s (s.ev.arg1 - 1)) else
  match matched s mask with
  | none => .next s
  | some xs =>
    match xs with
    | [] => .next s
    | x :: rest =>
      let leader := (membersOf mask).headD 0
      if x.wait.refused.isSome then
        let (code, d) := x.wait.refused.getD (0, 0)
        .next (failCollective (logRefusal s (waveOf x.thread) code d x.wait.faddr) mask (if code = 0x51 then 0 else 2))
      else if !rest.all (agrees x) then .next (failCollective s mask 1)
      else
        let pts := xs.foldl (fun p y => max p (if y.acq then acquiredPts s (waveOf y.thread) y.ascope y.pts else y.pts)) x.pts
        leaderStep s leader { x with pts := pts, started := true }

end Sys2Proof.Machine
end

