-- ==== Sys2Proof/Machine/Fabric.lean ====
section
/-! DEFINITION. The fabric between dies and the home directories: the requests of R339 and R340 at the home, the messages at a remote-data
cache (R343), eviction, routes and resends (R399 to R402). A home serves the requests for a line one at a time (R338). -/

namespace Sys2Proof.Machine

/-! ### Taking packets -/

/-- The receiver takes a packet only from the current incarnation of a die of its own partition (R331, R351, R403). -/
def acceptable (s : State) (p : Packet) : Bool :=
  let x := s.die p.src
  let y := s.die p.dst
  p.incarnation == x.incarnation && !x.fenced && !y.fenced && x.partition == y.partition

/-- The next packet of its pair has arrived (R337). -/
def deliverable (s : State) (p : Packet) : Bool := p.here && p.seq == tget 0 (s.die p.dst).recvSeq p.src

/-- Take a packet off the fabric; one that the receiver drops has no effect. -/
def consume (s : State) (id : Nat) (p : Packet) (f : State → Packet → State) : State :=
  let s := { s with packets := terase s.packets id }
  let s := s.modDie p.dst (fun d => { d with recvSeq := tput d.recvSeq p.src (p.seq + 1) })
  if acceptable s p then f s p else s

/-! ### Answers -/

/-- Put a line that has come into the remote-data cache: it takes a way of its set where an access that asked for it may allocate it (R151, R335). -/
def putLine (s : State) (die line : Nat) (r : RdcLine) : State :=
  let r := { r with alloc := r.alloc || (s.die die).keeps.contains line }
  let s := if r.alloc then makeRoom s die line else s
  s.modDie die (fun d => { d with
    rdc := tput d.rdc line { r with used := s.clock }, ghosts := terase d.ghosts line, keeps := lerase line d.keeps })

/-- An event for the rest of this cycle. -/
def State.due (s : State) (i : Instr) (subject : Nat) (arg1 : Nat := 0) : State :=
  { s with agenda := s.agenda ++ [(i, { subject := subject, arg1 := arg1 })] }

/-- The engine commands of a crew that wait for a line go on in this cycle. -/
def wakeCrewLine (s : State) (ck line : Nat) : State :=
  let c := s.crew ck
  let waits (w : EngineWait) : Bool := w.line == some line
  let s := s.modCrew ck (fun c => { c with
    channels := c.channels.map (fun q => (q.1, q.2.map (fun m => if waits m.wait then { m with doneAt := min m.doneAt s.clock } else m)))
    subs := c.subs.map (fun x => (x.1, if waits x.2.wait then { x.2 with readyAt := min x.2.readyAt s.clock } else x.2))
    commands := c.commands.map (fun m => (m.1, if waits m.2.wait then { m.2 with doneAt := min m.2.doneAt s.clock } else m.2)) })
  let s := c.channels.foldl (fun s q => if q.2.head?.any (fun m => waits m.wait) then s.due .copyCommand ck q.1 else s) s
  let s := c.subs.foldl (fun s x => if waits x.2.wait then s.due .subscriptionTile ck x.1 else s) s
  c.commands.foldl (fun s m => if waits m.2.wait then s.due .matrixCommand ck m.1 else s) s

/-- The engine commands of a die that wait for a line go on in this cycle (R343); the threads that do are looked at in it anyway. -/
def wakeLine (s : State) (die line : Nat) : State :=
  let s := ((s.crews.filter (fun e => e.2.die == die)).map (·.1)).foldl (fun s ck => wakeCrewLine s ck line) s
  (s.die die).collectives.foldl (fun s x => if x.wait.line = some line then s.due .collective x.mask else s)
    (s.modDie die (fun d => { d with collectives := d.collectives.map (fun x =>
      if x.wait.line = some line then { x with doneAt := min x.doneAt s.clock } else x) }))

/-- A thread or an engine command of a die waits for a line. -/
def lineAwaited (s : State) (die line : Nat) : Bool :=
  s.threads.any (fun e => e.2.waitLine == some line && (s.crew (crewOf (waveOf e.1))).die == die) ||
    s.crews.any (fun e => e.2.die == die && (e.2.channels.any (fun q => q.2.any (fun m => m.wait.line == some line)) ||
      e.2.subs.any (fun x => x.2.wait.line == some line) || e.2.commands.any (fun m => m.2.wait.line == some line))) ||
    (s.die die).collectives.any (fun x => x.wait.line == some line)

/-- Lines that were fetched for NOCACHE accesses alone leave the remote-data caches when they have served (R335); until then an access that needs several
finds them together. One that nothing uses, or that only fetches use, leaves after 30,000 cycles. -/
def dropUnallocated (s : State) : State :=
  s.dies.foldl (fun s d => (d.2.rdc.filter (fun e => !e.2.alloc && (e.2.served || decide (e.2.used + 30000 ≤ s.clock)) && !lineAwaited s d.1 e.1 && !requestUnderway s d.1 e.1)).foldl
    (fun s e => evictLine s d.1 e.1 e.2) s) s

/-- An answer of a home's translation invalidation has come (R336): STAT is written when none is awaited any more. -/
def peerAcked (s : State) (die from' : Nat) : State :=
  s.modDie die (fun d => { d with mgmtWait := lerase from' d.mgmtWait })

/-- An importer drops what it has found through some exports of a die, and says so (R336). -/
def dropPeers (s : State) (p : Packet) : State :=
  let s := s.modDie p.dst (fun d => { d with peers := d.peers.filter (fun x => !(x.exporter == p.src && p.op.contains (x.id % 4096))) })
  message s .peerAck p.dst p.src 0

/-- Packets that only bring a value, and that no row of the opcode table acts on: a shared copy, unless it was invalidated on its way; the old value
of an atomic for the agent that awaits it; the invalidation of peer translations and its acknowledgement (R336). -/
def takeAnswer (s : State) (p : Packet) : State :=
  let k := p.op.getD 0 0
  match p.kind with
  | .data =>
    if p.state = 9 ∨ thas (s.die p.dst).rdc p.line then s
    else wakeLine (putLine s p.dst p.line
      { state := .s, wts := p.wts, mrts := tget 0 (s.die p.dst).ghosts p.line, bytes := p.bytes, poison := p.poison }) p.dst p.line
  | .atAnswer =>
    if p.agent = frontAgent then
      s.modDie p.dst (fun d => if tfind? d.answers k = some 0 then { d with answers := tput d.answers k (p.op.getD 1 0) } else d)
    else if thas s.threads p.agent && tfind? (s.thread p.agent).answers k == some 0 then
      s.modThread p.agent (fun t => { t with answers := tput t.answers k (p.op.getD 1 0) })
    else s
  | .peerInval => dropPeers s p
  | .peerAck => peerAcked s p.dst p.src
  | _ => s

/-- No row of the opcode table acts on a packet of the kind. -/
def answerOnly (k : PacketKind) : Bool := k == .data || k == .atAnswer || k == .peerInval || k == .peerAck

/-- A packet that its receiver has taken without answering it yet is next of its pair no more (R337). -/
def passPacket (s : State) (id : Nat) (p : Packet) : State :=
  let s := { s with packets := tput s.packets id { p with here := false, taken := true } }
  s.modDie p.dst (fun d => { d with recvSeq := tput d.recvSeq p.src (p.seq + 1) })

/-- Take the answers that are next of a pair. -/
def drain (src dst : Nat) : Nat → State → State
  | 0, s => s
  | n + 1, s =>
    match s.packets.find? (fun e => e.2.src == src && e.2.dst == dst && answerOnly e.2.kind && deliverable s e.2) with
    | none => s
    | some e => drain src dst n (consume s e.1 e.2 takeAnswer)

/-- Take a packet of a kind, when it is next of its pair, and the answers that follow it. -/
def takePacket (s : State) (id : Nat) (kind : PacketKind) (f : State → Packet → State) : State :=
  match tfind? s.packets id with
  | none => s
  | some p => if p.kind != kind || !deliverable s p then s else drain p.src p.dst s.packets.length (consume s id p f)

/-! ### The home (R338 to R340) -/

/-- A packet with the home's data of a line. -/
def homeData (s : State) (kind : PacketKind) (home die line wts mrts : Nat) (hasData : Bool) : Packet :=
  { kind := kind, src := home, dst := die, line := line, wts := wts, mrts := mrts, hasData := hasData
    bytes := if hasData then s.bytes (64 * line) 64 else [], poison := s.poison.contains line }

/-- The home sends a shared copy with its wts and a lease, and lists the die (R339). -/
def shareHome (s : State) (home line die : Nat) : State :=
  let (w, m) := s.stamps line
  let e := s.dir line
  let s := (s.stamp line w (max m (w + 63))).putDir line { e with state := .s, sharers := linsert die e.sharers }
  sendPacket s (homeData s .data home die line w (w + 63) true)

/-- The home grants a line exclusive: wts and mrts above every time that anyone has granted (R343), which its mrts bounds by then; the data unless the die
holds it. -/
def grantLine (s : State) (home line die : Nat) (upgrade : Bool) : State :=
  let e := s.dir line
  let (w, m) := s.stamps line
  let g := 1 + max w m
  let held := upgrade && e.sharers.contains die
  let s := (s.stamp line g g).putDir line { e with state := .x, sharers := [die], owner := die }
  sendPacket s (homeData s .grant home die line g g (!held))

/-- The leaf that an atomic came through still leads to its place and is not locked (R187). -/
def leafLeads (s : State) (leaf key : Nat) : Bool :=
  if leaf = 0 then true
  else
    let v := s.num (leaf - 1) 8
    let a := key % 2 ^ 52
    bitAt v 63 && bitAt v 62 && !bitAt v 59 &&
      (if bitAt v 52 then bits v 21 31 == a / 2 ^ 21 else bits v 16 36 == a / 2 ^ 16)

/-- An atomic of another die at its home (R340): a redirect where the page has moved or is locked (R187), poison, or the old value and the
time, as `remoteAnswer` reads them. -/
def performRemote (s : State) (home line : Nat) (r : HomeRequest) : State × Nat :=
  let x (k : Nat) : Nat := r.op.getD k 0
  if !leafLeads s (x 9) (x 1) then (s, 2)
  else if x 3 = 17 then (s, if s.poison.contains line then 1 else 3)
  else
    match atomicAt s home (x 8) { key := x 1 } (x 2) (fun old => atomicNew (x 3) (x 4) (x 5) old (x 6) (x 7)) with
    | .error _ => (s, 1)
    | .ok (s, old, ts) => (s, 3 + old + ts * 2 ^ 64)

/-- The home sends the old value of an atomic back (R340). -/
def answerAtomic (s : State) (home line : Nat) (r : HomeRequest) : State :=
  let e := s.dir line
  let s := s.putDir line { e with state := .i, sharers := [] }
  let (s, v) := performRemote s home line r
  sendPacket s { kind := .atAnswer, src := home, dst := r.die, line := line, agent := r.agent, op := [r.op.getD 0 0, v] }

/-- The last answer to the request in service has arrived: the home's mrts covers every acknowledged rts (R179); `how` is what a forward did: 3 the supplier keeps the line dirty, 4 the owner
dropped it to clean (R339). -/
def complete (s : State) (home line how : Nat) : State :=
  let e := s.dir line
  match e.busy with
  | none => s
  | some r =>
    let (w, m) := s.stamps line
    let s := s.stamp line w (max m e.ackRts)
    let e := { e with busy := none, awaiting := [], invalidating := false, ackRts := 0 }
    let s := s.putDir line e
    match r.kind with
    | 0 =>
      if how = 3 then s.putDir line { e with state := .o, sharers := linsert r.die (linsert e.owner e.sharers) }
      else if how = 4 then s.putDir line { e with state := .s, sharers := linsert r.die (linsert e.owner e.sharers) }
      else shareHome s home line r.die
    | 1 => grantLine s home line r.die false
    | 2 => grantLine s home line r.die true
    | 3 => answerAtomic s home line r
    | 4 => s.putDir line { e with state := .i, sharers := [] }
    | 6 =>
      if how = 3 then s.putDir line { e with state := .o, sharers := linsert e.owner e.sharers }
      else if how = 4 then s.putDir line { e with state := .s, sharers := linsert e.owner e.sharers }
      else s
    | _ =>
      let s := s.putDir line { e with state := .i, sharers := [], gotData := false }
      if e.gotData then s else { s with poison := linsert line s.poison }

/-- The home asks every die of the partition for a line whose entry is damaged (R394). -/
def startRecovery (s : State) (home line : Nat) (r : HomeRequest) : State :=
  let ds := (upTo 12).filter (fun d => d != home && !(s.die d).fenced && (s.die d).partition == (s.die home).partition)
  let s := ds.foldl (fun s d => message s .recall home d line) s
  s.putDir line { s.dir line with busy := some r, awaiting := ds, ackRts := 0, since := s.clock, gotData := false }

/-- The home starts a request for a line that is not busy, and finishes it when it needs no answer (R339). -/
def serve (s : State) (home line : Nat) (r : HomeRequest) : State :=
  let e := s.dir line
  if r.kind = 0 then
    if (e.state = .o ∨ e.state = .x) ∧ e.owner ≠ r.die then
      let s := sendPacket s { kind := .forward, src := home, dst := e.owner, line := line, op := [r.die] }
      s.putDir line { e with busy := some r, awaiting := [e.owner], ackRts := 0, since := s.clock }
    else shareHome s home line r.die
  else
    let s := if r.kind = 5 then startRecovery s home line r else startRecall s home line r
    if (s.dir line).awaiting.isEmpty then complete s home line 0 else s

/-- Serve the waiting requests of a line while it is not busy; after an access of the home die itself the rest waits for the next cycle. -/
def settle (home line : Nat) : Nat → State → State
  | 0, s => s
  | n + 1, s =>
    let e := s.dir line
    if e.busy.isSome then s
    else
      match e.waiting with
      | [] => s
      | r :: t =>
        let s := serve (s.putDir line { e with waiting := t }) home line r
        if r.kind = 4 then s else settle home line n s

/-- The home goes on with a line after an answer: an access of the home die that was waited for comes before the next request. -/
def goOn (s : State) (home line : Nat) (last : Option HomeRequest) : State :=
  match last with
  | some r => if r.kind = 4 then s else settle home line ((s.dir line).waiting.length + 1) s
  | none => settle home line ((s.dir line).waiting.length + 1) s

/-- A request arrives at the home: it waits behind a busy line and behind those that wait (R338). -/
def arrive (s : State) (p : Packet) (kind : Nat) : State :=
  let r : HomeRequest := { kind := kind, die := p.src, op := p.op, agent := p.agent }
  let e := s.dir p.line
  if e.busy.isSome || !e.waiting.isEmpty then s.putDir p.line { e with waiting := e.waiting ++ [r] }
  else serve s p.dst p.line r

/-- RD, R339. -/
def execRd (s : State) : Out := .next (takePacket s s.ev.subject .rd (fun s p => arrive s p 0))
/-- RDX, R339. -/
def execRdx (s : State) : Out := .next (takePacket s s.ev.subject .rdx (fun s p => arrive s p 1))
/-- UPG, R339. -/
def execUpg (s : State) : Out := .next (takePacket s s.ev.subject .upg (fun s p => arrive s p 2))
/-- AT, R340. -/
def execAt (s : State) : Out := .next (takePacket s s.ev.subject .at' (fun s p => arrive s p 3))

/-- The home's memory-side cache takes data, poison, wts and mrts from a die: granules that the die's stores touched lose their tags (R142, R339,
R394); DRAM keeps what it holds until the cache writes the line back (R344). -/
def takeData (s : State) (p : Packet) : State :=
  let (w, m) := s.stamps p.line
  let s := s.stamp p.line (max w p.wts) (max m p.mrts)
  if !p.hasData then s
  else
    let s := mscFill { keepDram s p.line with owners := terase s.owners p.line } p.dst p.line 15 true
    { s with
      mem := memPut s.mem (64 * p.line) p.bytes
      tags := s.tags.filter (fun g => !(p.touched.map (fun k => 4 * p.line + k)).contains g)
      poison := if p.poison then linsert p.line s.poison else lerase p.line s.poison }

/-- A die answers for a line: the last answer finishes the request in service (R338). -/
def answered (s : State) (home line die how rts : Nat) : State :=
  let e := s.dir line
  if !e.awaiting.contains die then s
  else
    let rest := lerase die e.awaiting
    let s := s.putDir line { e with awaiting := rest, ackRts := max e.ackRts rts }
    if rest.isEmpty then goOn (complete s home line how) home line e.busy else s

/-- WB, R339: the data of an owner or supplier, or the report of a clean line's eviction; while the home waits for that die, its answer, and the "no copy"
that follows it is discarded. -/
def execWb (s : State) : Out :=
  .next (takePacket s s.ev.subject .wb (fun s p =>
    let s := takeData s p
    let e := s.dir p.line
    let left := lerase p.src e.sharers
    let gone := (e.state == .o || e.state == .x) && e.owner == p.src
    let s := s.putDir p.line { e with sharers := left, gotData := e.gotData || p.hasData
                                      stale := if e.awaiting.contains p.src then linsert p.src e.stale else e.stale
                                      state := if gone then (if left.isEmpty then .i else .s) else e.state }
    answered s p.dst p.line p.src 0 p.mrts))

/-- ACK, R339, R343: an invalidation's acknowledgement or the answer to a recall or forward; the "no copy" of a die whose write-back was its answer is
discarded, and so is an answer that is not awaited. -/
def execAck (s : State) : Out :=
  .next (takePacket s s.ev.subject .ack (fun s p =>
    let e := s.dir p.line
    if p.state = 0 ∧ e.stale.contains p.src then s.putDir p.line { e with stale := lerase p.src e.stale }
    else if !e.awaiting.contains p.src then s
    else
      let s := if p.state ≤ 1 then s else takeData s p
      let s := s.putDir p.line { e with gotData := e.gotData || p.hasData }
      answered s p.dst p.line p.src p.state p.mrts))

/-! ### The remote-data cache (R151, R338, R343) -/

/-- The highest rts that a die has granted for a line. -/
def grantedRts (d : Die) (line : Nat) : Nat := max (tget 0 d.ghosts line) (match tfind? d.rdc line with | some r => r.mrts | none => 0)

/-- A die answers its home about a line: 0 no copy, 1 invalidated, 2 recalled with the data, 3 and 4 forwarded. -/
def reply (s : State) (p : Packet) (state : Nat) (data : Option RdcLine) (rts : Nat) : State :=
  let q : Packet := { kind := .ack, src := p.dst, dst := p.src, line := p.line, state := state, mrts := rts }
  sendPacket s (match data with
    | none => q
    | some r => { q with
      wts := r.wts, hasData := state == 2, bytes := if state = 2 then r.bytes else [], poison := r.poison
      touched := r.touched, dirty := state == 2 && (r.state == .m || r.state == .o) })

/-- Drop a line, and a copy on its way from a supplier (R343). -/
def dropLine (s : State) (die line : Nat) : State :=
  let s := { s with packets := s.packets.map (fun (e : Nat × Packet) =>
      if e.2.kind = PacketKind.data ∧ e.2.dst = die ∧ e.2.line = line then (e.1, { e.2 with state := 9 }) else e) }
  s.modDie die (fun d => { d with rdc := terase d.rdc line, ghosts := terase d.ghosts line })

/-- INV, R343: the copy is dropped and acknowledged with its highest rts; without a copy the answer is "no copy". -/
def execInv (s : State) : Out :=
  .next (takePacket s s.ev.subject .inv (fun s p =>
    let d := s.die p.dst
    let rts := grantedRts d p.line
    reply (dropLine s p.dst p.line) p (if thas d.rdc p.line then 1 else 0) none rts))

/-- A line has been granted in this cycle: its held store is performed before a recall or an invalidation that follows the grant is taken (R343). -/
def granting (s : State) (id : Nat) : Bool :=
  match tfind? s.packets id with
  | none => false
  | some p => match tfind? (s.die p.dst).rdc p.line with | some r => r.grantedAt == some s.clock | none => false

/-- Take a recall or a forward: at once; where its line has been granted in this cycle, it leaves its pair, and is answered after the instructions of the
cycle (R343). -/
def takeAfterGrant (s : State) (i : Instr) (kind : PacketKind) (f : State → Packet → State) : State :=
  let id := s.ev.subject
  match tfind? s.packets id with
  | none => s
  | some p =>
    if p.taken then
      let s := { s with packets := terase s.packets id }
      if acceptable s p then f s p else s
    else if p.kind == kind && deliverable s p && granting s id then
      let s := drain p.src p.dst s.packets.length (passPacket s id p)
      { s with after := s.after ++ [(i, { subject := id })] }
    else takePacket s id kind f

/-- RECALL, R343: the line is answered with its data and dropped, or "no copy". -/
def execRecall (s : State) : Out :=
  .next (takeAfterGrant s .recall .recall (fun s p =>
    let d := s.die p.dst
    let rts := grantedRts d p.line
    match tfind? d.rdc p.line with
    | some r => reply (dropLine s p.dst p.line) p 2 (some r) rts
    | none => reply (dropLine s p.dst p.line) p 0 none rts))

/-- FORWARD, R339: a supplier sends the data to the die that asked; an M owner keeps the line dirty, an E owner drops it to clean. -/
def execForward (s : State) : Out :=
  .next (takeAfterGrant s .forward .forward (fun s p =>
    let d := s.die p.dst
    match tfind? d.rdc p.line with
    | none => reply s p 0 none (grantedRts d p.line)
    | some r =>
      let dirty := r.state == .m || r.state == .o
      let s := s.modDie p.dst (fun d => { d with rdc := tput d.rdc p.line { r with state := if dirty then .o else .s } })
      let s := sendPacket s {
        kind := .data, src := p.dst, dst := p.op.getD 0 0, line := p.line, wts := r.wts, hasData := true, bytes := r.bytes, poison := r.poison }
      reply s p (if dirty then 3 else 4) (some r) r.mrts))

/-- EXCLUSIVE_GRANT, R343: the line is owned, above every time that this cache has granted; the held store is performed in this cycle, as its
fragment or engine command goes on. A supplier's own dirty data stays dirty. -/
def execExclusiveGrant (s : State) : Out :=
  .next (takePacket s s.ev.subject .grant (fun s p =>
    let d := s.die p.dst
    let m := max p.mrts (grantedRts d p.line)
    let fresh : RdcLine := { state := .e, wts := p.wts, mrts := m, bytes := p.bytes, poison := p.poison, grantedAt := some s.clock }
    let r := match tfind? d.rdc p.line with
      | some r =>
        if p.hasData then fresh else { r with state := if r.state = .s then .e else .m, wts := p.wts, mrts := m, grantedAt := some s.clock }
      | none => fresh
    wakeLine (putLine s p.dst p.line r) p.dst p.line))


/-! ### Routes, resends and lost packets (R399 to R402) -/

/-- A route of a pair is down. -/
def routeDown (s : State) (a b route : Nat) : Bool := (s.die a).linksDown.contains (2 * b + route)

/-- Packets whose time has come reach their destinations, or are lost on a route that is down; a packet that its receiver drops for its
partition is not acknowledged (R351, R400). -/
def landPackets (s : State) : State :=
  { s with packets := s.packets.map (fun e =>
      let p := e.2
      if p.here || p.lost || p.taken || s.clock < p.arriveAt then e
      else if routeDown s p.src p.dst p.route || (s.die p.src).partition != (s.die p.dst).partition then (e.1, { p with lost := true })
      else (e.1, { p with here := true })) }

/-- FLIT_RECEIVE, R399: between dies `subject` and `arg1` on route `arg2`. The ninth CRC failure in a row takes the link down. -/
def execFlitReceive (s : State) : Out :=
  let a := s.ev.subject
  let b := s.ev.arg1
  let k := s.ev.arg2 % 2
  let count (s : State) (n : Nat) : State := s.modDie a (fun d => { d with crcFails := sput 0 d.crcFails (2 * b + k) n })
  if 12 ≤ a ∨ 12 ≤ b ∨ a = b ∨ routeDown s a b k then .next s
  else
    match s.ev.flit with
    | .clean => .next (count s 0)
    | .corrected => .next ((count s 0).modDie a (fun d => { d with corrected := d.corrected + 1 }))
    | .crcFail =>
      let n := tget 0 (s.die a).crcFails (2 * b + k) + 1
      if n < 9 then .next (count s n)
      else
        let s := (count s 0).modDie a (fun d => { d with linksDown := linsert (2 * b + k) d.linksDown })
        let s := s.modDie b (fun d => { d with linksDown := linsert (2 * a + k) d.linksDown })
        .next (xdLog s 0x51 1 a 0xFFF (word b))

/-- The held access of a thread ends without effect, and its wave receives LINKLOST (R403). -/
def loseAccess (s : State) (t detail : Nat) : State :=
  let s := postAsync s (waveOf t) 0x51 detail 0
  match (s.thread t).hold with
  | none => s
  | some h =>
    if h.op = .instructionFetchFault then s.modThread t (fun x => { x with hold := none, waitLine := none })
    else
      let s := s.loseOpen t
      { finish (resumed { s with cur := t } t) with cur := s.cur, ir := s.ir, len := s.len }

/-- Every access of a die that waits for a line ends: waves receive LINKLOST, engine commands stop. -/
def loseLine (s : State) (die line detail : Nat) : State :=
  let ts := (s.threads.filter (fun e => e.2.waitLine == some line && (s.crew (crewOf (waveOf e.1))).die == die)).map (·.1)
  let f (w : EngineWait) : EngineWait := if w.line = some line then { w with refused := some (0x51, detail), line := none } else w
  let s := ts.foldl (fun s t => loseAccess s t detail) s
  { s with
    crews := s.crews.map (fun e => if e.2.die != die then e else (e.1, { e.2 with
      channels := e.2.channels.map (fun q => (q.1, q.2.map (fun m => { m with wait := f m.wait })))
      subs := e.2.subs.map (fun x => (x.1, { x.2 with wait := f x.2.wait }))
      commands := e.2.commands.map (fun m => (m.1, { m.2 with wait := f m.2.wait })) }))
    dies := s.dies.map (fun e => if e.1 != die then e else
      (e.1, { e.2 with collectives := e.2.collectives.map (fun x => { x with wait := f x.wait }) })) }

/-- The fate of a packet that went unacknowledged on both routes (R400). -/
def undeliverable (s : State) (p : Packet) : State :=
  let s := xdLog s 0x51 2 p.src 0xFFF 0
  match p.kind with
  | .rd => loseLine s p.src p.line p.dst
  | .rdx => loseLine s p.src p.line p.dst
  | .upg => loseLine s p.src p.line p.dst
  | .at' =>
    if p.agent = frontAgent then s.modDie p.src (fun d => { d with answers := terase d.answers (p.op.getD 0 0) })
    else loseAccess s p.agent p.dst
  | .data => loseLine s p.dst p.line p.src
  | .grant => loseLine s p.dst p.line p.src
  | .atAnswer =>
    if p.agent = frontAgent then s.modDie p.dst (fun d => { d with answers := tput d.answers (p.op.getD 0 0) 1 })
    else loseAccess s p.agent p.src
  | .peerInval => s
  | .peerAck => s
  | .wb =>
    let r : RdcLine := {
      state := if p.state = 0 then .m else if p.state = 1 then .o else .e, wts := p.wts, mrts := p.mrts, bytes := p.bytes
      poison := p.poison, used := s.clock, touched := p.touched }
    (s.modDie p.src (fun d => { d with rdc := tput d.rdc p.line r })).due .directoryUpdateReport p.line p.src
  | .inv => s
  | .recall => s
  | .forward => s
  | .ack => s

/-- A lost packet's time to be sent again (R400). -/
def resendDue (s : State) (p : Packet) : Bool := p.lost && decide (p.sentAt + 30000 ≤ s.clock)

/-- PACKET_RESEND_TIMEOUT, R400: once over the other route; after that the packet is undeliverable. -/
def execPacketResendTimeout (s : State) : Out :=
  let id := s.ev.subject
  match tfind? s.packets id with
  | none => .next s
  | some p =>
    if !resendDue s p then .next s
    else if p.tries = 0 then
      .next { s with packets := tput s.packets id { p with
        tries := 1, route := 1 - p.route, lost := false, sentAt := s.clock, arriveAt := s.clock + 1 + Config.latency s.fresh (2 * id + 1) % 29998 } }
    else .next (undeliverable { s with packets := terase s.packets id } p)

/-- DIRECTORY_UPDATE_REPORT, R401: the home of a line takes every die of the partition as a sharer. -/
def execDirectoryUpdateReport (s : State) : Out :=
  let line := s.ev.subject
  let home := dieOfKey (64 * line)
  let e := s.dir line
  let all := (upTo 12).filter (fun d => d != home && (s.die d).partition == (s.die home).partition && !(s.die d).fenced)
  .next (s.putDir line { e with sharers := all, state := if e.state = .i then .s else e.state })

/-- The die that a home has waited for 1,500,000 cycles (R402). -/
def silentDie (s : State) (line : Nat) : Option Nat :=
  let e := s.dir line
  if e.busy.isSome && decide (e.since + 1500000 ≤ s.clock) then e.awaiting.head? else none

/-- HOME_ANSWER_TIMEOUT, R402: the home asks XD to declare the silent die failed. -/
def execHomeAnswerTimeout (s : State) : Out :=
  match silentDie s s.ev.subject with
  | none => .next s
  | some d => .next (s.due .dieFence d)

end Sys2Proof.Machine
end

