-- ==== Sys2Proof/Machine/Matrix.lean ====
section
/-! DEFINITION. The matrix engine: formats and layouts (R154, R225, R231, R232), the kitty (R227), the acceptance of commands (R224, R229,
R246) and the instructions of class 0x6D as far as an agent issues them (R226 to R247). The work of accepted commands stands in
MatrixWork. -/

namespace Sys2Proof.Machine

/-! ### Formats and layouts -/

/-- K of a format (R225). -/
def formatK (t mod : Nat) : Nat :=
  match t, mod with
  | 8, _ | 9, _ => 32
  | 0xC, _ | 0xD, _ => 64
  | _, 2 => 64
  | _, _ => 128

/-- W, the words of a run in the buffer (R225). -/
def formatW (t mod : Nat) : Nat := if t = 0xE then (match mod with | 1 => 12 | 2 => 9 | _ => 8) else 8

/-- A format is MXF4. -/
def isMx (t mod : Nat) : Bool := t == 0xE && mod == 3

/-- The tile size in bytes; for MXF4 the elements alone (R225, R232). -/
def tileBytes (t mod : Nat) : Nat := 512 * formatW t mod

/-- A live reservation that commands may name. -/
def Crew.liveResv (c : Crew) (q : Nat) : Option Resv :=
  match tfind? c.resv q with
  | some r => if r.releasing then none else some r
  | none => none

/-- Tile `t` lies inside the reservation's area (R232, R363). -/
def Resv.holds (r : Resv) (t : Nat) : Bool :=
  let s := tileBytes r.t r.mod
  if isMx r.t r.mod then (t + 1) * s ≤ 256 * r.scl && 256 * (r.scl + t + 1) ≤ 256 * r.lines else (t + 1) * s ≤ 256 * r.lines

/-- Where tile `t` begins in the buffer (R232). -/
def Resv.tileBase (r : Resv) (t : Nat) : Nat := 256 * r.first + t * tileBytes r.t r.mod
/-- Where the scales of tile `t` begin in the buffer (R232). -/
def Resv.scaleBase (r : Resv) (t : Nat) : Nat := 256 * (r.first + r.scl) + 256 * t

/-- A byte of the operand buffer. -/
def Crew.bufByte (c : Crew) (a : Nat) : Byte := tget 0 c.opbuf (a % 2 ^ 16)
/-- A number in the operand buffer. -/
def Crew.bufNum (c : Crew) (a n : Nat) : Nat := numOfBytes ((upTo n).map (fun i => c.bufByte (a + i)))
/-- Write bytes to the operand buffer. -/
def Crew.bufPut (c : Crew) (a : Nat) (bs : List Byte) : Crew :=
  { c with opbuf := (upTo bs.length).foldl (fun m i => sput 0 m ((a + i) % 2 ^ 16) (bs.getD i 0)) c.opbuf }

/-- rho(r) of a rotation code (R154). -/
def rotation (rot r w : Nat) : Nat :=
  (match rot with
   | 0 => 0
   | 1 => r
   | 2 => r / 2
   | 3 => r / 4
   | 4 => 2 * r
   | 5 => 4 * r
   | _ => r / 8) % w

/-- The address of logical word `j` of row `r` of tile `t` of an operand in the scratchpad (R154). -/
def operandAddr (a b : Word) (w t r j : Nat) : Nat :=
  (bits a.toNat 0 20 + t * bits b.toNat 0 20 + r * bits a.toNat 20 20 + 8 * ((j + rotation (bits b.toNat 20 3) r w) % w)) % 2 ^ 19

/-- The trap of an operand descriptor (R154, R362): the field. -/
def descriptorTrap (a b : Word) : Option Nat :=
  if bits a.toNat 40 24 != 0 then some 1
  else if bits b.toNat 23 41 != 0 || bits b.toNat 20 3 == 7 then some 2 else none

/-! ### Fields of IMM -/

/-- Q or QA. -/
def qaOf (x : Fields) : Nat := bits x.imm.toNat 0 3
/-- TI or TA. -/
def taOf (x : Fields) : Nat := bits x.imm.toNat 3 6
/-- QB. -/
def qbOf (x : Fields) : Nat := bits x.imm.toNat 9 3
/-- TB. -/
def tbOf (x : Fields) : Nat := bits x.imm.toNat 12 6
/-- TS, or the offset o of a register form (R234). -/
def tsOf (x : Fields) : Nat := bits x.imm.toNat 9 6
/-- ORD of MMA. -/
def ordOf (x : Fields) : Nat := bits x.imm.toNat 18 2
/-- n of a register form. -/
def nregOf (x : Fields) : Nat := bits x.imm.toNat 17 4 + 1
/-- GEN. -/
def genOf (x : Fields) : Bool := x.imm.getLsbD 31
/-- GANG. -/
def gangOf (x : Fields) : Nat := bits x.imm.toNat 29 2
/-- first of MRDA, MWRA and MSTA. -/
def firstRow (x : Fields) : Nat := bits x.imm.toNat 0 6
/-- n of MRDA, MWRA and MSTA. -/
def rowCount (x : Fields) : Nat := bits x.imm.toNat 6 6 + 1

/-- What a class 0x6D operation is, by FN. -/
def matrixFn (i : Instr) : Nat := match i.extCode with | some (_, fn) => fn | none => 16

/-! ### What commands read and write (R229) -/

/-- A resource that commands conflict over: a tile, bytes of the operand buffer, the scratchpad, memory. The scratchpad and the memory
are taken whole, which keeps more commands apart than R229 asks. -/
inductive Resource where
  | tile (t : Nat)
  | buffer (lo hi : Nat)
  | scratch
  | memory
  deriving DecidableEq, Repr

/-- Two resources overlap. -/
def Resource.meets : Resource → Resource → Bool
  | .tile a, .tile b => a == b
  | .buffer a b, .buffer c d => a < d && c < b
  | .scratch, .scratch => true
  | .memory, .memory => true
  | _, _ => false

/-- The buffer bytes of a tile of a reservation, its scales among them. -/
def tileArea (c : Crew) (q t : Nat) : List Resource :=
  match tfind? c.resv q with
  | none => []
  | some r =>
    .buffer (r.tileBase t) (r.tileBase t + tileBytes r.t r.mod) ::
      (if isMx r.t r.mod then [.buffer (r.scaleBase t) (r.scaleBase t + 256)] else [])

/-- What a command reads. -/
def MatrixCmd.reads (c : Crew) (m : MatrixCmd) : List Resource :=
  match matrixFn m.op with
  | 2 | 3 => if m.f.imm.getLsbD 15 then [] else [.scratch]
  | 4 | 5 => .tile m.f.d.toNat :: tileArea c (qaOf m.f) (taOf m.f) ++ tileArea c (qbOf m.f) (tbOf m.f)
  | 7 => [.tile m.f.a.toNat]
  | 9 => [.tile m.f.d.toNat]
  | _ => []

/-- What a command writes. -/
def MatrixCmd.writes (c : Crew) (m : MatrixCmd) : List Resource :=
  match matrixFn m.op with
  | 2 | 3 => tileArea c (qaOf m.f) (taOf m.f)
  | 4 | 5 | 6 | 8 => [.tile m.f.d.toNat]
  | 9 => if m.f.imm.getLsbD 12 then [.memory] else [.scratch]
  | 10 => [.scratch]
  | _ => []

/-- Two commands conflict (R229). -/
def conflicts (c : Crew) (x y : MatrixCmd) : Bool :=
  let hits (a b : List Resource) : Bool := a.any (fun r => b.any r.meets)
  hits (x.writes c) (y.reads c ++ y.writes c) || hits (x.reads c) (y.writes c)

/-- The reservations that a command names. -/
def MatrixCmd.names (m : MatrixCmd) : List Nat :=
  match matrixFn m.op with
  | 2 | 3 => [qaOf m.f]
  | 4 | 5 => [qaOf m.f, qbOf m.f]
  | _ => []

/-! ### The kitty (R41, R227, R228) -/

/-- Units that an energy class debits (R41). -/
def unitsOf (x : Fields) : Nat := 2 ^ x.ec.toNat

/-- Pay for an instruction of a holder: none while the kitty is short or an earlier-held instruction waits; then the holder stands in
the queue. -/
def kittyPay (c : Crew) (holder units : Nat) : Option Crew :=
  if c.krate = 0 then some { c with kittyQueue := lerase holder c.kittyQueue }
  else if (match c.kittyQueue with | [] => true | h :: _ => h == holder) && units ≤ c.kitty then
    some { c with kitty := c.kitty - units, kittyQueue := lerase holder c.kittyQueue }
  else none

/-- Stand in the queue of held instructions. -/
def kittyJoin (c : Crew) (holder : Nat) : Crew :=
  if c.kittyQueue.contains holder then c else { c with kittyQueue := c.kittyQueue ++ [holder] }

/-! ### Checks at issue (R363) -/

/-- The exact mode that a tile will have when the agent's earlier commands have run (R239). -/
def expectedExm (s : State) (t : Nat) : Bool :=
  s.curC.commands.foldl (fun b e =>
    if matrixFn e.2.op = 6 ∧ e.2.f.d.toNat = t ∧ e.2.agents.contains s.curWk then e.2.f.imm.getLsbD 0 else b)
    (tget {} s.curC.tileStatus t).exm

/-- ARITH 4 of MMA and MMAP: tiles outside their areas, another format, another K, the wrong mode. -/
def mmaBad (s : State) : Bool :=
  match s.curC.liveResv (qaOf s.ir), s.curC.liveResv (qbOf s.ir) with
  | some a, some b =>
    a.t != s.ir.t.toNat || a.mod != s.ir.mod.toNat || formatK a.t a.mod != formatK b.t b.mod ||
      !a.holds (taOf s.ir) || !b.holds (tbOf s.ir) || expectedExm s s.ir.d.toNat != (ordOf s.ir == 1)
  | _, _ => true

/-- ARITH 4 of MMAP: on the odd core of a pair QB and TB are ignored (R240). -/
def mmapBad (s : State) : Bool :=
  if s.curC.core % 2 = 0 then mmaBad s
  else
    match s.curC.liveResv (qaOf s.ir) with
    | some a =>
      a.t != s.ir.t.toNat || a.mod != s.ir.mod.toNat || !a.holds (taOf s.ir) || expectedExm s s.ir.d.toNat != (ordOf s.ir == 1)
    | none => true

/-- The members of a gang; a solo issuer is one. -/
def gangSize (s : State) : Nat := if genOf s.ir then (tget {} s.curC.gangs (gangOf s.ir)).waves.length else 1

/-- ARITH 4 of a load. -/
def loadBad (s : State) : Bool :=
  match s.curC.liveResv (qaOf s.ir) with
  | none => true
  | some r =>
    !r.holds (taOf s.ir) || (s.ir.imm.getLsbD 16 && r.t == 0xE) ||
      (s.ir.imm.getLsbD 15 && tileBytes r.t r.mod < 256 * (tsOf s.ir + gangSize s * nregOf s.ir))

/-- Rows past 64. -/
def rowsBad (s : State) : Bool := 64 < firstRow s.ir + rowCount s.ir

/-- The descriptor trap of a scratchpad operand of the current instruction. -/
def scratchOperandTrap (s : State) : Option (Nat × Nat) :=
  (descriptorTrap (readS s s.ir.a.toNat) (operandB s)).map (fun d => (0x30, d))

/-- An ARITH trap where a condition holds. -/
def arithIf (bad : Bool) (d : Nat) : Option (Nat × Nat) := if bad then some (0x30, d) else none

/-- The trap of a descriptor of MRES (R231, R362, R363). -/
def mresTrap (s : State) : Option (Nat × Nat) :=
  let b := (operandB s).toNat
  let first := bits b 0 8
  let lines := bits b 8 9
  let scl := bits b 17 8
  let mx := isMx s.ir.t.toNat s.ir.mod.toNat
  if 8 ≤ s.ir.d.toNat then some (0x30, 0)
  else arithIf (bits b 33 31 != 0 || lines == 0 || 256 < lines || 256 < first + lines || (if mx then lines ≤ scl else scl != 0)) 2

/-- The trap of PARTNERLOST at issue (R381): not placed as a pair, a broken pair, or a partner that ended before its match. -/
def partnerTrap (s : State) (idx : Nat) : Option (Nat × Nat) :=
  let c := s.curC
  if !c.paired then some (0x41, 1)
  else if c.pairBroken then some (0x41, 0)
  else if c.pairEnded && (match c.pair with | some p => (s.crew p).mmapCount < idx | none => true) then some (0x41, 2)
  else none

/-! ### Acceptance -/

/-- Commands that the engine has accepted and not completed. -/
def Crew.queueFull (c : Crew) : Bool := 16 ≤ c.commands.length

/-- The command that has an id (R246). -/
def Crew.liveId (c : Crew) (id : Nat) : Option Nat := (c.commands.find? (fun e => id != 0 && e.2.id == id)).map (·.1)

/-- The tag of the current fragment lets its command be accepted: its id is not live (R246). -/
def tagFree (s : State) : Bool := match s.curT.tag with | some (id, _, _) => (s.curC.liveId id).isNone | none => true

/-- Accept a command of the current fragment (R224, R246): its tag is used up; a counter rises where the command lowers one. -/
def acceptCmd (s : State) (m : MatrixCmd) (path : Option Nat) : State × Nat :=
  let c := s.curC
  let key := tnext c.commands
  let key := max key s.fresh
  let (id, preds) := match s.curT.tag with
    | some (id, pa, pb) => (id, [pa, pb].filterMap c.liveId)
    | none => (0, [])
  let (s, access) := match path with
    | none => (s, none)
    | some p =>
      let (s, a) := openAccess s p
      ({ s with accesses := s.accesses.map (fun e => if e.1 = a then (e.1, { e.2 with command := some key }) else e) }, some a)
  let m := { m with id := id, preds := preds, access := access, doneAt := engineDelay s 32 }
  let s := s.modCrew s.curCk (fun c => { c with commands := tput c.commands key m })
  (s.modThread s.cur (fun t => { t with tag := none }), key)

/-- The command that the current instruction stands for, with its scalar and capability operands captured. -/
def newCmd (i : Instr) (s : State) : MatrixCmd :=
  { agents := [s.curWk], op := i, f := s.ir, opA := readS s s.ir.a.toNat, opB := operandB s, pts := s.curW.pts }

/-- The engine or the kitty does not take the instruction in this cycle: it is not ready (R94, R224, R227), or it goes on waiting where it is
held already. -/
def notTaken (s : State) : State := if s.curT.hold.isSome then s else stallIssue s

/-- Issue a class 0x6D instruction of one agent: its traps, then it is held while its id is live or `ready` fails, and not ready while the
queue is full or the kitty short (R224, R227); then it pays and is accepted. -/
def issueCmd (i : Instr) (s : State) (trap? : Option (Nat × Nat)) (ready : Bool) (path : Option Nat) (make : State → MatrixCmd)
    (after : State → Nat → State) : Out :=
  match trap? with
  | some (code, d) => trap s code d
  | none =>
    if !(match path with | some p => roomOn s p | none => true) then .next (stallIssue s)
    else if !tagFree s || !ready then .next (holdAt s i)
    else if s.curC.queueFull then .next (notTaken s)
    else
      match kittyPay s.curC s.cur (unitsOf s.ir) with
      | none => .next (notTaken (s.modCrew s.curCk (fun c => kittyJoin c s.cur)))
      | some c =>
        let s := s.putCrew s.curCk c
        let (s, key) := acceptCmd s (make s) path
        .next (after s key)

/-- A command that lets its fragment go on. -/
def issueFree (i : Instr) (s : State) (trap? : Option (Nat × Nat)) (path : Option Nat) (make : State → MatrixCmd) : Out :=
  issueCmd i s trap? true path make (fun s _ => finish s)

/-! ### Joint instructions (R236, R237) -/

/-- The rank of the current wave in a gang. -/
def gangRank (s : State) (g : Gang) : Option Nat := g.waves.findIdx? (fun w => w == widOf s.curWk)

/-- The number of the MMAP that the current joint instruction stands for (R240): its first member's issue fixes it. -/
def occurrenceIdx (s : State) : Nat :=
  let g := tget {} s.curC.gangs (gangOf s.ir)
  match g.waiting.find? (fun e => e.occ == tget 0 g.counts (widOf s.curWk)) with
  | some e => e.pairIdx
  | none => s.curC.mmapCount + 1

/-- The current crew is no longer paired (R381). -/
def unpair (s : State) : State := s.modCrew s.curCk (fun c => { c with pairBroken := true, pairEnded := false })

/-- A joint instruction arrives at its gang's latch and is held until acceptance: a wave that is no member traps ARITH 4, a failed
gang GANGFAIL (R363, R380). -/
def joinGang (i : Instr) (s : State) (trap? : Option (Nat × Nat)) : Out :=
  let gid := gangOf s.ir
  let g := tget {} s.curC.gangs gid
  match gangRank s g with
  | none => arith s 4
  | some _ =>
    match g.failed, s.curT.hold with
    | some d, _ => trap s 0x40 d
    | none, some _ => .next s
    | none, none =>
      match trap? with
      | some (code, d) => trap (if code = 0x41 ∧ d = 2 then unpair s else s) code d
      | none =>
        let wid := widOf s.curWk
        let occ := tget 0 g.counts wid
        let idx := if i = .mmap then occurrenceIdx s else 0
        let e : GangEntry := ⟨s.cur, i, s.ir, occ, idx⟩
        let g := { g with counts := tput g.counts wid (occ + 1), waiting := g.waiting ++ [e] }
        .next (holdAt (s.modCrew s.curCk (fun c => { c with gangs := tput c.gangs gid g, mmapCount := max c.mmapCount idx })) i)

/-- GANG, R236: it waits until the gang has no occurrence waiting or executing; ARITH 4 for waves that repeat or do not exist. -/
def execGang (s : State) : Out :=
  guarded .gang s (fun s =>
    let n := s.ir.mod.toNat
    let ws := (upTo n).map (fun k => bits s.ir.imm.toNat (5 * k) 5)
    let gid := s.ir.d.toNat
    if ws.eraseDups.length != n || ws.any (fun w => s.curC.nwaves ≤ w) then arith s 4
    else
      let g := tget {} s.curC.gangs gid
      waitFor .gang s (g.waiting.isEmpty && s.curC.commands.all (fun e => e.2.gang != some gid)) (fun s =>
        s.modCrew s.curCk (fun c => { c with gangs := tput c.gangs gid { waves := ws } })))

/-! ### Reservations -/

/-- The lines of two reservations overlap. -/
def linesMeet (f1 n1 f2 n2 : Nat) : Bool := f1 < f2 + n2 && f2 < f1 + n1

/-- The commands that a tag names have completed: for the instructions that take effect at issue (R246). -/
def tagReady (s : State) : Bool :=
  match s.curT.tag with
  | some (id, pa, pb) => (s.curC.liveId id).isNone && (s.curC.liveId pa).isNone && (s.curC.liveId pb).isNone
  | none => true

/-- An instruction of the class that takes its effect at issue: it waits for its tag and a condition, for room in the queue (R224), and pays
(R227). -/
def payAndDo (i : Instr) (s : State) (ready : Bool) (act : State → State) : Out :=
  if !ready || !tagReady s then .next (holdAt s i)
  else if s.curC.queueFull then .next (notTaken s)
  else
    match kittyPay s.curC s.cur (unitsOf s.ir) with
    | none => .next (notTaken (s.modCrew s.curCk (fun c => kittyJoin c s.cur)))
    | some c => .next (finish (act ((s.putCrew s.curCk c).modThread s.cur (fun t => { t with tag := none }))))

/-- MRES, R231: it waits until its id is free and no live reservation has a line of its range. -/
def execMres (s : State) : Out :=
  guarded .mres s (fun s =>
    match mresTrap s with
    | some (code, d) => trap s code d
    | none =>
      let b := (operandB s).toNat
      let r : Resv := {
        t := s.ir.t.toNat, mod := s.ir.mod.toNat, first := bits b 0 8, lines := bits b 8 9, scl := bits b 17 8, xoff := signed 8 (bits b 25 8) }
      let free := !thas s.curC.resv s.ir.d.toNat && s.curC.resv.all (fun e => !linesMeet r.first r.lines e.2.first e.2.lines)
      payAndDo .mres s free (fun s => s.modCrew s.curCk (fun c => { c with resv := tput c.resv s.ir.d.toNat r })))

/-- A reservation that MREL has named: commands may name it no more. -/
def markReleasing (s : State) (q : Nat) : State :=
  s.modCrew s.curCk (fun c => { c with resv := c.resv.map (fun e => if e.1 = q then (e.1, { e.2 with releasing := true }) else e) })

/-- MREL, R233: the reservation that it names when it issues is freed once the commands before it that name it have completed; the fragment
goes on. The command keeps in `opA` whether it names a live reservation: one made later under the same id is not freed. -/
def execMrel (s : State) : Out :=
  guarded .mrel s (fun s =>
    issueCmd .mrel s (arithIf (8 ≤ s.ir.d.toNat) 0) true none
      (fun s => { newCmd .mrel s with opA := if (s.curC.liveResv s.ir.d.toNat).isSome then 1 else 0 })
      (fun s _ => finish (markReleasing s s.ir.d.toNat)))

/-! ### Loads, products, tiles -/

/-- A scratchpad load of an operand (R234): it raises SP. -/
def loadScratch (i : Instr) (s : State) : Out :=
  guarded i s (fun s =>
    issueFree i s ((scratchOperandTrap s).orElse (fun _ => arithIf (loadBad s) 4)) (some 2) (newCmd i))

/-- The registers that a wave contributes to a register load (R235): n registers from `a` on, 32 lanes each. -/
def contributed (s : State) (wk a n : Nat) : List Word :=
  (upTo n).flatMap (fun j => (upTo 32).map (fun L => (s.wave wk).vreg (a + j) L))

/-- A register load of an operand (R235): the registers are read at acceptance, alone or as a joint instruction. -/
def loadRegs (i : Instr) (s : State) : Out :=
  guarded i s (fun s =>
    if genOf s.ir then joinGang i s (arithIf (loadBad s) 4)
    else issueFree i s (arithIf (loadBad s) 4) none (fun s => { newCmd i s with data := contributedNow s }))
where
  /-- The registers of a solo issuer, as it reads them. -/
  contributedNow (s : State) : List Word :=
    (upTo (nregOf s.ir)).flatMap (fun j => (upTo 32).map (fun L => readV s 64 (s.ir.a.toNat + j) L))

/-- MLDA.SP, R234. -/
def execMldaSp (s : State) : Out := loadScratch .mldaSp s
/-- MLDB.SP, R234. -/
def execMldbSp (s : State) : Out := loadScratch .mldbSp s
/-- MLDA.REG, R235. -/
def execMldaReg (s : State) : Out := loadRegs .mldaReg s
/-- MLDB.REG, R235. -/
def execMldbReg (s : State) : Out := loadRegs .mldbReg s

/-- MMA, R238. -/
def execMma (s : State) : Out :=
  guarded .mma s (fun s =>
    if genOf s.ir then joinGang .mma s (arithIf (mmaBad s) 4)
    else issueFree .mma s (arithIf (mmaBad s) 4) none (newCmd .mma))

/-- The partner has issued its match of the crew's MMAP of a number (R240). -/
def matchIssued (s : State) (ck idx : Nat) : Bool :=
  match (s.crew ck).pair with | some p => idx ≤ (s.crew p).mmapCount | none => false

/-- MMAP, R240, R381: its number is fixed at issue, and it is held until the partner has issued its match; a gang's MMAP is issued when its
first member issues it. DESIGN CHOICE: its checks are made when it issues, and not again when it is accepted (log 153). -/
def execMmap (s : State) : Out :=
  guarded .mmap s (fun s =>
    if genOf s.ir then
      joinGang .mmap s ((partnerTrap s (occurrenceIdx s)).orElse (fun _ => arithIf (mmapBad s) 4))
    else
      let idx := match s.curT.hold with | some h => h.arg | none => s.curC.mmapCount + 1
      match partnerTrap s idx with
      | some (code, d) =>
        if d = 2 then .next (takeTrapOf (unpair s) s.cur code d 0 0 false)
        else trap s code d
      | none =>
        match s.curT.hold with
        | some _ =>
          issueCmd .mmap s none (matchIssued s s.curCk idx) none (fun s => { newCmd .mmap s with pairIdx := idx }) (fun s _ => finish s)
        | none =>
          if mmapBad s then arith s 4
          else .next (holdWith (s.modCrew s.curCk (fun c => { c with mmapCount := idx })) .mmap idx []))

/-- MZERO, R241: exact mode for a0 and a1 alone. -/
def execMzero (s : State) : Out :=
  guarded .mzero s (fun s => issueFree .mzero s (arithIf (s.ir.imm.getLsbD 0 && 2 ≤ s.ir.d.toNat) 4) none (newCmd .mzero))

/-- The selected sub-elements of 32 bits, by lane (R29). -/
def laneMasks (s : State) : List Word :=
  let ps := readPreds s 32
  (upTo 32).map (fun L => if s.mask.getLsbD L then pickMask s.ir ps 32 L else 0)

/-- An instruction that holds its fragment until its command has run. -/
def issueHeld (i : Instr) (s : State) (trap? : Option (Nat × Nat)) (make : State → MatrixCmd) : Out :=
  match s.curT.hold with
  | some h =>
    if h.arg = 0 then
      issueCmd i s trap? true none (fun s => { make s with thread := some s.cur }) (fun s key => holdWith s i (key + 1) [])
    else .next s
  | none => issueCmd i s trap? true none (fun s => { make s with thread := some s.cur }) (fun s key => holdWith s i (key + 1) [])

/-- MRDA, R242. -/
def execMrda (s : State) : Out :=
  guarded .mrda s (fun s => issueHeld .mrda s (arithIf (rowsBad s) 4) (fun s => { newCmd .mrda s with data := laneMasks s }))
/-- MRDA.ST, R242. -/
def execMrdaSt (s : State) : Out := guarded .mrdaSt s (fun s => issueHeld .mrdaSt s none (newCmd .mrdaSt))

/-- MWRA, R243: the registers are read at issue; masks by lane first, then the registers row by row. -/
def execMwra (s : State) : Out :=
  guarded .mwra s (fun s =>
    issueFree .mwra s (arithIf (rowsBad s) 4) none (fun s => { newCmd .mwra s with
      data := laneMasks s ++ (upTo (rowCount s.ir)).flatMap (fun j => (upTo 32).map (fun L => readV s 32 (s.ir.a.toNat + j) L)) }))

/-- The trap of MSTA: rows past 64, and in the scratchpad form the descriptor of s[A] and B. -/
def mstaTrap (s : State) : Option (Nat × Nat) :=
  (if s.ir.imm.getLsbD 12 then none else scratchOperandTrap s).orElse (fun _ => arithIf (rowsBad s) 4)

/-- MSTA, R244: it raises ST or SP, and reads its bias at issue. -/
def execMsta (s : State) : Out :=
  guarded .msta s (fun s =>
    let mem := s.ir.imm.getLsbD 12
    issueFree .msta s (mstaTrap s) (some (if mem then 1 else 2)) (fun s => { newCmd .msta s with
      cap := if mem then readC s s.ir.a.toNat else {}
      data := if s.ir.imm.getLsbD 13 then (upTo 32).map (fun L => readV s 32 s.ir.c.toNat L) else [] }))

/-! ### Barrier objects and the command graph -/

/-- MBAR, R245: ARITH 4 and ARITH 1 as for ARRV (R363); the fragment goes on. -/
def execMbar (s : State) : Out :=
  guarded .mbar s (fun s =>
    issueFree .mbar s ((arrivalTrap s).map (fun d => (0x30, d))) none (newCmd .mbar))

/-- The graph is the current agent's, or no one's. -/
def graphMine (s : State) : Bool := match s.curC.forerunner with | none => true | some w => w == s.curWk

/-- MCMD, R246: it is held while another agent has the graph or its id is live; ARITH 4 for id 0. One that is itself the next instruction of its class
after an `MCMD` waits for that one's predecessors, and uses its tag. -/
def execMcmd (s : State) : Out :=
  guarded .mcmd s (fun s =>
    let id := bits s.ir.imm.toNat 0 8
    if id = 0 then arith s 4
    else
      payAndDo .mcmd s (graphMine s && (s.curC.liveId id).isNone) (fun s =>
        (s.modCrew s.curCk (fun c => { c with forerunner := some s.curWk })).modThread s.cur (fun t =>
          { t with tag := some (id, bits s.ir.imm.toNat 8 8, bits s.ir.imm.toNat 16 8) })))

/-- MCMD.END, R246: it releases the graph and tags nothing. -/
def execMcmdEnd (s : State) : Out :=
  guarded .mcmdEnd s (fun s =>
    payAndDo .mcmdEnd s (graphMine s) (fun s =>
      s.modCrew s.curCk (fun c => { c with forerunner := none })))

end Sys2Proof.Machine
end

