-- ==== Sys2Proof/Machine/MatrixWork.lean ====
section
/-! DEFINITION. What accepted commands of the matrix engine do (R229, R230, R234, R235, R238 to R245, R378), the acceptance of a gang's
occurrence (R237, R380) and the common start of an MMAP pair (R240). -/

namespace Sys2Proof.Machine

/-! ### Products (R238) -/

/-- Element `k` of run `i` of tile `t` of a reservation, exactly (R65, R68, R69, R71, R232). -/
def operandElem (c : Crew) (r : Resv) (t i k : Nat) : FVal :=
  let run := r.tileBase t + 8 * formatW r.t r.mod * i
  if r.t = 8 ∨ r.t = 9 then decodeF r.t (c.bufNum (run + 2 * k) 2)
  else if r.t != 0xE then decodeF r.t (c.bufNum (run + k) 1)
  else if r.mod = 3 then
    mxValue (c.bufNum (r.scaleBase t + 4 * i + k / 32) 1) (c.bufNum (run + k / 2) 1 / 16 ^ (k % 2) % 16)
  else sxValue r.mod (c.bufNum (run + k / 16 * sxBytes r.mod) (sxBytes r.mod)) (k % 16)

/-- The terms of element (i, j), ascending in k (R238). -/
def productTerms (ca cb : Crew) (ra rb : Resv) (ta tb i j : Nat) : List FVal :=
  (upTo (formatK ra.t ra.mod)).map (fun k =>
    (mulF (operandElem ca ra ta i k) (operandElem cb rb tb j k)).scale (ra.xoff + rb.xoff))

/-- The key of an element of a tile. -/
def tileKey (t i j : Nat) : Nat := 4096 * t + 64 * i + j

/-- An F32 element of a tile in normal mode. -/
def Crew.tileBits (c : Crew) (t i j : Nat) : Nat := (tget 0 c.tiles (tileKey t i j)).toNat
/-- The exact state of an element of a tile in exact mode. -/
def Crew.exactState (c : Crew) (t i j : Nat) : ExactState := tget {} c.exact (tileKey t i j)
/-- The status of a tile. -/
def Crew.status (c : Crew) (t : Nat) : TileStatus := tget {} c.tileStatus t
/-- With an element written. -/
def Crew.setTile (c : Crew) (t i j v : Nat) : Crew := { c with tiles := sput 0 c.tiles (tileKey t i j) (BitVec.ofNat 32 v) }
/-- With an exact state written. -/
def Crew.setExact (c : Crew) (t i j : Nat) (x : ExactState) : Crew := { c with exact := sput {} c.exact (tileKey t i j) x }
/-- With a status written. -/
def Crew.setStatus (c : Crew) (t : Nat) (x : TileStatus) : Crew := { c with tileStatus := sput {} c.tileStatus t x }

/-- Every (row, column) of a tile. -/
def cells : List (Nat × Nat) := (upTo 64).flatMap (fun i => (upTo 64).map (fun j => (i, j)))

/-- MMA's effect on its tile (R238): `cb` is the crew whose B tile is used. -/
def mmaEffect (c cb : Crew) (x : Fields) (ra rb : Resv) (choice : Nat) : Crew :=
  let d := x.d.toNat
  let z := x.imm.getLsbD 20
  let rm := x.rm.toNat
  let c' := cells.foldl (fun (acc : Crew) ij =>
    let ts := productTerms c cb ra rb (taOf x) (tbOf x) ij.1 ij.2
    match ordOf x with
    | 1 => acc.setExact d ij.1 ij.2 (ts.foldl exactAdd (if z then {} else c.exactState d ij.1 ij.2))
    | 2 => acc.setTile d ij.1 ij.2 (freeSum choice (tileKey 0 ij.1 ij.2)
        (if z then .fin false 0 0 else decodeF 10 (c.tileBits d ij.1 ij.2)) ts)
    | _ => acc.setTile d ij.1 ij.2 (roundF 10 rm false
        (seqSum 10 rm (if z then .fin false 0 0 else decodeF 10 (c.tileBits d ij.1 ij.2)) ts))) c
  c'.setStatus d { c'.status d with kdone := formatK ra.t ra.mod, part := false }

/-- MZERO's effect (R241). -/
def mzeroEffect (c : Crew) (x : Fields) : Crew :=
  let d := x.d.toNat
  let c := cells.foldl (fun (c : Crew) ij => (c.setTile d ij.1 ij.2 0).setExact d ij.1 ij.2 {}) c
  c.setStatus d { exm := x.imm.getLsbD 0 }

/-- The bits of an element as MRDA reads it under a rounding mode (R79, R239). -/
def readTile (c : Crew) (t rm i j : Nat) : Nat :=
  if (c.status t).exm then exactRead rm (c.exactState t i j) else c.tileBits t i j

/-- MRDA's register writes (R242). -/
def mrdaWrites (c : Crew) (m : MatrixCmd) : List RegWrite :=
  (upTo (rowCount m.f)).flatMap (fun i => (upTo 32).map (fun L =>
    let e (w : Nat) : Nat := readTile c m.f.a.toNat m.f.rm.toNat (firstRow m.f + i) (2 * L + w)
    .v (m.f.d.toNat + i) L (m.data.getD L 0) (word (e 0 + e 1 * 2 ^ 32))))

/-- The tile status word (R242). -/
def TileStatus.word' (x : TileStatus) : Word :=
  word (x.kdone * 2 ^ 24 + (if x.part then 4 else 0) + (if x.pois then 2 else 0) + (if x.exm then 1 else 0))

/-- MWRA's effect (R243): an element of an exact tile receives the state of one term. -/
def mwraEffect (c : Crew) (m : MatrixCmd) : Crew :=
  let d := m.f.d.toNat
  (upTo (rowCount m.f)).foldl (fun (c : Crew) i => (upTo 64).foldl (fun (c : Crew) j =>
    let mask := m.data.getD (j / 2) 0
    let v := elem 32 (j % 2) (m.data.getD (32 + 32 * i + j / 2) 0)
    if elem 32 (j % 2) mask = 0 then c
    else if (c.status d).exm then c.setExact d (firstRow m.f + i) j (exactAdd {} (decodeF 10 v))
    else c.setTile d (firstRow m.f + i) j v) c) c

/-! ### The epilogue (R244) -/

/-- An element of a tile as an exact value. -/
def tileValue (c : Crew) (t i j : Nat) : FVal :=
  if (c.status t).exm then exactValue (c.exactState t i j) else decodeF 10 (c.tileBits t i j)

/-- RELU: a value that is not above 0 and no NaN becomes +0. -/
def relu (v : FVal) : FVal :=
  match v with
  | .nan _ _ => v
  | .inf neg => if neg then .fin false 0 0 else v
  | .fin neg m _ => if neg || m == 0 then .fin false 0 0 else v

/-- Element j of row i of MSTA, in its destination type. -/
def epilogue (c : Crew) (m : MatrixCmd) (i j : Nat) : Nat :=
  let x := m.f
  let y := (tileValue c x.d.toNat (firstRow x + i) j).scale (signed 6 (bits x.imm.toNat 16 6))
  let y := if x.imm.getLsbD 13 then addF x.rm.toNat y (decodeF 10 (elem 32 (j % 2) (m.data.getD (j / 2) 0))) else y
  roundF x.t.toNat x.rm.toNat x.sat (if bits x.imm.toNat 14 2 = 1 then relu y else y)

/-- The bytes of row i of MSTA. -/
def epilogueRow (c : Crew) (m : MatrixCmd) (i : Nat) : List Byte :=
  (upTo 64).flatMap (fun j => bytesOf (widthOf m.f.t.toNat / 8) (epilogue c m i j))

/-! ### Completion and stops -/

/-- Lower the counter that a command keeps: its access may complete. -/
def lowerAccess (s : State) (a : Nat) : State :=
  { s with accesses := s.accesses.map (fun e => if e.1 = a then (e.1, { e.2 with doneAt := s.clock, command := none }) else e) }

/-- A command's writes to memory are performed (R175, R180): the `PTS` of its agents is no lower than their time. -/
def passTime (s : State) (ck : Nat) (m : MatrixCmd) : State :=
  if m.op = .msta && m.f.imm.getLsbD 12 then noteWrites (m.agents.foldl (fun s a => raisePts s a m.pts) s) ck m.pts else s

/-- A command completes: it leaves the queue, and the time of its writes passes to its agents and to their later commands (R175, R245). -/
def completeCmd (s : State) (ck key : Nat) (m : MatrixCmd) : State :=
  let s := passTime s ck m
  let s := match m.access with | some a => lowerAccess s a | none => s
  s.modCrew ck (fun c => { c with
    commands := (terase c.commands key).map (fun e =>
      if e.2.agents.any m.agents.contains then (e.1, { e.2 with pts := max e.2.pts m.pts }) else e) })

/-- Change a command. -/
def putCmd (s : State) (ck key : Nat) (m : MatrixCmd) : State := s.modCrew ck (fun c => { c with commands := tput c.commands key m })

/-- A command stops with ENGINEFAULT 8 (R374, R377, R378). -/
def stopCmd (s : State) (ck key : Nat) (m : MatrixCmd) (faddr : Nat) : State :=
  postAsync (completeCmd s ck key m) (m.agents.headD 0) 0x42 8 (word faddr)

/-- The occupancy of MMA in cycles (R225). -/
def occupancy (die : Nat) (x : Fields) : Nat := (if dieClass die = 0 then 16 else 128) * (if ordOf x = 1 then 4 else 1)

/-- The values of a tile are not defined (R378): free. -/
def undefinedTile (c : Crew) (t choice : Nat) : Crew :=
  cells.foldl (fun c p =>
    let x (k : Nat) : Nat := Config.freeNat choice (8 * tileKey t p.1 p.2 + k)
    if (c.status t).exm then
      c.setExact t p.1 p.2 {
        q := x 0 % 2 ^ 320, n := x 1 % 2 ^ 48, nan := bitAt (x 2) 0, pinf := bitAt (x 3) 0, ninf := bitAt (x 4) 0, ovf := bitAt (x 5) 0 }
    else c.setTile t p.1 p.2 (x 0)) c

/-- A started product is cut short (R378, R381): the terms added by then, and the tile poisoned, its values not defined, unless none was. -/
def abortProduct (s : State) (ck : Nat) (m : MatrixCmd) : State :=
  let c := s.crew ck
  let occ := occupancy c.die m.f
  let k := match tfind? c.resv (qaOf m.f) with | some r => formatK r.t r.mod | none => 0
  let done := if m.started && s.clock + occ > m.doneAt then min k (k * (s.clock + occ - m.doneAt) / occ) else 0
  let st := c.status m.f.d.toNat
  s.modCrew ck (fun c =>
    let c := if done = 0 then c else undefinedTile c m.f.d.toNat (s.fresh + 2 ^ 32 * ck)
    c.setStatus m.f.d.toNat { st with kdone := done, part := true, pois := st.pois || done != 0 })

/-! ### Starting -/

/-- A command that the order of R229, R233, R245 and R246 lets start. -/
def mayStart (c : Crew) (key : Nat) (m : MatrixCmd) : Bool :=
  let earlier := c.commands.filter (fun e => e.1 < key)
  let fn := matrixFn m.op
  let mine (x : MatrixCmd) : Bool := x.agents.any m.agents.contains
  (if m.id = 0 then earlier.all (fun e => !(mine e.2 && conflicts c e.2 m)) else m.preds.all (fun p => !thas c.commands p)) &&
    c.commands.all (fun e => e.1 == key || !(e.2.started && conflicts c e.2 m)) &&
    (fn != 1 || earlier.all (fun e => !e.2.names.contains m.f.d.toNat)) &&
    (fn != 10 || earlier.all (fun e => !mine e.2)) &&
    (!(fn == 4 || fn == 5) || c.commands.all (fun e => e.1 == key || !(e.2.started && (matrixFn e.2.op == 4 || matrixFn e.2.op == 5))))

/-- The crew whose B tile an MMAP uses: the one on the even core (R240). -/
def evenCrew (s : State) (ck : Nat) : Nat := if (s.crew ck).core % 2 = 0 then ck else ((s.crew ck).pair).getD ck

/-- A command starts: MMA for its occupancy, unless its tile is in the other mode, which stops it before its first term (R239, R378), an MMAP when its pair does, any other at once. -/
def startCmd (s : State) (ck key : Nat) (m : MatrixCmd) : State :=
  let c := s.crew ck
  match matrixFn m.op with
  | 4 =>
    if (c.status m.f.d.toNat).exm != (ordOf m.f == 1) then stopCmd (abortProduct s ck m) ck key m (m.f.d.toNat % 8)
    else putCmd s ck key { m with started := true, doneAt := s.clock + occupancy c.die m.f }
  | 5 =>
    if (c.status m.f.d.toNat).exm != (ordOf m.f == 1) then stopCmd (abortProduct s ck m) ck key m (m.f.d.toNat % 8)
    else putCmd s ck key { m with pairReady := some (m.pairReady.getD s.clock), doneAt := s.clock + 1 }
  | _ => putCmd s ck key { m with started := true, doneAt := s.clock }

/-! ### Work -/

/-- Row `r` of an operand's scratchpad load (R234), the crew with the buffer written; none where a word is poisoned. -/
def loadRow (c : Crew) (m : MatrixCmd) (r : Resv) (row : Nat) : Option Crew :=
  let w := formatW r.t r.mod
  let base := r.tileBase (taOf m.f)
  let b := m.opB
  if m.f.imm.getLsbD 16 then
    let ew := widthOf r.t
    let src (j : Nat) : Nat := operandAddr m.opA b ew (tsOf m.f) row (j * ew / 64)
    if (upTo 64).any (fun j => (c.scratchPoisoned (src j) 8).isSome) then none
    else some ((upTo 64).foldl (fun (u : Crew) j =>
      let v := c.scratchNum (src j) 8 / 2 ^ (j * ew % 64) % 2 ^ ew
      u.bufPut (base + 8 * w * j + row * ew / 8) (bytesOf (ew / 8) v)) c)
  else
    let sw := if isMx r.t r.mod then 9 else w
    let src (j : Nat) : Nat := operandAddr m.opA b sw (tsOf m.f) row j
    if (upTo sw).any (fun j => (c.scratchPoisoned (src j) 8).isSome) then none
    else
      let u := (upTo w).foldl (fun (u : Crew) j => u.bufPut (base + 8 * (w * row + j)) (c.scratchBytes (src j) 8)) c
      some (if isMx r.t r.mod then u.bufPut (r.scaleBase (taOf m.f) + 4 * row) (c.scratchBytes (src 8) 4) else u)

/-- How many rows a scratchpad load has. -/
def loadRows (m : MatrixCmd) (r : Resv) : Nat := if m.f.imm.getLsbD 16 then formatK r.t r.mod else 64

/-- A step of a load (R234, R235): a row of the scratchpad form, the whole of the register form. DESIGN CHOICE: one whose reservation another agent
has freed since it arrived at its gang's latch does nothing (log 153). -/
def workLoad (s : State) (ck key : Nat) (m : MatrixCmd) : State :=
  let c := s.crew ck
  match tfind? c.resv (qaOf m.f) with
  | none => completeCmd s ck key m
  | some r =>
    if m.f.imm.getLsbD 15 then
      let a := r.tileBase (taOf m.f) + 256 * tsOf m.f
      completeCmd (s.putCrew ck (c.bufPut a (m.data.flatMap (fun v => bytesOf 8 v.toNat)))) ck key m
    else
      match loadRow c m r m.next with
      | none => stopCmd s ck key m m.report
      | some u =>
        let s := s.putCrew ck u
        if loadRows m r ≤ m.next + 1 then completeCmd s ck key m
        else putCmd s ck key { m with next := m.next + 1, doneAt := s.clock + 1 }

/-- The end of a product (R238) whose B tile is that of crew `ek` and of the fields `xb`. DESIGN CHOICE: one whose reservation another agent has freed
since it arrived at its gang's latch does nothing (log 153). -/
def productEnd (s : State) (ck key : Nat) (m : MatrixCmd) (ek : Nat) (xb : Fields) : State :=
  let c := s.crew ck
  let cb := s.crew ek
  match tfind? c.resv (qaOf m.f), tfind? cb.resv (qbOf xb) with
  | some ra, some rb =>
    let x := { m.f with imm := BitVec.ofNat 32 (m.f.imm.toNat - bits m.f.imm.toNat 9 9 * 2 ^ 9 + bits xb.imm.toNat 9 9 * 2 ^ 9) }
    completeCmd (s.putCrew ck (mmaEffect c cb x ra rb s.fresh)) ck key m
  | _, _ => completeCmd s ck key m

/-- The started MMAP of a crew with a number. -/
def startedMmap (c : Crew) (idx : Nat) : Option (Nat × MatrixCmd) :=
  c.commands.find? (fun e => matrixFn e.2.op == 5 && e.2.started && e.2.pairIdx == idx)

/-- The end of a product: of an MMA alone, of an MMAP on both cores of its pair, with the B tile of the even core (R240). -/
def workProduct (s : State) (ck key : Nat) (m : MatrixCmd) : State :=
  if matrixFn m.op != 5 then productEnd s ck key m ck m.f
  else
    let ek := evenCrew s ck
    let even := if ek = ck then m else ((startedMmap (s.crew ek) m.pairIdx).map (·.2)).getD m
    let s' := productEnd s ck key m ek even.f
    match (s.crew ck).pair with
    | none => s'
    | some pk =>
      match startedMmap (s.crew pk) m.pairIdx with
      | none => s'
      | some (k2, m2) => productEnd s' pk k2 m2 ek even.f

/-- A step of MSTA (R244): a row. A poisoned tile writes nothing and gives UNCORR 1 (R378). -/
def workStore (s : State) (ck key : Nat) (m : MatrixCmd) : Out :=
  let c := s.crew ck
  let agent := m.agents.headD 0
  if m.next = 0 && (c.status m.f.d.toNat).pois then .next (postAsync (completeCmd s ck key m) agent 0x50 1 0)
  else
    let row := epilogueRow c m m.next
    let more (s : State) (q : Nat) : State :=
      let m := { m with pts := max m.pts q, wait := m.wait.done }
      if rowCount m.f ≤ m.next + 1 then
        let s := if m.f.imm.getLsbD 22 then engineRelease s ck (bits m.f.imm.toNat 23 3) m.pts else s
        completeCmd s ck key m
      else putCmd s ck key { m with next := m.next + 1, doneAt := s.clock + 1 }
    if m.f.imm.getLsbD 12 then
      let e : Int := (m.cap.off + bits m.opB.toNat 0 44 + m.next * bits m.opB.toNat 44 20 : Nat)
      match engineWrite s (ctxOf s agent) m.cap e row m.pts engineW with
      | .ok (s, q) => .next (more s q)
      | .error st =>
        match engineWait s agent m.wait st (faddrOf m.f.a.toNat 0 e) with
        | .error f => .fault f
        | .ok (s, w) =>
          match w.refused with
          | some (code, d) => .next (stopCmd (logRefusal s agent code d (faddrOf m.f.a.toNat 0 e)) ck key m (m.report))
          | none => .next (putCmd s ck key { m with wait := w, doneAt := engineDelay s 32 })
    else
      let w := widthOf m.f.t.toNat
      .next (more (s.putCrew ck ((upTo w).foldl (fun (u : Crew) j =>
        u.scratchWrite (operandAddr m.opA (m.opB &&& 0x700000) w 0 m.next j) ((row.drop (8 * j)).take 8)) c)) m.pts)

/-- MRDA has its turn (R242, R378): its thread goes on with its registers written, or traps UNCORR 1 on a poisoned tile. -/
def workRead (s : State) (ck key : Nat) (m : MatrixCmd) : State :=
  let c := s.crew ck
  let t := m.thread.getD 0
  let s := completeCmd s ck key m
  if matrixFn m.op = 7 && m.f.imm.getLsbD 12 then
    finish (writeS (resumed s t) 0 m.f.d.toNat (c.status m.f.a.toNat).word')
  else if (c.status m.f.a.toNat).pois then takeTrapOf s t 0x50 1 0 0 false
  else finish (resumed ((mrdaWrites c m).foldl (applyWrite (waveOf t)) s) t)

/-- MBAR has its turn (R245): the arrival on its barrier object, a CREW release of its agent's commands. -/
def workBarrier (s : State) (ck key : Nat) (m : MatrixCmd) : State :=
  let a := m.opA.toNat % 2 ^ 19
  let c := s.crew ck
  if (c.scratchPoisoned a 8).isSome then stopCmd s ck key m 0
  else
    let s := engineRelease s ck 1 m.pts
    completeCmd (s.modCrew ck (fun c =>
      c.scratchWrite a (bytesOf 8 (barrierArrive (c.scratchNum a 8) (m.f.imm.toNat % 2 ^ 16))))) ck key m

/-- A step of a started command. -/
def workCmd (s : State) (ck key : Nat) (m : MatrixCmd) : Out :=
  match matrixFn m.op with
  | 1 => .next (completeCmd (if m.opA = 0 then s else s.modCrew ck (fun c => { c with resv := terase c.resv m.f.d.toNat })) ck key m)
  | 2 | 3 => .next (workLoad s ck key m)
  | 4 | 5 => .next (workProduct s ck key m)
  | 6 => .next (completeCmd (s.modCrew ck (fun c => mzeroEffect c m.f)) ck key m)
  | 7 => .next (workRead s ck key m)
  | 8 => .next (completeCmd (s.modCrew ck (fun c => mwraEffect c m)) ck key m)
  | 9 => workStore s ck key m
  | 10 => .next (workBarrier s ck key m)
  | _ => .next (completeCmd s ck key m)

/-- MATRIX_COMMAND, R229: a command starts when its conflicts and predecessors allow, does a step of its work, or completes. -/
def execMatrixCommand (s : State) : Out :=
  let ck := s.ev.subject
  let key := s.ev.arg1
  match tfind? (s.crew ck).commands key with
  | none => .next s
  | some m =>
    if m.wait.refused.isSome then
      let (code, d) := m.wait.refused.getD (0, 0)
      .next (stopCmd (logRefusal s (m.agents.headD 0) code d m.wait.faddr) ck key m (m.report))
    else if !m.started then
      .next (if mayStart (s.crew ck) key m then startCmd s ck key m else putCmd s ck key { m with doneAt := s.clock + 1 })
    else if m.doneAt ≤ s.clock then workCmd s ck key m
    else .next s

/-- The MMAP of a crew that is ready to start with its pair. -/
def readyMmap (c : Crew) : Option (Nat × MatrixCmd) :=
  c.commands.find? (fun e => matrixFn e.2.op == 5 && !e.2.started && e.2.pairReady.isSome)

/-- MMAP_PAIR_START, R240: both engines start 4 cycles after the later side is ready; a side whose conflicts no longer allow it (R229) is not
ready, and becomes ready again. -/
def execMmapPairStart (s : State) : Out :=
  let ck := s.ev.subject
  match (s.crew ck).pair with
  | none => .next s
  | some pk =>
    match readyMmap (s.crew ck), readyMmap (s.crew pk) with
    | some (k1, m1), some (k2, m2) =>
      if m1.pairIdx != m2.pairIdx then .next s
      else
        let at' := max (m1.pairReady.getD 0) (m2.pairReady.getD 0) + 4
        let run (s : State) (ck k : Nat) (m : MatrixCmd) : State :=
          putCmd s ck k { m with started := true, doneAt := at' + occupancy (s.crew ck).die m.f }
        let late (s : State) (ck k : Nat) (m : MatrixCmd) : State :=
          if mayStart (s.crew ck) k m then s else putCmd s ck k { m with pairReady := none, doneAt := s.clock + 1 }
        if mayStart (s.crew ck) k1 m1 && mayStart (s.crew pk) k2 m2 then .next (run (run s ck k1 m1) pk k2 m2)
        else .next (late (late s ck k1 m1) pk k2 m2)
    | _, _ => .next s

/-! ### Gangs -/

/-- The arrivals of the occurrence that the latch looks at, by rank, when every member has arrived. -/
def arrived (g : Gang) : Option (List GangEntry) :=
  let es := g.waves.map (fun w => g.waiting.find? (fun e => widOf (waveOf e.thread) == w && e.occ == g.accepted))
  if !es.isEmpty && es.all Option.isSome then some (es.filterMap id) else none

/-- Two members' words agree in every field, except field A of the register forms (R237). -/
def wordsAgree (x y : GangEntry) : Bool :=
  let regs := x.op == .mldaReg || x.op == .mldbReg
  x.op == y.op && (if regs then { x.f with a := 0, stall := 0 } == ({ y.f with a := 0, stall := 0 } : Fields) && x.f.stall == y.f.stall else x.f == y.f)

/-- Every member of an occurrence leaves the latch with a trap. -/
def failOccurrence (s : State) (ck gid : Nat) (g : Gang) (es : List GangEntry) (code detail : Nat) : State :=
  let ts := es.map (·.thread)
  let s := s.modCrew ck (fun c => { c with
    gangs := tput c.gangs gid { g with waiting := g.waiting.filter (fun e => !ts.contains e.thread), accepted := g.accepted + 1 }
    mmapCount := if es.any (fun e => e.op == .mmap && e.pairIdx == c.mmapCount) then c.mmapCount - 1 else c.mmapCount
    kittyQueue := lerase (2 ^ 40 + gid) c.kittyQueue })
  ts.foldl (fun s t => takeTrapOf s t code detail 0 0 false) s

/-- Accept an occurrence as one command (R237): registers are read now, and every member goes on. DESIGN CHOICE: where several members have a tag, the
command has the id of the first of them by rank and waits for the predecessors of all (log 152). -/
def acceptOccurrence (s : State) (ck gid : Nat) (g : Gang) (es : List GangEntry) : State :=
  let lead := (es.find? (fun e => (s.thread e.thread).tag.isSome)).getD (es.headD ⟨0, .nop, {}, 0, 0⟩)
  let s := resumed s lead.thread
  let data := if lead.op = .mldaReg ∨ lead.op = .mldbReg then
      es.flatMap (fun e => contributed s (waveOf e.thread) e.f.a.toNat (nregOf e.f)) else []
  let m := { newCmd lead.op s with
    agents := g.waves.map (fun w => 64 * ck + w), data := data, gang := some gid, pairIdx := lead.pairIdx
    pts := es.foldl (fun p e => max p (s.wave (waveOf e.thread)).pts) 0 }
  let ps := (es.flatMap (fun e => match (s.thread e.thread).tag with | some (_, pa, pb) => [pa, pb] | none => [])).filterMap (s.crew ck).liveId
  let (s, key) := acceptCmd s m none
  let ts := es.map (·.thread)
  let s := ts.foldl (fun s t => s.modThread t (fun t => { t with tag := none })) s
  let s := s.modCrew ck (fun c => { c with commands := c.commands.map (fun e => if e.1 = key then (e.1, { e.2 with preds := ps }) else e) })
  let s := s.modCrew ck (fun c => { c with
    gangs := tput c.gangs gid { g with
      waiting := g.waiting.filter (fun e => !ts.contains e.thread), accepted := g.accepted + 1, tryAt := s.clock + 1 } })
  ts.foldl (fun s t => finish (resumed s t)) s

/-- Look at the latch again in the next cycle. -/
def retryGang (s : State) (ck gid : Nat) (g : Gang) : State :=
  s.modCrew ck (fun c => { c with gangs := tput c.gangs gid { g with tryAt := s.clock + 1 } })

/-- GANG_ACCEPT, R237: with every member there, unequal words fail (R380); a full queue, a live id, an unmatched MMAP or an empty kitty
keep the members; else the engine accepts one command, debited once. Members of a broken pair leave an MMAP (R381). DESIGN CHOICE: the checks of R363
are not made again (log 153). -/
def execGangAccept (s : State) : Out :=
  let ck := s.ev.subject
  let gid := s.ev.arg1
  let g := tget {} (s.crew ck).gangs gid
  match arrived g with
  | none => .next (retryGang s ck gid g)
  | some es =>
    let e0 := es.headD ⟨0, .nop, {}, 0, 0⟩
    let pays := e0.op == .mmap
    if !es.all (wordsAgree e0) then .next (failOccurrence s ck gid g es 0x40 0x80)
    else
      let c := s.crew ck
      let lost := pays && c.pairEnded && (match c.pair with | some p => (s.crew p).mmapCount < e0.pairIdx | none => true)
      if pays && c.pairBroken then .next (failOccurrence s ck gid g es 0x41 0)
      else if lost then .next (failOccurrence (s.putCrew ck { c with pairBroken := true, pairEnded := false }) ck gid g es 0x41 2)
      else
        let tagOk := es.all (fun e => match (s.thread e.thread).tag with | some (id, _, _) => (c.liveId id).isNone | none => true)
        if c.queueFull || !tagOk || (pays && !matchIssued s ck e0.pairIdx) then .next (retryGang s ck gid g)
        else
          match kittyPay c (2 ^ 40 + gid) (unitsOf e0.f) with
          | none => .next (retryGang (s.putCrew ck (kittyJoin c (2 ^ 40 + gid))) ck gid g)
          | some c => .next (acceptOccurrence (s.putCrew ck c) ck gid g es)

end Sys2Proof.Machine
end

