-- ==== Sys2Proof/Machine/Streams.lean ====
section
/-! DEFINITION. Stream patterns, templates and copies, and subscriptions (R205 to R217, R374, R375, R377). -/

namespace Sys2Proof.Machine

/-! ### Patterns (R205, R206) -/

/-- COUNT of a dimension. -/
def PatternSlot.count (p : PatternSlot) (d : Nat) : Nat := field p.record (8 * d) 2
/-- STRIDE of a dimension, signed. -/
def PatternSlot.stride (p : PatternSlot) (d : Nat) : Int := signed 32 (field p.record (8 * d + 4) 4)
/-- The element size in bytes. -/
def PatternSlot.size (p : PatternSlot) : Nat := 2 ^ (field p.record 0x20 1 % 8)
/-- IDIM. -/
def PatternSlot.idim (p : PatternSlot) : Nat := field p.record 0x21 1 % 4
/-- IEN. -/
def PatternSlot.ien (p : PatternSlot) : Bool := bitAt (field p.record 0x21 1) 7
/-- ICAP. -/
def PatternSlot.icapReg (p : PatternSlot) : Nat := field p.record 0x22 1 % 16
/-- IOFF. -/
def PatternSlot.ioff (p : PatternSlot) : Nat := field p.record 0x28 8
/-- N, the number of elements. -/
def PatternSlot.total (p : PatternSlot) : Nat := p.count 0 * p.count 1 * p.count 2 * p.count 3
/-- i_d of element n. -/
def PatternSlot.index (p : PatternSlot) (n d : Nat) : Nat :=
  match d with
  | 0 => n % p.count 0
  | 1 => n / p.count 0 % p.count 1
  | 2 => n / (p.count 0 * p.count 1) % p.count 2
  | _ => n / (p.count 0 * p.count 1 * p.count 2)

/-- A record that STRM accepts (R207). -/
def PatternSlot.ok (p : PatternSlot) : Bool := field p.record 0x20 1 % 8 != 7 && (!p.ien || p.ioff % 4 == 0)

/-- The terms of off(n) that need no index (R206). -/
def PatternSlot.direct (p : PatternSlot) (n : Nat) : Int :=
  (upTo 4).foldl (fun x d => if p.ien && d == p.idim then x else x + p.index n d * p.stride d) 0

/-- off(n), with an ordinary load of the index for an indirect dimension (R206). -/
def elementOffset (s : State) (wk : Nat) (p : PatternSlot) (n pts : Nat) : Except EngineStop (State × Int × Nat) :=
  if !p.ien then .ok (s, p.direct n, pts)
  else
    let e : Int := (p.ioff + 4 * p.index n p.idim : Nat)
    match engineRead s (ctxOf s wk) p.icap e 4 pts engineR with
    | .error st => .error (st, faddrOf p.icapReg 0 e)
    | .ok (s, bs, q) => .ok (s, p.direct n + numOfBytes bs * p.stride p.idim, q)

/-- STRM, R207. -/
def execStrm (s : State) : Out :=
  guarded .strm s (fun s =>
    withRecord .strm s (scalarOffset s) 64 (fun s bs _ =>
      let p : PatternSlot := { record := bs }
      if !p.ok then arith s 6
      else
        let p := if p.ien then { p with icap := readC s p.icapReg } else p
        .next (finish (s.modCrew s.curCk (fun c => { c with patterns := tput c.patterns (bits s.ir.imm.toNat 0 6) p })))))

/-! ### Templates (R208, R209) -/

/-- A byte of a template. -/
def TemplateSlot.byteAt (t : TemplateSlot) (o : Nat) : Nat := field t.record o 1
/-- The pattern slot that a template names. -/
def TemplateSlot.pat (t : TemplateSlot) : Nat := t.byteAt 3 % 64
/-- SOFF and DOFF, signed. -/
def TemplateSlot.soff (t : TemplateSlot) : Int := signed 64 (field t.record 8 8)
/-- DOFF. -/
def TemplateSlot.doff (t : TemplateSlot) : Int := signed 64 (field t.record 16 8)
/-- ACQ and its scope. -/
def TemplateSlot.acq (t : TemplateSlot) : Bool := bitAt (t.byteAt 5) 3
/-- REL and its scope. -/
def TemplateSlot.rel (t : TemplateSlot) : Bool := bitAt (t.byteAt 5) 7
/-- Whether a SCATTER orders its duplicates; else it combines them (R212). -/
def TemplateSlot.combines (t : TemplateSlot) : Bool := t.byteAt 0 == 2 && !bitAt (t.byteAt 6) 0
/-- CTYPE. -/
def TemplateSlot.ctype (t : TemplateSlot) : Nat := t.byteAt 7 % 16

/-- A record that TMPL accepts: no reserved value (R208, R362). -/
def TemplateSlot.ok (t : TemplateSlot) : Bool :=
  t.byteAt 0 < 3 && t.byteAt 1 ≤ 16 && t.byteAt 2 ≤ 16 && bits (t.byteAt 5) 0 3 != 7 && bits (t.byteAt 5) 4 3 != 7

/-- TMPL, R209. -/
def execTmpl (s : State) : Out :=
  guarded .tmpl s (fun s =>
    withRecord .tmpl s (scalarOffset s) 64 (fun s bs _ =>
      let t : TemplateSlot := { record := bs }
      if !t.ok then arith s 6
      else
        let cap (r : Nat) : Cap := if r < 16 then readC s r else {}
        let t := { t with src := cap (t.byteAt 1), dst := cap (t.byteAt 2) }
        .next (finish (s.modCrew s.curCk (fun c => { c with templates := tput c.templates (bits s.ir.imm.toNat 0 6) t })))))

/-- A combining SCATTER whose element type R212 does not accept (R363). -/
def combineBad (t : TemplateSlot) (p : PatternSlot) : Bool :=
  t.combines && !((p.size == 4 && (t.ctype == 2 || t.ctype == 6 || t.ctype == 10)) || (p.size == 8 && (t.ctype == 3 || t.ctype == 7)))

/-- A template whose pattern suits its kind: COPY takes no index, GATHER and SCATTER take one (R208). -/
def kindSuits (t : TemplateSlot) (p : PatternSlot) : Bool := (t.byteAt 0 == 0) != p.ien

/-- XGO, R210: it snapshots the template and the pattern, and holds the fragment until its command is queued. DESIGN CHOICE: the command in execution
keeps its place among the 16 until it completes (log 139). -/
def execXgo (s : State) : Out :=
  guarded .xgo s (fun s =>
    let b := operandB s
    let ch := bits s.ir.imm.toNat 4 3
    let c := s.curC
    let t := tget {} c.templates (b.toNat % 64)
    let p := tget {} c.patterns t.pat
    if bits b.toNat 6 2 != 0 then arith s 2
    else if combineBad t p || !kindSuits t p then arith s 6
    else
      let q := tget [] c.channels ch
      waitFor .xgo s (q.length < 16 && !c.chanFault.contains ch) (fun s =>
        let cmd : CopyCmd := {
          agent := s.curWk, thread := s.cur, tmpl := t, pat := p, arg := signed 56 (b.toNat / 256), pts := s.curW.pts,
          doneAt := engineDelay s ch }
        s.modCrew s.curCk (fun c => { c with channels := tput c.channels ch (q ++ [cmd]) })))

/-! ### Copies (R211 to R213) -/

/-- Read `n` bytes of one side of a copy: the scratchpad, or memory through the captured capability. -/
def copyRead (s : State) (wk : Nat) (sel : Nat) (cap : Cap) (e : Int) (n pts : Nat) : Except EngineStop (State × List Byte × Nat) :=
  if sel = 16 then
    let c := s.crew (crewOf wk)
    match c.scratchPoisoned (wrap 19 e) n with
    | some wd => .error (.trap 0x50 4, word (8 * wd))
    | none => .ok (s, c.scratchBytes (wrap 19 e) n, pts)
  else
    match engineRead s (ctxOf s wk) cap e n pts engineR with
    | .error st => .error (st, faddrOf sel 0 e)
    | .ok r => .ok r

/-- Write bytes to one side of a copy. -/
def copyWrite (s : State) (wk : Nat) (sel : Nat) (cap : Cap) (e : Int) (bs : List Byte) (pts : Nat) : Except EngineStop (State × Nat) :=
  if sel = 16 then .ok (s.modCrew (crewOf wk) (fun c => c.scratchWrite (wrap 19 e) bs), pts)
  else
    match engineWrite s (ctxOf s wk) cap e bs pts engineW with
    | .error st => .error (st, faddrOf sel 0 e)
    | .ok r => .ok r

/-- The source base and the destination base (R211): a memory side adds the capability's OFF. -/
def CopyCmd.sbase (m : CopyCmd) : Int := m.tmpl.soff + m.arg + (if m.tmpl.byteAt 1 = 16 then 0 else m.tmpl.src.off)
/-- The destination base. -/
def CopyCmd.dbase (m : CopyCmd) : Int := m.tmpl.doff + (if m.tmpl.byteAt 2 = 16 then 0 else m.tmpl.dst.off)

/-- The source and the destination of an element. -/
def copyEnds (m : CopyCmd) (n : Nat) (o : Int) : Int × Int :=
  let dense : Int := (n * m.pat.size : Nat)
  if m.tmpl.byteAt 0 = 2 then (m.sbase + dense, m.dbase + o) else (m.sbase + o, m.dbase + dense)

/-- Read element `n` (R211): its bytes, its destination and the time; once, if its write must wait. -/
def elementRead (s : State) (m : CopyCmd) (n : Nat) : Except EngineStop (State × List Byte × Int × Nat) :=
  match m.got with
  | some (bs, dst, q) => .ok (s, bs, dst, q)
  | none =>
    match elementOffset s m.agent m.pat n m.pts with
    | .error x => .error x
    | .ok (s, o, q) =>
      let (src, dst) := copyEnds m n o
      match copyRead s m.agent (m.tmpl.byteAt 1) m.tmpl.src src m.pat.size q with
      | .error x => .error x
      | .ok (s, bs, q) => .ok (s, bs, dst, q)

/-- Where an element goes: scratchpad addresses are modulo 2^19. -/
def CopyCmd.place (m : CopyCmd) (d : Int) : Int := if m.tmpl.byteAt 2 = 16 then ((wrap 19 d : Nat) : Int) else d

/-- The lower-numbered element of the first pair whose destinations overlap in part (R377); in the scratchpad, across its end too. -/
def partOverlap (m : CopyCmd) (ds : List Int) : Option Nat :=
  let gap (i j : Nat) : Nat :=
    let g := (ds.getD i 0 - ds.getD j 0).natAbs
    if m.tmpl.byteAt 2 = 16 then min g (2 ^ 19 - g) else g
  (upTo ds.length).find? (fun i => (upTo ds.length).any (fun j => i < j && gap i j != 0 && decide (gap i j < m.pat.size)))

/-- The sum of duplicates in CTYPE (R212): integers wrap, F32 in the exact order from +0, read with RNE. An element without duplicates is
written as it is. -/
def combineValues (t : Nat) (vs : List Nat) : Nat :=
  if vs.length = 1 then vs.headD 0
  else if isIntType t then intResult t false ((vs.map (intOf t)).foldl (· + ·) 0) else exactRead 0 (exactOf (vs.map (decodeF t)))

/-- Put back the command at the head of a channel. -/
def putHead (s : State) (ck ch : Nat) (m : CopyCmd) : State :=
  s.modCrew ck (fun c => { c with channels := tput c.channels ch (m :: (tget [] c.channels ch).tail) })

/-- A copy has finished (R211, R213): its release, its increment, and the next command of the channel. -/
def copyDone (s : State) (ck ch : Nat) (m : CopyCmd) : State :=
  let s := noteWrites s ck m.pts
  let s := if m.tmpl.rel then engineRelease s ck (bits (m.tmpl.byteAt 5) 4 3) m.pts else s
  let s := if bitAt (m.tmpl.byteAt 4) 7 then semRaise s ck (m.tmpl.byteAt 4 % 64) 1 else s
  s.modCrew ck (fun c => { c with channels := sput [] c.channels ch (tget [] c.channels ch).tail })

/-- A copy stops (R377): its channel drops its commands and accepts no other before the delivery. -/
def copyFail (s : State) (ck ch : Nat) (m : CopyCmd) (fidx : Nat) : State :=
  let s := noteWrites s ck m.pts
  let s := s.modCrew ck (fun c => { c with
    channels := sput [] c.channels ch []
    chanFault := if (asyncTarget s m.agent).isSome then linsert ch c.chanFault else c.chanFault })
  postAsync s m.agent 0x42 ch (word fidx)

/-- A refused access ends a copy at an element (R377, R385). -/
def copyRefused (s : State) (ck ch : Nat) (m : CopyCmd) (n code detail : Nat) (faddr : Word) : State :=
  copyFail (logRefusal s m.agent code detail faddr) ck ch m n

/-- An element of a copy meets a stop: it waits, or the command fails. -/
def copyStop (s : State) (ck ch : Nat) (m : CopyCmd) (n : Nat) (x : EngineStop) : Out :=
  match engineWait s m.agent m.wait x.1 x.2 with
  | .error f => .fault f
  | .ok (s, w) =>
    match w.refused with
    | some (code, d) => .next (copyRefused s ck ch m n code d x.2)
    | none => .next (putHead s ck ch { m with wait := w, doneAt := engineDelay s ch })

/-- The read of an element of a combining SCATTER meets a stop: it waits, or the reading ends there (R377). -/
def gatherStop (s : State) (ck ch : Nat) (m : CopyCmd) (x : EngineStop) : Out :=
  match engineWait s m.agent m.wait x.1 x.2 with
  | .error f => .fault f
  | .ok (s, w) =>
    match w.refused with
    | some (code, d) => .next (putHead s ck ch { m with wait := {}, bad := some (code, d, x.2), doneAt := s.clock + 1 })
    | none => .next (putHead s ck ch { m with wait := w, doneAt := engineDelay s ch })

/-- Every element of a combining SCATTER that can be read has been. -/
def CopyCmd.gathered (m : CopyCmd) : Bool := m.bad.isSome || decide (m.pat.total ≤ m.values.length)

/-- The value that a combining SCATTER writes to a destination: of every element read that goes there. -/
def CopyCmd.combined (m : CopyCmd) (d : Int) : List Byte :=
  bytesOf m.pat.size (combineValues m.tmpl.ctype ((m.values.filter (fun x => x.1 == d)).map (·.2)))

/-- A step of a combining SCATTER (R212): it reads its elements, looks whether their destinations overlap in part, and writes each destination
once, in the order of the elements. After a refused read the elements before it are performed (R377). -/
def combineStep (s : State) (ck ch : Nat) (m : CopyCmd) : Out :=
  if !m.gathered then
    match elementRead s m m.values.length with
    | .error x => gatherStop s ck ch m x
    | .ok (s, bs, dst, q) =>
      .next (putHead s ck ch { m with
        values := m.values ++ [(m.place dst, numOfBytes bs)], pts := q, wait := m.wait.done, doneAt := s.clock + 1 })
  else
    match (if m.next = 0 then partOverlap m (m.values.map (·.1)) else none) with
    | some n => .next (copyFail s ck ch m n)
    | none =>
      match m.values[m.next]? with
      | none =>
        (match m.bad with
         | some (code, d, f) => .next (copyRefused s ck ch m m.next code d f)
         | none => .next (copyDone s ck ch m))
      | some (d, _) =>
        let after (s : State) (q : Nat) : Out :=
          .next (putHead s ck ch { m with next := m.next + 1, pts := q, wait := m.wait.done, doneAt := s.clock + 1 })
        if (m.values.take m.next).any (fun x => x.1 == d) then after s m.pts
        else
          match copyWrite s m.agent (m.tmpl.byteAt 2) m.tmpl.dst d (m.combined d) m.pts with
          | .error x => copyStop s ck ch m m.next x
          | .ok (s, q) => after s q

/-- A step of a COPY, a GATHER or a SCATTER that orders its duplicates: one element (R211, R213). One whose write must wait has been read (R343). -/
def elementStep (s : State) (ck ch : Nat) (m : CopyCmd) : Out :=
  match elementRead s m m.next with
  | .error x => copyStop s ck ch m m.next x
  | .ok (s, bs, dst, q) =>
    match copyWrite s m.agent (m.tmpl.byteAt 2) m.tmpl.dst dst bs q with
    | .error x => copyStop s ck ch { m with got := some (bs, dst, q) } m.next x
    | .ok (s, q) => .next (putHead s ck ch { m with next := m.next + 1, pts := q, got := none, wait := m.wait.done, doneAt := s.clock + 1 })

/-- COPY_COMMAND, R211: a step of the command at the head of a channel: its acquire, one element, or its completion. -/
def execCopyCommand (s : State) : Out :=
  let ck := s.ev.subject
  let ch := s.ev.arg1
  match tget [] (s.crew ck).channels ch with
  | [] => .next s
  | m :: _ =>
    if m.wait.refused.isSome then
      let (code, d) := m.wait.refused.getD (0, 0)
      if m.tmpl.combines && !m.gathered then
        .next (putHead s ck ch { m with wait := {}, bad := some (code, d, m.wait.faddr), doneAt := s.clock + 1 })
      else .next (copyRefused s ck ch m m.next code d m.wait.faddr)
    else if !m.started then
      if m.tmpl.acq && !performedAll s m.agent then .next (putHead s ck ch { m with doneAt := s.clock + 1 })
      else
        let pts := if m.tmpl.acq then acquiredPts s m.agent (bits (m.tmpl.byteAt 5) 0 3) m.pts else m.pts
        .next (putHead s ck ch { m with started := true, pts := pts, doneAt := engineDelay s ch })
    else if m.pat.total ≤ m.next then .next (copyDone s ck ch m)
    else if m.tmpl.combines then combineStep s ck ch m
    else elementStep s ck ch m

/-! ### Subscriptions (R214 to R217) -/

/-- The trap of a SUBS descriptor (R362, R363). -/
def subsOk (b : Nat) (p : PatternSlot) : Bool :=
  let slot := bits b 20 20
  bits b 60 4 == 0 && bits b 40 8 != 0 && slot != 0 && slot % 8 == 0 && bits b 0 20 % 8 == 0 && bits b 48 6 != bits b 54 6 &&
    p.count 0 * p.count 1 * p.count 2 * p.size ≤ slot

/-- A free subscription id: one that no subscription holds, else one whose subscription has stopped. DESIGN CHOICE: the lowest such id (log 159). -/
def freeSub (c : Crew) : Option Nat :=
  match (upTo 8).find? (fun k => !thas c.subs k) with
  | some k => some k
  | none => (upTo 8).find? (fun k => match tfind? c.subs k with | some x => x.stopped | none => true)

/-- SUBS, R216: binding adds K to FREE, and reopens both semaphores (R375). DESIGN CHOICE: the subscription keeps the pattern as it is bound, and a
later STRM into its slot changes nothing of it (log 138). -/
def execSubs (s : State) : Out :=
  guarded .subs s (fun s =>
    let b := (operandB s).toNat
    let p := tget {} s.curC.patterns (bits s.ir.imm.toNat 0 6)
    if !subsOk b p then arith s 2
    else
      match freeSub s.curC with
      | none => .next (holdAt s .subs)
      | some id =>
        let full := bits b 48 6
        let free := bits b 54 6
        let x : Sub := {
          agent := s.curWk, storer := s.ir.imm.getLsbD 8, cap := readC s s.ir.a.toNat, base := (readS s s.ir.c.toNat).toInt, pat := p,
          full := full, free := free, slots := bits b 40 8, slotSize := bits b 20 20, ring := bits b 0 20, pts := s.curW.pts,
          readyAt := engineDelay s (8 + id), creg := s.ir.a.toNat, boundAt := s.clock }
        let s := s.modCrew s.curCk (fun c =>
          { c with subs := tput c.subs id x, semClosed := lerase full (lerase free c.semClosed) }.semAdd free (bits b 40 8))
        .next (finish (writeS s 0 s.ir.d.toNat (word id))))

/-- End a subscription: its take is withdrawn. -/
def dropSub (c : Crew) (id : Nat) (x : Sub) : Crew :=
  { (c.semLeave (if x.storer then x.full else x.free) (.sub id)) with subs := terase c.subs id }

/-- A subscription that the current instruction names by its id: not one that was bound while it was held (R217). -/
def namedSub (s : State) (id : Nat) : Option Sub :=
  (tfind? s.curC.subs id).filter (fun x => match s.curT.hold with | some h => decide (x.boundAt ≤ h.since) | none => true)

/-- UNSUB, R217: a tile in transfer completes first; of a stopped subscription it closes the semaphores (R375). -/
def execUnsub (s : State) : Out :=
  guarded .unsub s (fun s =>
    let id := (readS s s.ir.a.toNat).toNat
    match namedSub s id with
    | none => .next (finish s)
    | some x =>
      if x.stopped then
        .next (finish (s.modCrew s.curCk (fun c =>
          { dropSub c id x with semClosed := linsert x.full (linsert x.free c.semClosed) })))
      else if x.taken then
        .next (holdAt (s.modCrew s.curCk (fun c => { c with subs := tput c.subs id { x with cancel := true } })) .unsub)
      else .next (finish (s.modCrew s.curCk (fun c => dropSub c id x))))

/-- Put a subscription. -/
def putSub (s : State) (ck id : Nat) (x : Sub) : State := s.modCrew ck (fun c => { c with subs := tput c.subs id x })

/-- A subscription stops (R375, R377): its semaphores close, and the tile is reported. -/
def subFail (s : State) (ck id : Nat) (x : Sub) : State :=
  let s := noteWrites s ck x.pts
  let s := s.modCrew ck (fun c =>
    { c with subs := tput c.subs id { x with stopped := true, taken := false }, semClosed := linsert x.full (linsert x.free c.semClosed) })
  postAsync s x.agent 0x42 (10 + id) (word x.tile)

/-- Elements of a tile. -/
def Sub.tileElems (x : Sub) : Nat := x.pat.count 0 * x.pat.count 1 * x.pat.count 2

/-- The memory offset of element `n` of a tile, and the time (R214). -/
def subOffset (s : State) (x : Sub) (n : Nat) : Except EngineStop (State × Int × Nat) :=
  match elementOffset s x.agent x.pat (n + x.tileElems * x.tile) x.pts with
  | .error st => .error st
  | .ok (s, o, q) => .ok (s, x.cap.off + x.base + o, q)

/-- The scratchpad address of element `n` of a tile (R214). -/
def Sub.slotAddress (x : Sub) (n : Nat) : Nat := (x.ring + x.tile % x.slots * x.slotSize + n * x.pat.size) % 2 ^ 19

/-- Transfer element `n` of the tile (R214, R216). -/
def subElement (s : State) (ck : Nat) (x : Sub) (n : Nat) : Except EngineStop (State × Nat) :=
  match subOffset s x n with
  | .error st => .error st
  | .ok (s, e, q) =>
    let a := x.slotAddress n
    if x.storer then
      match (s.crew ck).scratchPoisoned a x.pat.size with
      | some wd => .error (.trap 0x50 4, word (8 * wd))
      | none =>
        match engineWrite s (ctxOf s x.agent) x.cap e ((s.crew ck).scratchBytes a x.pat.size) q engineW with
        | .error st => .error (st, faddrOf x.creg 0 e)
        | .ok (s, q) => .ok (s, q)
    else
      match engineRead s (ctxOf s x.agent) x.cap e x.pat.size q engineR with
      | .error st => .error (st, faddrOf x.creg 0 e)
      | .ok (s, bs, q) => .ok (s.modCrew ck (fun c => c.scratchWrite a bs), q)

/-- A tile is transferred: the semaphore of the other side rises, a loader's with a CREW release; the last tile, or a cancelled
subscription, ends it (R216, R217). -/
def tileDone (s : State) (ck id : Nat) (x : Sub) : State :=
  let s := noteWrites s ck x.pts
  let s := if x.storer then semRaise s ck x.free 1 else semRaise (engineRelease s ck 1 x.pts) ck x.full 1
  let x := { x with tile := x.tile + 1, taken := false, next := 0, readyAt := engineDelay s (8 + id) }
  if x.cancel || x.pat.count 3 ≤ x.tile then s.modCrew ck (fun c => dropSub c id x) else putSub s ck id x

/-- SUBSCRIPTION_TILE, R216: a step of a subscription: its take, an element of its tile, or the end of the tile. -/
def execSubscriptionTile (s : State) : Out :=
  let ck := s.ev.subject
  let id := s.ev.arg1
  match tfind? (s.crew ck).subs id with
  | none => .next s
  | some x =>
    let sem := if x.storer then x.full else x.free
    if x.stopped then .next s
    else if x.wait.refused.isSome then
      let (code, d) := x.wait.refused.getD (0, 0)
      .next (subFail (logRefusal s x.agent code d x.wait.faddr) ck id x)
    else if x.pat.count 3 ≤ x.tile then .next (s.modCrew ck (fun c => dropSub c id x))
    else if !x.taken then
      if !(s.crew ck).semIsClosed sem && (s.crew ck).semMayTake sem 1 (.sub id) then
        let s := s.modCrew ck (fun c => (c.semTake sem 1).semLeave sem (.sub id))
        let pts := if x.storer then max x.pts (s.crew ck).relMark else x.pts
        .next (putSub s ck id { x with taken := true, queued := false, pts := pts, readyAt := engineDelay s (8 + id) })
      else .next (putSub (s.modCrew ck (fun c => c.semJoin sem (.sub id))) ck id { x with queued := true, readyAt := s.clock + 1 })
    else if x.tileElems ≤ x.next then .next (tileDone s ck id x)
    else
      match subElement s ck x x.next with
      | .ok (s, q) => .next (putSub s ck id { x with next := x.next + 1, pts := q, wait := x.wait.done, readyAt := s.clock + 1 })
      | .error st =>
        match engineWait s x.agent x.wait st.1 st.2 with
        | .error f => .fault f
        | .ok (s, w) =>
          match w.refused with
          | some (code, d) => .next (subFail (logRefusal s x.agent code d st.2) ck id x)
          | none => .next (putSub s ck id { x with wait := w, readyAt := engineDelay s (8 + id) })

end Sys2Proof.Machine
end

