-- ==== Sys2Proof/Machine/Frame.lean ====
section
/-! DEFINITION. The context frame (R371, R372): where a division's frames lie, what a frame holds of a crew, and writing it. Where R372 gives a
part no inner layout, this file gives one (log 133). -/

namespace Sys2Proof.Machine

/-! ### Where frames lie (R371) -/

/-- The physical address of frame `n` of a die: frame n mod 256 of division n / 256, 4 MiB each from the start of the quarter's top 1 GiB. -/
def frameBase (die n : Nat) : Nat := (n / 256 + 1) * quarterBytes die - 2 ^ 30 + n % 256 * 2 ^ 22

/-- The lowest frame of a division that no crew of the die has taken. -/
def freeFrame (s : State) (die div : Nat) : Option Nat :=
  (upTo 256).map (256 * div + ·) |>.find? (fun n => !s.crews.any (fun e => e.2.die == die && e.2.frame == some n))

/-- How many frames of a division no crew of the die has taken. -/
def freeFrames (s : State) (die div : Nat) : Nat :=
  256 - (s.crews.filter (fun e => e.2.die == die && (match e.2.frame with | some n => n / 256 == div | none => false))).length

/-! ### What a frame holds (R372) -/

/-- A part of a frame that is written: its place, its length, its bytes by offset in the frame where not 0, and the tagged granules. -/
structure FramePart where
  off : Nat
  len : Nat
  bytes : Table Byte
  tags : List Nat := []
  deriving DecidableEq, Repr

/-- Bytes at an offset. -/
def denseBytes (off : Nat) (bs : List Byte) : Table Byte := ((upTo bs.length).map (fun i => (off + i, bs.getD i 0))).filter (fun e => e.2 != 0)

/-- 64-bit words at an offset. -/
def frameWords (off : Nat) (ws : List Nat) : Table Byte := denseBytes off (ws.flatMap (bytesOf 8))

/-- Capabilities at an offset, 16 bytes each: the bytes, and the granules that are tagged. -/
def frameCaps (off : Nat) (cs : List Cap) : Table Byte × List Nat :=
  (denseBytes off (cs.flatMap Cap.toBytes), ((upTo cs.length).filter (fun i => (cs.getD i {}).tag)).map (fun i => off / 16 + i))

/-- A part of several pieces. -/
def framePart (off len : Nat) (ps : List (Table Byte × List Nat)) : FramePart := ⟨off, len, ps.flatMap (·.1), ps.flatMap (·.2)⟩

/-- A number that may be absent: 0, else one more. -/
def optWord (x : Option Nat) : Nat := match x with | some n => n + 1 | none => 0

/-- A truth value as a word. -/
def boolWord (b : Bool) : Nat := if b then 1 else 0

/-- An integer as a 64-bit word. -/
def intWord (x : Int) : Nat := wrap 64 x

/-- The header. -/
def headerPart (s : State) (ck : Nat) : FramePart :=
  let c := s.crew ck
  framePart 0 0x1000 [(frameWords 0 [c.asid, c.crewid, c.age, c.prio, c.kitty, c.krate, c.relMark, optWord c.stage, optWord c.pipeline,
    optWord (c.pair.map (fun p => (s.crew p).crewid)), c.cur.length], []),
    (frameWords 0x80 ((c.cur.take 240).flatMap (fun e => [e.1, e.2])), [])]

/-- A subscription in 256 bytes. -/
def subPiece (off : Nat) (x : Sub) : List (Table Byte × List Nat) :=
  [(frameWords off [1, widOf x.agent, boolWord x.storer, intWord x.base, x.full, x.free, x.slots, x.slotSize, x.ring, x.tile, x.next,
    boolWord x.taken, boolWord x.stopped, x.pts], []), frameCaps (off + 0x80) [x.cap, x.pat.icap], (denseBytes (off + 0xC0) (x.pat.record.take 64), [])]

/-- The core state: semaphores at 0x1000, the barrier at 0x1200, the forerunner and the live ids at 0x1208, the tile status words at 0x1300,
reservations at 0x1400, gangs at 0x1800 and subscriptions at 0x2000. -/
def corePart (s : State) (ck : Nat) : FramePart :=
  let c := s.crew ck
  framePart 0x1000 0x3000 ([
    (frameWords 0x1000 ((upTo 64).map (fun k => tget 0 c.sems k + (if c.semIsClosed k then 2 ^ 32 else 0))), []),
    (frameWords 0x1200 ([c.barPhase, optWord c.forerunner] ++ ((c.commands.map (·.2.id)).filter (· != 0)).take 16), []),
    (frameWords 0x1300 ((upTo 8).map (fun t => (c.status t).word'.toNat)), []),
    (frameWords 0x1400 ((upTo 8).flatMap (fun q =>
      match tfind? c.resv q with | some r => [1, r.t, r.mod, r.first, r.lines, r.scl, intWord r.xoff, 0] | none => [0, 0, 0, 0, 0, 0, 0, 0])), []),
    (frameWords 0x1800 ((upTo 4).flatMap (fun g =>
      let x := tget {} c.gangs g
      let at' (l : List Nat) : List Nat := (upTo 8).map (fun i => l.getD i 0)
      [x.waves.length, x.accepted, optWord x.failed, x.waiting.length] ++ at' x.waves ++ at' (x.waves.map (fun w => tget 0 x.counts w)) ++
        at' (x.waiting.map (fun e => widOf (waveOf e.thread))) ++ [0, 0, 0, 0])), [])] ++
    c.subs.flatMap (fun e => subPiece (0x2000 + 256 * e.1) e.2))

/-- The pattern slots. -/
def patternPart (c : Crew) : FramePart :=
  framePart 0x4000 0x2000 (c.patterns.flatMap (fun e => [(denseBytes (0x4000 + 80 * e.1) (e.2.record.take 64), []), frameCaps (0x4040 + 80 * e.1) [e.2.icap]]))

/-- The templates. -/
def templatePart (c : Crew) : FramePart :=
  framePart 0x6000 0x2000 (c.templates.flatMap (fun e =>
    [(denseBytes (0x6000 + 96 * e.1) (e.2.record.take 64), []), frameCaps (0x6040 + 96 * e.1) [e.2.src, e.2.dst]]))

/-- A sequencer: PC, `PTS`, the idle flag and the counters; s0 to s63 at 0x100, c0 to c15 at 0x300. -/
def sequencerPart (s : State) (wk off : Nat) : FramePart :=
  let t := s.thread (32 * wk)
  let w := s.wave wk
  framePart off 0x1000 [
    (frameWords off ([t.pc.toNat, w.pts, boolWord (t.state == .idle)] ++ (upTo 6).map w.counter), []),
    (frameWords (off + 0x100) ((upTo 64).map (fun r => (t.sreg r).toNat)), []), frameCaps (off + 0x300) ((upTo 16).map t.creg)]

/-- The tiles, row by row. -/
def tilePart (c : Crew) : FramePart :=
  framePart 0x10000 0x20000 (c.tiles.map (fun e => (denseBytes (0x10000 + 4 * e.1) (bytesOf 4 e.2.toNat), [])))

/-- The record of an exact state (R80). -/
def ExactState.record (x : ExactState) : List Byte :=
  bytesOf 40 x.q ++ bytesOf 6 x.n ++ bytesOf 2 (boolWord x.nan + 2 * boolWord x.pinf + 4 * boolWord x.ninf + 8 * boolWord x.ovf)

/-- The exact state that a record holds (R80). -/
def exactOfRecord (bs : List Byte) : ExactState :=
  let f := numOfBytes ((bs.drop 46).take 1)
  { q := numOfBytes (bs.take 40), n := numOfBytes ((bs.drop 40).take 6), nan := bitAt f 0, pinf := bitAt f 1, ninf := bitAt f 2, ovf := bitAt f 3 }

/-- The exact stores of a0 and a1. -/
def exactPart (c : Crew) : FramePart :=
  framePart 0x30000 0x60000 ((c.exact.filter (fun e => e.1 < 8192)).map (fun e => (denseBytes (0x30000 + 48 * e.1) e.2.record, [])))

/-- Bytes of a store of the core. -/
def storePart (off len : Nat) (t : Table Byte) : FramePart := ⟨off, len, t.map (fun e => (off + e.1, e.2)), []⟩

/-- The state of a fragment as a number. -/
def ThreadState.code : ThreadState → Nat
  | .live => 0
  | .joined => 1
  | .barred => 2
  | .deferred => 3
  | .idle => 4

/-- A fragment: state, PC, mask, age, last issue; s0 to s63 at 0x30, c0 to c15 at 0x230, the join stack at 0x330. -/
def fragmentPart (off : Nat) (t : Thread) : FramePart :=
  framePart off 0x400 [
    (frameWords off [t.state.code, t.pc.toNat, t.mask.toNat, t.age, t.last, t.joins.length], []),
    (frameWords (off + 0x30) ((upTo 64).map (fun r => (t.sreg r).toNat)), []), frameCaps (off + 0x230) ((upTo 16).map t.creg),
    (frameWords (off + 0x330) (t.joins.take 16), [])]

/-- A wave's vector registers up to the allotment, lane by lane. -/
def vectorPart (off vallot : Nat) (w : Wave) : FramePart :=
  framePart off (256 * vallot) (w.v.map (fun e => (denseBytes (off + 8 * e.1) (bytesOf 8 e.2.toNat), [])))

/-- A wave's other state: p0 to p31; the control registers, `PTS`, counters and monitor at 0x4080, `LID` at 0x4200, the shadow at 0x4300 and
the join records at 0x4340. -/
def waveStatePart (c : Crew) (wk off : Nat) (w : Wave) : FramePart :=
  let mon := match w.monitor with | some m => [1, 64 * m.line, m.ts, boolWord m.hit] | none => [0, 0, 0, 0]
  framePart (off + 0x4000) 0x1000 [
    (denseBytes (off + 0x4000) ((upTo 32).flatMap (fun r => bytesOf 4 (w.preg r).toNat)), []),
    (frameWords (off + 0x4080) ([c.vallot * 256 + c.prio * 16 + boolWord w.hm, w.cause.toNat, w.epc.toNat, w.faddr.toNat, w.fmask.toNat,
      w.repidx.toNat, boolWord w.scbchk, w.tracectl.toNat, w.pts] ++ (upTo 6).map w.counter ++ mon), []),
    (frameWords (off + 0x4200) ((upTo 32).map (fun L => (lidOf w wk L).toNat)), []),
    (frameWords (off + 0x4300) ((upTo 8).map (fun i => (w.shadow.getD i 0).toNat)), []),
    (frameWords (off + 0x4340) ((w.joins.take 32).flatMap (fun j => [j.2.token, j.2.expect.toNat, j.2.stay.toNat])), [])]

/-- The record of a wave. -/
def waveParts (s : State) (ck wid : Nat) : List FramePart :=
  let wk := 64 * ck + wid
  let w := s.wave wk
  let c := s.crew ck
  let off := 0x120000 + 2 ^ 16 * wid
  [vectorPart off c.vallot w, waveStatePart c wk off w] ++ (s.threadsOf wk).map (fun k => fragmentPart (off + 0x5000 + 1024 * (k % 32)) (s.thread k))

/-- The parts that a crew uses, in the order of R372. DESIGN CHOICE: a crew uses the exact stores while some state in them is not empty, and the other
stores in the same way; the bytes of a part that is not used stay as they were (log 160). -/
def frameParts (s : State) (ck : Nat) : List FramePart :=
  let c := s.crew ck
  let used (b : Bool) (p : FramePart) : List FramePart := if b then [p] else []
  [headerPart s ck, corePart s ck] ++ used (!c.patterns.isEmpty) (patternPart c) ++ used (!c.templates.isEmpty) (templatePart c) ++
    ((upTo 2).filter (fun k => thas s.threads (32 * (64 * ck + 32 + k)))).map (fun k => sequencerPart s (64 * ck + 32 + k) (0x8000 + 0x1000 * k)) ++ used (!c.tiles.isEmpty) (tilePart c) ++
    used (!c.exact.isEmpty) (exactPart c) ++ used (!c.opbuf.isEmpty) (storePart 0x90000 0x10000 c.opbuf) ++
    used (!c.scratch.isEmpty) (storePart 0xA0000 0x80000 c.scratch) ++
    ((s.wavesOf ck).filter (fun w => !isSequencer w)).flatMap (fun w => waveParts s ck (widOf w))

/-! ### Writing a frame -/

/-- A range of a memory table replaced by the bytes of a list, by offset from the range's start; the others of it are 0. -/
def memReplace (m : Table Byte) (lo n : Nat) (t : List (Nat × Byte)) : Table Byte :=
  m.filter (fun e => decide (e.1 < lo)) ++ (t.foldr (fun e acc => if e.1 < n then sput 0 acc e.1 e.2 else acc) []).map (fun e => (lo + e.1, e.2)) ++
    m.filter (fun e => decide (lo + n ≤ e.1))

/-- Write a part of a frame whose first byte has the key `base`, at a logical time: bytes, tags and the lines' timestamps; its poison is gone, and
the bytes are in DRAM. -/
def writePart (base ts : Nat) (s : State) (p : FramePart) : State :=
  let lo := base + p.off
  let l0 := lo / 64
  let l1 := (lo + p.len) / 64
  let inside (l : Nat) : Bool := decide (l0 ≤ l) && decide (l < l1)
  { s with
    mem := memReplace s.mem lo p.len (p.bytes.map (fun e => (e.1 - p.off, e.2)))
    tags := p.tags.foldl (fun ts g => linsert (base / 16 + g) ts) (s.tags.filter (fun g => !inside (g / 4)))
    poison := s.poison.filter (fun l => !inside l)
    dram := s.dram.filter (fun e => !inside e.1)
    lines := s.lines.filter (fun e => decide (e.1 < l0)) ++ (upTo (l1 - l0)).map (fun i => (l0 + i, (ts, ts))) ++
      s.lines.filter (fun e => decide (l1 ≤ e.1)) }

/-- The highest timestamp of the lines of a frame. -/
def frameTime (s : State) (base : Nat) : Nat :=
  s.lines.foldl (fun m e => if base / 64 ≤ e.1 ∧ e.1 < base / 64 + 2 ^ 16 then max m (max e.2.1 e.2.2) else m) 0

/-- Write a crew's context to a frame of its die, at a time above every earlier access to it and no lower than `p` (R177). -/
def writeFrame (s : State) (ck n p : Nat) : State :=
  let base := keyOf (s.crew ck).die (frameBase (s.crew ck).die n)
  (frameParts s ck).foldl (writePart base (max p (frameTime s base + 1))) s

/-- Lines of a frame that other dies hold copies of: the home recalls them before it writes. -/
def frameShared (s : State) (die n : Nat) : List Nat :=
  let l := keyOf die (frameBase die n) / 64
  (s.directory.filter (fun e => decide (l ≤ e.1) && decide (e.1 < l + 2 ^ 16) && (e.2.state != .i || e.2.busy.isSome))).map (·.1)

/-- A crew's frame has a poisoned line (R394). -/
def framePoisoned (s : State) (ck : Nat) : Bool :=
  let c := s.crew ck
  match c.frame with
  | none => false
  | some n => let l := keyOf c.die (frameBase c.die n) / 64; s.poison.any (fun x => decide (l ≤ x) && decide (x < l + 2 ^ 16))

end Sys2Proof.Machine
end

