-- ==== Sys2Proof/Machine/Placement.lean ====
section
/-! DEFINITION. Placing crews on cores, ending them, taking them off for others and restoring them; kitties, program timestamps, and the
moves of crews between stages (R83 to R87, R99, R156, R178, R228, R256, R260, R261, R280 to R282, R371 to R373, R407, R409). -/

namespace Sys2Proof.Machine

/-! ### Cores -/

/-- The crew holds its core. -/
def Crew.onCore (c : Crew) : Bool := c.state == .running || c.state == .stopping || c.state == .held

/-- The free cores of a die: no crew holds them, and they are not retired (R83, R409). -/
def freeCores (s : State) (die : Nat) : List Nat :=
  let d := s.die die
  let used := (s.crews.filter (fun e => e.2.die == die && e.2.onCore)).map (·.2.core)
  (upTo (coresOf die)).filter (fun k => !used.contains k && !coreRetired d k && !d.retiring.contains k)

/-- The order of R83 among candidate cores: the division with the most free cores, then the heat, then the core. -/
def coreOrder (die : Nat) (free : List Nat) (k : Nat) : List Nat :=
  let inDiv := (free.filter (fun j => divisionOf die j == divisionOf die k)).length
  let inHeat := (free.filter (fun j => heatOf j == heatOf k)).length
  [coresOf die - inDiv, divisionOf die k, coresOf die - inHeat, heatOf k, k]

/-- The core that R83 gives a crew; for a pair, the even core of a free neighbour pair (R240). -/
def chooseCore (s : State) (die : Nat) (pair : Bool) : Option Nat :=
  let free := freeCores s die
  minBy (coreOrder die free) (if pair then free.filter (fun k => k % 2 == 0 && free.contains (k + 1)) else free)

/-- The waves of a crew that have not ended. -/
def liveWaves (s : State) (ck : Nat) : List Nat := (s.wavesOf ck).filter (fun w => !isSequencer w && !(s.wave w).ended)

/-- Every wave of the crew is parked (R156). -/
def allParked (s : State) (ck : Nat) : Bool := let ws := liveWaves s ck; !ws.isEmpty && ws.all (fun w => (s.wave w).parked)

/-- The partner with which a crew is placed and taken off: of an unbroken pair whose partner has not ended (R240, R373). -/
def partnerOf (s : State) (ck : Nat) : Option Nat :=
  let c := s.crew ck
  match c.pair with
  | some p => if c.paired && !c.pairBroken && (s.crew p).state != .ended then some p else none
  | none => none

/-- The crew's stage has closed (R281). -/
def onClosed (s : State) (c : Crew) : Bool := match c.stage with | some i => (s.instance' i).closed | none => false

/-- A crew that waits for a core: not held for a frame tick, and not spilled with every page still missing (R156). -/
def waitsForCore (s : State) (ck : Nat) (c : Crew) : Bool := c.state == .waiting && !c.budgetHeld && !onClosed s c && !(c.started && allParked s ck)

/-- A crew of a die that can be placed: it waits, and so does the partner with which it is placed (R373). -/
def placeable (s : State) (die : Nat) (e : Nat × Crew) : Bool :=
  e.2.die == die && waitsForCore s e.1 e.2 && (match partnerOf s e.1 with | some p => waitsForCore s p (s.crew p) | none => true)

/-- The first waiting crew of a die (R83). -/
def firstWaiting (s : State) (die : Nat) : Option Nat :=
  (minBy (fun (e : Nat × Crew) => [e.2.prio, e.2.age, e.2.crewid, e.1]) (s.crews.filter (placeable s die))).map (·.1)

/-! ### Starting and restoring -/

/-- Start the waves of a crew in the state of R85, with a program timestamp (R185). -/
def startWaves (s : State) (ck pts : Nat) : State :=
  let c := s.crew ck
  (upTo c.nwaves).foldl (fun s w =>
    let wk := 64 * ck + w
    let s := s.putWave wk { pts := pts, scbchk := c.scb }
    s.putThread (32 * wk) {
      state := .live, pc := c.entry, mask := BitVec.allOnes 32, s := c.args, c := c.cargs, age := s.clock, last := s.clock
      readyAt := s.clock + 1 }) s

/-- CUR of every versioned object of an ASID, as its table stands (R144, R146): entries whose top byte says V and KIND 5. -/
def resolveCur (s : State) (die asid : Nat) : Table Nat :=
  let lo := entryKey s die asid 0
  let n := (tget {} (s.die die).asids asid).count
  s.mem.filterMap (fun e =>
    if lo ≤ e.1 ∧ (e.1 - lo) % 32 = 7 ∧ (e.1 - lo) / 32 < n ∧ e.2.toNat / 16 = 13 then
      (entryOf s die asid ((e.1 - lo) / 32)).map (fun t => ((e.1 - lo) / 32, t.w3 % 2))
    else none)

/-- The crew's first start: its clean state, the extents of versioned objects, and a `PTS` no lower than their flips in its ASID (R85, R146,
R185). -/
def startCrew (s : State) (ck : Nat) : State :=
  let c := s.crew ck
  let s := s.modCrew ck (fun c => { c with started := true, cur := resolveCur s c.die c.asid })
  startWaves s ck (max c.startPts (tget 0 (s.die c.die).flips c.asid))

/-- A SYNC set of a restored wave (R417). -/
def syncRestored (s : State) (wk : Nat) : State :=
  match (s.threadsOf wk).head? with
  | none => s
  | some k => traceSyncSet s k (s.thread k).nextAddress

/-- A crew of a pipeline that has left its stage and waits for another has no waves (R260). -/
def Crew.between (c : Crew) : Bool := c.started && c.pipeline.isSome && c.stage.isNone

/-- Put a crew on a core: its waves start, or go on as they were saved (R83, R373); one between two stages waits there for a stage (R260). A damaged
context frame kills it (R394). -/
def placeOn (s : State) (ck core : Nat) : State :=
  if (s.crew ck).frameBad || framePoisoned s ck then killFamily s ck 5 { code := 0x60, detail := 5, wid := 0xFF, src := 5 }
  else
    let s := s.modCrew ck (fun c => { c with
      state := if c.between then .held else .running, core := core, frame := none, stopFor := none })
    if (s.crew ck).started then (liveWaves s ck).foldl syncRestored s else startCrew s ck

/-- CREW_PLACEMENT, R83: the first waiting crew takes a free core, a paired one with its partner a free neighbour pair (R240). -/
def execCrewPlacement (s : State) : Out :=
  let die := s.ev.subject
  match firstWaiting s die with
  | none => .next s
  | some ck =>
    match partnerOf s ck with
    | none =>
      (match chooseCore s die false with
       | none => .next s
       | some k => .next (placeOn s ck k))
    | some p =>
      match chooseCore s die true with
      | none => .next s
      | some k =>
        let odd := (s.crew ck).crewid % 2
        .next (placeOn (placeOn s ck (k + odd)) p (k + 1 - odd))

/-! ### Taking crews off their cores -/

/-- A matrix command that cannot complete while the partner issues nothing (R240). -/
def unmatched (s : State) (c : Crew) (m : MatrixCmd) : Bool :=
  m.op == .mmap && !m.started && (match c.pair with | some p => (s.crew p).mmapCount ≤ m.pairIdx | none => true)

/-- An access lets its crew be taken off: it has completed but for an earlier one of its path, or its instruction waits for a page (R156). -/
def restable (s : State) (id : Nat) (a : Access) : Bool :=
  let held (j : Nat) : Bool := s.threads.any (fun e => waveOf e.1 == a.wave && e.2.park.isSome &&
    (match e.2.hold with | some h => h.arg == j + 1 && !countsHold h.op | none => false))
  a.command.isSome || held id ||
    (decide (a.doneAt ≤ s.clock) && s.accesses.any (fun e => e.2.wave == a.wave && e.2.path == a.path && decide (e.1 < id) && held e.1))

/-- Every access and every engine command of a crew has completed and its fixed-latency writes have landed (R40), but for the held instructions
of parked waves and commands that wait behind an unmatched MMAP (R256). -/
def drained (s : State) (ck : Nat) : Bool :=
  let c := s.crew ck
  s.accesses.all (fun e => crewOf e.2.wave != ck || restable s e.1 e.2) && s.waves.all (fun w => crewOf w.1 != ck || w.2.late.all (fun l => decide (l.landAt ≤ s.clock))) &&
    c.channels.all (fun q => q.2.isEmpty) && c.subs.all (fun x => !x.2.taken) &&
    s.dies.all (fun d => d.2.collectives.all (fun x => x.crew != ck)) &&
    (c.commands.all (fun m => !m.2.started) && (c.commands.isEmpty || c.commands.any (fun m => unmatched s c m.2)))

/-- Both sequencers of a crew are idle. -/
def sequencersIdle (s : State) (ck : Nat) : Bool :=
  (s.thread (32 * (64 * ck + 32))).state == .idle && (s.thread (32 * (64 * ck + 33))).state == .idle

/-- The crews that a stop takes off together: a crew, and its partner where it runs too (R373). -/
def stopSet (s : State) (ck : Nat) : List Nat := ck :: (partnerOf s ck).toList.filter (fun p => (s.crew p).state == .running)

/-- Frames are free in a crew's division for it and the partner that stops with it (R371). -/
def framesFree (s : State) (ck : Nat) : Bool :=
  let c := s.crew ck
  decide ((stopSet s ck).length ≤ freeFrames s c.die (divisionOf c.die c.core))

/-- The highest time of a crew's agents, of its engine commands' writes, and of its release mark (R183). -/
def crewTime (s : State) (ck : Nat) : Nat :=
  (s.wavesOf ck).foldl (fun m w => max m (s.wave w).pts) (max (s.crew ck).relMark (s.crew ck).wroteTs)

/-- A wave that an interrupted `REP` leaves: `REPIDX` is its next iteration, and `EPC` its address outside a handler (R117). -/
def interruptRep (s : State) (wk : Nat) : State :=
  match (s.threadsOf wk).find? (fun k => (s.thread k).rep.isSome) with
  | none => s
  | some k =>
    let t := s.thread k
    s.modWave wk (fun w => { w with
      repidx := match t.rep with | some r => BitVec.ofNat 16 r.i | none => w.repidx, epc := if w.handler.isNone then t.pc else w.epc })

/-- A crew takes a free frame of its core's division. -/
def takeFrame (s : State) (ck : Nat) : State :=
  s.modCrew ck (fun c => { c with frame := freeFrame s c.die (divisionOf c.die c.core) })

/-- Save a crew to its context frame and free its core (R256, R372). -/
def saveCrew (s : State) (ck : Nat) (goal : CrewState) : State :=
  let s := (s.wavesOf ck).foldl (fun s w => (interruptRep s w).modWave w (fun x => { x with late := [] })) s
  let s := match (s.crew ck).frame with | some n => writeFrame s ck n (crewTime s ck) | none => s
  s.modCrew ck (fun c => { c with state := goal, stopFor := none, quarterErrors := [] })

/-- Where a stopping crew goes: a budget's close keeps it until the next tick (R272). -/
def stopTarget (c : Crew) : CrewState := if c.stopFor = some 1 then .preempted else .waiting

/-- Save crews that stop together, once everything of theirs has completed, each has a frame, and no other die shares a line of one: until then
they stay as they are, and lines of the frames are recalled. -/
def saveCrews (s : State) (cks : List Nat) : State × Bool :=
  if !cks.all (drained s) then (s, false)
  else
    let u := cks.foldl takeFrame s
    if !cks.all (fun k => (u.crew k).frame.isSome) then (s, false)
    else
      let shared := cks.flatMap (fun k => frameShared u (u.crew k).die ((u.crew k).frame.getD 0))
      if shared.isEmpty then (cks.foldl (fun s k => saveCrew s k (stopTarget (s.crew k))) u, true)
      else (shared.foldl (fun s l => recallForHome s (dieOfKey (64 * l)) l) s, false)

/-- A crew on its core that is marked to be taken off (R272, R409). -/
def markedCrew (s : State) (die : Nat) : Option Nat :=
  (s.crews.find? (fun e => e.2.die == die && (e.2.state == .running || e.2.state == .held) && e.2.stopFor.isSome && framesFree s e.1)).map (·.1)

/-- The victim of R256 for a waiting crew of a class: the highest class above it, the youngest launch, the highest `CREWID`. DESIGN CHOICE: a crew
that stays on its core without waves (R260) does not run, and is never chosen (log 154). -/
def victimFor (s : State) (die cls : Nat) : Option Nat :=
  (minBy (fun (e : Nat × Crew) => [3 - e.2.prio, 2 ^ 64 - e.2.age, 2 ^ 32 - e.2.crewid, e.1])
    (s.crews.filter (fun e => e.2.die == die && e.2.state == .running && cls < e.2.prio && framesFree s e.1))).map (·.1)

/-- The crew that a pre-emption should now begin with (R256, R272). -/
def nextVictim (s : State) (die : Nat) : Option Nat :=
  match markedCrew s die with
  | some ck => some ck
  | none =>
    match firstWaiting s die with
    | none => none
    | some ck => if (freeCores s die).isEmpty then victimFor s die (s.crew ck).prio else none

/-- Stop a crew at its instruction boundaries (R256). -/
def stopCrew (s : State) (why ck : Nat) : State := s.modCrew ck (fun c => { c with state := .stopping, stopFor := some (c.stopFor.getD why) })

/-- A crew that stops, with its partner where that stops too. -/
def stopping (s : State) (ck : Nat) : List Nat := ck :: (partnerOf s ck).toList.filter (fun p => (s.crew p).state == .stopping)

/-- PREEMPTION, R256, R373: begin to stop a victim, a paired one with its partner; when everything of theirs has completed, save them. -/
def execPreemption (s : State) : Out :=
  let die := s.ev.subject
  let put (s : State) (p : Option Nat) : State := s.modDie die (fun d => { d with preempting := p })
  match (s.die die).preempting with
  | some ck =>
    if (s.crew ck).state != .stopping then .next (put s none)
    else
      let (s, saved) := saveCrews s (stopping s ck)
      .next (if saved then put s none else s)
  | none =>
    match nextVictim s die with
    | none => .next s
    | some ck => .next (put ((stopSet s ck).foldl (stopCrew · ((s.crew ck).stopFor.getD 0)) s) (some ck))

/-- CREW_SPILL, R156: a crew all of whose waves are parked stops, with its partner where it is paired (R373), when frames are free; once its
commands are complete it is saved and gives up its core. -/
def execCrewSpill (s : State) : Out :=
  let ck := s.ev.subject
  let c := s.crew ck
  if c.state = .running ∧ allParked s ck ∧ framesFree s ck then .next ((stopSet s ck).foldl (stopCrew · 3) s)
  else if c.state = .stopping then .next (saveCrews s (stopping s ck)).1
  else .next s

/-! ### The end of a crew -/

/-- The waves of a placed crew have all ended, and its commands are complete (R87, R204). -/
def crewOver (s : State) (ck : Nat) : Bool :=
  let c := s.crew ck
  c.state == .running && (liveWaves s ck).isEmpty && c.started && sequencersIdle s ck &&
    c.channels.all (fun q => q.2.isEmpty) && c.commands.isEmpty && s.dies.all (fun d => d.2.collectives.all (fun x => x.crew != ck))

/-- Cancel the subscriptions of a crew (R87, R217): a tile in transfer completes first. -/
def cancelSubs (s : State) (ck : Nat) : State :=
  let s := (s.crew ck).subs.foldl (fun s e => if e.2.taken then s else s.modCrew ck (fun c => dropSub c e.1 e.2)) s
  s.modCrew ck (fun c => { c with subs := c.subs.map (fun e => (e.1, { e.2 with cancel := true })) })

/-- End a crew: its core is free, its partner learns of it (R87, R381). -/
def finishCrew (s : State) (ck : Nat) : State :=
  let p := crewTime s ck
  let s := s.modLaunch (s.crew ck).launch (fun l => { l with pts := max l.pts p })
  breakPair (dropCrew s ck) ck

/-- CREW_END, R87: the crew of a GRID launch or node ends, once its subscriptions are cancelled. -/
def execCrewEnd (s : State) : Out :=
  let ck := s.ev.subject
  if (s.crew ck).pipeline.isSome ∨ !crewOver s ck then .next s
  else
    let s := cancelSubs s ck
    .next (if (s.crew ck).subs.isEmpty then finishCrew s ck else s)

/-! ### Crews of a pipeline (R260, R261, R280 to R282) -/

/-- The stages that a pipeline is accountable for, in stage order (R280). -/
def ownStages (s : State) (p : Nat) : List Nat :=
  (s.pipeline p).path.filter (fun i => (s.instance' i).accountable == p && !(s.instance' i).closed)

/-- Crews assigned to an instance. -/
def crewsOn (s : State) (i : Nat) : Nat := (s.crews.filter (fun e => e.2.stage == some i && e.2.state != .ended)).length

/-- A stage is open (R259). -/
def stageOpen (s : State) (i : Nat) : Bool := !(s.instance' i).closed && !exhausted s i

/-- The greatest of a list by occupancy over capacity of its input, ties to the later one; `low` takes the least, ties to the earlier. -/
def byLoad (s : State) (low : Bool) (is : List Nat) : Option Nat :=
  is.foldl (fun best i =>
    match best with
    | none => some i
    | some j =>
      let a := inputOccupancy s i * max 1 (inputCapacity s j)
      let b := inputOccupancy s j * max 1 (inputCapacity s i)
      if low then (if a < b then some i else some j) else (if b ≤ a then some i else some j)) none

/-- The stage that a crew that leaves goes to (R260): the stage of its move, else the fullest open one below its MAXC. -/
def nextStage (s : State) (c : Crew) : Option Nat :=
  let own := ownStages s (c.pipeline.getD 0)
  match c.move with
  | some i => if own.contains i then some i else byLoad s false (own.filter (fun i => stageOpen s i && crewsOn s i < (s.instance' i).maxc))
  | none => byLoad s false (own.filter (fun i => stageOpen s i && crewsOn s i < (s.instance' i).maxc))

/-- Start a crew on a stage (R260): fresh waves with the stage's kernel and the pool's argument block, at a program timestamp. -/
def assignStage (s : State) (ck i pts : Nat) : State :=
  let c := s.crew ck
  let pl := s.pipeline (c.pipeline.getD 0)
  let x := s.instance' i
  let s := s.putCrew ck { c with
    state := .running, stage := some i, move := none, asid := x.asid, cur := if c.asid = x.asid ∧ c.started then c.cur else resolveCur s c.die x.asid
    codeObj := x.codeObj, entry := x.entry, vallot := x.vallot
    nwaves := pl.nwaves, args := pl.args, cargs := pl.cargs, scb := pl.scb }
  startWaves s ck pts

/-- The program timestamp with which a crew that leaves its stage starts again (R260): the largest of its waves' and sequencers', and its release mark. -/
def restartTime (s : State) (ck : Nat) : Nat := (s.wavesOf ck).foldl (fun m w => max m (s.wave w).pts) (s.crew ck).relMark

/-- Remove the waves of a crew that leaves its stage (R260): it keeps its core and the rest of its state; the barrier returns to phase 0. -/
def clearWaves (s : State) (ck : Nat) : State :=
  let s := s.modCrew ck (fun c => { c with
    stage := none, barPhase := 0, gangs := [], semQueue := [], reord := [], kittyQueue := [], forerunner := none, startPts := restartTime s ck })
  { s with
    threads := s.threads.filter (fun e => crewOf (waveOf e.1) ≠ ck)
    waves := s.waves.filter (fun e => crewOf e.1 ≠ ck)
    accesses := s.accesses.filter (fun e => crewOf e.2.wave ≠ ck) }

/-- Release a pipeline's references when its last stage has closed, or its crews have all ended (R281). -/
def releaseIfOver (s : State) (p : Nat) : State :=
  let pl := s.pipeline p
  let lastOver := match pl.path.getLast? with | some i => !stageOpen s i && crewsOn s i == 0 | none => true
  if lastOver || s.crews.all (fun e => e.2.pipeline != some p || e.2.state == .ended) then releasePipeline s p else s

/-- Assign a crew without a stage (R260): to a stage, to wait on its core, or to end. -/
def reassign (s : State) (ck : Nat) : State :=
  let c := s.crew ck
  let p := c.pipeline.getD 0
  if !(ownStages s p).any (stageOpen s) then releaseIfOver (finishCrew s ck) p
  else
    match nextStage s c with
    | some i => releaseIfOver (assignStage s ck i c.startPts) p
    | none => releaseIfOver (s.modCrew ck (fun c => { c with state := .held })) p

/-- The fragments of a wave are all held in QTAKE with nothing to take (R260). DESIGN CHOICE: a wave of several fragments is held in QTAKE when each of
them is; one that is parked at JOIN, at BAR or deferred keeps the wave (log 156). -/
def idleInTake (s : State) (wk : Nat) : Bool :=
  let ks := s.threadsOf wk
  !ks.isEmpty && ks.all (fun k => match (s.thread k).hold with | some h => h.op == .qtake | none => false)

/-- The crew's stage has nothing to take. -/
def nothingToTake (s : State) (c : Crew) : Bool := match c.stage with | some i => inputAvailable s i == 0 | none => false

/-- A crew marked for a move whose waves have each ended or are held in QTAKE (R260). -/
def mayMove (s : State) (ck : Nat) : Bool :=
  let c := s.crew ck
  c.state == .running && c.move.isSome && !(liveWaves s ck).isEmpty && nothingToTake s c && (liveWaves s ck).all (idleInTake s)

/-- A crew of a stage that has closed leaves it (R281): its waves end; a crew that waits for a core has none. -/
def mustLeave (s : State) (ck : Nat) : Bool :=
  let c := s.crew ck
  onClosed s c && ((c.state == .running && !(liveWaves s ck).isEmpty) || c.state == .waiting || c.state == .preempted)

/-- CREW_STAGE_LEAVE, R260, R281: a crew marked for a move, or on a stage that has closed, ends its waves; one whose waves have ended leaves its
stage; one that waits without waves is assigned when a stage can take it. -/
def execCrewStageLeave (s : State) : Out :=
  let ck := s.ev.subject
  let c := s.crew ck
  if c.pipeline.isNone then .next s
  else if c.state = .held then .next (reassign s ck)
  else if mustLeave s ck then
    .next (if c.state = .running then (liveWaves s ck).foldl strikeWave s
      else reassign (queueEnds (clearWaves (s.modCrew ck (fun c => { c with subs := [], commands := [] })) ck)) ck)
  else if mayMove s ck then
    .next ((liveWaves s ck).foldl (fun s w => (s.threadsOf w).foldl (fun s k => endFragment (leaveQueues s k) k) s) s)
  else if !crewOver s ck then .next s
  else
    let s := cancelSubs s ck
    if !(s.crew ck).subs.isEmpty then .next s
    else .next (reassign (queueEnds (clearWaves s ck)) ck)

/-- A stage that may receive a crew (R261). -/
def receives (s : State) (i : Nat) : Bool :=
  let x := s.instance' i
  highMark (inputCapacity s i) < inputOccupancy s i && (x.last || outputOccupancy x < highMark x.qcap) && crewsOn s i < x.maxc

/-- Mark at most one crew of a pipeline for a move (R261). -/
def evaluateMoves (s : State) (p : Nat) : State :=
  let s := { s with crews := s.crews.map (fun e => (e.1, if e.2.pipeline = some p then { e.2 with move := none } else e.2)) }
  let own := ownStages s p
  if (s.pipeline p).path.length < 2 || (s.pipeline p).released then s
  else
    match byLoad s false (own.filter (receives s)) with
    | none => s
    | some r =>
      match byLoad s true (own.filter (fun i => i != r && (s.instance' i).minc < crewsOn s i)) with
      | none => s
      | some d =>
        match minBy (fun (e : Nat × Crew) => [e.2.crewid, e.1]) (s.crews.filter (fun e => e.2.stage == some d && e.2.state != .ended)) with
        | none => s
        | some e => s.modCrew e.1 (fun c => { c with move := some r })

/-- STAGE_MOVE_EVALUATION, R261. -/
def execStageMoveEvaluation (s : State) : Out :=
  .next ((s.pipelines.filter (fun e => e.2.die == s.ev.subject)).foldl (fun s e => evaluateMoves s e.1) s)

/-! ### Kitties and program timestamps -/

/-- The refill factor of a throttle level and a priority class, in sixteenths (R407). -/
def refillFactor (level cls : Nat) : Nat :=
  match level, cls with
  | 6, 0 => 12
  | 7, 0 => 8
  | 5, 1 => 8
  | 6, 1 => 4
  | 7, 1 => 0
  | 3, 2 => 8
  | 1, 3 => 8
  | 0, _ => 16
  | _, 0 => 16
  | _, 1 => 16
  | l, 2 => if l < 3 then 16 else 0
  | _, _ => 0

/-- One refill of a crew (R228, R282, R407). -/
def refillCrew (s : State) (c : Crew) : Crew :=
  let k := match c.pipeline with | some p => (s.pipeline p).krate | none => c.krate
  { c with krate := k, kitty := min (min (c.kitty + k * refillFactor s.xd.level c.prio / 16) (16 * k)) (2 ^ 32 - 1) }

/-- KITTY_REFILL, R228. -/
def execKittyRefill (s : State) : Out :=
  .next { s with
    lastRefill := s.clock
    crews := s.crews.map (fun e => (e.1, if e.2.state = .ended then e.2 else refillCrew s e.2)) }

/-- PTS_ADVANCE, R178: every wave's `PTS`, parked and pre-empted ones too. -/
def execPtsAdvance (s : State) : Out :=
  .next { s with lastPts := s.clock, waves := s.waves.map (fun e => (e.1, { e.2 with pts := e.2.pts + 1 })) }

end Sys2Proof.Machine
end

