-- ==== Sys2Proof/Machine/Pages.lean ====
section
/-! DEFINITION. Page requests and their answers (R388, R390, R391), migration holds (R392), and the registers of BAR 0 and the
logs' bytes as the host sees them (R368, R369, R388, R397, R398). -/

namespace Sys2Proof.Machine

/-! ### Waves that wait for a page -/

/-- The wave is restored (R156, R417) when no request keeps it any longer. -/
def unpark (s : State) (wk request : Nat) : State :=
  let w := s.wave wk
  if !w.pages.contains request then s
  else
    let pages := lerase request w.pages
    let s := s.putWave wk { w with pages := pages, parked := !pages.isEmpty }
    if pages.isEmpty && ((s.crew (crewOf wk)).state == .running || (s.crew (crewOf wk)).state == .stopping) then syncRestored s wk else s

/-- The threads that wait for a request. -/
def waitersOf (s : State) (request : Nat) : List (Nat × Word) :=
  s.threads.filterMap (fun e => match e.2.park with | some (r, a) => if r = request then some (e.1, a) else none | none => none)

/-- Every wave that waits for a request is restored; its threads issue their instructions again (R156), in the order of their keys, at the wave's
`PTS`. `note` is what a thread learns. -/
def wakeWaves (s : State) (request : Nat) (note : Thread → Thread) : State :=
  let ts := waitersOf s request
  let s := ts.foldl (fun s x => s.modThread x.1 (fun t => note { t with
    park := none, hold := t.hold.map (fun h => { h with since := s.clock, pts := max h.pts (s.wave (waveOf x.1)).pts }) })) s
  (s.waves.filter (fun e => e.2.pages.contains request)).foldl (fun s e => unpark s e.1 request) s

/-- Every wave that waits for a request is restored and traps at its held instruction (R388): the trap is entered once its crew runs. -/
def failWaves (s : State) (request code detail : Nat) : State :=
  (waitersOf s request).foldl (fun s x =>
    let s := s.loseOpen x.1
    if isSequencer (waveOf x.1) then sequencerFault s x.1 code
    else s.modThread x.1 (fun t => { t with trap := some (code, detail, x.2, t.doneLanes, t.pc), hold := none })) (wakeWaves s request (fun t => t))

/-- The wait of an engine command after an answer: `stop` is the refusal of a failed request; a host page that was answered is remembered. -/
def EngineWait.answered (w : EngineWait) (request : Nat) (stop : Option (Nat × Nat)) : EngineWait :=
  if w.page = some request then { w with page := none, refused := stop, retried := w.missed.toList ++ w.retried, missed := none } else w

/-- The engine commands that wait for a request go on, or stop with ENGINEFAULT (R374, R389). -/
def wakeEngines (s : State) (request : Nat) (stop : Option (Nat × Nat)) : State :=
  let f (w : EngineWait) : EngineWait := w.answered request stop
  { s with
    crews := s.crews.map (fun e => (e.1, { e.2 with
      channels := e.2.channels.map (fun q => (q.1, q.2.map (fun m => { m with wait := f m.wait })))
      subs := e.2.subs.map (fun x => (x.1, { x.2 with wait := f x.2.wait }))
      commands := e.2.commands.map (fun m => (m.1, { m.2 with wait := f m.2.wait })) }))
    dies := s.dies.map (fun e => (e.1, { e.2 with collectives := e.2.collectives.map (fun x => { x with wait := f x.wait }) })) }

/-- A request is answered with success: every access on it translates again. -/
def answerOk (s : State) (request : Nat) : State :=
  wakeEngines (wakeWaves s request (fun t => { t with retried := t.missed.toList ++ t.retried, missed := none })) request none

/-- A request is answered with failure: its waves trap, its engine commands stop. -/
def answerFail (s : State) (request code detail : Nat) : State :=
  wakeEngines (failWaves s request code detail) request (some (code, detail))

/-! ### The request queue of a die (R388) -/

/-- The oldest request of a die that is not posted, when the queue has room. -/
def unposted (s : State) (die : Nat) : Option (Nat × PageRequest) :=
  let d := s.die die
  if d.prHead - d.prTail = 64 then none else d.requests.find? (fun e => e.2.number.isNone)

/-- PAGE_REQUEST_POST, R388: the entry is written, PRHEAD advances, and vector 2 is raised; a full queue keeps the request. -/
def execPageRequestPost (s : State) : Out :=
  let die := s.ev.subject
  match unposted s die with
  | none => .next s
  | some (k, r) =>
    let d := s.die die
    let r := { r with number := some d.prHead, timew := s.timew die }
    .next (s.putDie die (raiseMsix { d with
      requests := tput d.requests k r, posted := tput d.posted (d.prHead % 64) r, prHead := d.prHead + 1 } 2))

/-- PGANS, R388: the posted request whose number has the low bits of [31:0] is answered; bit 32 is FAIL. -/
def execPgans (s : State) : Out :=
  let die := s.ev.subject
  let d := s.die die
  match d.requests.find? (fun e => match e.2.number with | some i => i % 2 ^ 32 == s.ev.arg1 % 2 ^ 32 | none => false) with
  | none => .next s
  | some (k, r) =>
    let s := s.putDie die { d with requests := terase d.requests k }
    let id := die * 2 ^ 32 + k
    .next (if bitAt s.ev.arg1 32 then answerFail s id 0x20 r.why else answerOk s id)

/-! ### PRI (R390, R391) -/

/-- PRG_RESPONSE, R390, R391: the response to an index frees it; `arg2` is 0 for Success, 1 for Invalid Request, else Response Failure. A
response for a crew that is gone, or of another context incarnation, has no other effect. -/
def execPrgResponse (s : State) : Out :=
  let die := s.ev.subject
  let k := s.ev.arg1
  let d := s.die die
  match tfind? d.pri k with
  | none => .next s
  | some x =>
    let failed := s.ev.arg2 != 0 && s.ev.arg2 != 1
    let s := s.putDie die { d with pri := terase d.pri k }
    let s' := s.modDie die (fun d => { d with priFailed := d.priFailed || failed })
    let c := s.crew x.crew
    let id := 2 ^ 40 + die * 2 ^ 32 + k
    if x.crew = frontCrew then
      .next (s'.modDie die (fun d =>
        if s.ev.arg2 = 0 then { d with priRetried := x.pages ++ d.priRetried }
        else { d with priStopped := x.pages.foldl (fun t p => tput t p (if failed then 2 else 1)) d.priStopped }))
    else if c.state = .ended ∨ c.incarnation ≠ x.incarnation then .next s
    else if s.ev.arg2 = 0 then .next (answerOk s id)
    else .next (answerFail s' id 0x21 (if failed then 2 else 1))

/-- PRI_ENABLE, R390: software clears and sets PRI Enable, and page requests are sent again. -/
def execPriEnable (s : State) : Out := .next (s.modDie s.ev.subject (fun d => { d with priFailed := false }))

/-! ### Migration (R392) -/

/-- The request under which a wave parks on a migration lock: of a die, an ASID and an object. -/
def lockRequest (die asid obj : Nat) : Nat := 2 ^ 60 + (die * 8192 + asid) * 2 ^ 32 + obj

/-- The held access has met the lock of its page for 4,096 cycles. -/
def lockTimeout (s : State) (e : Nat × Thread) : Bool :=
  match e.2.lock with
  | some (since, _) => decide (since + 4096 ≤ s.clock) && e.2.park.isNone && e.2.hold.isSome
  | none => false

/-- MIGRATION_HOLD_TIMEOUT, R392: the wave parks, and no request is posted. -/
def execMigrationHoldTimeout (s : State) : Out :=
  let t := s.ev.subject
  let x := s.thread t
  match x.lock with
  | none => .next s
  | some (_, k) =>
    if !lockTimeout s (t, x) then .next s
    else
      let u := parkWave { s with cur := t } (2 ^ 60 + k) 0
      .next ({ u with cur := s.cur }.modThread t (fun x => { x with lock := none }))

/-- The slots of a die's export table that name an object. -/
def exportsOf (s : State) (die asid obj : Nat) : List Nat :=
  ((s.die die).exports.filter (fun e => bits e.2.1 32 13 == asid && bits e.2.1 0 32 == obj)).map (·.1)

/-- The dies that may hold peer translations of an object: those of IMP that the die can reach (R332, R336). -/
def importersOf (s : State) (die asid obj : Nat) : List Nat :=
  (upTo 12).filter (fun d => d != die && !(s.die d).fenced && (s.die d).partition == (s.die die).partition &&
    (exportsOf s die asid obj).any (fun k => bitAt (tget (0, 0) (s.die die).exports k).1 (48 + d)))

/-- The translation invalidation of an object (R150, R336, R392): the die keeps nothing of its old translations, every importer is told to drop
its own, and waves parked on a lock of its pages are restored. -/
def invalidate (s : State) (die asid obj : Nat) : State :=
  let ds := importersOf s die asid obj
  let slots := exportsOf s die asid obj
  let s := s.modDie die (fun d => { d.forget asid obj with mgmtWait := ds })
  let s := ds.foldl (fun s d => sendPacket s { kind := .peerInval, src := die, dst := d, line := 0, op := slots }) s
  wakeWaves s (lockRequest die asid obj) (fun t => t)

/-! ### Registers of BAR 0 -/

/-- The 64 bytes of a log entry (R368). -/
def LogEntry.bytes (e : LogEntry) : List Byte :=
  bytesOf 1 e.code ++ bytesOf 1 e.detail ++ bytesOf 2 (e.asid % 2 ^ 13) ++ bytesOf 4 e.crewid ++ bytesOf 8 e.epc.toNat ++
    bytesOf 8 e.faddr.toNat ++ bytesOf 4 e.fmask.toNat ++ bytesOf 1 e.wid ++ bytesOf 1 e.src ++ bytesOf 2 e.core ++ bytesOf 8 e.timew ++
    bytesOf 8 e.lage ++ bytesOf 8 e.cause2.toNat ++ bytesOf 8 0

/-- The 32 bytes of a page request (R388). -/
def PageRequest.bytes (r : PageRequest) : List Byte :=
  bytesOf 4 r.obj ++ bytesOf 2 (r.asid % 2 ^ 13) ++ bytesOf 1 (r.kind % 16) ++ bytesOf 1 r.why ++ bytesOf 8 (r.page * 65536) ++
    bytesOf 8 (r.number.getD 0) ++ bytesOf 8 r.timew

/-- MODSTAT of function 0 (R398). -/
def modStat (s : State) : Nat :=
  (if s.xd.replace then 1 else 0) + s.xd.retired % 2 ^ 12 * 2 ^ 8 +
    ((upTo 12).filter (fun d => (s.die d).fenced)).foldl (fun n d => n + 2 ^ (20 + d)) 0 + s.xd.level % 2 ^ 8 * 2 ^ 32

/-- The 8 bytes at an offset inside a record of `n` bytes; at an offset that is no multiple of 8, 0 (log 162). -/
def recordWord (bs : List Byte) (off : Nat) : Nat := if off % 8 = 0 then numOfBytes ((bs.drop off).take 8) else 0

/-- What the host reads at an offset of a log and of its entries (R368). -/
def logRegister (l : Log) (off : Nat) : Nat :=
  if off = 0 then l.head % 2 ^ 64
  else if off = 8 then l.tail % 2 ^ 64
  else if off = 0x10 then l.drop
  else if 0x1000 ≤ off ∧ off < 0x5000 then
    match tfind? l.entries ((off - 0x1000) / 64) with | some e => recordWord e.bytes (off % 64) | none => 0
  else 0

/-- What a host's read of 8 bytes of BAR 0 answers, of function 0 or of a die's (R368, R369, R388, R397, R398): the log and its counts, KILLREQ and
PGANS as 0, the request queue, and MODSTAT; 0 elsewhere (log 162). -/
def hostRegister (s : State) (f off : Nat) : Nat :=
  if f = 0 then if off = 0x20 then modStat s else logRegister s.xd.log off
  else if 12 < f then 0
  else
    let d := s.die (f - 1)
    if off = 0x20 then d.prHead % 2 ^ 64
    else if off = 0x28 then d.prTail % 2 ^ 64
    else if 0x5000 ≤ off ∧ off < 0x5800 then
      match tfind? d.posted ((off - 0x5000) / 32) with | some r => recordWord r.bytes (off % 32) | none => 0
    else logRegister d.log off

/-- HOST_REGISTER_WRITE, R368, R388, R397: FLTAIL and PRTAIL of a die function, and the tail of the module event log; other offsets hold
nothing that a host writes. -/
def execHostRegisterWrite (s : State) : Out :=
  let f := s.ev.subject
  let v := s.ev.arg2
  if f = 0 then
    .next (if s.ev.arg1 = 8 then { s with xd := { s.xd with log := { s.xd.log with tail := v } } } else s)
  else if 12 < f then .next s
  else if s.ev.arg1 = 8 then .next (s.modDie (f - 1) (fun d => { d with log := { d.log with tail := v } }))
  else if s.ev.arg1 = 0x28 then .next (s.modDie (f - 1) (fun d => { d with prTail := v }))
  else .next s

/-- KILLREQ, R369: bit 16 kills every crew and launch of the ASID in [12:0] on the die, but for the crews of an instance that
survives (R367). -/
def execKillreq (s : State) : Out :=
  let die := s.ev.subject
  let asid := s.ev.arg1 % 2 ^ 13
  if !bitAt s.ev.arg1 16 then .next s
  else
    let ls := (s.launches.filter (fun e => e.2.die == die && e.2.asid == asid)).map (·.1)
    let cs := (s.crews.filter (fun e => e.2.die == die && e.2.asid == asid && e.2.state != .ended)).map (·.1)
    let e : LogEntry := { code := 0x60, detail := 3, src := 5 }
    let left := cs.filter (fun ck => !(match (s.crew ck).stage with | some i => s.instanceSurvives i ls | none => false))
    .next (left.foldl (fun s ck => killCrew s 3 e true ck ck) (killLaunches s ls 3 e true (tnext s.crews)))

end Sys2Proof.Machine
end

