-- ==== Sys2Proof/Machine/DieLife.lean ====
section
/-! DEFINITION. Fencing and resetting a die (R331, R345, R403 to R406), forming partitions (R351, R352), and bringing the module up. -/

namespace Sys2Proof.Machine

/-! ### Fencing (R403) -/

/-- The lines of a die that threads and engine commands of another die wait for. -/
def awaitedLines (s : State) (die home : Nat) : List Nat :=
  let mine (ck : Nat) : Bool := (s.crew ck).die == die
  let ts := s.threads.filterMap (fun e => if mine (crewOf (waveOf e.1)) then e.2.waitLine else none)
  let waits := (s.crews.filter (fun e => e.2.die == die)).flatMap (fun e =>
    e.2.channels.flatMap (fun q => q.2.map (·.wait)) ++ e.2.subs.map (·.2.wait) ++ e.2.commands.map (·.2.wait)) ++
    (s.die die).collectives.map (·.wait)
  let es := (waits.filterMap (·.line)).filter (requestUnderway s die)
  ((ts ++ es).filter (fun l => dieOfKey (64 * l) == home)).foldl (fun acc l => linsert l acc) []

/-- A packet carries a line that its sender held in M or O to the home: a write-back, or the answer to a recall. -/
def carriesDirty (p : Packet) : Bool := (p.kind == .wb && p.hasData) || (p.kind == .ack && p.dirty)

/-- The home waits for the die's answer about a line, and neither an answer nor the line is on its way any more: the answer was lost, with the data that
it carried (R400). -/
def answerLost (s : State) (die line : Nat) : Bool :=
  (s.dir line).awaiting.contains die && !s.packets.any (fun e => e.2.line == line &&
    ((e.2.src == die && (e.2.kind == .wb || e.2.kind == .ack)) || (e.2.dst == die && e.2.kind == .grant)))

/-- The data of a line of which a fenced die was the owner or the supplier is lost: the die was silent about it (R402), or held it in M or O, or the
line was on its way to the home (R403). -/
def heldDirty (s : State) (die line : Nat) : Bool :=
  ((s.dir line).awaiting.contains die && decide ((s.dir line).since + 1500000 ≤ s.clock)) ||
  match tfind? (s.die die).rdc line with
  | some r => r.state == .m || r.state == .o
  | none => s.packets.any (fun e => carriesDirty e.2 && e.2.src == die && e.2.line == line) || answerLost s die line

/-- A home removes a die from a line's entry: dirty data is lost, requests of the die are dropped, and an answer that was awaited counts as
"no copy" (R402, R403). -/
def dropSharer (s : State) (die line : Nat) : State :=
  let home := dieOfKey (64 * line)
  let e := s.dir line
  let owns := (e.state == .o || e.state == .x) && e.owner == die
  let left := lerase die e.sharers
  let s := if owns && heldDirty s die line then { s with poison := linsert line s.poison } else s
  let s := s.putDir line { e with
    sharers := left, stale := lerase die e.stale, state := if owns then (if left.isEmpty then .i else .s) else e.state
    waiting := e.waiting.filter (fun r => r.die != die)
    busy := e.busy.map (fun r => if r.die = die then { kind := if r.kind = 0 then 6 else 4, die := home } else r) }
  answered s home line die 0 0

/-- Every queued collective whose group names a die stops with ENGINEFAULT 9 (R406). -/
def failGroups (s : State) (die : Nat) : State :=
  let named (x : Collective) : Bool := bitAt x.mask die
  let xs := s.dies.flatMap (fun e => if e.1 = die then [] else e.2.collectives.filter named)
  let s := { s with dies := s.dies.map (fun e => (e.1, { e.2 with collectives := e.2.collectives.filter (fun x => !named x) })) }
  xs.foldl (fun s x => postAsync s (waveOf x.thread) 0x42 9 0) s

/-- The keys of a die's front-end atomics that are under way to, at or from another die. -/
def atomicsAt (s : State) (die home : Nat) : List Nat :=
  (s.packets.filter (fun e => e.2.agent == frontAgent && ((e.2.kind == .at' && e.2.src == die && e.2.dst == home) ||
    (e.2.kind == .atAnswer && e.2.src == home && e.2.dst == die)))).map (fun e => e.2.op.getD 0 0) ++
  (s.directory.filter (fun e => dieOfKey (64 * e.1) == home)).flatMap (fun e =>
    ((e.2.busy.toList ++ e.2.waiting).filter (fun r => r.kind == 3 && r.die == die && r.agent == frontAgent)).map (fun r => r.op.getD 0 0))

/-- Steps 1 to 4 of R403 for a die that no other die hears any more; the translation invalidations of other dies no longer wait for it. -/
def isolate (s : State) (die : Nat) : State :=
  let s := s.modDie die (fun d => { d with fenced := true })
  let s := { s with dies := s.dies.map (fun e => (e.1, { e.2 with mgmtWait := lerase die e.2.mgmtWait })) }
  let s := (upTo 12).foldl (fun s d =>
    if d = die then s else (awaitedLines s d die).foldl (fun s l => loseLine s d l (die + 128)) s) s
  let s := ((s.directory.map (·.1)).filter (fun l => dieOfKey (64 * l) != die)).foldl (fun s l => dropSharer s die l) s
  let away (l : Nat) : Bool := dieOfKey (64 * l) != die
  let s := { s with dies := s.dies.map (fun (e : Nat × Die) => if e.1 = die then e else
    (e.1, { e.2 with rdc := e.2.rdc.filter (fun r => away r.1), ghosts := e.2.ghosts.filter (fun g => away g.1) })) }
  let s := { s with dies := s.dies.map (fun (e : Nat × Die) =>
    (e.1, { e.2 with answers := (atomicsAt s e.1 die).foldl (fun t k => terase t k) e.2.answers })) }
  let s := failGroups s die
  { s with packets := s.packets.filter (fun e => e.2.src != die && e.2.dst != die) }

/-- DIE_FENCE, R403, R404: XD fences a die and records it. The reset follows at once, before anything that the die still had to do. -/
def execDieFence (s : State) : Out :=
  let die := s.ev.subject
  if 12 ≤ die ∨ (s.die die).fenced then .next s
  else
    let u := xdLog (isolate s die) 0x51 3 die 0xFFF 0
    .next { u with agenda := (.dieReset, { subject := die }) :: u.agenda }

/-! ### Reset (R405) -/

/-- The next incarnation (R331). -/
def nextIncarnation (n : Nat) : Nat := if n = 255 then 1 else n + 1

/-- What the reset of a die does to the others: match counts, sequence numbers and links of its pairs (R331, R399, R406). -/
def forgetDie (die : Nat) (d : Die) : Die :=
  { d with
    matchCounts := d.matchCounts.filter (fun e => !bitAt e.1 die), peers := d.peers.filter (fun p => p.exporter != die)
    sendSeq := terase d.sendSeq die, recvSeq := terase d.recvSeq die
    linksDown := d.linksDown.filter (fun k => k / 2 != die)
    crcFails := d.crcFails.filter (fun e => e.1 / 2 != die) }

/-- Kill everything that runs on a die, without entries in its own log (R405). -/
def killDie (s : State) (die : Nat) : State :=
  let e : LogEntry := { code := 0x60, detail := 4 }
  let ls := (s.launches.filter (fun e => e.2.die == die)).map (·.1)
  let s := killLaunches s ls 4 e false (tnext s.crews)
  ((s.crews.filter (fun e => e.2.die == die && e.2.state != .ended)).map (·.1)).foldl (fun s ck => killCrew s 4 e false ck ck) s

/-- Waves of other dies that wait for a page of the die walk again. -/
def wakePages (s : State) (die : Nat) : State :=
  (s.die die).requests.foldl (fun s e => answerOk s (die * 2 ^ 32 + e.1)) s

/-- Reset a die into a partition (R405): its crews are killed, its incarnation advances, its memory is zero with tags 0, and its tables are
empty; what XD stores of its retired cores and the window of the second tier that its partition's driver gave it stay. -/
def resetDie (s : State) (die : Nat) (partition : Option Nat) : State :=
  let s := wakePages (killDie (isolate s die) die) die
  let d := s.die die
  let inc := nextIncarnation d.incarnation
  let away (key : Nat) : Bool := dieOfKey key != die
  let s := { s with
    mem := s.mem.filter (fun e => away e.1), tags := s.tags.filter (fun g => away (16 * g)), poison := s.poison.filter (fun l => away (64 * l))
    lines := s.lines.filter (fun e => away (64 * e.1)), owners := s.owners.filter (fun e => away (64 * e.1))
    dram := s.dram.filter (fun e => away (64 * e.1)), directory := s.directory.filter (fun e => away (64 * e.1))
    instances := s.instances.filter (fun e => e.2.die != die), pipelines := s.pipelines.filter (fun e => e.2.die != die)
    dies := s.dies.map (fun (e : Nat × Die) => (e.1, forgetDie die e.2)) }
  let s := s.putDie die {
    incarnation := inc, resetAt := s.clock, partition := partition, window := d.window
    retiredCores := d.retiredCores, retiredHeats := d.retiredHeats, retiring := d.retiring }
  xdLog s 0x51 4 die 0xFFF (word inc)

/-- DIE_RESET, R405. -/
def execDieReset (s : State) : Out :=
  let die := s.ev.subject
  if 12 ≤ die then .next s else .next (resetDie s die (s.die die).partition)

/-- FUNCTION_RESET, R345: function n resets the die with `DIEID` n - 1; function 0 resets no die. -/
def execFunctionReset (s : State) : Out :=
  let f := s.ev.subject
  if f = 0 ∨ 12 < f then .next s else .next (resetDie s (f - 1) (s.die (f - 1)).partition)

/-! ### Partitions (R349, R351, R352) -/

/-- The shares of the second tier of the other partitions, in GiB. -/
def otherShares (s : State) (p : Nat) : Nat := s.xd.partitions.foldl (fun n e => if e.1 = p then n else n + e.2.2.1) 0

/-- The two keys of a die's partition (R352): the numbers by which XD drew them. -/
def keysOf (s : State) (die : Nat) : Nat := match (s.die die).partition with | some p => (tget (0, 0, 0) s.xd.partitions p).2.2 | none => 0

/-- What DRAM or a tier window holds of a line (R352): the line encrypted under its die's partition's keys, with its space and address as the
tweak. No instruction sees it. -/
def sealedLine (s : State) (line : Nat) : BitVec 512 :=
  let k := keysOf s (dieOfKey (64 * line))
  Config.aesXts (Config.partitionKey k) (Config.partitionKey (k + 1)) (line % 2 ^ 46)
    (BitVec.ofNat 512 (numOfBytes ((tfind? s.dram line).getD (s.bytes (64 * line) 64))))

/-- A die moves into a partition, or out of one (R351): through its reset, without a window until its new driver gives it one (R349). -/
def moveDie (s : State) (die : Nat) (partition : Option Nat) : State := (resetDie s die partition).modDie die (fun d => { d with window := 0 })

/-- PARTITION_FORM, R351, R352: partition `subject` takes the dies of the mask `arg1` and `arg2` GiB of the second tier under two new keys;
every die of it is reset, and its memory reads zero. -/
def execPartitionForm (s : State) : Out :=
  let p := s.ev.subject
  let mask := s.ev.arg1 % 2 ^ 12
  if 12 ≤ p ∨ 32768 < otherShares s p + s.ev.arg2 then .next s
  else
    let others := (s.xd.partitions.filter (fun e => e.1 != p)).map (fun e =>
      (e.1, ((upTo 12).foldl (fun m d => if bitAt e.2.1 d && !bitAt mask d then m + 2 ^ d else m) 0, e.2.2)))
    let s := { s with xd := { s.xd with partitions := tput others p (mask, s.ev.arg2, s.xd.keys), keys := s.xd.keys + 2 } }
    .next ((upTo 12).foldl (fun s d =>
      if bitAt mask d then moveDie s d (some p)
      else if (s.die d).partition = some p then moveDie s d none else s) s)

/-! ### Power-up (R331, R409) -/

/-- The module as it comes up: as after reset, with what the host has placed outside it and what XD stores (R353, R398, R409); a core that was still to
retire does so in the first cycle, and takes no crew before. -/
def poweredUp (s : State) : State :=
  { State.reset with
    clock := s.clock, fresh := s.fresh, lastPts := s.clock, lastRefill := s.clock
    mem := s.mem.filter (fun e => isHost e.1), hostPages := s.hostPages, inputs := s.inputs
    dies := s.dies.map (fun e => (e.1, { resetAt := s.clock, retiredCores := e.2.retiredCores, retiredHeats := e.2.retiredHeats, retiring := e.2.retiring }))
    xd := { keys := s.xd.keys, images := s.xd.images, retired := s.xd.retired, replace := s.xd.replace } }

/-- MODULE_POWER_UP, R331, R355: the board's controller brings the module up from standby: every incarnation is 1. -/
def execModulePowerUp (s : State) : Out :=
  if !s.xd.standby then .next s
  else
    let u := poweredUp s
    .next { u with dies := (upTo 12).foldl (fun t d => if thas t d then t else tput t d { resetAt := s.clock }) u.dies }

end Sys2Proof.Machine
end

