-- ==== Sys2Proof/Decode.lean ====
section
/-! DEFINITION. The decoder, total on any list of bytes, and the encoder, both from the layouts of R22 to R25 and the opcode map of
R42 and R43. A word that no instruction has is rejected by name; the names are the ILLEGAL sub-causes of R358. -/

namespace Sys2Proof

/-- Why bytes are no instruction: fewer bytes than LEN asks for, or the sub-cause of R358. -/
inductive DecodeError where
  /-- The list of bytes ends inside the instruction. -/
  | short
  /-- Reserved OPC or FN, or a literal where R23 forbids one: ILLEGAL 1. -/
  | reservedOpcode
  /-- A reserved field that is not zero: ILLEGAL 2. -/
  | reservedField
  /-- A value that the instruction does not accept in a field that it uses: ILLEGAL 3. -/
  | reservedValue
  deriving DecidableEq, Repr

/-- The ILLEGAL sub-cause of a rejected word (R358); 0 for bytes that end too early. -/
def decodeErrorDetail : DecodeError → Nat
  | .short => 0
  | .reservedOpcode => 1
  | .reservedField => 2
  | .reservedValue => 3

/-- The base operation of an opcode with LEN = 0b00 (R42). -/
def baseOp (opc : Nat) : Option Instr :=
  match opc with
  | 0x00 => some .nop
  | 0x01 => some .rep
  | 0x02 => some .grp
  | 0x03 => some .smov
  | 0x04 => some .sadd
  | 0x05 => some .ssub
  | 0x06 => some .smul
  | 0x07 => some .smulhi
  | 0x08 => some .smulhn
  | 0x09 => some .sdiv
  | 0x0A => some .sdivn
  | 0x0B => some .srem
  | 0x0C => some .sremn
  | 0x0D => some .sand
  | 0x0E => some .sor
  | 0x0F => some .sxor
  | 0x10 => some .sshl
  | 0x11 => some .sshr
  | 0x12 => some .ssar
  | 0x13 => some .srol
  | 0x14 => some .smin
  | 0x15 => some .smax
  | 0x16 => some .sminn
  | 0x17 => some .smaxn
  | 0x18 => some .sclz
  | 0x19 => some .spop
  | 0x1A => some .sbfx
  | 0x1B => some .sbfi
  | 0x1C => some .sseq
  | 0x1D => some .sslt
  | 0x1E => some .ssltn
  | 0x1F => some .ssel
  | 0x20 => some .sld
  | 0x21 => some .sldw
  | 0x22 => some .sst
  | 0x23 => some .sstw
  | 0x28 => some .cmov
  | 0x29 => some .cadd
  | 0x2A => some .cwin
  | 0x2B => some .cred
  | 0x2C => some .cget
  | 0x2D => some .csetoff
  | 0x2E => some .cld
  | 0x2F => some .cst
  | 0x30 => some .br
  | 0x31 => some .brz
  | 0x32 => some .brnz
  | 0x33 => some .brany
  | 0x34 => some .brall
  | 0x35 => some .brnone
  | 0x36 => some .call
  | 0x37 => some .ret
  | 0x38 => some .loop
  | 0x39 => some .split
  | 0x3A => some .join
  | 0x3B => some .exit
  | 0x3C => some .yield
  | 0x3D => some .sleep
  | 0x3E => some .trap
  | 0x3F => some .sret
  | 0x40 => some .csrr
  | 0x41 => some .csrw
  | 0x42 => some .trc
  | 0x43 => some .bkpt
  | 0x48 => some .pand
  | 0x49 => some .por
  | 0x4A => some .pxor
  | 0x4B => some .pandn
  | 0x4C => some .pnot
  | 0x4D => some .pmov
  | 0x4E => some .pset
  | 0x4F => some .pget
  | 0x50 => some .pcnt
  | 0x51 => some .pfirst
  | _ => none

/-- The base operation of an opcode with LEN = 0b01 (R42, R23): none where no operand takes a literal. -/
def baseLitOp (opc : Nat) : Option Instr :=
  match opc with
  | 0x01 => some .repLit
  | 0x03 => some .smovLit
  | 0x04 => some .saddLit
  | 0x05 => some .ssubLit
  | 0x06 => some .smulLit
  | 0x07 => some .smulhiLit
  | 0x08 => some .smulhnLit
  | 0x09 => some .sdivLit
  | 0x0A => some .sdivnLit
  | 0x0B => some .sremLit
  | 0x0C => some .sremnLit
  | 0x0D => some .sandLit
  | 0x0E => some .sorLit
  | 0x0F => some .sxorLit
  | 0x10 => some .sshlLit
  | 0x11 => some .sshrLit
  | 0x12 => some .ssarLit
  | 0x13 => some .srolLit
  | 0x14 => some .sminLit
  | 0x15 => some .smaxLit
  | 0x16 => some .sminnLit
  | 0x17 => some .smaxnLit
  | 0x1A => some .sbfxLit
  | 0x1B => some .sbfiLit
  | 0x1C => some .sseqLit
  | 0x1D => some .ssltLit
  | 0x1E => some .ssltnLit
  | 0x1F => some .sselLit
  | 0x20 => some .sldLit
  | 0x21 => some .sldwLit
  | 0x22 => some .sstLit
  | 0x23 => some .sstwLit
  | 0x29 => some .caddLit
  | 0x2A => some .cwinLit
  | 0x2B => some .credLit
  | 0x2D => some .csetoffLit
  | 0x2E => some .cldLit
  | 0x2F => some .cstLit
  | 0x30 => some .brLit
  | 0x31 => some .brzLit
  | 0x32 => some .brnzLit
  | 0x33 => some .branyLit
  | 0x34 => some .brallLit
  | 0x35 => some .brnoneLit
  | 0x36 => some .callLit
  | 0x38 => some .loopLit
  | 0x39 => some .splitLit
  | 0x3D => some .sleepLit
  | 0x3E => some .trapLit
  | 0x41 => some .csrwLit
  | 0x42 => some .trcLit
  | 0x4E => some .psetLit
  | _ => none

/-- The operations of class 0x60 by FN (R43). -/
def extOp60 (fn : Nat) : Option Instr :=
  match fn with
  | 0 => some .vadd
  | 1 => some .vsub
  | 2 => some .vmul
  | 3 => some .vmulh
  | 4 => some .vmad
  | 5 => some .vmin
  | 6 => some .vmax
  | 7 => some .vabs
  | 8 => some .vneg
  | 9 => some .vand
  | 10 => some .vor
  | 11 => some .vxor
  | 12 => some .vandn
  | 13 => some .vshl
  | 14 => some .vshr
  | 15 => some .vsar
  | 16 => some .vrot
  | 17 => some .vclz
  | 18 => some .vpop
  | 19 => some .vbfx
  | 20 => some .vbfi
  | 21 => some .vsel
  | 22 => some .vmov
  | _ => none

/-- The operations of class 0x61 by FN (R43). -/
def extOp61 (fn : Nat) : Option Instr :=
  match fn with
  | 0 => some .vfadd
  | 1 => some .vfsub
  | 2 => some .vfmul
  | 3 => some .vfma
  | 4 => some .vfms
  | 5 => some .vfmin
  | 6 => some .vfmax
  | 7 => some .vfabs
  | 8 => some .vfneg
  | 9 => some .vfrnd
  | 10 => some .vfcls
  | 11 => some .vfsqt
  | 12 => some .vfdot
  | 13 => some .vfscl
  | _ => none

/-- The operations of class 0x63 by FN (R43). -/
def extOp63 (fn : Nat) : Option Instr :=
  match fn with
  | 0 => some .vcvt
  | 1 => some .vpack
  | 2 => some .vunpk
  | 3 => some .vsxp
  | 4 => some .vsxu
  | 5 => some .vmxp
  | 6 => some .vmxu
  | 7 => some .vqdec
  | _ => none

/-- The operations of class 0x64 by FN (R43). -/
def extOp64 (fn : Nat) : Option Instr :=
  match fn with
  | 0 => some .vex2
  | 1 => some .vlg2
  | 2 => some .vrcp
  | 3 => some .vrsq
  | 4 => some .vsin
  | 5 => some .vcos
  | 6 => some .vtanh
  | _ => none

/-- The operations of class 0x65 by FN (R43). -/
def extOp65 (fn : Nat) : Option Instr :=
  match fn with
  | 0 => some .vshfl
  | 1 => some .vbcast
  | 2 => some .vrdx
  | 3 => some .vscan
  | 4 => some .vread
  | 5 => some .vwrite
  | 6 => some .vddx
  | 7 => some .vddy
  | 8 => some .vrotl
  | _ => none

/-- The operations of class 0x66 by FN (R43). -/
def extOp66 (fn : Nat) : Option Instr :=
  match fn with
  | 0 => some .vbsi
  | 1 => some .vbsr
  | 2 => some .vbsp
  | 3 => some .vbsc
  | _ => none

/-- The operations of class 0x67 by FN (R43). -/
def extOp67 (fn : Nat) : Option Instr :=
  match fn with
  | 0 => some .vrng
  | _ => none

/-- The operations of class 0x68 by FN (R43). -/
def extOp68 (fn : Nat) : Option Instr :=
  match fn with
  | 0 => some .vld
  | 1 => some .vst
  | 2 => some .vldb
  | 3 => some .vstb
  | 4 => some .spld
  | 5 => some .spst
  | 6 => some .spldb
  | 7 => some .spstb
  | 8 => some .vpref
  | _ => none

/-- The operations of class 0x69 by FN (R43). -/
def extOp69 (fn : Nat) : Option Instr :=
  match fn with
  | 0 => some .vatom
  | 1 => some .satom
  | 2 => some .spatom
  | _ => none

/-- The operations of class 0x6A by FN (R43). -/
def extOp6A (fn : Nat) (x : Fields) : Option Instr :=
  match fn with
  | 0 => some .bar
  | 1 => some .arrv
  | 2 => some .waitb
  | 3 => some .waitc
  | 4 => some (if x.mod &&& 1 == 0 then .fence else .fenceEvict)
  | 5 => some .mon
  | 6 => some .mwait
  | 7 => some .sema
  | 8 => some .semr
  | 9 => some .semt
  | 10 => some .evph
  | 11 => some .fencev
  | _ => none

/-- The operations of class 0x6B by FN (R43). -/
def extOp6B (fn : Nat) : Option Instr :=
  match fn with
  | 0 => some .strm
  | 1 => some .subs
  | 2 => some .unsub
  | 3 => some .tmpl
  | 4 => some .xgo
  | _ => none

/-- The operations of class 0x6C by FN (R43). -/
def extOp6C (fn : Nat) : Option Instr :=
  match fn with
  | 0 => some .deal
  | 1 => some .meld
  | 2 => some .gang
  | _ => none

/-- The operations of class 0x6D by FN (R43). -/
def extOp6D (fn : Nat) (x : Fields) : Option Instr :=
  match fn with
  | 0 => some .mres
  | 1 => some .mrel
  | 2 => some (if !x.imm.getLsbD 15 then .mldaSp else .mldaReg)
  | 3 => some (if !x.imm.getLsbD 15 then .mldbSp else .mldbReg)
  | 4 => some .mma
  | 5 => some .mmap
  | 6 => some .mzero
  | 7 => some (if !x.imm.getLsbD 12 then .mrda else .mrdaSt)
  | 8 => some .mwra
  | 9 => some .msta
  | 10 => some .mbar
  | 11 => some (if !x.imm.getLsbD 24 then .mcmd else .mcmdEnd)
  | _ => none

/-- The operations of class 0x6E by FN (R43). -/
def extOp6E (fn : Nat) : Option Instr :=
  match fn with
  | 0 => some .qput
  | 1 => some .qtake
  | 2 => some .qdone
  | 3 => some .qeos
  | 4 => some .launch
  | _ => none

/-- The operations of class 0x6F by FN (R43). -/
def extOp6F (fn : Nat) : Option Instr :=
  match fn with
  | 0 => some .ared
  | 1 => some .agath
  | _ => none

/-- The operations of class 0x70 by FN (R43). -/
def extOp70 (fn : Nat) : Option Instr :=
  match fn with
  | 0 => some .trace
  | 1 => some .qbox
  | 2 => some .refit
  | 3 => some .reord
  | _ => none

/-- The operations of class 0x71 by FN (R43). -/
def extOp71 (fn : Nat) : Option Instr :=
  match fn with
  | 0 => some .ldlod
  | 1 => some .ldlodp
  | 2 => some .lodq
  | _ => none

/-- The operations of class 0x72 by FN (R43). -/
def extOp72 (fn : Nat) : Option Instr :=
  match fn with
  | 0 => some .henc
  | 1 => some .hgrad
  | 2 => some .egath
  | _ => none

/-- The extended operation of a class and FN (R43): VCMP and VCMPM carry their condition in FN (R126). -/
def extOp (opc fn : Nat) (x : Fields) : Option Instr :=
  match opc with
  | 0x62 => if fn < 8 then some .vcmp else if fn < 16 then some .vcmpm else none
  | 0x60 => extOp60 fn
  | 0x61 => extOp61 fn
  | 0x63 => extOp63 fn
  | 0x64 => extOp64 fn
  | 0x65 => extOp65 fn
  | 0x66 => extOp66 fn
  | 0x67 => extOp67 fn
  | 0x68 => extOp68 fn
  | 0x69 => extOp69 fn
  | 0x6A => extOp6A fn x
  | 0x6B => extOp6B fn
  | 0x6C => extOp6C fn
  | 0x6D => extOp6D fn x
  | 0x6E => extOp6E fn
  | 0x6F => extOp6F fn
  | 0x70 => extOp70 fn
  | 0x71 => extOp71 fn
  | 0x72 => extOp72 fn
  | _ => none

/-- The fields of a base word (R24). -/
def baseFields (w : BitVec 32) (lit : Option (BitVec 64)) : Fields :=
  { b := w.extractLsb' 26 6, a := w.extractLsb' 20 6, d := w.extractLsb' 14 6, x := w.extractLsb' 12 2, stall := w.extractLsb' 2 3,
    lit := lit }

/-- The fields of an extended form (R25) from its three words and its literal. -/
def extFields (w0 w1 w2 : BitVec 32) (lit : Option (BitVec 64)) : Fields :=
  { ec := w0.extractLsb' 30 2, a := w0.extractLsb' 24 6, d := w0.extractLsb' 18 6, stall := w0.extractLsb' 2 3,
    mod := w1.extractLsb' 29 3, abs := w1.getLsbD 28, nb := w1.getLsbD 27, na := w1.getLsbD 26, sat := w1.getLsbD 25,
    rm := w1.extractLsb' 23 2, t := w1.extractLsb' 19 4, subp := w1.getLsbD 18, pn := w1.getLsbD 17, p := w1.extractLsb' 12 5,
    c := w1.extractLsb' 6 6, b := w1.extractLsb' 0 6, imm := w2, lit := lit,
    cc := if w0.extractLsb' 5 7 == 0x62 then w0.extractLsb' 12 3 else 0 }

/-- The length in bytes that LEN, bits [1:0] of word 0, gives (R22). -/
def lengthOf (w0 : BitVec 32) : Nat :=
  match (w0.extractLsb' 0 2).toNat with
  | 0 => 4
  | 1 => 12
  | 2 => 12
  | _ => 20

/-- The opcode, bits [11:5] of word 0 (R24, R25). -/
def opcodeOf (w0 : BitVec 32) : Nat := (w0.extractLsb' 5 7).toNat

/-- The checks on a word whose opcode and form exist, in the order of R362. -/
def checkWord (i : Instr) (x : Fields) : Except DecodeError (Instr × Fields) :=
  if !literalOk i x then .error .reservedOpcode
  else if !reservedOk i x then .error .reservedField
  else if !valuesOk i x then .error .reservedValue
  else .ok (i, x)

/-- Decode five words, of which LEN says how many belong to the instruction (R22, R26). -/
def decodeWords (w0 w1 w2 w3 w4 : BitVec 32) : Except DecodeError (Instr × Fields) :=
  let opc := opcodeOf w0
  match (w0.extractLsb' 0 2).toNat with
  | 0 =>
    match baseOp opc with
    | some i => checkWord i (baseFields w0 none)
    | none => .error .reservedOpcode
  | 1 =>
    match baseLitOp opc with
    | some i => checkWord i (baseFields w0 (some (w2 ++ w1)))
    | none => .error .reservedOpcode
  | n =>
    let x := extFields w0 w1 w2 (if n = 2 then none else some (w4 ++ w3))
    match extOp opc (w0.extractLsb' 12 6).toNat x with
    | some i => checkWord i x
    | none => .error .reservedOpcode

/-- Four bytes as a little-endian word (R3); absent bytes read as 0. -/
def wordAt (bs : List Byte) (k : Nat) : BitVec 32 :=
  let at' (j : Nat) : Byte := bs.getD (4 * k + j) 0
  at' 3 ++ at' 2 ++ at' 1 ++ at' 0

/-- The decoder: the instruction at the head of the bytes and the bytes after it, or why there is none. -/
def decode (bs : List Byte) : Except DecodeError ((Instr × Fields) × List Byte) :=
  let n := lengthOf (wordAt bs 0)
  if bs.length < 4 ∨ bs.length < n then .error .short
  else
    match decodeWords (wordAt bs 0) (wordAt bs 1) (wordAt bs 2) (wordAt bs 3) (wordAt bs 4) with
    | .ok r => .ok (r, bs.drop n)
    | .error e => .error e

/-- The LEN field of an instruction (R22): bit 1 for the extended form, bit 0 for a literal. -/
def lenBits (extended hasLit : Bool) : BitVec 2 := BitVec.ofBool extended ++ BitVec.ofBool hasLit

/-- The base word of the fields (R24). -/
def baseWord (opc : Nat) (x : Fields) : BitVec 32 :=
  x.b ++ x.a ++ x.d ++ x.x ++ BitVec.ofNat 7 opc ++ x.stall ++ lenBits false x.lit.isSome

/-- Word 0 of the extended form (R25). -/
def extWord0 (opc fn : Nat) (x : Fields) : BitVec 32 :=
  x.ec ++ x.a ++ x.d ++ BitVec.ofNat 6 fn ++ BitVec.ofNat 7 opc ++ x.stall ++ lenBits true x.lit.isSome

/-- Word 1 of the extended form (R25). -/
def extWord1 (x : Fields) : BitVec 32 :=
  x.mod ++ BitVec.ofBool x.abs ++ BitVec.ofBool x.nb ++ BitVec.ofBool x.na ++ BitVec.ofBool x.sat ++ x.rm ++ x.t ++
    BitVec.ofBool x.subp ++ BitVec.ofBool x.pn ++ x.p ++ x.c ++ x.b

/-- The two words of a literal, low word first (R23). -/
def literalWords (lit : Option (BitVec 64)) : List (BitVec 32) :=
  match lit with
  | none => []
  | some v => [v.extractLsb' 0 32, v.extractLsb' 32 32]

/-- The encoder: the words of an instruction, first word first; no words for an event. -/
def encode (i : Instr) (x : Fields) : List (BitVec 32) :=
  match i.baseCode with
  | some (opc, _) => baseWord opc x :: literalWords x.lit
  | none =>
    match i.extCode with
    | some (opc, fn) => extWord0 opc (x.fn opc fn) x :: extWord1 x :: x.imm :: literalWords x.lit
    | none => []

/-- The bytes of a word, lowest address first (R3). -/
def wordBytes (w : BitVec 32) : List Byte :=
  [w.extractLsb' 0 8, w.extractLsb' 8 8, w.extractLsb' 16 8, w.extractLsb' 24 8]

/-- The bytes of an instruction as they stand in memory (R3, R22). -/
def encodeBytes (i : Instr) (x : Fields) : List Byte := (encode i x).flatMap wordBytes

/-- The length in bytes of an instruction (R22); 0 for an event. -/
def lengthBytes (i : Instr) (x : Fields) : Nat := 4 * (encode i x).length

/-- `n` bytes of a number, lowest address first. -/
def bytesOfNat : Nat → Nat → List Byte
  | 0, _ => []
  | n + 1, w => BitVec.ofNat 8 w :: bytesOfNat n (w / 256)

/-- The bytes of an instruction whose bits the opcode table numbers from bit 0 of its first word: `nbits` of them, the rest of
the longest instruction (20 bytes) zero. -/
def tableBytes (nbits w : Nat) : List Byte := bytesOfNat 20 (w % 2 ^ nbits)

/-- The instruction the decoder reads from a word of the opcode table. -/
def decodeTableWord (nbits w : Nat) : Option Instr :=
  match decode (tableBytes nbits w) with
  | .ok ((i, _), _) => some i
  | .error _ => none

end Sys2Proof
end

