-- ==== Sys2Proof/Machine/Fetch.lean ====
section
/-! DEFINITION. Fetching and decoding an instruction from a crew's code object (R22, R109, R363, R395). -/

namespace Sys2Proof.Machine

/-- The word at a place: from its home, from host memory, or from the remote-data cache; a line that another die holds dirty, or of
another die, is asked for first (R339). -/
def fetchAt (s : State) (die : Nat) (l : Loc) : Except Stop (List Byte) :=
  let line := lineOf l.key
  if isHost l.key then (if l.fails then .error (.trap 0x50 8) else .ok (s.bytes l.key 4))
  else if dieOfKey l.key = die then
    if lineAway s line then .error (.remote line false (l.pol ≤ 2))
    else if s.poisoned l.key then .error (.trap 0x50 7) else .ok (s.bytes l.key 4)
  else
    match tfind? (s.die die).rdc line with
    | none => .error (.remote line false (l.pol ≤ 2))
    | some r => if r.poison then .error (.trap 0x50 7) else .ok ((r.bytes.drop (l.key % 64)).take 4)

/-- The offset of the instruction that the current thread fetches: behind its `REP`, if it is prefixed. -/
def fetchOffset (s : State) : Nat := s.curT.pc.toNat + (match s.curT.rep with | some r => r.prefixLen | none => 0)

/-- One word of a code object at a byte offset: a fetch outside the object's window traps CAPBOUND (R363), one from a poisoned line
UNCORR 7, one that the host answers with an error UNCORR 8 (R395). -/
def fetchWord (s : State) (c : Crew) (off : Nat) : Except Stop (List Byte) :=
  if entryPoisoned s c.die c.asid c.codeObj then .error (.trap 0x50 7) else
  match entryOf s c.die c.asid c.codeObj with
  | none => .error (.trap 0x22 1)
  | some t =>
    if !t.valid then .error (.trap 0x22 2)
    else if t.kind == 0 || 6 ≤ t.kind then .error (.trap 0x22 3)
    else if t.bound < off + 4 then .error (.trap 0x11 0)
    else
      match resolve s { c.ctx with core := none } c.codeObj t off { rights := rightR } with
      | .error st => .error st
      | .ok l => fetchAt s c.die l

/-- `n` words of a code object. -/
def fetchWords (s : State) (c : Crew) : Nat → Nat → Except Stop (List Byte)
  | 0, _ => .ok []
  | n + 1, off =>
    match fetchWord s c off with
    | .error st => .error st
    | .ok b =>
      match fetchWords s c n (off + 4) with
      | .error st => .error st
      | .ok t => .ok (b ++ t)

/-- The bytes of the instruction at an offset: its first word says how many (R22). -/
def fetch (s : State) (c : Crew) (off : Nat) : Except Stop (List Byte) :=
  match fetchWord s c off with
  | .error st => .error st
  | .ok b =>
    match fetchWords s c (lengthOf (wordAt b 0) / 4 - 1) (off + 4) with
    | .error st => .error st
    | .ok t => .ok (b ++ t)

/-- What stands at an offset of the code object: an instruction with its fields and length, or the ILLEGAL sub-cause (R362). -/
def instrAt (s : State) (c : Crew) (off : Nat) : Except Stop (Except Nat (Instr × Fields × Nat)) :=
  match fetch s c off with
  | .error st => .error st
  | .ok bs =>
    match decode bs with
    | .ok ((i, x), _) => .ok (.ok (i, x, bs.length))
    | .error e => .ok (.error (decodeErrorDetail e))

/-- RESERVED_ENCODING: a word that no instruction has traps ILLEGAL with its sub-cause (R362). -/
def execReservedEncoding (s : State) : Out :=
  if !thas s.threads s.cur then .fault .noAgent else illegal s s.ev.subject

/-- INSTRUCTION_FETCH_FAULT: a fetch that fails a check traps with the fetch address in `FADDR` (R363, R395). -/
def execInstructionFetchFault (s : State) : Out :=
  if !thas s.threads s.cur then .fault .noAgent
  else trapWith s s.ev.subject s.ev.arg1 (faddrOf 0 0 (fetchOffset s)) 0

end Sys2Proof.Machine
end

