-- ==== Sys2Proof/Machine/Scalar.lean ====
section
/-! DEFINITION. Scalar arithmetic, logic and compares, OPC 0x03 to 0x1F (R101 to R103), and scalar loads and stores (R104). -/

namespace Sys2Proof.Machine

/-- The field of a bit-field operand (R103): position and the width that takes effect. -/
def bitField (b : Word) : Nat × Nat :=
  let pos := bits b.toNat 0 6
  (pos, min (bits b.toNat 8 7) (64 - pos))

/-- SBFX, R103. -/
def extractField (sx : Bool) (a b : Word) : Word :=
  let (pos, w) := bitField b
  let v := bits a.toNat pos w
  if w = 0 then 0 else if sx then word (wrap 64 (signed w v)) else word v

/-- SBFI, R103. -/
def insertField (a b d : Word) : Word :=
  let (pos, w) := bitField b
  word (d.toNat - bits d.toNat pos w * 2 ^ pos + bits a.toNat 0 w * 2 ^ pos)

/-- What a scalar operation of an OPC writes to s[D] (R101 to R103), from s[A], B and the old s[D]. -/
def scalarAlu (opc : Nat) (x : BitVec 2) (a b d : Word) : Word :=
  let sh := b.toNat % 64
  let flag (c : Bool) : Word := if c then 1 else 0
  match opc with
  | 0x03 => b
  | 0x04 => a + b
  | 0x05 => a - b
  | 0x06 => a * b
  | 0x07 => (a.signExtend 128 * b.signExtend 128).extractLsb' 64 64
  | 0x08 => (a.setWidth 128 * b.setWidth 128).extractLsb' 64 64
  | 0x09 => a.sdiv b
  | 0x0A => a / b
  | 0x0B => a.srem b
  | 0x0C => a % b
  | 0x0D => a &&& b
  | 0x0E => a ||| b
  | 0x0F => a ^^^ b
  | 0x10 => a <<< sh
  | 0x11 => a >>> sh
  | 0x12 => a.sshiftRight sh
  | 0x13 => a.rotateLeft sh
  | 0x14 => if b.slt a then b else a
  | 0x15 => if a.slt b then b else a
  | 0x16 => if b.ult a then b else a
  | 0x17 => if a.ult b then b else a
  | 0x18 => word (clz 64 a.toNat)
  | 0x19 => word (popCount 64 a.toNat)
  | 0x1A => extractField (x.getLsbD 0) a b
  | 0x1B => insertField a b d
  | 0x1C => flag (a == b)
  | 0x1D => flag (a.slt b)
  | 0x1E => flag (a.ult b)
  | _ => if d != 0 then a else b

/-- A scalar operation: s[D] receives its result with the latency of R39, and the fragment goes on. -/
def scalarOp (i : Instr) (opc : Nat) (s : State) : Out :=
  guarded i s (fun s =>
    let r := scalarAlu opc s.ir.x (readS s s.ir.a.toNat) (operandB s) (readS s s.ir.d.toNat)
    .next (finish (writeS s ((latencyOf i s.ir).getD 0) s.ir.d.toNat r)))

/-- A division: a zero divisor traps DIVZERO (R102, R363). -/
def scalarDiv (i : Instr) (opc : Nat) (s : State) : Out :=
  guarded i s (fun s =>
    if operandB s = 0 then trap s 0x31 0
    else
      let r := scalarAlu opc s.ir.x (readS s s.ir.a.toNat) (operandB s) 0
      .next (finish (writeS s ((latencyOf i s.ir).getD 0) s.ir.d.toNat r)))

/-- SMOV, R101. -/
def execSmov (s : State) : Out := scalarOp .smov 0x03 s
/-- SMOV with a literal B, R101. -/
def execSmovLit (s : State) : Out := scalarOp .smovLit 0x03 s
/-- SADD, R101. -/
def execSadd (s : State) : Out := scalarOp .sadd 0x04 s
/-- SADD with a literal B, R101. -/
def execSaddLit (s : State) : Out := scalarOp .saddLit 0x04 s
/-- SSUB, R101. -/
def execSsub (s : State) : Out := scalarOp .ssub 0x05 s
/-- SSUB with a literal B, R101. -/
def execSsubLit (s : State) : Out := scalarOp .ssubLit 0x05 s
/-- SMUL, R101. -/
def execSmul (s : State) : Out := scalarOp .smul 0x06 s
/-- SMUL with a literal B, R101. -/
def execSmulLit (s : State) : Out := scalarOp .smulLit 0x06 s
/-- SMULHI, R101. -/
def execSmulhi (s : State) : Out := scalarOp .smulhi 0x07 s
/-- SMULHI with a literal B, R101. -/
def execSmulhiLit (s : State) : Out := scalarOp .smulhiLit 0x07 s
/-- SMULHN, R101. -/
def execSmulhn (s : State) : Out := scalarOp .smulhn 0x08 s
/-- SMULHN with a literal B, R101. -/
def execSmulhnLit (s : State) : Out := scalarOp .smulhnLit 0x08 s
/-- SDIV, R102. -/
def execSdiv (s : State) : Out := scalarDiv .sdiv 0x09 s
/-- SDIV with a literal B, R102. -/
def execSdivLit (s : State) : Out := scalarDiv .sdivLit 0x09 s
/-- SDIVN, R102. -/
def execSdivn (s : State) : Out := scalarDiv .sdivn 0x0A s
/-- SDIVN with a literal B, R102. -/
def execSdivnLit (s : State) : Out := scalarDiv .sdivnLit 0x0A s
/-- SREM, R102. -/
def execSrem (s : State) : Out := scalarDiv .srem 0x0B s
/-- SREM with a literal B, R102. -/
def execSremLit (s : State) : Out := scalarDiv .sremLit 0x0B s
/-- SREMN, R102. -/
def execSremn (s : State) : Out := scalarDiv .sremn 0x0C s
/-- SREMN with a literal B, R102. -/
def execSremnLit (s : State) : Out := scalarDiv .sremnLit 0x0C s
/-- SAND, R101. -/
def execSand (s : State) : Out := scalarOp .sand 0x0D s
/-- SAND with a literal B, R101. -/
def execSandLit (s : State) : Out := scalarOp .sandLit 0x0D s
/-- SOR, R101. -/
def execSor (s : State) : Out := scalarOp .sor 0x0E s
/-- SOR with a literal B, R101. -/
def execSorLit (s : State) : Out := scalarOp .sorLit 0x0E s
/-- SXOR, R101. -/
def execSxor (s : State) : Out := scalarOp .sxor 0x0F s
/-- SXOR with a literal B, R101. -/
def execSxorLit (s : State) : Out := scalarOp .sxorLit 0x0F s
/-- SSHL, R101. -/
def execSshl (s : State) : Out := scalarOp .sshl 0x10 s
/-- SSHL with a literal B, R101. -/
def execSshlLit (s : State) : Out := scalarOp .sshlLit 0x10 s
/-- SSHR, R101. -/
def execSshr (s : State) : Out := scalarOp .sshr 0x11 s
/-- SSHR with a literal B, R101. -/
def execSshrLit (s : State) : Out := scalarOp .sshrLit 0x11 s
/-- SSAR, R101. -/
def execSsar (s : State) : Out := scalarOp .ssar 0x12 s
/-- SSAR with a literal B, R101. -/
def execSsarLit (s : State) : Out := scalarOp .ssarLit 0x12 s
/-- SROL, R101. -/
def execSrol (s : State) : Out := scalarOp .srol 0x13 s
/-- SROL with a literal B, R101. -/
def execSrolLit (s : State) : Out := scalarOp .srolLit 0x13 s
/-- SMIN, R101. -/
def execSmin (s : State) : Out := scalarOp .smin 0x14 s
/-- SMIN with a literal B, R101. -/
def execSminLit (s : State) : Out := scalarOp .sminLit 0x14 s
/-- SMAX, R101. -/
def execSmax (s : State) : Out := scalarOp .smax 0x15 s
/-- SMAX with a literal B, R101. -/
def execSmaxLit (s : State) : Out := scalarOp .smaxLit 0x15 s
/-- SMINN, R101. -/
def execSminn (s : State) : Out := scalarOp .sminn 0x16 s
/-- SMINN with a literal B, R101. -/
def execSminnLit (s : State) : Out := scalarOp .sminnLit 0x16 s
/-- SMAXN, R101. -/
def execSmaxn (s : State) : Out := scalarOp .smaxn 0x17 s
/-- SMAXN with a literal B, R101. -/
def execSmaxnLit (s : State) : Out := scalarOp .smaxnLit 0x17 s
/-- SCLZ, R101. -/
def execSclz (s : State) : Out := scalarOp .sclz 0x18 s
/-- SPOP, R101. -/
def execSpop (s : State) : Out := scalarOp .spop 0x19 s
/-- SBFX, R103. -/
def execSbfx (s : State) : Out := scalarOp .sbfx 0x1A s
/-- SBFX with a literal B, R103. -/
def execSbfxLit (s : State) : Out := scalarOp .sbfxLit 0x1A s
/-- SBFI, R103. -/
def execSbfi (s : State) : Out := scalarOp .sbfi 0x1B s
/-- SBFI with a literal B, R103. -/
def execSbfiLit (s : State) : Out := scalarOp .sbfiLit 0x1B s
/-- SSEQ, R101. -/
def execSseq (s : State) : Out := scalarOp .sseq 0x1C s
/-- SSEQ with a literal B, R101. -/
def execSseqLit (s : State) : Out := scalarOp .sseqLit 0x1C s
/-- SSLT, R101. -/
def execSslt (s : State) : Out := scalarOp .sslt 0x1D s
/-- SSLT with a literal B, R101. -/
def execSsltLit (s : State) : Out := scalarOp .ssltLit 0x1D s
/-- SSLTN, R101. -/
def execSsltn (s : State) : Out := scalarOp .ssltn 0x1E s
/-- SSLTN with a literal B, R101. -/
def execSsltnLit (s : State) : Out := scalarOp .ssltnLit 0x1E s
/-- SSEL, R101. -/
def execSsel (s : State) : Out := scalarOp .ssel 0x1F s
/-- SSEL with a literal B, R101. -/
def execSselLit (s : State) : Out := scalarOp .sselLit 0x1F s

/-- The register write of a scalar load. -/
def loadedS (s : State) (v : Word) : List RegWrite := [.s s.cur s.ir.d.toNat v]

/-- The number that loaded bytes form, sign-extended where asked (R104). -/
def loadedWord (sx : Bool) (bs : List Byte) : Word :=
  if sx then word (wrap 64 (signed (8 * bs.length) (numOfBytes bs))) else word (numOfBytes bs)

/-- SLD, R104. -/
def execSld (s : State) : Out :=
  scalarLoad .sld s 8 (fun s g => loadedS s (loadedWord false g.bytes))
/-- SLD with a literal offset, R104. -/
def execSldLit (s : State) : Out :=
  scalarLoad .sldLit s 8 (fun s g => loadedS s (loadedWord false g.bytes))
/-- SLDW, R104. -/
def execSldw (s : State) : Out :=
  scalarLoad .sldw s 4 (fun s g => loadedS s (loadedWord (s.ir.x.getLsbD 0) g.bytes))
/-- SLDW with a literal offset, R104. -/
def execSldwLit (s : State) : Out :=
  scalarLoad .sldwLit s 4 (fun s g => loadedS s (loadedWord (s.ir.x.getLsbD 0) g.bytes))
/-- SST, R104: the granule's tag becomes 0. -/
def execSst (s : State) : Out :=
  scalarStore .sst s 8 (fun s => bytesOf 8 (readS s s.ir.d.toNat).toNat) (fun _ => false)
/-- SST with a literal offset, R104: the granule's tag becomes 0. -/
def execSstLit (s : State) : Out :=
  scalarStore .sstLit s 8 (fun s => bytesOf 8 (readS s s.ir.d.toNat).toNat) (fun _ => false)
/-- SSTW, R104: the granule's tag becomes 0. -/
def execSstw (s : State) : Out :=
  scalarStore .sstw s 4 (fun s => bytesOf 4 (readS s s.ir.d.toNat).toNat) (fun _ => false)
/-- SSTW with a literal offset, R104: the granule's tag becomes 0. -/
def execSstwLit (s : State) : Out :=
  scalarStore .sstwLit s 4 (fun s => bytesOf 4 (readS s s.ir.d.toNat).toNat) (fun _ => false)

end Sys2Proof.Machine
end

