-- ==== Sys2Proof/Machine/Prefix.lean ====
section
/-! DEFINITION. The repeat prefix REP (R44, R116, R117, R364) and the atomic group GRP (R45, R118, R119, R186, R383). -/

namespace Sys2Proof.Machine

/-! ### REP -/

/-- Count and source stride of a REP: from s[A] and field B, or from the literal (R44). -/
def repOperands (s : State) : Nat × Nat :=
  match s.ir.lit with
  | some v => (bits v.toNat 0 32, bits v.toNat 32 3)
  | none => ((readS s s.ir.a.toNat).toNat, s.ir.b.toNat % 8)

/-- The trap of a REP's operands (R362, R363): the DETAIL of ARITH. -/
def repTrap (s : State) : Option Nat :=
  match s.ir.lit with
  | some v => if bits v.toNat 35 29 != 0 || 65535 < bits v.toNat 0 32 then some 2 else none
  | none => if 65535 < (readS s s.ir.a.toNat).toNat then some 1 else none

/-- The stride of a register use: D and a predicate run in D step by ds, a source by ss, the predicate operand not at all. -/
def strideOf (ds ss : Nat) (u : RegUse) : Nat := if u.field = 0 ∨ (u.field = 4 ∧ u.wr) then ds else if u.field = 4 then 0 else ss

/-- The first iteration from i0 on, below c, in which a use lies outside its file, with the field that it reports (R364). -/
def useBeyond (vallot i0 c ds ss : Nat) (u : RegUse) : Option (Nat × Nat) :=
  let k := strideOf ds ss u
  match (upTo (c - i0)).find? (fun j => fileBound vallot u.file < u.first + (i0 + j) * k + u.count) with
  | none => none
  | some j => some (i0 + j, if u.field = 4 ∧ u.wr ∧ 32 ≤ u.first + (i0 + j) * k then 0 else u.field)

/-- The field of REGBOUND that the iterations of a REP give (R364): of the earliest failing iteration, its first use. -/
def repBeyond (vallot i0 c ds ss : Nat) (us : List RegUse) : Option Nat :=
  (minBy (fun e => [e.1]) (us.filterMap (useBeyond vallot i0 c ds ss))).map (·.2)

/-- The fields of iteration i of a repeated instruction (R116): register operands step, a literal, IMM and P do not. -/
def steppedFields (i : Instr) (x : Fields) (n ds ss : Nat) : Fields :=
  let us := regUses i x
  let has (f : Nat) : Bool := us.any (fun u => u.field == f)
  let d := has 0 || us.any (fun u => u.field == 4 && u.wr)
  { x with
    d := if d then BitVec.ofNat 6 (x.d.toNat + n * ds) else x.d
    a := if has 1 then BitVec.ofNat 6 (x.a.toNat + n * ss) else x.a
    b := if has 2 then BitVec.ofNat 6 (x.b.toNat + n * ss) else x.b
    c := if has 3 then BitVec.ofNat 6 (x.c.toNat + n * ss) else x.c }

/-- REP's meaning: with its checks passed the fragment stands in the repeat, whose first iteration issues together with the prefix and the
others one at a time (R38, R95); `REPIDX` is 0 when the repeat is over (R116). A repeat without iterations skips the instruction, with
that one's stall count (R38). -/
def repOp (i : Instr) (s : State) : Out :=
  guarded i s (fun s =>
    let at' := (nextPc s).toNat
    match repTrap s with
    | some d => arith s d
    | none =>
      match instrAt s s.curC at' with
      | .error st => stopAt i none s (faddrOf 0 0 at') 0 st
      | .ok (.error d) =>
        (match fetchWord s s.curC at' with
         | .ok b => if 2 ≤ (wordAt b 0).toNat % 4 then illegal s d else illegal s 5
         | .error _ => illegal s 5)
      | .ok (.ok (j, x, n)) =>
        if j.extCode.isNone then illegal s 5
        else
          let (c, ss) := repOperands s
          let ds := s.ir.d.toNat % 8
          let i0 := s.curW.repidx.toNat
          if c ≤ i0 then
            let s := s.modWave s.curWk (fun w => { w with repidx := 0 })
            .next (jumpTo { s with ir := { s.ir with stall := x.stall }, len := s.len + n } (word (at' + n)))
          else
            match repBeyond s.curC.vallot i0 c ds ss (regUses j x) with
            | some f => trap s 0x03 f
            | none => .next (s.modThread s.cur (fun t => { t with rep := some ⟨i0, c, ds, ss, s.len, true⟩, hold := none })))

/-- REP, R116. -/
def execRep (s : State) : Out := repOp .rep s
/-- REP with a literal, R116. -/
def execRepLit (s : State) : Out := repOp .repLit s

/-! ### GRP -/

/-- A group in execution on a copy of the state: the copy, whose memory and registers the members have changed; the registers that
they wrote; the lines they read and wrote; the positions and stall counts passed. -/
structure GroupRun where
  u : State
  writes : List RegWrite := []
  reads : List Nat := []
  stores : List Nat := []
  /-- Where its stores went: policy and range of their lines (R148, R152). -/
  places : List Loc := []
  cycles : Nat := 0

/-- Why a group does not commit: a trap or another stop of a member, with its FADDR. -/
abbrev GroupStop := Stop × Word

/-- A member writes a scalar register. -/
def GroupRun.setS (g : GroupRun) (v : Word) : GroupRun :=
  let u := g.u
  { g with u := writeS u 0 u.ir.d.toNat v, writes := g.writes ++ [.s u.cur u.ir.d.toNat v] }

/-- Where a member's access goes: its own checks, then the group's: the line is homed on the issuing die and no other die holds it. -/
def memberLoc (u : State) (e : Int) (n : Nat) (need : Need) : Except GroupStop Loc :=
  let c := readC u u.ir.a.toNat
  let fa := faddrOf u.ir.a.toNat 0 e
  match translate u u.curC.ctx c e n need with
  | .error st => .error (st, fa)
  | .ok l =>
    if isHost l.key || dieOfKey l.key != u.curDie then .error (.trap 0x01 6, 0)
    else
      match storeStop u u.curDie l with
      | some st => .error (st, fa)
      | none => if !need.write && u.poisoned l.key then .error (.trap 0x50 2, fa) else .ok l

/-- A member that loads (R104). -/
def memberLoad (g : GroupRun) (n : Nat) (sx : Bool) : Except GroupStop GroupRun :=
  match memberLoc g.u (scalarOffset g.u) n { rights := rightR, align := n } with
  | .error x => .error x
  | .ok l =>
    let v := loadedWord sx (g.u.bytesAt l n)
    .ok ({ g with u := touchLeaf g.u l false, reads := l.lines.foldr linsert g.reads }.setS v)

/-- A member's bytes go to a place. -/
def GroupRun.stored (g : GroupRun) (l : Loc) (bs : List Byte) : GroupRun :=
  { g with u := (touchLeaf g.u l true).writeAt l bs, stores := l.lines.foldr linsert g.stores, places := g.places ++ [l] }

/-- A member that stores (R104). -/
def memberStore (g : GroupRun) (n : Nat) : Except GroupStop GroupRun :=
  match memberLoc g.u (scalarOffset g.u) n { rights := rightW, align := n, write := true } with
  | .error x => .error x
  | .ok l =>
    .ok (g.stored l (bytesOf n (readS g.u g.u.ir.d.toNat).toNat))

/-- A member SATOM (R172): PLC is ignored, and no counter is raised. -/
def memberAtomic (g : GroupRun) : Except GroupStop GroupRun :=
  let u := g.u
  let w := widthOf u.ir.t.toNat
  let p := satomPiece u
  match memberLoc u p.off (w / 8) { rights := atomRights u.ir, align := w / 8, write := true, atomic := true } with
  | .error x => .error x
  | .ok l =>
    if u.poisoned l.key then .error (.trap 0x50 2, faddrOf u.ir.a.toNat 0 p.off)
    else
      let old := numOfBytes (u.bytesAt l (w / 8))
      let new := atomicNew (atomOp u.ir) u.ir.t.toNat u.ir.rm.toNat old p.x p.y
      let g := g.stored l (bytesOf (w / 8) new)
      .ok (if atomRet u.ir then g.setS (scalarOld u old) else g)

/-- Execute one member on the group's copy (R118, R119). -/
def memberStep (g : GroupRun) (i : Instr) : Except GroupStop GroupRun :=
  let u := g.u
  match entryTrap u i with
  | some (code, d) => .error (.trap code d, 0)
  | none =>
    match i.baseCode, i.extCode with
    | some (opc, _), _ =>
      if opc = 0x20 then memberLoad g 8 false
      else if opc = 0x21 then memberLoad g 4 (u.ir.x.getLsbD 0)
      else if opc = 0x22 then memberStore g 8
      else if opc = 0x23 then memberStore g 4
      else if (3 ≤ opc ∧ opc ≤ 5) ∨ (0x0D ≤ opc ∧ opc ≤ 0x1F) then
        .ok (g.setS (scalarAlu opc u.ir.x (readS u u.ir.a.toNat) (operandB u) (readS u u.ir.d.toNat)))
      else .error (.trap 0x01 6, 0)
    | none, some (0x69, 1) => memberAtomic g
    | _, _ => .error (.trap 0x01 6, 0)

/-- Fetch and execute `n` members from an address (R119): each counts as a position, with its stall count (R40). -/
def runMembers : Nat → Word → GroupRun → Except GroupStop (GroupRun × Word)
  | 0, pc, g => .ok (g, pc)
  | n + 1, pc, g =>
    match instrAt g.u g.u.curC pc.toNat with
    | .error st => .error (st, faddrOf 0 0 pc.toNat)
    | .ok (.error d) => .error (.trap 0x01 d, 0)
    | .ok (.ok (i, x, len)) =>
      match memberStep { g with u := { g.u with ir := x, len := len } } i with
      | .error e => .error e
      | .ok g =>
        let k := 1 + x.stall.toNat
        let u := { g.u with clock := g.u.clock + k }
        let u := u.modThread u.cur (fun t => { t with position := t.position + k })
        if 4 < (g.reads ++ g.stores).eraseDups.length then .error (.trap 0x01 6, 0)
        else runMembers n (pc + word len) { g with u := u, cycles := g.cycles + k }

/-- The timestamp of a group (R186). -/
def groupTime (s : State) (lines : List Nat) : Nat :=
  lines.foldl (fun m l => max m (max ((s.stamps l).1 + 1) ((s.stamps l).2 + 1))) s.curW.pts

/-- Commit a group: its memory effects at one time, its registers and s[D] := 1 when AT is lowered (R119, R186). -/
def commitGroup (s : State) (g : GroupRun) (pc : Word) : State :=
  let ts := groupTime s (g.reads ++ g.stores)
  let s := { g.stores.foldl keepDram s with mem := g.u.mem, tags := g.u.tags }
  let s := g.reads.foldl (fun s l => s.stamp l (s.stamps l).1 (max (s.stamps l).2 ts)) s
  let place (s : State) (l : Nat) : State :=
    placeStore s s.curDie (some s.curC.core) l ((g.places.find? (fun x => x.lines.contains l)).getD { key := 64 * l }) ts id
  let s := g.stores.foldl (fun s l => ((place s l).stamp l ts ts).trigger l ts) s
  let s := doneAccess (raisePts s s.curWk ts) 5 (g.writes ++ [.s s.cur s.ir.d.toNat 1])
  (jumpTo s pc).modThread s.cur (fun t => { t with readyAt := t.readyAt + g.cycles, position := t.position + g.cycles })

/-- GRP, R119: a member that fails its checks traps with nothing done but s[D] := 0, and `EPC` at the GRP (R363). -/
def execGrp (s : State) : Out :=
  guarded .grp s (fun s =>
    if !roomOn s 5 then .next (stallIssue s)
    else if earlierOpen s then .next (holdAccess s .grp (some 5))
    else
      let s := writeS s 0 s.ir.d.toNat 0
      let k := 1 + s.ir.stall.toNat
      let u := ({ s with clock := s.clock + k }).modThread s.cur (fun t => { t with position := t.position + k, hold := none })
      match runMembers (s.ir.a.toNat % 16) (nextPc s) { u := u } with
      | .error (st, fa) => stopAt .grp (some 5) s fa 0 st
      | .ok (g, pc) => .next (commitGroup s g pc))

end Sys2Proof.Machine
end

