-- ==== Sys2Proof/Machine/Lod.lean ====
section
/-! DEFINITION. Level-of-detail loads, class 0x71 (R283 to R297, R393): the header, the residency map, the wanted level, the fallback
chain, sampling, and the feedback that hash encodings share. -/

namespace Sys2Proof.Machine

/-! ### The header (R283, R284) -/

/-- A level-of-detail object as its header describes it: where its entry and header lie, geometry, ring, map, and MOFF and LOFF by level. -/
structure LodObject where
  die : Nat
  asid : Nat
  obj : Nat
  root : Nat
  header : Nat
  w0 : Nat
  h0 : Nat
  th : Nat
  tw : Nat
  tail : Nat
  ncl : Nat
  ct : Nat
  ring : Nat
  log2n : Nat
  map : Nat
  levels : List (Nat × Nat)
  deriving DecidableEq, Repr

/-- Bytes of a component (R284); 0 for a reserved type. -/
def componentBytes (ct : Nat) : Nat := match ct with | 4 => 1 | 8 => 2 | 9 => 2 | 10 => 4 | _ => 0

/-- TB, bytes of a texel. -/
def LodObject.texel (h : LodObject) : Nat := componentBytes h.ct * 2 ^ h.ncl

/-- The geometry obeys R283 and R284. -/
def LodObject.ok (h : LodObject) : Bool :=
  componentBytes h.ct != 0 && h.ncl != 3 && 4 ≤ h.log2n && h.log2n ≤ 16 && h.tw + h.th + Nat.log2 h.texel == 16

/-- A header as numbers, to be kept with a held instruction. -/
def LodObject.pack (h : LodObject) : List Nat :=
  [h.die, h.asid, h.obj, h.root, h.header, h.w0, h.h0, h.th, h.tw, h.tail, h.ncl, h.ct, h.ring, h.log2n, h.map] ++
    (upTo 16).flatMap (fun d => [(h.levels.getD d (0, 0)).1, (h.levels.getD d (0, 0)).2])

/-- The header that numbers stand for. -/
def LodObject.unpack (xs : List Nat) : LodObject :=
  let g (k : Nat) : Nat := xs.getD k 0
  { die := g 0, asid := g 1, obj := g 2, root := g 3, header := g 4, w0 := g 5, h0 := g 6, th := g 7, tw := g 8, tail := g 9, ncl := g 10, ct := g 11,
    ring := g 12, log2n := g 13, map := g 14, levels := (upTo 16).map (fun d => (g (15 + 2 * d), g (16 + 2 * d))) }

/-- What the current instruction, which is held, has read before its first lane. -/
def keptOf (s : State) : List Nat := match s.curT.hold with | some h => h.kept | none => []

/-- An instruction that is held keeps what it has read before its first lane. -/
def keepRead (s : State) (xs : List Nat) (o : Out) : Out :=
  match o with
  | .next u => .next (u.modThread s.cur (fun t => { t with hold := t.hold.map (fun h => { h with kept := xs }) }))
  | x => x

/-- Read the header of the object of an entry, as an ordinary load of the current wave. -/
def readHeader (s : State) (obj : Nat) (t : Entry) : Except Stop (State × LodObject) :=
  let die := s.curDie
  match readVia (physReach die s.curC.asid (t.w2 % 2 ^ 52)) s die 0 0xC0 (issuePts s) { rights := rightR } with
  | .error st => .error st
  | .ok (s, b, ts) =>
    let g := field b 0 8
    let h : LodObject := {
      die := die, asid := s.curC.asid, obj := obj, root := t.w1, header := t.w2 % 2 ^ 52, h0 := bits g 48 16 + 1, w0 := bits g 32 16 + 1
      th := bits g 24 4, tw := bits g 20 4, tail := bits g 16 4, ncl := bits g 8 2, ct := bits g 0 4, ring := field b 8 8 % 2 ^ 52
      log2n := field b 16 8 % 16, map := field b 0x30 8 % 2 ^ 52
      levels := (upTo 16).map (fun d => (field b (0x40 + 8 * d) 8 / 2 ^ 44, field b (0x40 + 8 * d) 8 % 2 ^ 44)) }
    if h.ok then .ok (accessedAt s ts, h) else .error (.trap 0x30 6)

/-- The header of the current instruction: read once, before its first lane (R284). -/
def lodHeader (s : State) (obj : Nat) (t : Entry) : Except Stop (State × LodObject) :=
  match keptOf s with
  | [] => readHeader s obj t
  | xs => .ok (s, LodObject.unpack xs)

/-- W of a level. -/
def LodObject.width (h : LodObject) (d : Nat) : Nat := max 1 (h.w0 / 2 ^ d)
/-- H of a level. -/
def LodObject.height (h : LodObject) (d : Nat) : Nat := max 1 (h.h0 / 2 ^ d)
/-- LOFF of a level. -/
def LodObject.loff (h : LodObject) (d : Nat) : Nat := (h.levels.getD d (0, 0)).2
/-- MOFF of a level. -/
def LodObject.moff (h : LodObject) (d : Nat) : Nat := (h.levels.getD d (0, 0)).1

/-! ### Reads of the owner without a lease (R295) -/

/-- Read bytes of one line at its owner, with no lease: the state, the bytes and the time. -/
def readOwner (s : State) (h : LodObject) (phys n : Nat) : Except Stop (State × List Byte × Nat) :=
  match physLoc s h.die h.asid phys false { key := 0 } with
  | .error st => .error st
  | .ok l =>
    if isHost l.key then (if l.fails then .error (.trap 0x50 8) else .ok (s, s.bytes l.key n, (issuePts s)))
    else
      let line := lineOf l.key
      if lineAway s line then .error (.remote line false true)
      else if s.poisoned l.key then .error (.trap 0x50 2)
      else
        let (w, m) := s.stamps line
        let ts := max (issuePts s) w
        .ok (s.stamp line w (max m ts), s.bytes l.key n, ts)

/-- The map bit of a page of a level (R285). -/
def mapBit (s : State) (h : LodObject) (d p : Nat) : Except Stop (State × Bool) :=
  let k := h.moff d + p
  match readOwner s h (h.map + k / 8) 1 with
  | .error st => .error st
  | .ok (s, b, ts) => .ok (accessedAt s ts, bitAt (numOfBytes b) (k % 8))

/-- The leaf of a page of a level translates (R149, R393). -/
def leafPresent (s : State) (h : LodObject) (d p : Nat) : Bool :=
  match findLeaf s h.die (some s.curC.core) h.asid h.obj h.root (h.loff d + 65536 * p) with
  | .ok _ => true
  | .error _ => false

/-- The first page of a list that is not resident: its map bit is 0, or, but for level TAIL, its leaf does not translate (R289, R319, R393); with it,
whether its map bit was 1. -/
def firstAbsent (h : LodObject) (d : Nat) : List Nat → State → Except Stop (State × Option (Nat × Bool))
  | [], s => .ok (s, none)
  | p :: t, s =>
    match mapBit s h d p with
    | .error st => .error st
    | .ok (s, b) =>
      if b && d != h.tail && walkPoisoned s h.die (some s.curC.core) h.asid h.obj h.root (h.loff d + 65536 * p) then .error (.trap 0x50 2)
      else if b && (d == h.tail || leafPresent s h d p) then firstAbsent h d t s else .ok (s, some (p, b))

/-! ### Feedback (R291, R292) -/

/-- The filter bit of a page (R291). -/
def filterBit (w p : Nat) : Nat := (w * 2 ^ 20 + p) * 0x9E3779B1 % 2 ^ 32 / 2 ^ 20

/-- A feedback record (R292). -/
def feedbackRecord (h : LodObject) (w p : Nat) (henc : Bool) : List Byte :=
  bytesOf 4 h.obj ++ bytesOf 1 w ++ bytesOf 1 (if henc then 1 else 0) ++ bytesOf 2 h.asid ++ bytesOf 4 p ++ bytesOf 1 h.die ++ bytesOf 3 0

/-- What the feedback operation did for a page: nothing, a record, or a drop. -/
inductive Feedback where
  | none
  | logged
  | dropped
  deriving DecidableEq, Repr

/-- The keys of some physical addresses of the header's die, where each may be written now. -/
def ownPlaces (s : State) (h : LodObject) : List Nat → Except Stop (List Nat)
  | [] => .ok []
  | a :: t =>
    match physLoc s h.die h.asid a true { key := 0 } with
    | .error st => .error st
    | .ok l =>
      match storeStop s h.die l with
      | some st => .error st
      | none =>
        match ownPlaces s h t with
        | .error st => .error st
        | .ok ks => .ok (l.key :: ks)

/-- Write bytes at keys of the home die at one time, as an atomic group does (R186). -/
def writeGroup (s : State) (ws : List (Nat × List Byte)) (reads : List Nat) : State :=
  let lines := (ws.map (fun w => lineOf w.1)) ++ reads
  let ts := groupTime s lines
  let s := reads.foldl (fun s l => s.stamp l (s.stamps l).1 (max (s.stamps l).2 ts)) s
  accessedAt (ws.foldl (fun s w => writeHome s s.curDie ts w.1 w.2) s) ts

/-- The feedback operation for page `p` of level `w` (R291), one at a time at the header's home; it stores the filter bit in every case; `mapped` says that the page's map bit
is 1, which the die logs where the filter bit is found 0 (R393). It is an atomic on the header's lines, which poison stops (R395). -/
def logMiss (s : State) (h : LodObject) (w p : Nat) (henc mapped : Bool) : Except Stop (State × Feedback) :=
  let k := filterBit w p
  match ownPlaces s h [h.header + 0x100 + k / 8, h.header + 0x18] with
  | .error st => .error st
  | .ok [fk, wk] =>
    let old := s.num fk 1
    if s.poisoned fk || s.poisoned wk then .error (.trap 0x50 2)
    else if bitAt old (k % 8) then .ok (writeGroup s [(fk, bytesOf 1 old)] [], .none)
    else
      let s := if mapped then
          dieLog s h.die { crewEntry s s.curCk (widOf s.curWk) 0x20 4 with faddr := faddrOf 0 0 (h.loff w + 65536 * p), src := 0 }
        else s
      let filter := (fk, bytesOf 1 (old + 2 ^ (k % 8)))
      let wp := s.num wk 8
      let rp := s.num (wk + 8) 8
      let dr := s.num (wk + 16) 8
      if 2 ^ h.log2n ≤ (wp + 2 ^ 64 - rp) % 2 ^ 64 then
        let v := dr / 2 ^ 33 * 2 ^ 33 + 2 ^ 32 + min (dr % 2 ^ 32 + 1) (2 ^ 32 - 1)
        .ok (writeGroup s [filter, (wk + 16, bytesOf 8 v)] [], .dropped)
      else
        match ownPlaces s h [h.ring + 16 * (wp % 2 ^ h.log2n)] with
        | .error st => .error st
        | .ok [rk] =>
          .ok (writeGroup s [filter, (rk, feedbackRecord h w p henc), (wk, bytesOf 8 ((wp + 1) % 2 ^ 64))] [], .logged)
        | .ok _ => .ok (s, .none)
  | .ok _ => .ok (s, .none)

/-- The feedback of a lane for the page that it missed, if any, with its map bit. -/
def feedbackFor (s : State) (h : LodObject) (w : Nat) (miss : Option (Nat × Bool)) (henc : Bool) : Except Stop (State × Feedback) :=
  match miss with
  | none => .ok (s, .none)
  | some (p, mapped) => logMiss s h w p henc mapped

/-! ### Coordinates and levels (R288, R289) -/

/-- A finite F32 in units of 2^-149. -/
def fixedF32 (x : Nat) : Option Int :=
  match decodeF 10 x with
  | .fin neg m e => some (scaled neg m e (-149))
  | _ => none

/-- A coordinate in units of 2^-149 (R289): 0 for a NaN; an infinity clamps to the edge, as 2 does. -/
def coordinate (x : Nat) : Int :=
  match decodeF 10 x with
  | .fin neg m e => scaled neg m e (-149)
  | .inf neg => if neg then -(2 ^ 150) else 2 ^ 150
  | .nan _ _ => 0

/-- The base level of derivatives in units of 2^-149 (R288). -/
def derivativeLevel (h : LodObject) (dux dvx duy dvy : Int) : Nat :=
  let sq (a : Int) (n : Nat) : Nat := ((a * n).natAbs) ^ 2
  let r2 := max (sq dux h.w0 + sq dvx h.h0) (sq duy h.w0 + sq dvy h.h0)
  ((upTo 16).find? (fun n => r2 < 2 * 4 ^ n * 2 ^ 298)).getD 15

/-- The wanted level of R288 for a base level. -/
def wantedLevel (h : LodObject) (base : Nat) (bias : Int) : Nat := (min (max ((base : Int) + bias) 0) (h.tail : Int)).toNat

/-- The base level of four derivative words; 15 with a NaN or an infinity. -/
def baseOfDerivatives (h : LodObject) (dux dvx duy dvy : Nat) : Nat :=
  match fixedF32 dux, fixedF32 dvx, fixedF32 duy, fixedF32 dvy with
  | some a, some b, some c, some d => derivativeLevel h a b c d
  | _, _, _, _ => 15

/-- A texel of a footprint: its page, its object offset, and its weight. -/
structure Texel where
  page : Nat
  off : Nat
  weight : FVal
  deriving DecidableEq, Repr

/-- A coordinate clamped to a level's range. -/
def clampTo (n : Nat) (a : Int) : Nat := (min (max a 0) ((n : Int) - 1)).toNat

/-- Texel (i, j) of a level (R283). -/
def texelAt (h : LodObject) (d i j : Nat) (weight : FVal) : Texel :=
  let p := j / 2 ^ h.th * ((h.width d + 2 ^ h.tw - 1) / 2 ^ h.tw) + i / 2 ^ h.tw
  ⟨p, h.loff d + 65536 * p + h.texel * (j % 2 ^ h.th * 2 ^ h.tw + i % 2 ^ h.tw), weight⟩

/-- The footprint of a level in texel order (R289). -/
def footprint (h : LodObject) (d : Nat) (u v : Int) (bilinear : Bool) : List Texel :=
  let one : Int := 2 ^ 149
  let w := h.width d
  let ht := h.height d
  if bilinear then
    let x := u * w - 2 ^ 148
    let y := v * ht - 2 ^ 148
    let fx := (x % one).toNat
    let fy := (y % one).toNat
    let at' (i j : Int) (a b : Nat) : Texel := texelAt h d (clampTo w i) (clampTo ht j) (.fin false (a * b) (-298))
    [at' (x / one) (y / one) (2 ^ 149 - fx) (2 ^ 149 - fy), at' (x / one + 1) (y / one) fx (2 ^ 149 - fy),
     at' (x / one) (y / one + 1) (2 ^ 149 - fx) fy, at' (x / one + 1) (y / one + 1) fx fy]
  else [texelAt h d (clampTo w (u * w / one)) (clampTo ht (v * ht / one)) (.fin false 1 0)]

/-- The fallback chain from a level (R289): the delivered level; `n` levels are left before the tail. -/
def deliveredLevel (h : LodObject) (u v : Int) (bilinear : Bool) : Nat → Nat → State → Except Stop (State × Nat)
  | 0, d, s => .ok (s, d)
  | n + 1, d, s =>
    match firstAbsent h d ((footprint h d u v bilinear).map (·.page)) s with
    | .error st => .error st
    | .ok (s, none) => .ok (s, d)
    | .ok (s, some _) => deliveredLevel h u v bilinear n (d + 1) s

/-! ### Texels (R286) -/

/-- code / 255, with a bit for what is cut off below 2^-60. -/
def unorm8 (c : Nat) : FVal := .fin false (c * 2 ^ 60 / 255 * 2 + if c * 2 ^ 60 % 255 = 0 then 0 else 1) (-61)

/-- Component `c` of a texel as F32 bits (R286). -/
def component (h : LodObject) (b : List Byte) (c : Nat) : Nat :=
  if 2 ^ h.ncl ≤ c then (if c = 3 then 0x3F800000 else 0)
  else
    let n := componentBytes h.ct
    let x := field b (c * n) n
    if h.ct = 10 then x
    else if h.ct = 4 then roundF 10 0 false (unorm8 x)
    else roundF 10 0 false (decodeF h.ct x)

/-- The exact sum of weighted values, rounded once with RNE (R289, R319): terms of weight 0 take no part, an exact zero is +0, a NaN is the
default one. -/
def weightedSum (t : Nat) (ts : List (FVal × FVal)) : Nat :=
  let ts := ts.filter (fun x => match x.1 with | .fin _ m _ => m != 0 | _ => true)
  if ts.any (fun x => x.2.isNan) then roundF t 0 false defaultNan
  else roundF t 0 false (ts.foldl (fun acc x => if acc.isNan then acc else addV 0 acc (mulV x.1 x.2)) (.fin false 0 0))

/-- Read the texels of a level in order, at times no lower than the map reads; a page of the tail that does not translate parks the wave
(R393). -/
def readTexels (c : Cap) (n : Nat) (tail : Bool) : List Nat → State → Except (Int × Stop) (State × List (List Byte))
  | [], s => .ok (s, [])
  | e :: t, s =>
    match translate s s.curC.ctx c e n { rights := rightR + rightL, kind := 1 } with
    | .error (.page die asid obj page why w a _) => .error (e, .page die asid obj page why w a tail)
    | .error st => .error (e, st)
    | .ok l =>
      match loadAt s s.curDie (some s.curC.core) (issuePts s) l n with
      | .error st => .error (e, st)
      | .ok (s, g) =>
        match readTexels c n tail t (accessedAt s g.ts) with
        | .error x => .error x
        | .ok (s, bs) => .ok (s, g.bytes :: bs)

/-- The four components of a sample. -/
def sampleValue (h : LodObject) (bilinear : Bool) (ts : List Texel) (bs : List (List Byte)) (c : Nat) : Nat :=
  if bilinear then weightedSum 10 ((upTo ts.length).map (fun k => (((ts.map (·.weight)).getD k defaultNan), decodeF 10 (component h (bs.getD k []) c))))
  else component h (bs.headD []) c

/-! ### The instructions (R287) -/

/-- The status word (R290). -/
def lodStatus (w d : Nat) (f : Feedback) (qinv : Bool) : Nat :=
  (d - w) + d * 2 ^ 4 + w * 2 ^ 8 + (if w < d then 2 ^ 16 else 0) + (if f = .logged then 2 ^ 17 else 0) +
    (if f = .dropped then 2 ^ 18 else 0) + (if qinv then 2 ^ 19 else 0)

/-- BIAS. -/
def lodBias (x : Fields) : Int := signed 4 (x.imm.toNat % 16)
/-- FILT: bilinear. -/
def lodBilinear (x : Fields) : Bool := x.mod.getLsbD 1

/-- The base level of a lane from operand C (R287, R288). -/
def levelFromC (s : State) (h : LodObject) (L : Nat) : Nat :=
  let c := readV s 32 s.ir.c.toNat L
  if s.ir.mod.getLsbD 0 then min (elem 32 0 c) 15
  else
    let c1 := readV s 32 (s.ir.c.toNat + 1) L
    baseOfDerivatives h (elem 32 0 c) (elem 32 1 c) (elem 32 0 c1) (elem 32 1 c1)

/-- The coordinates of the lanes as they stood when the instruction issued: kept with its hold, as its lanes that are done may have overwritten
them. -/
def issuedCoords (s : State) : List Nat :=
  match s.curT.hold with
  | some h => if h.peers.isEmpty then (upTo 32).map (fun L => (vecB s 32 L).toNat) else h.peers
  | none => (upTo 32).map (fun L => (vecB s 32 L).toNat)

/-- An instruction that is held keeps the coordinates of its issue. -/
def keepCoords (s : State) (o : Out) : Out :=
  match o with
  | .next u => .next (u.modThread s.cur (fun t => { t with hold := t.hold.map (fun h => { h with peers := issuedCoords s }) }))
  | x => x

/-- The derivatives of a lane's quad (R293): the base level, and whether a pair was invalid. -/
def levelFromQuad (s : State) (h : LodObject) (bs : List Nat) (L : Nat) : Nat × Bool :=
  let ps := readPreds s 64
  let diff (step k : Nat) : Option Nat := quadDiff s ps 10 0 (fun M j => decodeF 10 (elem 32 j (word (bs.getD M 0)))) step L k
  let ds := [diff 1 0, diff 1 1, diff 2 0, diff 2 1]
  let d (k : Nat) : Nat := (ds.getD k none).getD 0
  (baseOfDerivatives h (d 0) (d 1) (d 2) (d 3), ds.any Option.isNone)

/-- A lane's chain: the state, the wanted and the delivered level, and the page to log with its map bit. -/
def lodChain (s : State) (h : LodObject) (base : Nat) (u v : Int) : Except Stop (State × Nat × Nat × Option (Nat × Bool)) :=
  let bil := lodBilinear s.ir
  let w := wantedLevel h base (lodBias s.ir)
  match deliveredLevel h u v bil (h.tail - w) w s with
  | .error st => .error st
  | .ok (s, d) =>
    if d = w then .ok (s, w, d, none)
    else
      match firstAbsent h w ((footprint h w u v bil).map (·.page)) s with
      | .error st => .error st
      | .ok (s, p) => .ok (s, w, d, p)

/-- The key of the current instruction's object, for FENCE.EVICT (R194), plus 1. -/
def lodMark (s : State) : Nat := entryKey s s.curDie s.curC.asid (readC s s.ir.a.toNat).obj + 1

/-- Mark the access that an instruction raised as one of an object. -/
def markLod (s : State) (mark : Nat) (o : Out) : Out :=
  let id := match s.curT.hold with | some h => h.arg - 1 | none => tnext s.accesses
  match o with
  | .next u =>
    (match tfind? u.accesses id with
     | some a => .next { u with accesses := tput u.accesses id { a with lod := mark } }
     | none => .next u)
  | x => x

/-- A level-of-detail instruction: the checks on its object, its header, then its lanes (R284, R287, R363). -/
def lodAccess (i : Instr) (rights : Nat) (s : State)
    (lane : LodObject → State → Nat → Except (Int × Stop) (State × List RegWrite)) : Out :=
  guarded i s (fun s =>
    let ls := activeLanes s 64
    if ls.isEmpty then laneAccess i s 3 s.ir.a.toNat ls (fun s _ => .ok (s, []))
    else if !roomOn s 3 then .next (stallIssue s)
    else if earlierOpen s then .next (holdAccess s i (some 3))
    else
      let c := readC s s.ir.a.toNat
      match objectCheck s s.curC.ctx c { rights := rights, kind := 1 } with
      | .error st => stopAt i (some 3) s (faddrOf s.ir.a.toNat 0 c.off) 0 st
      | .ok t =>
        match lodHeader s c.obj t with
        | .error st => stopAt i (some 3) s (faddrOf s.ir.a.toNat 0 0) 0 st
        | .ok (u, h) => keepRead s h.pack (markLod s (lodMark s) (laneAccess i u 3 s.ir.a.toNat ls (lane h))))

/-- The two coordinates of a lane. -/
def lodCoords (s : State) (L : Nat) : Int × Int :=
  let b := vecB s 32 L
  (coordinate (elem 32 0 b), coordinate (elem 32 1 b))

/-- A full write of a vector register in a lane. -/
def fullWrite (r L v : Nat) : RegWrite := .v r L (BitVec.allOnes 64) (word v)

/-- A lane of a level-of-detail load (R289, R295): map reads, texel reads, then the feedback operation. -/
def lodLane (h : LodObject) (base : Nat) (qinv : Bool) (s : State) (L : Nat) : Except (Int × Stop) (State × List RegWrite) :=
  let c := readC s s.ir.a.toNat
  let bil := lodBilinear s.ir
  let (u, v) := lodCoords s L
  match lodChain s h base u v with
  | .error st => .error (0, st)
  | .ok (s, w, d, miss) =>
    let ts := footprint h d u v bil
    match readTexels c h.texel (d == h.tail) (ts.map (·.off)) s with
    | .error x => .error x
    | .ok (s, bs) =>
      match feedbackFor s h w miss false with
      | .error st => .error (0, st)
      | .ok (s, f) =>
        let e (k : Nat) : Nat := sampleValue h bil ts bs k
        let r := s.ir.d.toNat
        .ok (s, [fullWrite r L (e 0 + e 1 * 2 ^ 32), fullWrite (r + 1) L (e 2 + e 3 * 2 ^ 32), fullWrite (r + 2) L (lodStatus w d f qinv)])

/-- LDLOD, R287 to R291. -/
def execLdlod (s : State) : Out := lodAccess .ldlod (rightR + rightL) s (fun h u L => lodLane h (levelFromC s h L) false u L)

/-- LDLODP, R293. -/
def execLdlodp (s : State) : Out :=
  keepCoords s (lodAccess .ldlodp (rightR + rightL) s (fun h u L => let q := levelFromQuad s h (issuedCoords s) L; lodLane h q.1 q.2 u L))

/-- LODQ, R294. -/
def execLodq (s : State) : Out :=
  lodAccess .lodq rightL s (fun h u L =>
    let (x, y) := lodCoords u L
    match lodChain u h (levelFromC s h L) x y with
    | .error st => .error (0, st)
    | .ok (u, w, d, miss) =>
      let first := ((footprint h w x y (lodBilinear u.ir)).map (·.page)).headD 0
      let page := match miss with | some (p, _) => p | none => first
      .ok (u, [fullWrite u.ir.d.toNat L (lodStatus w d .none false + page % 2 ^ 32 * 2 ^ 32)]))

end Sys2Proof.Machine
end

