-- ==== Sys2Proof/Machine/Management.lean ====
section
/-! DEFINITION. The management queue of a die (R346, R347, R333, R356): the die reads a command from its ring, or it comes as an event of its own
(log 1); it is answered at once, or when the importers have acknowledged (R336). -/

namespace Sys2Proof.Machine

/-- How a command is answered (R346): done, with what it did and STAT above bit 7; refused; malformed. -/
inductive Reply where
  | done (s : State) (stat : Nat)
  | refused
  | malformed
  deriving DecidableEq, Repr

/-- The command has this STAT: it is written, and vector 0 raised, as soon as nothing keeps it (R336, R346). -/
def answerCommand (s : State) (die stat : Nat) : State :=
  finishCommand (s.modDie die (fun d => { d with mgmtPending := some (stat, s.ev.arg1 == 1) })) die

/-- The command at HEAD of a die's ring (R346): none while there is none. -/
def ringCommand (s : State) (die : Nat) (q : MgmtQueue) : Except Stop (State × Option (List Byte × Nat)) :=
  readRing (physReach die q.asid q.ring) s die q.n q.head

/-- The die takes the command at HEAD of its ring: HEAD + 1 is stored (R253, R346); none while there is none. -/
def takeCommand (s : State) (die : Nat) : Except Stop (State × Option (List Byte)) :=
  match (s.die die).mgmt with
  | none => .ok (s, none)
  | some q =>
    match ringCommand s die q with
    | .error st => .error st
    | .ok (s, none) => .ok (s, none)
    | .ok (s, some (b, _)) =>
      match advanceRing (physReach die q.asid q.ring) s die q.head with
      | .error st => .error st
      | .ok s => .ok (s.modDie die (fun d => { d with mgmt := some { q with head := (q.head + 1) % 2 ^ 64 } }), some b)

/-- The fields of a command of 64 bytes (R346). -/
def commandOf (b : List Byte) : MgmtCmd :=
  ⟨BitVec.ofNat 8 (field b 1 1), BitVec.ofNat 16 (field b 2 2), BitVec.ofNat 32 (field b 4 4), BitVec.ofNat 64 (field b 8 8),
    BitVec.ofNat 64 (field b 0x10 8), BitVec.ofNat 256 (field b 0x18 32)⟩

/-- The row of a command by its CODE (R347). -/
def commandRow (code : Nat) : Instr :=
  match code with
  | 1 => .asidset
  | 2 => .inval
  | 3 => .exportObject
  | 4 => .unexport
  | 5 => .evsched
  | 6 => .lqopen
  | 7 => .lqclose
  | 8 => .telem
  | 9 => .capset
  | _ => .reservedCommand

/-- The command that the die reads next from its ring, when none of its is under way (R346); a read that is stopped is taken up by the row of a
reserved command, which reads again, and takes nothing of another row. -/
def ringEvent (s : State) (die : Nat) : Option (Instr × EventArgs) :=
  match (s.die die).mgmt with
  | none => none
  | some q =>
    if (s.die die).mgmtPending.isSome then none
    else
      match ringCommand s die q with
      | .ok (_, none) => none
      | .ok (_, some (b, _)) => some (commandRow (field b 0 1), { subject := die, arg1 := 1, cmd := commandOf b })
      | .error _ => some (.reservedCommand, { subject := die, arg1 := 1 })

/-- The first line of a range of an object that other dies hold, with its home. -/
def heldIn (s : State) (die asid obj off n : Nat) : Option (Nat × Nat) :=
  match entryOf s die asid obj with
  | none => none
  | some e => (linePieces (off : Int) n).findSome? (fun p =>
      match entryLoc s die asid obj [] e p.1.toNat true false with
      | .error _ => none
      | .ok l => match storeStop s die l with | some (.remote line _ _) => some (die, line) | _ => none)

/-- Run a command that has been taken: reserved bits make it malformed; 1 and 2 leave everything as it was (R346). -/
def runCommand (s : State) (c : MgmtCmd) (f : State → Nat → Nat → MgmtCmd → Reply) : Out :=
  let die := s.ev.subject
  let asid := c.asidField.toNat
  if c.resv1 != 0 || 2 ^ 13 ≤ asid then .next (answerCommand s die 2)
  else
    match f s die asid c with
    | .done s x => .next (answerCommand s die (256 * x))
    | .refused => .next (answerCommand s die 1)
    | .malformed => .next (answerCommand s die 2)

/-- The ring's command is no longer one of the row `i`, or there is none: nothing is taken. -/
def otherRow (s : State) (die : Nat) (i : Instr) : Bool :=
  match (s.die die).mgmt with
  | none => true
  | some q =>
    match ringCommand s die q with
    | .ok (_, some (b, _)) => commandRow (field b 0 1) != i
    | .ok (_, none) => true
    | .error _ => false

/-- Run a command of the event's die; where the event says so, the one at HEAD of its ring, if it is of the row `i`. -/
def manage (i : Instr) (s : State) (f : State → Nat → Nat → MgmtCmd → Reply) : Out :=
  let die := s.ev.subject
  if 12 ≤ die || (s.die die).mgmtPending.isSome then .next s
  else if s.ev.arg1 != 1 then runCommand s s.ev.cmd f
  else if otherRow s die i then .next s
  else
    match takeCommand s die with
    | .error st => (match frontStop s die st with | .error e => .fault e | .ok (s, _) => .next s)
    | .ok (s, none) => .next s
    | .ok (s, some b) => runCommand s (commandOf b) f

/-- A crew of the ASID runs or waits on the die. -/
def asidBusy (s : State) (die asid : Nat) : Bool := s.crews.any (fun e => e.2.die == die && e.2.asid == asid && e.2.state != .ended)

/-- ASIDSET, R347: binds the table and the share domain of an ASID, or retires it. -/
def execAsidset (s : State) : Out :=
  manage .asidset s (fun s die asid c =>
    let base := c.arg1.toNat
    if base % 32 != 0 || 2 ^ 48 ≤ base || 2 ^ 16 ≤ c.arg2.toNat then .malformed
    else if asidBusy s die asid then .refused
    else
      .done (s.modDie die (fun d => { d.forgetAsid asid with
        asids := if c.arg0 = 0 then terase d.asids asid
          else tput d.asids asid { base := base, count := c.arg0.toNat, share := some c.arg2.toNat } })) 0)

/-- INVAL, R347. -/
def execInval (s : State) : Out := manage .inval s (fun s die asid c => .done (invalidate s die asid c.arg0.toNat) 0)

/-- The capability of a command, taken as a tagged granule (R347). -/
def commandCap (c : MgmtCmd) : Cap := capOf (bytesOf 16 c.arg3.toNat) true

/-- An object whose entry may be exported (R333): valid, contiguous or paged, in space 0 or 1. -/
def exportable (s : State) (die asid obj : Nat) : Bool :=
  match entryOf s die asid obj with
  | none => false
  | some e => e.valid && (e.kind == 1 || e.kind == 2) && bits e.w1 48 4 < 2

/-- Any one of a list of numbers (log 3): the spec leaves the choice to the part. -/
def anyOf (s : State) (l : List Nat) : Option Nat := l[Config.freeNat s.fresh 0 % l.length]?

/-- EXPORT, R333, R347: fills a free slot; PR, PW and PA (ARG0 bits 2, 1 and 0) ask for R, W and A of the capability. -/
def execExportObject (s : State) : Out :=
  manage .exportObject s (fun s die asid c =>
    let a := c.arg0.toNat
    let k := commandCap c
    let need := (if bitAt a 2 then rightR else 0) + (if bitAt a 1 then rightW else 0) + (if bitAt a 0 then rightA else 0)
    if bitAt a 3 || 2 ^ 16 ≤ a then .malformed
    else if !k.tag || !bitAt k.rights 1 || missing need k.rights != 0 || !exportable s die asid k.obj then .refused
    else
      let x := (s.die die).exports
      match anyOf s ((upTo 4096).filter (fun i => !bitAt (tget (0, 0) x i).1 63)) with
      | none => .refused
      | some i =>
        let gen := bits (tget (0, 0) x i).2 48 16
        let w0 := 2 ^ 63 + bits a 0 3 * 2 ^ 60 +
          bits a 4 12 * 2 ^ 48 + asid * 2 ^ 32 + k.obj
        .done (s.modDie die (fun d => { d with exports := tput d.exports i (w0, gen * 2 ^ 48) })) ((gen * 2 ^ 16 + i) * 2 ^ 24))

/-- UNEXPORT, R333, R347: clears V, advances GEN and invalidates; an id that names no valid export is refused. -/
def execUnexport (s : State) : Out :=
  manage .unexport s (fun s die _ c =>
    let id := c.arg0.toNat
    let x := tget (0, 0) (s.die die).exports (id % 4096)
    let gen := bits x.2 48 16
    if bits id 12 4 != 0 then .malformed
    else if !bitAt x.1 63 || gen != bits id 16 16 then .refused
    else
      let s := s.modDie die (fun d => { d with exports := tput d.exports (id % 4096) (x.1 - 2 ^ 63, (gen + 1) % 2 ^ 16 * 2 ^ 48) })
      .done (invalidate s die (bits x.1 32 13) (bits x.1 0 32)) 0)

/-- The schedule that a record holds (R152). -/
def scheduleOf (b : List Byte) (nph : Nat) : Schedule :=
  { ranges := (upTo 15).map (fun k =>
      let w := field b (24 * k) 8
      (bits w 0 16, bits w 16 32, field b (24 * k + 8) 8, field b (24 * k + 16) 8))
    phases := (upTo 8).map (fun k => field b (0x170 + 8 * k) 8), nph := nph }

/-- EVSCHED, R152, R347: loads the schedule at phase 0, or unloads it. -/
def execEvsched (s : State) : Out :=
  manage .evsched s (fun s die _ c =>
    let a := c.arg1.toNat
    if 8 ≤ c.arg0.toNat || 2 ^ 48 ≤ a then .malformed
    else .done (s.modDie die (fun d => { d with
      schedule := if a = 0 then none else some (scheduleOf (s.bytes (keyOf die a) 432) c.arg0.toNat) })) 0)

/-- LQOPEN, R253, R347: opens a host launch queue under a free number. -/
def execLqopen (s : State) : Out :=
  manage .lqopen s (fun s die asid c =>
    let n := c.arg0.toNat
    if n < 2 || 65536 < n || 2 ^ Nat.log2 n != n || 3 * 2 ^ 48 ≤ c.arg1.toNat then .malformed
    else
      let open' (q : Nat) : Bool := match tfind? (s.die die).hostQueues q with | some x => x.isOpen | none => false
      match anyOf s ((upTo 64).filter (fun q => !open' q)) with
      | none => .refused
      | some q => .done (s.modDie die (fun d => { d with
          hostQueues := tput d.hostQueues q { ring := c.arg1.toNat, n := n, asid := asid, openedAt := s.clock } })) q)

/-- LQCLOSE, R347: the front end reads the queue no more; a queue that is not open stays so. -/
def execLqclose (s : State) : Out :=
  manage .lqclose s (fun s die _ c =>
    let q := c.arg0.toNat
    if 64 ≤ q then .malformed
    else
      match tfind? (s.die die).hostQueues q with
      | none => .done s 0
      | some x => .done (s.modDie die (fun d => { d with hostQueues := tput d.hostQueues q { x with isOpen := false } })) 0)

/-- The telemetry record of a die (R356): power and temperature are the part's own readings. -/
def telemetry (s : State) (die : Nat) : List Byte :=
  let d := s.die die
  let r (i : Nat) : List Byte := bytesOf 8 (Config.reading die i s.fresh).toNat
  r 0 ++ bytesOf 8 (clockMHz s.xd.level) ++ r 1 ++ bytesOf 8 d.corrected ++ bytesOf 8 (s.timew die) ++ bytesOf 8 d.incarnation ++ bytesOf 208 0

/-- TELEM, R356: the record, sampled as the command starts, is written to a host address in space 2. -/
def execTelem (s : State) : Out :=
  manage .telem s (fun s die asid c =>
    if c.arg1.toNat / 2 ^ 48 != 2 then .malformed
    else .done (s.modDie die (fun d => { d with mgmtTelem := some (asid, c.arg1.toNat, telemetry s die) })) 0)

/-- Where CAPSET's granule goes: a valid entry that is no peer, long enough, in device memory (R347) outside the context regions (R371). -/
def capsetPlace (s : State) (die asid : Nat) (c : MgmtCmd) : Option Loc :=
  match entryOf s die asid c.arg0.toNat with
  | none => none
  | some e =>
    if !e.valid || e.kind == 0 || e.kind == 3 || 6 ≤ e.kind || e.bound < c.arg1.toNat + 16 then none
    else
      match entryLoc s die asid c.arg0.toNat [] e c.arg1.toNat true false with
      | .ok l => if isHost l.key || inFrames l.key then none else some l
      | .error _ => none

/-- The window of a capability lies in a valid object of the ASID (R347). -/
def windowInside (s : State) (die asid : Nat) (k : Cap) : Bool :=
  match entryOf s die asid k.obj with
  | none => false
  | some e => e.valid && decide (k.window.2 ≤ e.bound)

/-- CAPSET, R347: writes a tagged granule as `CST` would, with a release at SYSTEM scope. A command of the ring waits until its home has recalled
the line. -/
def execCapset (s : State) : Out :=
  let far := if s.ev.arg1 = 1 then heldIn s s.ev.subject s.ev.cmd.asidField.toNat s.ev.cmd.arg0.toNat s.ev.cmd.arg1.toNat 16 else none
  match far with
  | some (die, line) => .next (recallForHome s die line)
  | none =>
  manage .capset s (fun s die asid c =>
    if c.arg1.toNat % 16 != 0 then .malformed
    else
      match capsetPlace s die asid c with
      | none => .refused
      | some l =>
        if !(commandCap c).tag || !windowInside s die asid (commandCap c) || (storeStop s die l).isSome then .refused
        else .done (storeAt s die (hostTime s) l (commandCap c).toBytes true).1 0)

/-- RESERVED_COMMAND, R347: a CODE that is not listed answers malformed. -/
def execReservedCommand (s : State) : Out := manage .reservedCommand s (fun _ _ _ _ => .malformed)

end Sys2Proof.Machine
end

