-- ==== Sys2Proof/Machine/Geometry.lean ====
section
/-! DEFINITION. Exact geometry for the ray unit: dyadic numbers, quotients of them, and their rounding to F32 (R305, R308, R312). -/

namespace Sys2Proof.Machine

/-- The number m / 2^e. -/
structure Dyadic where
  m : Int
  e : Nat := 0
  deriving DecidableEq, Repr

/-- a + b. -/
def Dyadic.plus (a b : Dyadic) : Dyadic :=
  if a.e ≤ b.e then ⟨a.m * 2 ^ (b.e - a.e) + b.m, b.e⟩ else ⟨a.m + b.m * 2 ^ (a.e - b.e), a.e⟩
/-- -a. -/
def Dyadic.opposite (a : Dyadic) : Dyadic := ⟨-a.m, a.e⟩
/-- a - b. -/
def Dyadic.minus (a b : Dyadic) : Dyadic := a.plus b.opposite
/-- a * b. -/
def Dyadic.times (a b : Dyadic) : Dyadic := ⟨a.m * b.m, a.e + b.e⟩
/-- a ≤ b. -/
def Dyadic.atMost (a b : Dyadic) : Bool := a.m * 2 ^ b.e ≤ b.m * 2 ^ a.e
/-- The smaller of two. -/
def Dyadic.lower (a b : Dyadic) : Dyadic := if a.atMost b then a else b
/-- The larger of two. -/
def Dyadic.higher (a b : Dyadic) : Dyadic := if a.atMost b then b else a
/-- 2^k. -/
def Dyadic.power (k : Int) : Dyadic := if 0 ≤ k then ⟨2 ^ k.toNat, 0⟩ else ⟨1, (-k).toNat⟩
/-- The largest integer that is at most a / 2^k. -/
def Dyadic.floorOver (a : Dyadic) (k : Int) : Int :=
  if 0 ≤ k then a.m / 2 ^ (a.e + k.toNat) else a.m * 2 ^ (-k).toNat / 2 ^ a.e
/-- The smallest integer that is at least a / 2^k. -/
def Dyadic.ceilOver (a : Dyadic) (k : Int) : Int := -(a.opposite.floorOver k)

/-- A finite F32. -/
def dyadicF32 (x : Nat) : Option Dyadic :=
  match decodeF 10 x with
  | .fin neg m e => some ⟨scaled neg m e (-149), 149⟩
  | _ => none

/-- The quotient n / d, d above 0. -/
structure Quotient where
  n : Int
  d : Nat
  deriving DecidableEq, Repr

/-- a / b, for b other than 0. -/
def Dyadic.over (a b : Dyadic) : Quotient := ⟨(if b.m < 0 then -a.m else a.m) * 2 ^ b.e, b.m.natAbs * 2 ^ a.e⟩
/-- a ≤ b. -/
def Quotient.atMost (a b : Quotient) : Bool := a.n * b.d ≤ b.n * a.d
/-- a + b. -/
def Quotient.plus (a b : Quotient) : Quotient := ⟨a.n * b.d + b.n * a.d, a.d * b.d⟩

/-- A quotient with 64 bits and a bit for the rest, as a value to round. -/
def Quotient.value (a : Quotient) : FVal :=
  let n := a.n.natAbs
  if n = 0 then .fin false 0 0
  else
    let k : Int := 64 + (Nat.log2 a.d : Int) - (Nat.log2 n : Int)
    let num := if 0 ≤ k then n * 2 ^ k.toNat else n
    let den := if 0 ≤ k then a.d else a.d * 2 ^ (-k).toNat
    .fin (decide (a.n < 0)) (num / den * 2 + if num % den = 0 then 0 else 1) (-k - 1)

/-- round_f32 of a quotient (R74). -/
def Quotient.round (a : Quotient) (rm : Nat) : Nat := roundF 10 rm false a.value

/-- A dyadic number as a quotient. -/
def Dyadic.quotient (a : Dyadic) : Quotient := ⟨a.m, 2 ^ a.e⟩

/-- A number that orders F32 codes other than NaNs as their values, with -0 equal to +0. -/
def orderF32 (x : Nat) : Nat := if bitAt x 31 then 2 ^ 31 - x % 2 ^ 31 else 2 ^ 31 + x % 2 ^ 31

/-- A point or a direction. -/
structure V3 where
  x : Dyadic
  y : Dyadic
  z : Dyadic
  deriving DecidableEq, Repr

/-- a - b. -/
def V3.minus (a b : V3) : V3 := ⟨a.x.minus b.x, a.y.minus b.y, a.z.minus b.z⟩
/-- The scalar product. -/
def V3.dot (a b : V3) : Dyadic := ((a.x.times b.x).plus (a.y.times b.y)).plus (a.z.times b.z)
/-- The vector product. -/
def V3.cross (a b : V3) : V3 :=
  ⟨(a.y.times b.z).minus (a.z.times b.y), (a.z.times b.x).minus (a.x.times b.z), (a.x.times b.y).minus (a.y.times b.x)⟩
/-- The components. -/
def V3.list (a : V3) : List Dyadic := [a.x, a.y, a.z]
/-- The vector of three numbers, if there are three. -/
def v3Of : List (Option Dyadic) → Option V3
  | [some x, some y, some z] => some ⟨x, y, z⟩
  | _ => none

/-- A row of a transformation: its first three elements times p, and the fourth for a point (R300). -/
def rowTimes (r : List Dyadic) (p : V3) (point : Bool) : Dyadic :=
  let g (k : Nat) : Dyadic := r.getD k ⟨0, 0⟩
  let v := ((g 0).times p.x |>.plus ((g 1).times p.y)).plus ((g 2).times p.z)
  if point then v.plus (g 3) else v

/-- p in object space by three rows (R300). -/
def transform (m : List (List Dyadic)) (p : V3) (point : Bool) : V3 :=
  ⟨rowTimes (m.getD 0 []) p point, rowTimes (m.getD 1 []) p point, rowTimes (m.getD 2 []) p point⟩

/-- A bound of a query: a number, or an infinity. -/
inductive Bound where
  | low
  | num (a : Dyadic)
  | high
  deriving DecidableEq, Repr

/-- a ≤ b. -/
def Bound.atMost : Bound → Bound → Bool
  | .low, _ => true
  | _, .high => true
  | .num a, .num b => a.atMost b
  | _, _ => false

/-- The bound that an F32 names; none for a NaN. -/
def boundF32 (x : Nat) : Option Bound :=
  match decodeF 10 x with
  | .fin neg m e => some (.num ⟨scaled neg m e (-149), 149⟩)
  | .inf neg => some (if neg then .low else .high)
  | .nan _ _ => none

end Sys2Proof.Machine
end

