-- ==== Sys2Proof/Machine/Rays.lean ====
section
/-! DEFINITION. Ray and box queries, class 0x70 (R298 to R312, R385): the BVH, its walk, TRACE, QBOX and REFIT. -/

namespace Sys2Proof.Machine

/-! ### Reads of a wave -/

/-- Read the pieces of a range in order as ordinary loads of the current wave. -/
def loadRange (c : Cap) (need : Need) : List (Int × Nat) → State → Except Stop (State × List Byte)
  | [], s => .ok (s, [])
  | (e, n) :: t, s =>
    match translate s s.curC.ctx c e n need with
    | .error st => .error st
    | .ok l =>
      match loadAt s s.curDie (some s.curC.core) (issuePts s) l n with
      | .error st => .error st
      | .ok (s, g) =>
        match loadRange c need t (accessedAt s g.ts) with
        | .error st => .error st
        | .ok (s, bs) => .ok (s, g.bytes ++ bs)

/-- Read [e, e + n) through a capability as ordinary loads of the current wave: the range is checked first (R385). -/
def waveRead (s : State) (c : Cap) (e : Int) (n : Nat) (need : Need) : Except (Int × Stop) (State × List Byte) :=
  match translate s s.curC.ctx c e n need with
  | .error st => .error (e, st)
  | .ok _ =>
    match loadRange c { need with align := 1 } (linePieces e n) s with
    | .error st => .error (e, st)
    | .ok r => .ok r

/-- Read pieces of a node until one time serves them all, as its writer gives them one (R186, R312): a reader sees the node wholly old or wholly new.
Each turn reads at the time that the last one reached. -/
def loadOnce (c : Cap) (need : Need) (ps : List (Int × Nat)) : Nat → State → Except Stop (State × List Byte)
  | 0, s => loadRange c need ps s
  | n + 1, s =>
    match loadRange c need ps s with
    | .error st => .error st
    | .ok (u, bs) => if issuePts u = issuePts s then .ok (u, bs) else loadOnce c need ps n u

/-- Read the 128 bytes of a node at one time. -/
def nodeRead (s : State) (c : Cap) (e : Int) (need : Need) : Except (Int × Stop) (State × List Byte) :=
  match translate s s.curC.ctx c e 128 need with
  | .error st => .error (e, st)
  | .ok _ =>
    match loadOnce c { need with align := 1 } (linePieces e 128) 8 s with
    | .error st => .error (e, st)
    | .ok r => .ok r

/-! ### Records (R298 to R301) -/

/-- A signed field of a record. -/
def sfield (b : List Byte) (off n : Nat) : Int := signed (8 * n) (field b off n)

/-- KIND of child c: 0 empty, 1 node, 2 triangles, 3 instance. -/
def childKind (b : List Byte) (c : Nat) : Nat := bits (field b (0x50 + c) 1) 6 2
/-- Triangles of child c. -/
def childCount (b : List Byte) (c : Nat) : Nat := field b (0x50 + c) 1 % 8 + 1
/-- PIDX of child c. -/
def childIndex (b : List Byte) (c : Nat) : Nat := field b (0x58 + 4 * c) 4
/-- The offset of child node c of the node at `off`. -/
def childNode (b : List Byte) (off : Int) (c : Nat) : Int := off + sfield b 0x10 8 + (128 * childIndex b c : Nat)
/-- The offset of record i of child c. -/
def childRecord (b : List Byte) (off : Int) (c i : Nat) : Int := off + sfield b 0x18 8 + (64 * (childIndex b c + i) : Nat)

/-- ORIGIN; none where it is not finite (R301). -/
def nodeOrigin (b : List Byte) : Option V3 := v3Of ((upTo 3).map (fun a => dyadicF32 (field b (4 * a) 4)))

/-- Child c's box, exactly: its lower and upper corners. -/
def childBox (b : List Byte) (o : V3) (c : Nat) : V3 × V3 :=
  let at' (k a : Nat) (x : Dyadic) : Dyadic := x.plus ((⟨field b (0x20 + 6 * c + 3 * k + a) 1, 0⟩ : Dyadic).times (Dyadic.power (sfield b (12 + a) 1)))
  (⟨at' 0 0 o.x, at' 0 1 o.y, at' 0 2 o.z⟩, ⟨at' 1 0 o.x, at' 1 1 o.y, at' 1 2 o.z⟩)

/-- A box with lo above hi on an axis is empty (R298). -/
def boxEmpty (lo hi : V3) : Bool := !(lo.x.atMost hi.x && lo.y.atMost hi.y && lo.z.atMost hi.z)

/-- The vertices of a triangle; none where a component is not finite (R301). -/
def triangleOf (b : List Byte) : Option (V3 × V3 × V3) :=
  let v (j : Nat) : Option V3 := v3Of ((upTo 3).map (fun a => dyadicF32 (field b (12 * j + 4 * a) 4)))
  match v 0, v 1, v 2 with
  | some a, some b, some c => some (a, b, c)
  | _, _, _ => none

/-- XFORM; none where an element is not finite (R301). -/
def xformOf (b : List Byte) : Option (List (List Dyadic)) :=
  let row (r : Nat) : List (Option Dyadic) := (upTo 4).map (fun c => dyadicF32 (field b (16 * r + 4 * c) 4))
  if (upTo 3).all (fun r => (row r).all Option.isSome) then some ((upTo 3).map (fun r => (row r).filterMap id)) else none

/-- What an instance contributes to what is below it: INST, SBASE and MASK (R300). -/
structure InstanceInfo where
  inst : Nat
  sbase : Nat
  mask : Nat
  deriving DecidableEq, Repr

/-- The contribution of an instance record. -/
def instanceInfo (b : List Byte) : InstanceInfo := ⟨field b 0x30 4, field b 0x34 2 % 4096, field b 0x36 1⟩

/-! ### The walk (R308) -/

/-- What a walk does, with a result σ and a query τ in the space of a node: whether it enters a box, and in which order; what a triangle
adds; the query below an instance. -/
structure Walker (σ τ : Type) where
  enters : σ → τ → V3 → V3 → Option Nat
  triangle : σ → τ → Option InstanceInfo → List Byte → σ
  below : τ → List (List Dyadic) → τ

/-- The children of a node that are entered, in their order: number of the order, child, box. -/
def enteredChildren {σ τ : Type} (w : Walker σ τ) (r : σ) (q : τ) (inInstance : Bool) (b : List Byte) : List (Nat × Nat × V3 × V3) :=
  match nodeOrigin b with
  | none => []
  | some o =>
    sortBy (fun (k : Nat × Nat × V3 × V3) => [k.1, k.2.1]) ((upTo 8).filterMap (fun c =>
      let kind := childKind b c
      let (lo, hi) := childBox b o c
      if kind = 0 || (kind == 3 && inInstance) || boxEmpty lo hi then none
      else (w.enters r q lo hi).map (fun k => (k, c, lo, hi))))

/-- The triangles of a leaf from number i on. -/
def walkLeaves {σ τ : Type} (w : Walker σ τ) (cap : Cap) (q : τ) (info : Option InstanceInfo) (b : List Byte) (off : Int) (c : Nat) :
    Nat → Nat → State → σ → Except (Int × Stop) (State × σ)
  | 0, _, s, r => .ok (s, r)
  | n + 1, i, s, r =>
    match waveRead s cap (childRecord b off c i) 64 { rights := rightR, align := 64 } with
    | .error x => .error x
    | .ok (s, rec') => walkLeaves w cap q info b off c n (i + 1) s (w.triangle r q info rec')

/-- A pending child (R308): the depth of its node, that node and its offset, the slot, its box, and the query and instance around it. -/
structure Pending (τ : Type) where
  depth : Nat
  node : List Byte
  off : Int
  slot : Nat
  lo : V3
  hi : V3
  q : τ
  info : Option InstanceInfo

/-- The traversal state of a lane (R308): the stack of pending children, newest first; the depth of the entry discarded last; the trail and
the path, by depth; the depth of the node that is walked; while a lane that restarted descends along its path, the depth that it goes
back to; the result. -/
structure Traversal (σ τ : Type) where
  stack : List (Pending τ) := []
  lost : Option Nat := none
  trail : Table Nat := []
  path : Table Nat := []
  depth : Nat := 0
  along : Nat := 0
  result : σ

/-- Where a walk goes: into a node, at a depth, or on with what is pending. -/
inductive Turn (τ : Type) where
  | node (depth : Nat) (off : Int) (q : τ) (info : Option InstanceInfo)
  | pending

/-- Push a child; a full stack of 8 discards its oldest entry (R308). -/
def Traversal.push {σ τ : Type} (k : Traversal σ τ) (e : Pending τ) : Traversal σ τ :=
  match (e :: k.stack)[8]? with
  | none => { k with stack := e :: k.stack }
  | some old => { k with stack := (e :: k.stack).take 8, lost := some old.depth }

/-- Child c at depth d is finished: its bit of the trail is set (R308). -/
def Traversal.close {σ τ : Type} (k : Traversal σ τ) (d c : Nat) : Traversal σ τ := { k with trail := tput k.trail d (tget 0 k.trail d ||| 2 ^ c) }

/-- Descend into child c at depth d. The trail below it starts empty, but along the path of a lane that restarted. -/
def Traversal.descend {σ τ : Type} (k : Traversal σ τ) (d c : Nat) : Traversal σ τ :=
  if d < k.along && tfind? k.path d == some c then k
  else { k with path := tput k.path d c, trail := tput k.trail (d + 1) 0, along := 0 }

/-- Take a child: a leaf's triangles in order, a node, or the root below an instance. A child whose box no longer holds the accepted hit is
passed over. -/
def takeChild {σ τ : Type} (w : Walker σ τ) (cap : Cap) (e : Pending τ) (s : State) (k : Traversal σ τ) :
    Except (Int × Stop) (State × Traversal σ τ × Turn τ) :=
  if (w.enters k.result e.q e.lo e.hi).isNone then .ok (s, k.close e.depth e.slot, .pending)
  else
    match childKind e.node e.slot with
    | 1 => .ok (s, k.descend e.depth e.slot, .node (e.depth + 1) (childNode e.node e.off e.slot) e.q e.info)
    | 2 =>
      match walkLeaves w cap e.q e.info e.node e.off e.slot (childCount e.node e.slot) 0 s k.result with
      | .error x => .error x
      | .ok (s, r) => .ok (s, { k.close e.depth e.slot with result := r }, .pending)
    | _ =>
      match waveRead s cap (childRecord e.node e.off e.slot 0) 64 { rights := rightR, align := 64 } with
      | .error x => .error x
      | .ok (s, rec') =>
        match xformOf rec' with
        | none => .ok (s, k.close e.depth e.slot, .pending)
        | some m =>
          .ok (s, k.descend e.depth e.slot,
            .node (e.depth + 1) (childRecord e.node e.off e.slot 0 + sfield rec' 0x38 8) (w.below e.q m) (some (instanceInfo rec')))

/-- One turn of a walk (R308, R301, R385). A node is read; of its entered children that are not finished the first is taken, and the others are put on
the stack, the last of them first. DESIGN CHOICE: the child that is taken at once is never on the stack (log 141). With nothing to enter, the newest pending child is taken; with an empty stack after a discard, the lane restarts at the
root. No turn: the walk is over. -/
def walkTurn {σ τ : Type} (w : Walker σ τ) (cap : Cap) (root : Turn τ) (turn : Turn τ) (s : State) (k : Traversal σ τ) :
    Except (Int × Stop) (State × Traversal σ τ × Option (Turn τ)) :=
  let take (e : Pending τ) (s : State) (k : Traversal σ τ) : Except (Int × Stop) (State × Traversal σ τ × Option (Turn τ)) :=
    match takeChild w cap e s k with
    | .error x => .error x
    | .ok (s, k, t) => .ok (s, k, some t)
  match turn with
  | .node d off q info =>
    if 32 ≤ d then .error (off, .trap 0x11 5)
    else
      match nodeRead s cap off { rights := rightR, align := 64 } with
      | .error x => .error x
      | .ok (s, b) =>
        let k := { k with depth := d }
        let es : List (Pending τ) := ((enteredChildren w k.result q info.isSome b).filter (fun x => !bitAt (tget 0 k.trail d) x.2.1)).map
          (fun x => ⟨d, b, off, x.2.1, x.2.2.1, x.2.2.2, q, info⟩)
        match es with
        | [] => .ok (s, k, some .pending)
        | e :: rest => take e s (rest.reverse.foldl Traversal.push k)
  | .pending =>
    let above (k : Traversal σ τ) (d : Nat) : Traversal σ τ := { (if d < k.depth then k.close d (tget 0 k.path d) else k) with depth := d }
    match k.stack, k.lost with
    | e :: rest, _ => take e s { above k e.depth with stack := rest }
    | [], some d => .ok (s, { above k d with lost := none, along := d }, some root)
    | [], none => .ok (s, k, none)

/-- The turns of a walk. -/
def traverseFrom {σ τ : Type} (w : Walker σ τ) (cap : Cap) (root : Turn τ) : Nat → Turn τ → State → Traversal σ τ → Except (Int × Stop) (State × σ)
  | 0, _, s, k => .ok (s, k.result)
  | n + 1, turn, s, k =>
    match walkTurn w cap root turn s k with
    | .error x => .error x
    | .ok (s, k, none) => .ok (s, k.result)
    | .ok (s, k, some t) => traverseFrom w cap root n t s k

/-- Walk the tree whose root lies at an offset (R308). A walk of 32 depths of 8 children, with a restart for each of them, takes fewer turns
than the bound here. -/
def traverse {σ τ : Type} (w : Walker σ τ) (cap : Cap) (q : τ) (off : Int) (s : State) (r : σ) : Except (Int × Stop) (State × σ) :=
  traverseFrom w cap (.node 0 off q none) (2 ^ 128) (.node 0 off q none) s { result := r }

/-! ### TRACE (R304 to R307) -/

/-- A ray in a space. -/
structure Ray where
  o : V3
  d : V3
  deriving DecidableEq, Repr

/-- An accepted hit (R305, R306): t_F, u, v, PRIM, GEOM, INST, SHIDX, BACK. -/
structure Hit where
  t : Nat
  u : Nat
  v : Nat
  prim : Nat
  geom : Nat
  inst : Nat
  shidx : Nat
  back : Bool
  deriving DecidableEq, Repr

/-- The state of a ray's walk: tmin, tcur in the order of F32, kcur, the ray mask, best. -/
structure RayWalk where
  tmin : Nat
  tcur : Nat
  kcur : Nat
  mask : Nat
  best : Option Hit := none
  deriving DecidableEq, Repr

/-- The slab of an axis (R308): missed, or the interval; none without an end. -/
def slabOf (o d lo hi : Dyadic) : Option (Option (Quotient × Quotient)) :=
  if d.m = 0 then (if lo.atMost o && o.atMost hi then some none else none)
  else
    let a := (lo.minus o).over d
    let b := (hi.minus o).over d
    some (some (if d.m < 0 then (b, a) else (a, b)))

/-- The interval of a ray in a box: none where it misses. -/
def slabs (q : Ray) (lo hi : V3) : Option (Option (Quotient × Quotient)) :=
  let axis (acc : Option (Option (Quotient × Quotient))) (k : Option (Option (Quotient × Quotient))) :=
    match acc, k with
    | some none, x => x
    | x, some none => x
    | some (some (a, b)), some (some (c, d)) => some (some (if a.atMost c then c else a, if b.atMost d then b else d))
    | _, _ => none
  axis (axis (slabOf q.o.x q.d.x lo.x hi.x) (slabOf q.o.y q.d.y lo.y hi.y)) (slabOf q.o.z q.d.z lo.z hi.z)

/-- A ray enters a box (R308): the order of round_f32(tnear, RDN). -/
def rayEnters (r : RayWalk) (q : Ray) (lo hi : V3) : Option Nat :=
  match slabs q lo hi with
  | none => none
  | some none => if r.tcur < orderF32 0xFF800000 ∨ orderF32 0x7F800000 < r.tmin then none else some (orderF32 0xFF800000)
  | some (some (near, far)) =>
    let k := orderF32 (near.round 2)
    if near.atMost far && k ≤ r.tcur && r.tmin ≤ orderF32 (far.round 3) then some k else none

/-- A triangle as a candidate, and the accepted hit after it (R305, R306). -/
def rayTriangle (r : RayWalk) (q : Ray) (info : Option InstanceInfo) (b : List Byte) : RayWalk :=
  match triangleOf b with
  | none => r
  | some (v0, v1, v2) =>
    let e1 := v1.minus v0
    let e2 := v2.minus v0
    let nd := (e1.cross e2).dot q.d
    let masked := match info with | some i => i.mask &&& r.mask == 0 | none => false
    if masked || nd.m = 0 then r
    else
      let pv := q.d.cross e2
      let det := e1.dot pv
      let tv := q.o.minus v0
      let qv := tv.cross e1
      let u := (tv.dot pv).over det
      let v := (q.d.dot qv).over det
      let t := (e2.dot qv).over det
      let one : Quotient := ⟨1, 1⟩
      if u.n < 0 || v.n < 0 || !(u.plus v).atMost one then r
      else
        let tf := t.round 0
        let k := orderF32 tf
        let inst := match info with | some i => i.inst | none => 0
        let sbase := match info with | some i => i.sbase | none => 0
        let geom := field b 0x24 4
        let prim := field b 0x28 4
        let key := (inst * 2 ^ 32 + geom) * 2 ^ 32 + prim
        if r.tmin ≤ k && (k < r.tcur || (k == r.tcur && key < r.kcur)) then
          { r with
            tcur := k, kcur := key
            best := some ⟨tf, u.round 0, v.round 0, prim, geom, inst, (sbase + field b 0x2C 2 % 4096) % 4096, decide (0 < nd.m)⟩ }
        else r

/-- The walker of TRACE. -/
def rayWalker : Walker RayWalk Ray where
  enters := rayEnters
  triangle := rayTriangle
  below q m := ⟨transform m q.o true, transform m q.d false⟩

/-- Three components from a word of a run of registers. -/
def runWords (s : State) (r k L : Nat) : List Nat := (upTo 3).map (fun a => elem 32 k (readV s 32 (r + a) L))

/-- The result words of a lane (R307): status, t, u, v, PRIM, GEOM, INST. -/
def traceWrites (d L : Nat) (status t u v prim geom inst : Nat) : List RegWrite :=
  let w (r lo hi : Nat) : RegWrite := .v (d + r) L (BitVec.allOnes 64) (word (lo + hi * 2 ^ 32))
  [w 0 status t, w 1 u v, w 2 prim geom, w 3 inst 0]

/-- A NaN of F32. -/
def nanF32 (x : Nat) : Bool := (decodeF 10 x).isNan

/-- TRACE in a lane: a bad ray reads nothing (R304). -/
def traceLane (s : State) (L : Nat) : Except (Int × Stop) (State × List RegWrite) :=
  let c := readC s s.ir.a.toNat
  let b := s.ir.b.toNat
  let tmin := elem 32 1 (readV s 32 b L)
  let tmax := elem 32 1 (readV s 32 (b + 1) L)
  let put := traceWrites s.ir.d.toNat L
  match v3Of ((runWords s b 0 L).map dyadicF32), v3Of ((runWords s s.ir.c.toNat 0 L).map dyadicF32) with
  | some o, some d =>
    if nanF32 tmin || nanF32 tmax || d.list.all (fun x => x.m == 0) || orderF32 tmax < orderF32 tmin then .ok (s, put 4 tmax 0 0 0 0 0)
    else
      let r : RayWalk := ⟨orderF32 tmin, orderF32 tmax, 2 ^ 96 - 1, elem 32 1 (readV s 32 (b + 2) L) % 256, none⟩
      match traverse rayWalker c ⟨o, d⟩ (c.off : Nat) s r with
      | .error x => .error x
      | .ok (s, r) =>
        match r.best with
        | none => .ok (s, put 0 tmax 0 0 0 0 0)
        | some h => .ok (s, put (h.shidx * 2 ^ 20 + (if h.back then 2 else 0) + 1) h.t h.u h.v h.prim h.geom h.inst)
  | _, _ => .ok (s, put 4 tmax 0 0 0 0 0)

/-- TRACE, R304 to R308. -/
def execTrace (s : State) : Out :=
  guarded .trace s (fun s => laneAccess .trace s 4 s.ir.a.toNat (activeLanes s 64) traceLane)

/-! ### QBOX (R309 to R311) -/

/-- A query box in a space. -/
structure Query where
  lo : List Bound
  hi : List Bound
  deriving DecidableEq, Repr

/-- The query meets a box, both closed. -/
def queryMeets (q : Query) (lo hi : V3) : Bool :=
  (upTo 3).all (fun a =>
    (Bound.num (lo.list.getD a ⟨0, 0⟩)).atMost (q.hi.getD a .low) && (q.lo.getD a .high).atMost (.num (hi.list.getD a ⟨0, 0⟩)))

/-- The numbers of three finite bounds. -/
def boundsV3 (l : List Bound) : Option V3 := v3Of (l.map (fun b => match b with | .num a => some a | _ => none))

/-- The query below an instance (R309): the bound of its eight corners, or the whole space. -/
def queryBelow (q : Query) (m : List (List Dyadic)) : Query :=
  match boundsV3 q.lo, boundsV3 q.hi with
  | some l, some h =>
    let ps := (upTo 8).map (fun k => transform m ⟨if bitAt k 0 then h.x else l.x, if bitAt k 1 then h.y else l.y, if bitAt k 2 then h.z else l.z⟩ true)
    let p0 := ps.headD l
    let fold (f : Dyadic → Dyadic → Dyadic) (g : V3 → Dyadic) : Bound := .num (ps.foldl (fun m p => f m (g p)) (g p0))
    ⟨[fold .lower V3.x, fold .lower V3.y, fold .lower V3.z], [fold .higher V3.x, fold .higher V3.y, fold .higher V3.z]⟩
  | _, _ => ⟨[.low, .low, .low], [.high, .high, .high]⟩

/-- An entry without its TAG: INST, GEOM, PRIM. -/
abbrev BoxEntry := Nat × Nat × Nat

/-- A triangle as an entry (R309), with the query mask. -/
def queryTriangle (mask : Nat) (es : List BoxEntry) (q : Query) (info : Option InstanceInfo) (b : List Byte) : List BoxEntry :=
  match triangleOf b with
  | none => es
  | some (v0, v1, v2) =>
    let masked := match info with | some i => i.mask &&& mask == 0 | none => false
    let low (g : V3 → Dyadic) : Dyadic := ((g v0).lower (g v1)).lower (g v2)
    let high (g : V3 → Dyadic) : Dyadic := ((g v0).higher (g v1)).higher (g v2)
    if masked || !queryMeets q ⟨low V3.x, low V3.y, low V3.z⟩ ⟨high V3.x, high V3.y, high V3.z⟩ then es
    else es ++ [((match info with | some i => i.inst | none => 0), field b 0x24 4, field b 0x28 4)]

/-- The walker of QBOX with a query mask. -/
def queryWalker (mask : Nat) : Walker (List BoxEntry) Query where
  enters _ q lo hi := if queryMeets q lo hi then some 0 else none
  triangle := queryTriangle mask
  below := queryBelow

/-- The entries of a lane, in traversal order. -/
def queryLane (s : State) (L : Nat) : Except (Int × Stop) (State × List BoxEntry) :=
  let c := readC s s.ir.a.toNat
  let b := s.ir.b.toNat
  let lo := (runWords s b 0 L).map boundF32
  let hi := (runWords s b 1 L).map boundF32
  if lo.any Option.isNone || hi.any Option.isNone then .ok (s, [])
  else
    let q : Query := ⟨lo.filterMap id, hi.filterMap id⟩
    if !(upTo 3).all (fun a => (q.lo.getD a .low).atMost (q.hi.getD a .low)) then .ok (s, [])
    else traverse (queryWalker (elem 32 1 (readV s 32 (b + 3) L) % 256)) c q (c.off : Nat) s []

/-- Every lane's entries, or the lane that stops. -/
def queryLanes : List Nat → State → Except (Nat × Int × Stop) (State × List (Nat × List BoxEntry))
  | [], s => .ok (s, [])
  | L :: t, s =>
    match queryLane s L with
    | .error (e, st) => .error (L, e, st)
    | .ok (s, es) =>
      match queryLanes t s with
      | .error x => .error x
      | .ok (s, r) => .ok (s, (L, es) :: r)

/-- What an access to the entry buffer asks for (R310). -/
def bufferNeed : Need := { field := 1, rights := rightR + rightW + rightA, align := 16, write := true, atomic := true }

/-- Entries 0 to cap - 1 pass every check, page by page (R311). -/
def rangeCheck (s : State) (c : Cap) (cap : Nat) : Except Stop Unit :=
  let e : Int := c.off + 16
  if cap = 0 then .ok ()
  else
    match translate s s.curC.ctx c e (16 * cap) { field := 1, rights := rightW, align := 16, write := true } with
    | .error st => .error st
    | .ok _ =>
      (upTo ((16 * cap + 65535) / 65536 + 1)).foldl (fun r k =>
        match r with
        | .error st => .error st
        | .ok () =>
          let p := e / 65536 * 65536 + 65536 * (k : Nat)
          if e + (16 * cap : Nat) ≤ p then .ok ()
          else
            match translate s s.curC.ctx c (max e p) 1 { field := 1, rights := rightW, write := true } with
            | .error st => .error st
            | .ok _ => .ok ()) (.ok ())

/-- What a QBOX has gathered, once its atomic is under way or done, as numbers among the answers of its thread: CAP, how many entries
are dealt with, then lane, TAG, INST, GEOM and PRIM of each entry, in order. -/
def boxSaved (t : Thread) : Option (Nat × Nat × List (List Nat)) :=
  match tfind? t.answers (2 ^ 20) with
  | none => none
  | some n =>
    let g (k : Nat) : Nat := tget 0 t.answers (2 ^ 20 + k)
    some (g 1, g 2, (upTo n).map (fun i => (upTo 5).map (fun j => g (3 + 5 * i + j))))

/-- Save what a QBOX has gathered. -/
def boxSave (s : State) (cap : Nat) (es : List (List Nat)) : State :=
  s.modThread s.cur (fun t =>
    let put (a : Table Nat) (k v : Nat) : Table Nat := tput a (2 ^ 20 + k) v
    let a := put (put (put t.answers 0 es.length) 1 cap) 2 0
    { t with answers := (upTo es.length).foldl (fun a i =>
        (upTo 5).foldl (fun a j => put a (3 + 5 * i + j) ((es.getD i []).getD j 0)) a) a })

/-- Store one entry (R311). -/
def storeEntry (s : State) (c : Cap) (k : Nat) (e : List Nat) : Except Stop State :=
  match translate s s.curC.ctx c (c.off + 16 + 16 * k : Nat) 16 { field := 1, rights := rightW, align := 16, write := true } with
  | .error st => .error st
  | .ok l =>
    match storeStop s s.curDie l with
    | some st => .error st
    | none =>
      let (s, ts) := storeAt s s.curDie (issuePts s) l ((e.drop 1).flatMap (fun v => bytesOf 4 v)) false
      .ok (accessedAt s ts)

/-- Deal with the entries from number i on: those below CAP are stored. The next number is kept where a store must wait. -/
def storeEntries (c : Cap) (base cap : Nat) : Nat → List (List Nat) → State → State × Option Stop
  | _, [], s => (s, none)
  | i, e :: t, s =>
    let k := base + i
    let next (s : State) : State := s.modThread s.cur (fun x => { x with answers := tput x.answers (2 ^ 20 + 2) (i + 1) })
    if cap ≤ k then storeEntries c base cap (i + 1) t (next s)
    else
      match storeEntry s c k e with
      | .error st => (s, some st)
      | .ok s => storeEntries c base cap (i + 1) t (next s)

/-- The result of each selected lane (R311): the number of its entries and the number of its first one. -/
def boxWrites (d base : Nat) (lanes : List Nat) (es : List (List Nat)) : List RegWrite :=
  let count (L : Nat) : Nat := (es.filter (fun e => e.headD 0 == L)).length
  let before (L : Nat) : Nat := (es.filter (fun e => e.headD 0 < L)).length
  lanes.map (fun L => .v d L (BitVec.allOnes 64) (word (count L % 2 ^ 32 + (base + before L) % 2 ^ 32 * 2 ^ 32)))

/-- QBOX after it has gathered: its atomic on COUNT, once, then its entries, then its registers. -/
def boxFinish (s : State) (c : Cap) (lanes : List Nat) (cap done : Nat) (es : List (List Nat)) : Out :=
  let stop (s : State) (e : Int) (st : Stop) : Out := stopAt .qbox (some 4) s (faddrOf s.ir.c.toNat 0 e) 0 st
  let rest (s : State) (base : Nat) : Out :=
    match storeEntries c base cap done (es.drop done) s with
    | (s, some st) => stop s (c.off + 16 : Nat) st
    | (s, none) => .next (finish (doneAccess s 4 (boxWrites s.ir.d.toNat base lanes es)))
  match tfind? s.curT.answers (2 ^ 20 - 1) with
  | some base => rest s base
  | none =>
    match translate s s.curC.ctx c (c.off : Nat) 8 bufferNeed with
    | .error st => stop s (c.off : Nat) st
    | .ok l =>
      if isHost l.key then stop s (c.off : Nat) (.trap 0x30 5)
      else
      let keep (s : State) (old ts : Nat) : State :=
        (accessedAt s ts).modThread s.cur (fun t => { t with answers := tput t.answers (2 ^ 20 - 1) old })
      if dieOfKey l.key = s.curDie then
        match atomicAt s s.curDie (issuePts s) l.home 8 (fun old => (old + es.length) % 2 ^ 64) with
        | .error st => stop s (c.off : Nat) st
        | .ok (s, old, ts) => rest (keep s old ts) old
      else
        match remoteAnswer s 0 l [0, l.key, 8, 0, 7, 0, es.length, 0, (issuePts s), (match l.leaf with | some k => k + 1 | none => 0)] with
        | .error st => stop s (c.off : Nat) st
        | .ok (old, ts) => rest (keep (touchLeaf s l true) old ts) old

/-- QBOX, R309 to R311, R385: it takes effect in every selected lane or in none. -/
def execQbox (s : State) : Out :=
  guarded .qbox s (fun s =>
    let lanes := activeLanes s 64
    let c := readC s s.ir.c.toNat
    let stopC (s : State) (st : Stop) (e : Int) : Out := stopAt .qbox (some 4) s (faddrOf s.ir.c.toNat 0 e) 0 st
    if lanes.isEmpty then .next (finish s)
    else if !roomOn s 4 then .next (stallIssue s)
    else if earlierOpen s then .next (holdAccess s .qbox (some 4))
    else
      match boxSaved s.curT with
      | some (cap, done, es) => boxFinish s c lanes cap done es
      | none =>
        match translate s s.curC.ctx c (c.off : Nat) 16 bufferNeed with
        | .error st => stopC s st (c.off : Nat)
        | .ok _ =>
          match queryLanes lanes s with
          | .error (L, e, st) => stopAt .qbox (some 4) s (faddrOf s.ir.a.toNat L e) 0 st
          | .ok (s, r) =>
            match waveRead s c (c.off + 8 : Nat) 8 { field := 1, rights := rightR } with
            | .error (_, st) => stopC s st (c.off : Nat)
            | .ok (s, b) =>
              let cap := numOfBytes b
              match rangeCheck s c cap with
              | .error st => stopC s st (c.off + 16 : Nat)
              | .ok () =>
                let tag (L : Nat) : Nat := elem 32 0 (readV s 32 (s.ir.b.toNat + 3) L)
                let es := r.flatMap (fun x => x.2.map (fun e => [x.1, tag x.1, e.1, e.2.1, e.2.2]))
                boxFinish (boxSave s cap es) c lanes cap 0 es)

/-! ### REFIT (R312) -/

/-- Store places as one atomic group of the current wave (R186). -/
def storeGroup (s : State) (ps : List (Loc × List Byte)) : State :=
  let die := s.curDie
  let ts := ps.foldl (fun p q => placeTime s die p q.1) (issuePts s)
  accessedAt (ps.foldl (fun s q => storeAs s die ts q.1 q.2 false) s) ts

/-- The bound of a subtree: its lower and upper corners; none where nothing is below it. -/
abbrev Extent := Option (V3 × V3)

/-- The bound of two bounds. -/
def joinExtent (a b : Extent) : Extent :=
  match a, b with
  | some (l, h), some (l', h') =>
    some (⟨l.x.lower l'.x, l.y.lower l'.y, l.z.lower l'.z⟩, ⟨h.x.higher h'.x, h.y.higher h'.y, h.z.higher h'.z⟩)
  | none, x => x
  | x, none => x

/-- The bound of a triangle record. -/
def triangleExtent (b : List Byte) : Extent :=
  match triangleOf b with
  | some (v0, v1, v2) => joinExtent (joinExtent (some (v0, v0)) (some (v1, v1))) (some (v2, v2))
  | none => none

/-- E of R312 for a span: the smallest that suffices, or 127. -/
def refitExponent (span : Dyadic) : Int :=
  match (upTo 256).find? (fun (k : Nat) => span.atMost ((⟨255, 0⟩ : Dyadic).times (Dyadic.power ((k : Int) - 128)))) with
  | some k => (k : Int) - 128
  | none => 127

/-- ORIGIN's code of an axis (R312): the sign of a zero is a free value. -/
def originCode (choice axis : Nat) (lo : Dyadic) : Nat :=
  if lo.m = 0 then Config.freeNat choice axis % 2 * 2 ^ 31 else lo.quotient.round 2

/-- Bytes 0x00 to 0x0E and 0x20 to 0x4F of a node from its children's bounds (R312). DESIGN CHOICE: a low code above 255, for which the rule states no
byte, is a free value (log 149). -/
def refitBytes (choice : Nat) (bs : List Extent) : List Byte × List Byte :=
  match bs.foldl joinExtent none with
  | none => (List.replicate 15 0, List.replicate 48 0)
  | some (lo, hi) =>
    let axis (a : Nat) : Nat × Dyadic × Int :=
      let l := lo.list.getD a ⟨0, 0⟩
      let code := originCode choice a l
      let o := (dyadicF32 code).getD ⟨0, 0⟩
      (code, o, refitExponent ((hi.list.getD a ⟨0, 0⟩).minus o))
    let low (k : Nat) (v : Int) : Nat := if 255 < v then Config.freeNat choice (16 + k) % 256 else v.toNat
    let high (v : Int) : Nat := (min 255 v).toNat
    let box (x : Extent × Nat) : List Byte :=
      match x.1 with
      | none => List.replicate 6 0
      | some (l, h) =>
        (upTo 3).map (fun a => BitVec.ofNat 8 (low (3 * x.2 + a) (((l.list.getD a ⟨0, 0⟩).minus (axis a).2.1).floorOver (axis a).2.2))) ++
        (upTo 3).map (fun a => BitVec.ofNat 8 (high (((h.list.getD a ⟨0, 0⟩).minus (axis a).2.1).ceilOver (axis a).2.2)))
    ((upTo 3).flatMap (fun a => bytesOf 4 (axis a).1) ++ (upTo 3).map (fun a => BitVec.ofNat 8 (wrap 8 (axis a).2.2)), bs.zipIdx.flatMap box)

/-- Where the three parts of a node that REFIT writes go. -/
def refitPlaces (s : State) (c : Cap) (off : Int) : List (Int × Nat) → Except (Int × Stop) (List Loc)
  | [] => .ok []
  | (e, n) :: t =>
    match translate s s.curC.ctx c (off + e) n { rights := rightR + rightW, write := true } with
    | .error st => .error (off, st)
    | .ok l =>
      match storeStop s s.curDie l with
      | some st => .error (off, st)
      | none =>
        match refitPlaces s c off t with
        | .error x => .error x
        | .ok ls => .ok (l :: ls)

/-- What stops REFIT, with the state in which the nodes that it rewrote stand. -/
abbrev RefitStop := State × Int × Stop

/-- The bound of the triangles of a leaf from number i on. -/
def refitLeaves (cap : Cap) (b : List Byte) (off : Int) (c : Nat) : Nat → Nat → State → Extent → Except RefitStop (State × Extent)
  | 0, _, s, x => .ok (s, x)
  | n + 1, i, s, x =>
    match waveRead s cap (childRecord b off c i) 64 { rights := rightR, align := 64 } with
    | .error (e, st) => .error (s, e, st)
    | .ok (s, rec') => refitLeaves cap b off c n (i + 1) s (joinExtent x (triangleExtent rec'))

/-- The current box of an instance child. -/
def instanceExtent (b : List Byte) (c : Nat) : Extent :=
  match nodeOrigin b with
  | none => none
  | some o => let (lo, hi) := childBox b o c; if boxEmpty lo hi then none else some (lo, hi)

/-- Refit the subtree of a node in post-order; `n` depths are left. -/
def refitNode (cap : Cap) : Nat → Int → State → Except RefitStop (State × Extent)
  | 0, off, s => .error (s, off, .trap 0x11 5)
  | n + 1, off, s =>
    match nodeRead s cap off { rights := rightR + rightW, align := 64 } with
    | .error (e, st) => .error (s, e, st)
    | .ok (s, b) =>
      match (upTo 8).foldl (fun (acc : Except RefitStop (State × List Extent)) c =>
          match acc with
          | .error x => .error x
          | .ok (s, bs) =>
            let r : Except RefitStop (State × Extent) := match childKind b c with
              | 0 => .ok (s, none)
              | 1 => refitNode cap n (childNode b off c) s
              | 2 => refitLeaves cap b off c (childCount b c) 0 s none
              | _ => .ok (s, instanceExtent b c)
            match r with
            | .error x => .error x
            | .ok (s, x) => .ok (s, bs ++ [x])) (.ok (s, [])) with
      | .error x => .error x
      | .ok (s, bs) =>
        match refitPlaces s cap off [(0, 15), (0x20, 32), (0x40, 16)] with
        | .error (e, st) => .error (s, e, st)
        | .ok [l0, l1, l2] =>
          let (head, boxes) := refitBytes s.fresh bs
          .ok (storeGroup s [(l0, head), (l1, boxes.take 32), (l2, boxes.drop 32)], bs.foldl joinExtent none)
        | .ok _ => .ok (s, bs.foldl joinExtent none)

/-- REFIT's meaning, R312. -/
def refitOp (i : Instr) (s : State) : Out :=
  guarded i s (fun s =>
    if !roomOn s 4 then .next (stallIssue s)
    else if earlierOpen s then .next (holdAccess s i (some 4))
    else
      let c := readC s s.ir.a.toNat
      match refitNode c 32 (c.off + (operandB s).toInt) s with
      | .ok (s, _) => .next (finish (doneAccess s 4 []))
      | .error (s, e, st) => stopAt i (some 4) s (faddrOf s.ir.a.toNat 0 e) 0 st)

/-- REFIT, R312. -/
def execRefit (s : State) : Out := refitOp .refit s

end Sys2Proof.Machine
end

