-- ==== Sys2Proof/Machine/Neural.lean ====
section
/-! DEFINITION. Hash encodings, their gradients, and the embedding gather, class 0x72 (R315 to R325). -/

namespace Sys2Proof.Machine

/-! ### The grid record (R316) -/

/-- A level of a grid: N, TLOG, HOT, WOFF, GOFF. -/
structure GridLevel where
  n : Nat
  tlog : Nat
  hot : Bool
  woff : Nat
  goff : Nat
  deriving DecidableEq, Repr

/-- A grid: WBASE and its levels. -/
structure Grid where
  wbase : Nat
  levels : List GridLevel
  deriving DecidableEq, Repr

/-- A level is in its ranges. -/
def GridLevel.ok (g : GridLevel) : Bool := g.n != 0 && g.tlog ≤ 22 && (!g.hot || g.woff + 2 ^ g.tlog ≤ 65536)

/-- Read the granules of a record one after the other. -/
def readGranulesOf (c : Cap) (field' : Nat) : Nat → Int → State → Except (Int × Stop) (State × List Byte)
  | 0, _, s => .ok (s, [])
  | k + 1, e, s =>
    match waveRead s c e 16 { field := field', rights := rightR, align := 16 } with
    | .error x => .error x
    | .ok (s, bs) =>
      match readGranulesOf c field' k (e + 16) s with
      | .error x => .error x
      | .ok (s, t) => .ok (s, bs ++ t)

/-- Read the grid record through c[G] (R316, R317). -/
def readGrid (s : State) (c : Cap) (e : Int) : Except (Int × Stop) (State × Grid) :=
  match readGranulesOf c 2 1 e s with
  | .error x => .error x
  | .ok (s, b) =>
    let n := field b 0 1 % 16 + 1
    match readGranulesOf c 2 n (e + 16) s with
    | .error x => .error x
    | .ok (s, t) =>
      let levels : List GridLevel := (upTo n).map (fun l =>
        let w := field t (16 * l) 8
        ⟨bits w 0 24, bits w 24 5, bitAt w 29, bits w 32 16, field t (16 * l + 8) 8 % 2 ^ 44⟩)
      if levels.all GridLevel.ok then .ok (s, ⟨bits (field b 0 8) 8 19, levels⟩) else .error (e, .trap 0x30 6)

/-- A grid as numbers, to be kept with a held instruction. -/
def Grid.pack (g : Grid) : List Nat :=
  [g.wbase, g.levels.length] ++ g.levels.flatMap (fun l => [l.n, l.tlog, if l.hot then 1 else 0, l.woff, l.goff])

/-- The grid that numbers stand for. -/
def Grid.unpack (xs : List Nat) : Grid :=
  let g (k : Nat) : Nat := xs.getD k 0
  ⟨g 0, (upTo (g 1)).map (fun l => ⟨g (5 * l + 2), g (5 * l + 3), g (5 * l + 4) == 1, g (5 * l + 5), g (5 * l + 6)⟩)⟩

/-- G, the number of the capability register of the grid record. -/
def gridCap (s : State) : Nat := s.ir.imm.toNat % 16

/-- The offset of the grid record: c[G].OFF plus a scalar register. -/
def gridOffset (s : State) (r : Nat) : Int := (readC s (gridCap s)).off + (readS s r).toInt

/-! ### Corners (R318) -/

/-- A corner of non-zero weight: its entry and its weight. -/
abbrev Corner := Nat × FVal

/-- A component clamped to [0, 1], in units of 2^-149. -/
def unitCoord (x : Nat) : Nat := (min (max (coordinate x) 0) (2 ^ 149)).toNat

/-- The position of an axis in a level: i0 and f in units of 2^-149. -/
def axisPos (g : GridLevel) (q : Nat) : Nat × Nat :=
  let i := min (q * g.n / 2 ^ 149) (g.n - 1)
  (i, q * g.n - i * 2 ^ 149)

/-- The entry of a grid point: direct where the table holds the grid, else hashed. -/
def gridEntry (g : GridLevel) (i j k : Nat) : Nat :=
  if (g.n + 1) ^ 3 ≤ 2 ^ g.tlog then i + (g.n + 1) * (j + (g.n + 1) * k)
  else (i ^^^ (j * 0x4F1BBCDD) ^^^ (k * 0xA2C73E19)) % 2 ^ 32 % 2 ^ g.tlog

/-- The corners of a level with non-zero weight, in their order; `q` the three clamped components. -/
def cornersOf (g : GridLevel) (q : List Nat) : List Corner :=
  let p (a : Nat) : Nat × Nat := axisPos g (q.getD a 0)
  (upTo 8).filterMap (fun c =>
    let b (a : Nat) : Nat := if bitAt c a then 1 else 0
    let w (a : Nat) : Nat := if bitAt c a then (p a).2 else 2 ^ 149 - (p a).2
    let m := w 0 * w 1 * w 2
    if m = 0 then none else some (gridEntry g ((p 0).1 + b 0) ((p 1).1 + b 1) ((p 2).1 + b 2), .fin false m (-447)))

/-- The clamped position of a lane. -/
def lanePos (s : State) (L : Nat) : List Nat := (upTo 3).map (fun a => unitCoord (elem 32 0 (readV s 32 (s.ir.b.toNat + a) L)))

/-! ### HENC (R318 to R320) -/

/-- What a level gives: its two feature codes, or its absence with the feedback. -/
inductive LevelResult where
  | features (a b : Nat)
  | absent (f : Feedback)
  deriving DecidableEq, Repr

/-- The two features of a level from the bytes of its corners' entries (R319). -/
def levelFeatures (cs : List Corner) (es : List (List Byte)) : LevelResult :=
  let f (q : Nat) : Nat := weightedSum 9 ((upTo cs.length).map (fun k => ((cs.getD k (0, defaultNan)).2, decodeF 9 (field (es.getD k []) (2 * q) 2))))
  .features (f 0) (f 1)

/-- A hot level: entries from the scratchpad window (R316); a poisoned word traps UNCORR 4. -/
def hotLevel (s : State) (g : Grid) (lv : GridLevel) (cs : List Corner) : Except (Int × Stop) LevelResult :=
  let at' (e : Nat) : Nat := (g.wbase + 4 * (lv.woff + e)) % 2 ^ 19
  match cs.findSome? (fun c => s.curC.scratchPoisoned (at' c.1) 4) with
  | some wd => .error ((8 * wd : Nat), .trap 0x50 4)
  | none => .ok (levelFeatures cs (cs.map (fun c => s.curC.scratchBytes (at' c.1) 4)))

/-- A level in memory: map reads, then entry reads or the feedback operation (R319). -/
def coldLevel (h : LodObject) (l : Nat) (cs : List Corner) (s : State) : Except (Int × Stop) (State × LevelResult) :=
  let c := readC s s.ir.a.toNat
  match firstAbsent h l (cs.map (fun c => c.1 / 2 ^ 14)) s with
  | .error st => .error (0, st)
  | .ok (s, some (p, mapped)) =>
    (match logMiss s h l p true mapped with
     | .error st => .error (0, st)
     | .ok (s, f) => .ok (s, .absent f))
  | .ok (s, none) =>
    match readTexels c 4 (l == h.tail) (cs.map (fun c => h.loff l + 4 * c.1)) s with
    | .error x => .error x
    | .ok (s, es) => .ok (s, levelFeatures cs es)

/-- The levels of a lane, ascending. -/
def encodeLevels (h : LodObject) (g : Grid) (q : List Nat) : List (Nat × GridLevel) → State → Except (Int × Stop) (State × List LevelResult)
  | [], s => .ok (s, [])
  | (l, lv) :: t, s =>
    let cs := cornersOf lv q
    let r := if lv.hot then (hotLevel s g lv cs).map (fun x => (s, x)) else coldLevel h l cs s
    match r with
    | .error x => .error x
    | .ok (s, x) =>
      match encodeLevels h g q t s with
      | .error e => .error e
      | .ok (s, xs) => .ok (s, x :: xs)

/-- The status word of a lane (R319). -/
def hencStatus (rs : List LevelResult) : Nat :=
  (upTo rs.length).foldl (fun w l =>
    match rs.getD l (.features 0 0) with
    | .features _ _ => w
    | .absent f => w + 2 ^ l + (if f = .logged then 2 ^ (32 + l) else 0) + (if f = .dropped then 2 ^ (48 + l) else 0)) 0

/-- The registers of a lane: features, then the status. -/
def hencWrites (d L : Nat) (rs : List LevelResult) : List RegWrite :=
  let f (l : Nat) : Nat := match rs[l]? with | some (.features a b) => a + b * 2 ^ 16 | _ => 0
  let n := (rs.length + 1) / 2
  (upTo n).map (fun i => fullWrite (d + i) L (f (2 * i) + f (2 * i + 1) * 2 ^ 32)) ++ [fullWrite (d + n) L (hencStatus rs)]

/-- A lane of HENC. -/
def hencLane (h : LodObject) (g : Grid) (s : State) (L : Nat) : Except (Int × Stop) (State × List RegWrite) :=
  match encodeLevels h g (lanePos s L) ((upTo g.levels.length).map (fun l => (l, g.levels.getD l ⟨1, 0, false, 0, 0⟩))) s with
  | .error x => .error x
  | .ok (s, rs) => .ok (s, hencWrites s.ir.d.toNat L rs)

/-- The header and the grid record of HENC, read once, before any lane; or the field of R357 and what stops them. -/
def hencHeads (s : State) (obj : Nat) (t : Entry) : Except (Word × Stop) (State × LodObject × Grid) :=
  match keptOf s with
  | [] =>
    (match readHeader s obj t with
     | .error st => .error (faddrOf s.ir.a.toNat 0 0, st)
     | .ok (u, h) =>
       match readGrid u (readC s (gridCap s)) (gridOffset s s.ir.c.toNat) with
       | .error (e, st) => .error (faddrOf (gridCap s) 0 e, st)
       | .ok (u, g) => .ok (u, h, g))
  | xs => .ok (s, LodObject.unpack xs, Grid.unpack (xs.drop 47))

/-- The grid record of HGRAD, read once. -/
def hgradGrid (s : State) : Except (Int × Stop) (State × Grid) :=
  match keptOf s with
  | [] => readGrid s (readC s (gridCap s)) (gridOffset s s.ir.d.toNat)
  | xs => .ok (s, Grid.unpack xs)

/-- HENC, R315 to R320: the header and the grid record are read before any lane. -/
def execHenc (s : State) : Out :=
  guarded .henc s (fun s =>
    let ls := activeLanes s 64
    if ls.isEmpty then laneAccess .henc s 3 s.ir.a.toNat ls (fun s _ => .ok (s, []))
    else if !roomOn s 3 then .next (stallIssue s)
    else if earlierOpen s then .next (holdAccess s .henc (some 3))
    else
      let c := readC s s.ir.a.toNat
      match objectCheck s s.curC.ctx c { rights := rightR + rightL, kind := 1 } with
      | .error st => stopAt .henc (some 3) s (faddrOf s.ir.a.toNat 0 c.off) 0 st
      | .ok t =>
        match hencHeads s c.obj t with
        | .error (faddr, st) => stopAt .henc (some 3) s faddr 0 st
        | .ok (u, h, g) =>
          if h.ct != 9 || h.ncl != 1 || h.tail < g.levels.length - 1 then arith s 6
          else if s.curC.vallot < s.ir.d.toNat + (g.levels.length + 1) / 2 + 1 then trap s 0x03 0
          else keepRead s (h.pack ++ g.pack) (markLod s (lodMark s) (laneAccess .henc u 3 s.ir.a.toNat ls (hencLane h g))))

/-! ### HGRAD (R321, R322) -/

/-- A contribution: its offset in c[A], and its exact value. -/
abbrev Contribution := Int × FVal

/-- The contributions of a lane, by level, corner and feature. -/
def laneContributions (s : State) (g : Grid) (L : Nat) : List Contribution :=
  let q := lanePos s L
  (upTo g.levels.length).flatMap (fun l =>
    let lv := g.levels.getD l ⟨1, 0, false, 0, 0⟩
    let v := readV s 32 (s.ir.c.toNat + l) L
    (cornersOf lv q).flatMap (fun c => (upTo 2).map (fun k =>
      ((lv.goff + 8 * c.1 + 4 * k : Nat), mulF c.2 (decodeF 10 (elem 32 k v))))))

/-- Insert a contribution in a list of sums by ascending offset. -/
def addContribution (x : Contribution) : List (Int × ExactState) → List (Int × ExactState)
  | [] => [(x.1, exactAdd {} x.2)]
  | (e, a) :: t =>
    if x.1 < e then (x.1, exactAdd {} x.2) :: (e, a) :: t
    else if x.1 = e then (e, exactAdd a x.2) :: t
    else (e, a) :: addContribution x t

/-- The FADDs of HGRAD in their order, as offsets and F32 addends (R322). -/
def gradientAdds (order : Bool) (xs : List Contribution) : List (Int × Nat) :=
  if order then xs.map (fun x => (x.1, roundF 10 0 false x.2))
  else (xs.foldl (fun acc x => addContribution x acc) []).map (fun p => (p.1, exactRead 0 p.2))

/-- Perform the FADDs from number i on, in order, at their homes; where one must wait, its number is kept. -/
def performAdds (c : Cap) : List (Int × Nat) → Nat → State → State × Option (Int × Stop)
  | [], _, s => (s, none)
  | (e, v) :: t, i, s =>
    match translate s s.curC.ctx c e 4 { rights := rightR + rightW + rightA, align := 4, write := true, atomic := true } with
    | .error st => (s, some (e, st))
    | .ok l =>
      let r : Except Stop (State × Nat) := if isHost l.key then .error (.trap 0x30 5)
        else if dieOfKey l.key = s.curDie then
          match atomicAt s s.curDie (issuePts s) l.home 4 (fun old => atomicNew 8 10 0 old v 0) with
          | .error st => .error st
          | .ok (s, _, ts) => .ok (s, ts)
        else
          match remoteAnswer s i l [i, l.key, 4, 8, 10, 0, v, 0, (issuePts s), (match l.leaf with | some k => k + 1 | none => 0)] with
          | .error st => .error st
          | .ok (_, ts) => .ok (touchLeaf s l true, ts)
      match r with
      | .error st => (s, some (e, st))
      | .ok (s, ts) =>
        performAdds c t (i + 1) ((accessedAt s ts).modThread s.cur (fun x => { x with answers := tput x.answers (2 ^ 20) (i + 1) }))

/-- What keeps a contribution from being added, asked before the first FADD (R361, R395): the checks of its access, host memory (R173), poison; the
home of another die is asked once for each line, by the operation 17. -/
def addStop (s : State) (c : Cap) (e : Int) : Option Stop :=
  match translate s s.curC.ctx c e 4 { rights := rightR + rightW + rightA, align := 4, write := true, atomic := true } with
  | .error st => some st
  | .ok l =>
    if isHost l.key then some (.trap 0x30 5)
    else if dieOfKey l.key = s.curDie then (if s.poisoned l.key then some (.trap 0x50 2) else none)
    else
      let k := 2 ^ 60 + lineOf l.key
      match remoteAnswer s k l [k, l.key, 4, 17, 0, 0, 0, 0, issuePts s, (match l.leaf with | some k => k + 1 | none => 0)] with
      | .error st => some st
      | .ok _ => none

/-- The first contribution of some lanes that is stopped: its lane, offset and stop. -/
def gradientStop (s : State) (c : Cap) (xs : List (Nat × List Contribution)) : Option (Nat × Int × Stop) :=
  xs.findSome? (fun x => x.2.findSome? (fun y => (addStop s c y.1).map (fun st => (x.1, y.1, st))))

/-- The stop is a trap. -/
def Stop.traps : Stop → Bool
  | .trap _ _ => true
  | _ => false

/-- The lanes whose FADDs are all among the first `n` (R361). -/
def addedLanes (order : Bool) (xs : List (Nat × List Contribution)) (adds : List (Int × Nat)) (n : Nat) : List Nat :=
  let at' := (adds.take n).map (·.1)
  (xs.zipIdx.filter (fun x =>
    if order then decide (((xs.take (x.2 + 1)).map (fun y => y.2.length)).sum ≤ n) else x.1.2.all (fun y => at'.contains y.1))).map (fun x => x.1.1)

/-- The FADDs of the lanes below `bound` from where they stand; then the instruction completes, or the lane at `bound` traps with those done. -/
def runGradient (c : Cap) (bound : Nat) (xs : List (Nat × List Contribution)) (s : State) : Out :=
  let mine := xs.filter (fun x => x.1 < bound)
  let order := s.ir.imm.getLsbD 4
  let adds := gradientAdds order (mine.flatMap (·.2))
  let start := tget 0 s.curT.answers (2 ^ 20)
  let stop (s : State) (ls : List Nat) (L : Nat) (e : Int) (st : Stop) : Out := stopAt .hgrad (some 5) s (faddrOf s.ir.a.toNat L e) (maskOf ls) st
  match performAdds c (adds.drop start) start s with
  | (u, none) =>
    if 32 ≤ bound then .next (finish (doneAccess u 5 []))
    else
      let u := u.modThread u.cur (fun t => { t with answers := [] })
      let ls := mine.map (·.1)
      (match gradientStop u c (xs.filter (fun x => x.1 = bound)) with
       | some (L, e, st) => stop u ls L e st
       | none => .next (holdAccess (u.modThread u.cur (fun t => { t with doneLanes := t.doneLanes ||| maskOf ls })) .hgrad (some 5)))
  | (u, some (e, st)) =>
    if st.traps then
      let ls := addedLanes order mine adds (tget 0 u.curT.answers (2 ^ 20))
      stop u ls (((mine.map (·.1)).filter (fun L => !ls.contains L)).headD 0) e st
    else stop u [] 0 e st

/-- HGRAD, R321, R322: every address is checked before the first FADD. Where a lane's access traps, the lanes below it are added first (R361); once
the adding has begun, the thread's answers hold how far it goes (2^20 + 1) and how far it is (2^20). -/
def execHgrad (s : State) : Out :=
  guarded .hgrad s (fun s =>
    let ls := activeLanes s 64
    if ls.isEmpty then .next (finish (if s.curT.hold.isSome then doneAccess s 5 [] else s))
    else if !roomOn s 5 then .next (stallIssue s)
    else if earlierOpen s then .next (holdAccess s .hgrad (some 5))
    else
      let c := readC s s.ir.a.toNat
      match objectCheck s s.curC.ctx c { rights := rightR + rightW + rightA, align := 4, write := true, atomic := true } with
      | .error st => stopAt .hgrad (some 5) s (faddrOf s.ir.a.toNat 0 c.off) 0 st
      | .ok _ =>
        match hgradGrid s with
        | .error (e, st) => stopAt .hgrad (some 5) s (faddrOf (gridCap s) 0 e) 0 st
        | .ok (u, g) =>
          if s.curC.vallot < s.ir.c.toNat + g.levels.length then trap s 0x03 3
          else
            keepRead s g.pack <|
            let xs := ls.map (fun L => (L, laneContributions u g L))
            let begin' (b : Nat) : Out := runGradient c b xs (u.modThread u.cur (fun t => { t with answers := tput t.answers (2 ^ 20 + 1) b }))
            match tfind? s.curT.answers (2 ^ 20 + 1) with
            | some b => runGradient c b xs u
            | none =>
              match gradientStop u c xs with
              | none => begin' 32
              | some (L, e, st) =>
                if st.traps && ls.head? != some L then begin' L else stopAt .hgrad (some 5) u (faddrOf s.ir.a.toNat L e) 0 st)

/-! ### EGATH (R323 to R325) -/

/-- An embedding table (R323): DIM, ROWB, and the shards with their first rows. -/
structure EmbedTable where
  dim : Nat
  rowb : Nat
  nsh : Nat
  first : List Nat
  bufs : List Cap
  deriving DecidableEq, Repr

/-- The record's values are in their ranges (R323, R363); `q4` where codes have 4 bits. -/
def EmbedTable.ok (t : EmbedTable) (q4 : Bool) : Bool :=
  t.dim % 2 == 0 && 2 ≤ t.dim && t.dim ≤ 4096 && 1 ≤ t.nsh && t.nsh ≤ 12 && t.rowb % 4 == 0 &&
    4 + (if q4 then t.dim / 2 else t.dim) ≤ t.rowb

/-- A table as numbers, to be kept with a held instruction. -/
def EmbedTable.pack (t : EmbedTable) : List Nat :=
  [t.dim, t.rowb, t.nsh] ++ (upTo 13).map (fun k => t.first.getD k 0) ++
    (upTo 12).map (fun k => let c := t.bufs.getD k {}; c.raw.toNat + if c.tag then 2 ^ 128 else 0)

/-- The table that numbers stand for. -/
def EmbedTable.unpack (xs : List Nat) : EmbedTable :=
  let g (k : Nat) : Nat := xs.getD k 0
  ⟨g 0, g 1, g 2, (upTo 13).map (fun k => g (3 + k)), (upTo 12).map (fun k => ⟨BitVec.ofNat 128 (g (16 + k)), g (16 + k) / 2 ^ 128 == 1⟩)⟩

/-- The shard of a row. -/
def EmbedTable.shard (t : EmbedTable) (r : Nat) : Option Nat :=
  (upTo t.nsh).find? (fun k => t.first.getD k 0 ≤ r && r < t.first.getD (k + 1) 0)

/-- Read the granules of the table record with their tags. -/
def readTagged (c : Cap) : Nat → Int → State → Except (Int × Stop) (State × List (List Byte × Bool))
  | 0, _, s => .ok (s, [])
  | k + 1, e, s =>
    match translate s s.curC.ctx c e 16 { rights := rightR } with
    | .error st => .error (e, st)
    | .ok l =>
      match loadAt s s.curDie (some s.curC.core) (issuePts s) l 16 with
      | .error st => .error (e, st)
      | .ok (s, g) =>
        match readTagged c k (e + 16) (accessedAt s g.ts) with
        | .error x => .error x
        | .ok (s, gs) => .ok (s, (g.bytes, g.tag) :: gs)

/-- Read the table record through c[A]. -/
def readTable (s : State) (c : Cap) : Except (Int × Stop) (State × EmbedTable) :=
  match translate s s.curC.ctx c c.off 320 { rights := rightR, align := 64 } with
  | .error st => .error (c.off, st)
  | .ok _ =>
    match readTagged c 20 c.off s with
    | .error x => .error x
    | .ok (s, gs) =>
      let b := gs.flatMap (·.1)
      .ok (s, ⟨field b 0 4, field b 4 4, field b 8 1, (upTo 13).map (fun k => field b (0x10 + 8 * k) 8),
        (upTo 12).map (fun k => let g := gs.getD (8 + k) ([], false); capOf g.1 g.2)⟩)

/-- The codes of `2n` columns from COL0 of a row: the row's header, then the bytes of the codes, as ordinary loads (R325). -/
def readRow (t : EmbedTable) (q4 : Bool) (col0 n r : Nat) (s : State) : Except (Int × Stop) (State × List FVal) :=
  match t.shard r with
  | none => .ok (s, (upTo (2 * n)).map (fun h => decodeF 10 (Config.freeNat s.fresh (r * 32 + h))))
  | some k =>
    let c := t.bufs.getD k {}
    let e : Int := (c.off + (r - t.first.getD k 0) * t.rowb : Nat)
    match waveRead s c e 4 { field := 3, rights := rightR } with
    | .error x => .error x
    | .ok (s, hd) =>
      let lo := if q4 then col0 / 2 else col0
      let len := if q4 then n else 2 * n
      match waveRead s c (e + (4 + lo : Nat)) len { field := 3, rights := rightR } with
      | .error x => .error x
      | .ok (s, cs) =>
        let code (h : Nat) : Nat := if q4 then field cs (h / 2) 1 / 16 ^ (h % 2) % 16 else field cs h 1
        .ok (s, (upTo (2 * n)).map (fun h => decodeF 10 (rowDecode (field hd 0 2) (field hd 2 2) (code h))))

/-- The rows of a bag by index position: the index, then its row (R325). An error at an index is told by 2^62 on its offset, which
`FADDR` does not hold. -/
def readRows (t : EmbedTable) (q4 : Bool) (col0 n : Nat) (c : Cap) : Nat → Int → State → Except (Int × Stop) (State × List (List FVal))
  | 0, _, s => .ok (s, [])
  | k + 1, e, s =>
    match waveRead s c e 4 { field := 1, rights := rightR, align := 4 } with
    | .error (e, st) => .error (e + 2 ^ 62, st)
    | .ok (s, b) =>
      match readRow t q4 col0 n (numOfBytes b) s with
      | .error x => .error x
      | .ok (s, v) =>
        match readRows t q4 col0 n c k (e + 4) s with
        | .error x => .error x
        | .ok (s, vs) => .ok (s, v :: vs)

/-- The pooled F32 of a column (R324). -/
def pooled (s : State) (index : Nat) (ts : List FVal) : Nat :=
  let c : FVal := .fin true 0 0
  match s.ir.imm.toNat % 4 with
  | 0 => roundF 10 s.ir.rm.toNat false (seqSum 10 s.ir.rm.toNat c ts)
  | 1 => exactRead s.ir.rm.toNat (exactOf (c :: ts))
  | _ => freeSum s.fresh index c ts

/-- A lane of EGATH: its bag, then one F32 for each column (R324). -/
def egathLane (t : EmbedTable) (s : State) (L : Nat) : Except (Int × Stop) (State × List RegWrite) :=
  let x := s.ir
  let n := bits x.imm.toNat 2 4 + 1
  let b := readV s 32 x.b.toNat L
  let c := readC s x.c.toNat
  if 64 < elem 32 1 b then .error (0, .trap 0x30 2)
  else
    match readRows t (x.mod == 1) (bits x.imm.toNat 6 12) n c (elem 32 1 b) (c.off + 4 * elem 32 0 b : Nat) s with
    | .error e => .error e
    | .ok (s, rows) =>
      let f (h : Nat) : Nat := pooled s (64 * L + h) (rows.map (fun r => r.getD h (.fin false 0 0)))
      .ok (s, (upTo n).map (fun j => fullWrite (x.d.toNat + j) L (f (2 * j) + f (2 * j + 1) * 2 ^ 32)))

/-- EGATH, R323 to R325: the table record is read before any lane; without a selected lane nothing is read. -/
def execEgath (s : State) : Out :=
  guarded .egath s (fun s =>
    let x := s.ir
    let ls := activeLanes s 64
    let addr (L : Nat) (e : Int) : Word := faddrOf (if e < 2 ^ 61 then x.a.toNat else x.c.toNat) L e
    if ls.isEmpty || !roomOn s 0 || earlierOpen s then laneAccessAt .egath s 0 addr ls (fun s _ => .ok (s, []))
    else
      match (match keptOf s with | [] => readTable s (readC s x.a.toNat) | xs => .ok (s, EmbedTable.unpack xs)) with
      | .error (e, st) => stopAt .egath (some 0) s (addr 0 e) 0 st
      | .ok (u, t) =>
        let col0 := bits x.imm.toNat 6 12
        if !t.ok (x.mod == 1) then arith s 6
        else if col0 % 2 == 1 || t.dim < col0 + 2 * (bits x.imm.toNat 2 4 + 1) then arith s 4
        else keepRead s t.pack (laneAccessAt .egath u 0 addr ls (egathLane t)))

end Sys2Proof.Machine
end

