-- ==== Sys2Proof/Machine/Power.lean ====
section
/-! DEFINITION. Throttling, thermal emergencies, retirement and data errors (R355, R380, R381, R394 to R396, R407 to R410). -/

namespace Sys2Proof.Machine

/-! ### Throttle levels (R407, R408) -/

/-- Set the throttle level and record it. -/
def setLevel (s : State) (n : Nat) : State := xdLog { s with xd := { s.xd with level := n } } 0x42 20 0 0xFFF (word n)

/-- What XD has been told asks for a higher level (R355, R408): power above the budget, a junction at 105 °C, the inlet above 40 °C, the flow below 6 L/min. -/
def Module.strained (x : Module) : Bool := x.budget < x.power || 105000 ≤ x.junction || 40000 < x.inlet || x.flow < 6000

/-- What XD has been told is an emergency (R408): a junction at 115 °C, or the inlet above 50 °C. -/
def Module.overheated (x : Module) : Bool := 115000 ≤ x.junction || 50000 < x.inlet

/-- XD looks at what it has been told, and at its budget: since when the module is calm, and whether an emergency is over (R408). -/
def reassess (s : State) : State :=
  let x := s.xd
  let calm := !x.strained && decide (10 * x.power ≤ 9 * x.budget)
  { s with xd := { x with
      calmSince := if calm then some (x.calmSince.getD s.clock) else none, emergencyAt := if x.overheated then x.emergencyAt else none } }

/-- A time of `n` µs at a level's clock has passed since a cycle (R5, R408). -/
def passed (s : State) (since : Option Nat) (n : Nat) : Bool :=
  match since with | some t => decide (t + n * clockMHz s.xd.level ≤ s.clock) | none => false

/-- The level rises now (R408). -/
def raiseDue (s : State) : Bool := s.xd.strained && s.xd.level < 7 && (s.xd.levelAt.isNone || passed s s.xd.levelAt 100)

/-- The level falls now (R408): 1 ms without a condition since the last change. -/
def lowerDue (s : State) : Bool := 0 < s.xd.level && passed s s.xd.calmSince 1000 && (s.xd.loweredAt.isNone || passed s s.xd.loweredAt 1000)

/-- THROTTLE_RAISE, R408: one level up while a condition holds, at most once in each 100 µs. -/
def execThrottleRaise (s : State) : Out :=
  if !raiseDue s then .next s
  else .next (setLevel { s with xd := { s.xd with levelAt := some s.clock } } (s.xd.level + 1))

/-- THROTTLE_LOWER, R408: no condition has held for 1 ms, and power has stayed 10 % or more below the budget: one level down. -/
def execThrottleLower (s : State) : Out :=
  if !lowerDue s then .next s
  else .next (setLevel { s with xd := { s.xd with loweredAt := some s.clock } } (s.xd.level - 1))

/-- THERMAL_EMERGENCY, R408: level 7 at once, and DETAIL 21, when what XD has been told becomes an emergency. -/
def execThermalEmergency (s : State) : Out :=
  if !s.xd.overheated || s.xd.emergencyAt.isSome then .next s
  else
    let s := if s.xd.level = 7 then s else setLevel s 7
    let s := xdLog s 0x42 21 0 0xFFF 0
    .next { s with xd := { s.xd with emergencyAt := some s.clock } }

/-- An emergency has lasted 10 ms at the clock of level 7 (R408). -/
def standbyDue (s : State) : Bool :=
  !s.xd.standby && (match s.xd.emergencyAt with | some t => decide (t + 10000 * clockMHz 7 ≤ s.clock) | none => false)

/-- EMERGENCY_STANDBY, R408: the module goes into standby, and every crew is lost without a kill record. -/
def execEmergencyStandby (s : State) : Out :=
  if !standbyDue s then .next s
  else
    let s := (s.crews.map (·.1)).foldl dropCrew s
    .next { s with xd := { s.xd with standby := true }, launches := s.launches.map (fun e => (e.1, { e.2 with killed := true })) }

/-- POWER_BUDGET, R355: function 0 gives a budget of at most 4,800 W, in mW; XD keeps power at or below it by the throttle levels (R408). -/
def execPowerBudget (s : State) : Out :=
  if 4800000 < s.ev.subject then .next s else .next (reassess { s with xd := { s.xd with budget := s.ev.subject } })

/-! ### Retirement (R409, R410) -/

/-- A core takes no further crew, and retires when its crew has left it. -/
def retireLater (s : State) (die core : Nat) : State :=
  if coreRetired (s.die die) core then s else s.modDie die (fun d => { d with retiring := linsert core d.retiring })

/-- No crew is on the core. -/
def coreEmpty (s : State) (die core : Nat) : Bool := s.crews.all (fun e => !(e.2.die == die && e.2.onCore && e.2.core == core))

/-- The cores of a heat. -/
def coresOfHeat (heat : Nat) : List Nat := (upTo 8).map (fun k => 8 * heat + k)

/-- CORE_RETIRE, R409, R410: a core without a crew is retired and recorded; a core with one retires later. A fourth of its heat's cores
retires the heat. -/
def execCoreRetire (s : State) : Out :=
  let die := s.ev.subject
  let k := s.ev.arg1
  if 12 ≤ die ∨ coresOf die ≤ k ∨ (s.die die).retiredCores.contains k then .next s
  else if !coreEmpty s die k then .next (retireLater s die k)
  else
    let s := s.modDie die (fun d => { d with retiring := lerase k d.retiring, retiredCores := linsert k d.retiredCores })
    let s := xdLog s 0x50 9 die k 0
    let s := { s with xd := { s.xd with retired := s.xd.retired + 1, replace := true } }
    let h := heatOf k
    let lost := ((coresOfHeat h).filter (fun j => (s.die die).retiredCores.contains j)).length
    .next (if 2 ≤ lost ∧ !(s.die die).retiredHeats.contains h then s.due .heatRetire die h else s)

/-- Write back the lines that the L2 slice of a heat owns, to the memory-side caches of their home divisions (R151, R409). -/
def writeBackHeat (s : State) (die heat : Nat) : State :=
  ((s.owners.filter (fun e => dieOfKey (64 * e.1) == die && e.2 == heat)).map (·.1)).foldl (fun s line =>
    mscFill { s with owners := terase s.owners line } die line
      ((tfind? (s.die die).copies (cacheKey (256 + heat) line)).map (·.range) |>.getD 15) true) s

/-- HEAT_RETIRE, R409, R410: the heat's crews are pre-empted, what its slice owns is written back, its copies are given up, and its cores retire as
they leave. -/
def execHeatRetire (s : State) : Out :=
  let die := s.ev.subject
  let h := s.ev.arg1
  if 12 ≤ die ∨ coresOf die ≤ 8 * h ∨ (s.die die).retiredHeats.contains h then .next s
  else
    let s := (writeBackHeat s die h).modDie die (fun d => { d with
      retiredHeats := linsert h d.retiredHeats
      retiring := (coresOfHeat h).foldl (fun l k => if d.retiredCores.contains k then l else linsert k l) d.retiring
      copies := d.copies.filter (fun e => e.1 / 2 ^ 52 != 256 + h && !(coresOfHeat h).contains (e.1 / 2 ^ 52)) })
    let s := { s with crews := s.crews.map (fun e =>
      if e.2.die == die && (e.2.state == .running || e.2.state == .held) && heatOf e.2.core == h then (e.1, { e.2 with stopFor := some (e.2.stopFor.getD 2) }) else e) }
    let s := xdLog s 0x50 10 die 0xFFF 0
    .next { s with xd := { s.xd with replace := true } }

/-! ### Data errors (R394 to R396) -/

/-- The entry of an error in a wave's registers (R396). -/
def logRegisters (s : State) (wk : Nat) : State :=
  let ck := crewOf wk
  dieLog s (s.crew ck).die { crewEntry s ck (widOf wk) 0x50 3 with src := 0 }

/-- A wave whose registers can fail: of a crew on its core, not ended. -/
def strikable' (s : State) (wk : Nat) : Bool :=
  thas s.waves wk && !(s.wave wk).ended && !isSequencer wk && (s.crew (crewOf wk)).onCore

/-- R396: the wave ends; a second error in its quarter retires the core. -/
def strikeRegisters (s : State) (wk : Nat) : State :=
  let ck := crewOf wk
  let q := widOf wk % 4
  let n := tget 0 (s.crew ck).quarterErrors q + 1
  let s := s.modCrew ck (fun c => { c with quarterErrors := tput c.quarterErrors q n })
  let s := if 2 ≤ n ∧ (s.crew ck).onCore then retireLater s (s.crew ck).die (s.crew ck).core else s
  strikeWave (logRegisters s wk) wk

/-- Stop a command of the matrix engine that has been accepted: its product is cut short, and its agents are told (R378, R380, R381). -/
def failCommand (s : State) (ck key code detail : Nat) : State :=
  match tfind? (s.crew ck).commands key with
  | none => s
  | some m =>
    let s := if m.op = .mma ∨ m.op = .mmap then abortProduct s ck m else s
    m.agents.foldl (fun s a => if thas s.waves a && !(s.wave a).ended then postAsync s a code detail 0 else s) (completeCmd s ck key m)

/-- R380, a lost member: the others leave a joint instruction with GANGFAIL, accepted commands stop, the wave ends, the core retires. -/
def strikeMember (s : State) (wk : Nat) : State :=
  let ck := crewOf wk
  let gs := (s.crew ck).gangs.filterMap (fun g => (g.2.waves.findIdx? (fun w => w == widOf wk)).map (fun rank => (g.1, rank)))
  let s := if (s.crew ck).onCore then retireLater s (s.crew ck).die (s.crew ck).core else s
  let s := gangLose (logRegisters s wk) ck (widOf wk) false
  let s := strikeWave s wk
  gs.foldl (fun s g => ((s.crew ck).commands.filter (fun m => m.2.gang == some g.1)).foldl (fun s m => failCommand s ck m.1 0x40 g.2) s) s

/-- The live wave of a crew with the lowest `WID` (R376). -/
def firstWave (s : State) (ck : Nat) : Nat :=
  (((s.wavesOf ck).filter (fun w => !isSequencer w && !(s.wave w).ended)).head?).getD (64 * ck + 31)

/-- R381, an error in a core of a pair: the pair's command stops on both cores, and the partner receives PARTNERLOST; the crew and its family of
launches are killed (R367), but for the partner, which is no longer paired and keeps running. -/
def strikePair (s : State) (ck : Nat) : State :=
  let c := s.crew ck
  let s := if c.onCore then retireLater s c.die c.core else s
  let s : State := match c.pair with
    | none => s
    | some p =>
      let s := s.modCrew p (fun x => { x with pairBroken := true })
      let ms := (s.crew p).commands.filter (fun m => m.2.op == .mmap)
      if ms.isEmpty then postAsync s (firstWave s p) 0x41 0 0 else ms.foldl (fun s m => failCommand s p m.1 0x41 0) s
  killFamily s ck 5 { code := 0x60, detail := 5, src := 5 } c.pair.toList

/-- R394, R378: a tile is poisoned; a product that runs into it stops. -/
def strikeTile (s : State) (ck tile : Nat) : State :=
  let runs := (s.crew ck).commands.filter (fun m => m.2.started && (m.2.op == .mma || m.2.op == .mmap) && m.2.f.d.toNat == tile)
  let s := runs.foldl (fun s m => stopCmd (abortProduct s ck m.2) ck m.1 m.2 tile) s
  s.modCrew ck (fun c => c.setStatus tile { c.status tile with pois := true })

/-- R394: a line is poisoned at its home, and where a die holds it dirty. -/
def strikeLine (s : State) (line : Nat) : State :=
  if !s.has (64 * line) ∨ isHost (64 * line) then s
  else
    { s with
      poison := linsert line s.poison
      dies := s.dies.map (fun e => (e.1, { e.2 with
        rdc := e.2.rdc.map (fun r => if r.1 = line ∧ (r.2.state = .m ∨ r.2.state = .o) then (r.1, { r.2 with poison := true }) else r) })) }

/-- R394: clean copies of a line are dropped, and fetched again when they are needed. -/
def dropCopies (s : State) (line : Nat) : State :=
  let owner := tfind? s.owners line
  let s := s.modDie (dieOfKey (64 * line)) (fun d => { d with
    copies := d.copies.filter (fun e => e.1 % 2 ^ 52 != line % 2 ^ 46 || owner.map (256 + ·) == some (e.1 / 2 ^ 52)) })
  (upTo 12).foldl (fun s d =>
    match tfind? (s.die d).rdc line with
    | some r => if r.state = .s ∧ !requestUnderway s d line then evictLine s d line r else s
    | none => s) s

/-- R394: a damaged directory entry: its line is recalled from every die. -/
def strikeDirectory (s : State) (line : Nat) : State :=
  let home := dieOfKey (64 * line)
  let e := s.dir line
  let r : HomeRequest := { kind := 5, die := home }
  if 12 ≤ home ∨ e = {} then s
  else if e.busy.isSome || !e.waiting.isEmpty then s.putDir line { e with waiting := e.waiting ++ [r] }
  else serve s home line r

/-- UNCORRECTABLE_ERROR, R394 to R396, R380, R381. -/
def execUncorrectableError (s : State) : Out :=
  .next (match s.ev.site with
    | .dataLine line => strikeLine s line
    | .cleanCopy line => dropCopies s line
    | .directoryEntry line => strikeDirectory s line
    | .registers wk => if strikable' s wk then strikeRegisters s wk else s
    | .scratchWord ck a => if (s.crew ck).state = .ended then s else
        s.modCrew ck (fun c => { c with scratchPoison := linsert (a % 2 ^ 19 / 8) c.scratchPoison })
    | .tile ck k => if (s.crew ck).state = .ended then s else strikeTile s ck (k % 8)
    | .contextFrame ck => s.modCrew ck (fun c => { c with frameBad := c.frameBad || c.frame.isSome })
    | .gangMember wk => if strikable' s wk then strikeMember s wk else s
    | .pairCore ck => if (s.crew ck).onCore && (s.crew ck).paired then strikePair s ck else s
    | .corrected d => s.modDie d (fun x => { x with corrected := x.corrected + 1 }))

/-- PATROL_SCRUB, R394: a visit to a line finds it right, or corrects it to what it reads as: nothing that a program sees changes. -/
def execPatrolScrub (s : State) : Out := .next s

end Sys2Proof.Machine
end

