-- ==== Sys2Proof/Machine/Predicate.lean ====
section
/-! DEFINITION. Predicate instructions, OPC 0x48 to 0x51 (R108): in every lane of the fragment, whatever the predicates hold. -/

namespace Sys2Proof.Machine

/-- A result in p[D], in the lanes of the fragment. -/
def predResult (i : Instr) (s : State) (f : State → LaneMask) : Out :=
  guarded i s (fun s => .next (finish (writeP s 0 s.ir.d.toNat s.mask (f s))))

/-- A result in s[D] from p[A] in the lanes of the fragment. -/
def predScalar (i : Instr) (s : State) (f : LaneMask → Word) : Out :=
  guarded i s (fun s => .next (finish (writeS s 0 s.ir.d.toNat (f (readP s s.ir.a.toNat &&& s.mask)))))

/-- PAND, R108. -/
def execPand (s : State) : Out := predResult .pand s (fun s => readP s s.ir.a.toNat &&& readP s s.ir.b.toNat)
/-- POR, R108. -/
def execPor (s : State) : Out := predResult .por s (fun s => readP s s.ir.a.toNat ||| readP s s.ir.b.toNat)
/-- PXOR, R108. -/
def execPxor (s : State) : Out := predResult .pxor s (fun s => readP s s.ir.a.toNat ^^^ readP s s.ir.b.toNat)
/-- PANDN, R108. -/
def execPandn (s : State) : Out := predResult .pandn s (fun s => readP s s.ir.a.toNat &&& ~~~ readP s s.ir.b.toNat)
/-- PNOT, R108. -/
def execPnot (s : State) : Out := predResult .pnot s (fun s => ~~~ readP s s.ir.a.toNat)
/-- PMOV, R108. -/
def execPmov (s : State) : Out := predResult .pmov s (fun s => readP s s.ir.a.toNat)
/-- PSET, R108. -/
def execPset (s : State) : Out := predResult .pset s (fun s => (operandB s).setWidth 32)
/-- PSET with a literal B. -/
def execPsetLit (s : State) : Out := predResult .psetLit s (fun s => (operandB s).setWidth 32)
/-- PGET, R108. -/
def execPget (s : State) : Out := predScalar .pget s (fun m => m.setWidth 64)
/-- PCNT, R108. -/
def execPcnt (s : State) : Out := predScalar .pcnt s (fun m => word (laneCount m))
/-- PFIRST, R108. -/
def execPfirst (s : State) : Out := predScalar .pfirst s (fun m => word (lowestLane m))

end Sys2Proof.Machine
end

