-- ==== Sys2Proof/Machine/Reorder.lean ====
section
/-! DEFINITION. REORD, the reordering of lanes over the waves of a crew (R313, R314). -/

namespace Sys2Proof.Machine

/-- A member's arrival: its thread, A, the register mask, the members. -/
abbrev Arrival := Nat × Nat × Nat × Nat

/-- The trap of a REORD at issue (R363). -/
def reordTrap (s : State) (mask m : Nat) : Option (Nat × Nat) :=
  let t := s.curT
  if (s.threadsOf s.curWk).length != 1 || !t.joins.isEmpty then some (0x01, 10)
  else if !bitAt m (widOf s.curWk) || 2 ^ s.curC.nwaves ≤ m then some (0x30, 4)
  else if 2 ^ s.curC.vallot ≤ mask then some (0x03, 2)
  else none

/-- A wave's counters are 0 and its fixed-latency writes have landed. -/
def quietWave (s : State) (wk : Nat) : Bool :=
  (upTo 6).all (fun p => (s.wave wk).counter p == 0) && (s.wave wk).late.all (fun l => l.landAt ≤ s.clock)

/-- The arrivals of the set that a REORD names, by `WID`. -/
def arrivalsOf (c : Crew) (m : Nat) : List Arrival := sortBy (fun (x : Arrival) => [x.1]) (c.reord.filter (fun x => x.2.2.2 == m))

/-- Every member that has not ended has arrived and is quiet. -/
def rendezvousReady (s : State) (ck m : Nat) : Bool :=
  let xs := arrivalsOf (s.crew ck) m
  (upTo 32).all (fun w =>
    let wk := 64 * ck + w
    !bitAt m w || !thas s.waves wk || (s.wave wk).ended || (xs.any (fun x => waveOf x.1 == wk) && quietWave s wk))

/-- What a lane carries from its position: the named registers, p1 to p31, and LID. -/
structure LaneLoad where
  vs : List Word
  ps : List Bool
  lid : Word
  deriving DecidableEq, Repr

/-- The registers that a mask names. -/
def namedRegs (mask : Nat) : List Nat := (upTo 64).filter (fun j => bitAt mask j)

/-- The load of a lane. -/
def laneLoad (s : State) (mask wk L : Nat) : LaneLoad :=
  let w := s.wave wk
  ⟨(namedRegs mask).map (fun j => w.vreg j L), (upTo 31).map (fun k => (w.preg (k + 1)).getLsbD L), lidOf w wk L⟩

/-- Put a load into a position. -/
def putLoad (s : State) (mask wk L : Nat) (x : LaneLoad) : State :=
  s.modWave wk (fun w =>
    let w := (upTo x.vs.length).foldl (fun w i => w.setV ((namedRegs mask).getD i 0) L (x.vs.getD i 0)) w
    let w := (upTo 31).foldl (fun w k => w.setP (k + 1) (1#32 <<< L) (if x.ps.getD k false then BitVec.allOnes 32 else 0)) w
    { w with lid := tput w.lid L x.lid })

/-- Move the lanes of the members (R314): sorted by key, stable in position order. -/
def moveLanes (s : State) (a mask : Nat) (xs : List Arrival) : State :=
  let ps := xs.flatMap (fun x => (lanesOf (s.thread x.1).mask).map (fun L => (waveOf x.1, L)))
  let keyed := (upTo ps.length).map (fun i => let p := ps.getD i (0, 0); (elem 32 0 ((s.wave p.1).vreg a p.2), i))
  let order := (sortBy (fun (k : Nat × Nat) => [k.1, k.2]) keyed).map (·.2)
  let loads := order.map (fun i => let p := ps.getD i (0, 0); laneLoad s mask p.1 p.2)
  (upTo ps.length).foldl (fun s i => let p := ps.getD i (0, 0); putLoad s mask p.1 p.2 (loads.getD i ⟨[], [], 0⟩)) s

/-- The CREW release of a member's arrival (R181, R313), once every access that its wave issued is performed. The argument of its hold says
that it is done. -/
def releaseArrival (s : State) (t : Nat) : State :=
  match (s.thread t).hold with
  | some h =>
    if h.arg != 0 || !performedAll s (waveOf t) then s
    else
      let u := crewRelease { s with cur := t }
      { u.modThread t (fun x => { x with hold := some { h with arg := 1 } }) with cur := s.cur }
  | none => s

/-- The rendezvous (R313): every member leaves with the largest `PTS` of the members, an acquire. Where the members disagree, no lane moves and
each traps; else the lanes move. -/
def rendezvous (s : State) (ck m : Nat) : State :=
  let xs := arrivalsOf (s.crew ck) m
  let s := s.modCrew ck (fun c => { c with reord := c.reord.filter (fun x => x.2.2.2 != m) })
  match xs with
  | [] => s
  | x :: _ =>
    let (a, mask) := (x.2.1, x.2.2.1)
    let s := xs.foldl (fun s y => releaseArrival s y.1) s
    let pts := xs.foldl (fun p y => max p (s.wave (waveOf y.1)).pts) (s.crew ck).relMark
    let s := xs.foldl (fun s y => raisePts s (waveOf y.1) pts) s
    if xs.any (fun y => y.2.1 != a || y.2.2.1 != mask) then
      let detail := if xs.any (fun y => y.2.1 != a) then 1 else 2
      xs.foldl (fun s y => takeTrapOf s y.1 0x30 detail 0 0 false) s
    else xs.foldl (fun s y => finish (resumed s y.1)) (moveLanes s a mask xs)

/-- REORD, R313, R314: the member arrives; the last one completes the rendezvous for all. -/
def execReord (s : State) : Out :=
  guarded .reord s (fun s =>
    let m := s.ir.imm.toNat
    let mask := (operandB s).toNat
    let ck := s.curCk
    match s.curT.hold, reordTrap s mask m with
    | none, some (code, d) => trap s code d
    | _, _ =>
      let s := if s.curT.hold.isSome then s else
        holdAt (s.modCrew ck (fun c => { c with reord := c.reord ++ [(s.cur, s.ir.a.toNat, mask, m)] })) .reord
      let s := releaseArrival s s.cur
      .next (if rendezvousReady s ck m then rendezvous s ck m else s))

end Sys2Proof.Machine
end

