-- ==== Sys2Proof/Machine/Security.lean ====
section
/-! DEFINITION. Firmware images (R353), attestation by SPDM (R354), and the scale-out network (R350). What SPDM's own specification fixes is
kept to what R354 says of the answers; an answer is a list of numbers (log 40). -/

namespace Sys2Proof.Machine

/-! ### Firmware and attestation -/

/-- FIRMWARE_IMAGE_VERIFY, R353: an image (`subject`: 1 XD, 2 a die, 3 a base die) with its content and signature runs only when the
signature verifies; else the prior image stays. -/
def execFirmwareImageVerify (s : State) : Out :=
  if Config.signatureValid s.ev.arg1 s.ev.arg2 then
    .next { s with xd := { s.xd with images := tput s.xd.images s.ev.subject s.ev.arg1 } }
  else .next s

/-- Function 0 answers an SPDM request: the answer, and the transcript with the request and the answer in it. -/
def spdm (s : State) (request : List Nat) (answer : List Nat) : State :=
  { s with xd := { s.xd with
      spdmAnswer := answer, transcript := (request ++ answer).foldl (fun t x => (t * 2 ^ 512 + x) % 2 ^ 4096) s.xd.transcript } }

/-- GET_VERSION, R354: 1.2 and 1.3; a new exchange begins. -/
def execGetVersion (s : State) : Out :=
  .next (spdm { s with xd := { s.xd with transcript := 0, spdmReady := false, spdmVersion := 0 } } [0x84] [0x12, 0x13])

/-- GET_CAPABILITIES, R354: of version `subject`, 0x12 or 0x13; the flags are the part's own. -/
def execGetCapabilities (s : State) : Out :=
  if s.ev.subject = 0x12 ∨ s.ev.subject = 0x13 then
    .next (spdm { s with xd := { s.xd with spdmVersion := s.ev.subject } } [0xE1, s.ev.subject] [Config.freeNat s.fresh 0])
  else .next (spdm s [0xE1, s.ev.subject] [])

/-- NEGOTIATE_ALGORITHMS, R354: from the requester's sets (`subject` asymmetric, `arg1` hash) function 0 selects EdDSA over Ed448 (bit 11) and
SHA3-512 (bit 5), the only ones it offers. -/
def execNegotiateAlgorithms (s : State) : Out :=
  let asym := if bitAt s.ev.subject 11 then 2 ^ 11 else 0
  let hash := if bitAt s.ev.arg1 5 then 2 ^ 5 else 0
  let s := { s with xd := { s.xd with spdmReady := asym != 0 && hash != 0 } }
  .next (spdm s [0xE3, s.ev.subject, s.ev.arg1] [asym, hash])

/-- The device certificate chain as one number. -/
def certificateNumber : Nat := (upTo Config.certificateLength).foldl (fun n i => 256 * n + (Config.certificateByte i).toNat) 1

/-- GET_DIGESTS, R354: the digest of the certificate chain. -/
def execGetDigests (s : State) : Out := .next (spdm s [0x81] [(Config.digest certificateNumber).toNat])

/-- GET_CERTIFICATE, R354: bytes of the chain from offset `subject`, at most `arg1`. -/
def execGetCertificate (s : State) : Out :=
  let n := min s.ev.arg1 (Config.certificateLength - s.ev.subject)
  .next (spdm s [0x82, s.ev.subject, s.ev.arg1] ((upTo n).map (fun i => (Config.certificateByte (s.ev.subject + i)).toNat)))

/-- The numbers of a list as one number. -/
def packNumbers (l : List Nat) : Nat := l.foldl (fun n x => n * 2 ^ 64 + x % 2 ^ 64) 1

/-- What a measurement index covers, as one number (R354): 1 to 3 the firmware images, 4 the partition map, 5 a partition's dies, their
incarnations and the digest of their tables' bases. -/
def measured (s : State) (index partition : Nat) : Nat :=
  if index ≤ 3 then tget 0 s.xd.images index
  else if index = 4 then packNumbers (s.xd.partitions.flatMap (fun e => [e.1, e.2.1, e.2.2.1]))
  else
    let ds := (upTo 12).filter (fun d => (s.die d).partition == some partition)
    packNumbers (ds.flatMap (fun d =>
      [d, (s.die d).incarnation, (Config.digest (packNumbers ((s.die d).asids.map (fun a => a.2.base)))).toNat]))

/-- GET_MEASUREMENTS, R354: index 0 answers how many there are, 255 all of them, 1 to 5 one; `arg1` is the partition that asks. -/
def execGetMeasurements (s : State) : Out :=
  let i := s.ev.subject
  let block (k : Nat) : Nat := (Config.digest (measured s k s.ev.arg1)).toNat
  .next (spdm s [0xE0, i] (if i = 0 then [5] else if i = 255 then [block 1, block 2, block 3, block 4, block 5] else if i ≤ 5 then [block i] else []))

/-- CHALLENGE, R354: a signature over the exchange, with the requester's nonce `subject` and the digest of the chain. -/
def execChallenge (s : State) : Out :=
  let d := (Config.digest certificateNumber).toNat
  let u := spdm s [0x83, s.ev.subject] [d]
  .next { u with xd := { u.xd with spdmAnswer := [d, Config.sign u.xd.transcript] } }

/-! ### The network (R350) -/

/-- The exported object that an id names on a die, when it is of the ASID that the connection was opened to and permits what the request needs (R332,
R350): bit 62 reads, bit 61 writes. -/
def exportedObject (s : State) (die asid id bit : Nat) : Option (Nat × Nat) :=
  let (w0, w1) := exportOf s die id
  if bitAt w0 63 && bitAt w0 bit && bits w1 48 16 == bits id 16 16 && bits w0 32 13 == asid then some (bits w0 32 13, bits w0 0 32) else none

/-- Why a request does not go on: it cannot be carried out, or an access of the transport at a die is stopped. -/
abbrev NetStop := Option (Nat × Stop)

/-- Read bytes of an object of a die in the name of the transport. -/
def transportRead (s : State) (die asid obj off n p : Nat) : Except NetStop (State × List Byte × Nat) :=
  match readVia (objReach die asid obj) s die off n p { rights := rightR } with
  | .error st => .error (some (die, st))
  | .ok r => .ok r

/-- Write bytes of an object of a die in the name of the transport: tags are cleared (R142). -/
def transportWrite (s : State) (die asid obj off : Nat) (bs : List Byte) (p : Nat) : Except NetStop (State × Nat) :=
  match writeVia (objReach die asid obj) s die off bs p { rights := rightW, write := true } with
  | .error st => .error (some (die, st))
  | .ok r => .ok r

/-- Move the bytes of a request of a die (R350): from the local object through an export with PW, or through one with PR to the local object. The
bytes of another module are free values (log 121). -/
def moveBytes (s : State) (die : Nat) (w : NetWork) : Except NetStop (State × Nat) :=
  let q := w.request
  if q.coff % 8 ≠ 0 ∨ 2 ^ 32 < q.len then .error none
  else
    match tfind? s.xd.connections q.conn, w.put with
    | none, _ => .error none
    | some (0, d, remote), true =>
      (match exportedObject s d remote q.rexp.toNat 61, transportRead s die q.asid q.lobj q.loff q.len w.pts with
       | none, _ => .error none
       | _, .error e => .error e
       | some (asid, obj), .ok (s, bs, p) => transportWrite s d asid obj q.roff bs p)
    | some (0, d, remote), false =>
      (match (exportedObject s d remote q.rexp.toNat 62).map (fun x => transportRead s d x.1 x.2 q.roff q.len w.pts) with
       | none => .error none
       | some (.error e) => .error e
       | some (.ok (s, bs, p)) => transportWrite s die q.asid q.lobj q.loff bs p)
    | some _, true =>
      (match transportRead s die q.asid q.lobj q.loff q.len w.pts with
       | .error e => .error e
       | .ok (s, _, p) => .ok (s, p))
    | some _, false => transportWrite s die q.asid q.lobj q.loff ((upTo q.len).map (fun i => BitVec.ofNat 8 (Config.freeNat s.fresh i))) w.pts

/-- On completion 1 is added atomically to the local completion word, with a SYSTEM release (R350). -/
def countCompletion (s : State) (die : Nat) (q : NetRequest) (p : Nat) : Except NetStop State :=
  match frontAtomic (objReach die q.asid q.cobj) s die (2 ^ 60 + q.conn) q.coff 8 (p + 1)
      { rights := rightW + rightA, align := 8, write := true, atomic := true } 0 1 with
  | .error st => .error (some (die, st))
  | .ok (s, _, _) => .ok s

/-- Go on with a request: what is left of it. One that cannot be carried out ends without completing (log 121). -/
def runRequest (s : State) (die : Nat) (w : NetWork) : Except Fault (State × Option NetWork) :=
  let stopped (s : State) (w : NetWork) (e : NetStop) : Except Fault (State × Option NetWork) :=
    match e with
    | none => .ok (s, none)
    | some (d, st) =>
      match frontStop s d st with
      | .error f => .error f
      | .ok (s, none) => .ok (s, some w)
      | .ok (s, some _) => .ok (s, none)
  let count (s : State) (w : NetWork) : Except Fault (State × Option NetWork) :=
    match countCompletion s die w.request w.pts with
    | .error e => stopped s w e
    | .ok s => .ok (s, none)
  if w.moved then count s w
  else
    match moveBytes s die w with
    | .error e => stopped s w e
    | .ok (s, p) => count s { w with pts := p, moved := true }

/-- Go on with the first request of a connection: the requests of one connection complete in order (R350). -/
def runConnection (s : State) (die conn : Nat) : Out :=
  match (s.die die).netWork.find? (fun w => w.request.conn == conn) with
  | none => .next s
  | some w =>
    match runRequest s die w with
    | .error f => .fault f
    | .ok (s, r) =>
      .next (s.modDie die (fun d =>
        let i := d.netWork.findIdx (· == w)
        { d with netWork := match r with | none => d.netWork.eraseIdx i | some w => d.netWork.set i w }))

/-- The row and the fields of a request of 64 bytes in the ring of an ASID (R350). DESIGN CHOICE: one with a reserved OP, a reserved field that is not
0, or a connection above 4,095 names no connection, so that it ends without effect (log 121). -/
def requestOf (die asid : Nat) (b : List Byte) : Instr × EventArgs :=
  let op := field b 0 1
  let ok := (op == 1 || op == 2) && field b 1 1 == 0 && field b 0x14 4 == 0 && field b 0x2C 4 == 0 && field b 0x38 8 == 0 && field b 2 2 < 4096
  (if op = 2 then .networkGet else .networkPut, { subject := die, arg1 := 1, net := {
    conn := if ok then field b 2 2 else 4096, asid := asid, lobj := field b 4 4, loff := field b 8 8, rexp := BitVec.ofNat 32 (field b 0x10 4)
    roff := field b 0x18 8, len := field b 0x20 8, cobj := field b 0x28 4, coff := field b 0x30 8 } })

/-- The transport takes the request at HEAD of an ASID's ring: HEAD + 1 is stored (R253, R350); its bytes and the time of the read, none while there is
none. -/
def takeRequest (s : State) (die asid : Nat) : Except Stop (State × Option (List Byte × Nat)) :=
  match tfind? (s.die die).netRings asid with
  | none => .ok (s, none)
  | some r =>
    match readRing (physReach die asid r.ring) s die r.n r.head with
    | .error st => .error st
    | .ok (s, none) => .ok (s, none)
    | .ok (s, some b) =>
      match advanceRing (physReach die asid r.ring) s die r.head with
      | .error st => .error st
      | .ok s => .ok (s.modDie die (fun d => { d with netRings := tput d.netRings asid { r with head := (r.head + 1) % 2 ^ 64 } }), some b)

/-- Start a request at a time, and go on with the first of its connection. -/
def startRequest (s : State) (die : Nat) (put : Bool) (q : NetRequest) (p : Nat) : Out :=
  runConnection (s.modDie die (fun d => { d with netWork := d.netWork ++ [{ put := put, request := q, pts := p }] })) die q.conn

/-- A request of the event's die: where `arg1` is 1, the one at HEAD of its ASID's ring, whichever it is; with `arg1` 2 none is started; else the event's
own. The first of its connection goes on (R350). -/
def transport (s : State) (put : Bool) : Out :=
  let die := s.ev.subject
  let q := s.ev.net
  if 12 ≤ die then .next s
  else if s.ev.arg1 = 2 then runConnection s die q.conn
  else if s.ev.arg1 != 1 then startRequest s die put q (hostTime s)
  else
    match takeRequest s die q.asid with
    | .error st => (match frontStop s die st with | .error f => .fault f | .ok (s, _) => .next s)
    | .ok (s, none) => .next s
    | .ok (s, some (b, p)) =>
      let (i, a) := requestOf die q.asid b
      startRequest s die (i == .networkPut) a.net p

/-- NETWORK_PUT, R350: the bytes are written at the remote die through the exported object, which needs PW, before the request completes. -/
def execNetworkPut (s : State) : Out := transport s true

/-- NETWORK_GET, R350: the bytes come from the remote die, through an export with PR; those of another module are not known. -/
def execNetworkGet (s : State) : Out := transport s false

/-- The requests that a die's transport reads next, ring by ring, and the connections whose first request has not completed. A ring whose read
is stopped is read again by a request that names no connection. -/
def networkEvents (s : State) (die : Nat) : List (Instr × EventArgs) :=
  (s.die die).netRings.filterMap (fun e =>
    match readRing (physReach die e.1 e.2.ring) s die e.2.n e.2.head with
    | .ok (_, none) => none
    | .ok (_, some (b, _)) => some (requestOf die e.1 b)
    | .error _ => some (requestOf die e.1 [])) ++
  (((s.die die).netWork.map (·.request.conn)).eraseDups).map (fun c =>
    (.networkPut, { subject := die, arg1 := 2, net := ⟨c, 0, 0, 0, 0, 0, 0, 0, 0⟩ }))

end Sys2Proof.Machine
end

