-- ==== Sys2Proof/Machine/Sequencer.lean ====
section
/-! DEFINITION. Dealing and melding the sequencers MX and CP of a core (R201 to R204). -/

namespace Sys2Proof.Machine

/-- The wave key of a sequencer of the current crew: 0 MX, 1 CP. -/
def sequencerWave (s : State) (k : Nat) : Nat := 64 * s.curCk + 32 + k

/-- A sequencer is idle. -/
def sequencerIdle (s : State) (wk : Nat) : Bool := (s.thread (32 * wk)).state == .idle

/-- Every fixed-latency write of the current fragment has landed (R202). -/
def landed (s : State) : Bool := s.curW.late.all (fun l => !(l.thread == s.cur && s.clock < l.landAt))

/-- What an earlier program of a sequencer has left under way counts in its counters no more (R202): accesses, and the commands that would lower
them. -/
def forgetAccesses (s : State) (wk : Nat) : State :=
  let s := { s with accesses := s.accesses.filter (fun e => e.2.wave != wk) }
  s.modCrew (crewOf wk) (fun c => { c with
    commands := c.commands.map (fun e => if e.2.agents.contains wk then (e.1, { e.2 with access := none }) else e) })

/-- Start a sequencer at an address with the fragment's registers (R202). -/
def startSequencer (s : State) (wk : Nat) (pc : Word) : State :=
  let t := s.curT
  let s := (forgetAccesses s wk).modWave wk (fun w => { w with pts := s.curW.pts, late := [], counters := [] })
  s.putThread (32 * wk) { state := .live, pc := pc, s := t.s, c := t.c, age := s.clock, last := s.clock, readyAt := s.clock + 1, dealer := s.curWk }

/-- Another `DEAL` of the same sequencer of the crew stands before the current one (R204): held since an earlier cycle, or in the same cycle on a
lower wave slot. DESIGN CHOICE: one whose wave is parked, that traps, or that stands behind a trap handler keeps none waiting (log 148). -/
def dealAhead (s : State) (k : Nat) : Bool :=
  let since := match s.curT.hold with | some h => h.since | none => s.clock
  let slot (t : Nat) : Nat := slotOf (widOf (waveOf t))
  s.threads.any (fun e => crewOf (waveOf e.1) == s.curCk && e.1 != s.cur && e.2.state == .live && e.2.trap.isNone && !(s.wave (waveOf e.1)).parked &&
    (match (s.wave (waveOf e.1)).handler with | some h => h == e.1 | none => true) &&
    (match e.2.hold with
     | some h => h.op == .deal && h.f.mod.toNat % 2 == k && (decide (h.since < since) || (h.since == since && decide (slot e.1 < slot s.cur)))
     | none => false))

/-- DEAL, R202: a target that is no multiple of 4 traps ILLEGAL 8; it waits for the sequencer to be idle, releases at CREW scope, and
starts it. -/
def execDeal (s : State) : Out :=
  guarded .deal s (fun s =>
    let wk := sequencerWave s (s.ir.mod.toNat % 2)
    if !aligned4 (target s) then illegal s 8
    else waitFor .deal s (sequencerIdle s wk && !dealAhead s (s.ir.mod.toNat % 2) && landed s && performedAll s s.curWk) (fun s =>
      startSequencer (crewRelease s) wk (target s)))

/-- MELD, R203: it waits for every named sequencer to be idle, acquires at CREW scope, and takes their final `PTS`. -/
def execMeld (s : State) : Out :=
  guarded .meld s (fun s =>
    let named := (upTo 2).filter (fun k => s.ir.mod.getLsbD k)
    waitFor .meld s (named.all (fun k => sequencerIdle s (sequencerWave s k))) (fun s =>
      named.foldl (fun s k => raisePts s s.curWk (s.wave (sequencerWave s k)).pts) (crewAcquire s)))

end Sys2Proof.Machine
end

