-- ==== Sys2Proof/Machine/Special.lean ====
section
/-! DEFINITION. The special functions of class 0x64 (R130, R131). Each is a fixed function of its operand: `Config.special` proposes
the result, and the proposal stands where it lies within the accuracy that R130 states; elsewhere the result is the value computed
here in fixed point, rounded to nearest (log 20). The exact cases and the special results of R130 are given by themselves. -/

namespace Sys2Proof.Machine

/-- Fraction bits of the fixed-point computations. -/
def fixBits : Nat := 96

/-- ln 2 in fixed point. -/
def fixLn2 : Nat := 54916777467707473351141471128

/-- pi in fixed point. -/
def fixPi : Nat := 248902613312231085230521944622

/-- Product of two fixed-point numbers. -/
def fixMul (a b : Int) : Int := a * b / (2 ^ fixBits : Nat)

/-- Quotient of two fixed-point numbers. -/
def fixDiv (a b : Int) : Int := a * (2 ^ fixBits : Nat) / b

/-- sum of x^k / k! from k = `k` on, with the term before given. -/
def expSeries : Nat → Int → Nat → Int → Int
  | 0, _, _, _ => 0
  | fuel + 1, x, k, term =>
    let next := fixMul term x / (k : Int)
    term + expSeries fuel x (k + 1) next

/-- 2^f for a fixed-point f in [0, 1). -/
def fixExp2 (f : Int) : Int := expSeries 34 (fixMul f fixLn2) 1 (2 ^ fixBits : Nat)

/-- z + z^3/3 + z^5/5 + ...: the power so far is `p`. -/
def atanhSeries : Nat → Int → Nat → Int → Int
  | 0, _, _, _ => 0
  | fuel + 1, z2, k, p => p / (k : Int) + atanhSeries fuel z2 (k + 2) (fixMul p z2)

/-- log2 of a fixed-point m in [1, 2). -/
def fixLog2 (m : Int) : Int :=
  let one : Int := (2 ^ fixBits : Nat)
  let z := fixDiv (m - one) (m + one)
  fixDiv (2 * atanhSeries 34 (fixMul z z) 1 z) fixLn2

/-- The alternating series of sine or cosine from the term `t` = x^k / k!. -/
def trigSeries : Nat → Int → Nat → Int → Int
  | 0, _, _, _ => 0
  | fuel + 1, x2, k, t => t - trigSeries fuel x2 (k + 2) (fixMul t x2 / ((k + 1 : Int) * (k + 2)))

/-- sin(pi r) for a fixed-point r in [0, 1/2]. -/
def fixSinPi (r : Int) : Int := let x := fixMul r fixPi; trigSeries 20 (fixMul x x) 1 x

/-- A finite value in fixed point, cut toward minus infinity. -/
def toFix (neg : Bool) (m : Nat) (e : Int) : Int :=
  let s := e + fixBits
  let k : Int := if 0 ≤ s then m * 2 ^ s.toNat else m / 2 ^ (-s).toNat
  if neg then -k else k

/-- A fixed-point number as a value times 2^n. -/
def ofFix (x n : Int) : FVal := .fin (decide (x < 0)) x.natAbs (n - fixBits)

/-- What a special function gives: an exact or special result, or an approximation with the bound on its error (R130): the spacing of
F32 at the result (`none`), or an absolute bound in units of 2^-22. -/
inductive SpecialResult where
  | exact (v : FVal)
  | near (v : FVal) (absolute : Bool)
  deriving DecidableEq, Repr

/-- 2^x. -/
def specialEx2 : FVal → SpecialResult
  | .inf neg => .exact (if neg then .fin false 0 0 else .inf false)
  | .fin neg m e =>
    if m = 0 then .exact (.fin false 1 0)
    else if 8 ≤ (Nat.log2 m : Int) + e then .exact (if neg then .fin false 1 (-400) else .inf false)
    else
      let x := toFix neg m e
      let n := x / (2 ^ fixBits : Nat)
      let f := x % (2 ^ fixBits : Nat)
      if f = 0 ∧ 0 ≤ e + fixBits then .exact (.fin false 1 n) else .near (ofFix (fixExp2 f) n) false
  | v => .exact v

/-- log2 x. -/
def specialLg2 : FVal → SpecialResult
  | .inf neg => .exact (if neg then defaultNan else .inf false)
  | .fin neg m e =>
    if m = 0 then .exact (.inf true)
    else if neg then .exact defaultNan
    else
      let l := Nat.log2 m
      let n : Int := l + e
      if m = 2 ^ l then .exact (.fin (decide (n < 0)) n.natAbs 0)
      else
        let y := n * (2 ^ fixBits : Nat) + fixLog2 (toFix false m (-l))
        let half := n = -1 ∨ n = 0
        .near (ofFix y 0) half
  | v => .exact v

/-- 1 / x. -/
def specialRcp : FVal → SpecialResult
  | .inf neg => .exact (.fin neg 0 0)
  | .fin neg m e =>
    if m = 0 then .exact (.inf neg)
    else
      let l := Nat.log2 m
      if m = 2 ^ l then .exact (.fin neg 1 (-(l + e)))
      else .near (.fin neg (2 ^ (l + fixBits) / m) (-(l + fixBits : Int) - e)) false
  | v => .exact v

/-- 1 / sqrt x. -/
def specialRsq : FVal → SpecialResult
  | .inf neg => .exact (if neg then defaultNan else .fin false 0 0)
  | .fin neg m e =>
    if m = 0 then .exact (.inf neg)
    else if neg then .exact defaultNan
    else
      let l := Nat.log2 m
      let n : Int := l + e
      if m = 2 ^ l ∧ n % 2 = 0 then .exact (.fin false 1 (-(n / 2)))
      else
        let (m, e) := if e % 2 = 0 then (m, e) else (2 * m, e - 1)
        .near (.fin false (isqrt (2 ^ (2 * fixBits + 2 * l) / m)) (-(fixBits + l : Int) - e / 2)) false
  | v => .exact v

/-- sin(pi x) of a finite x that is no multiple of 1/2, as sign and fixed-point r in (0, 1/2) with sin(pi r) the magnitude. -/
def sinReduce (x : Int) : Bool × Int :=
  let one : Int := (2 ^ fixBits : Nat)
  let y := x % (2 * one)
  let (neg, y) := if one ≤ y then (true, y - one) else (false, y)
  (neg, if one / 2 < y then one - y else y)

/-- sin(pi x). -/
def specialSin : FVal → SpecialResult
  | .inf _ => .exact defaultNan
  | .fin neg m e =>
    if m = 0 ∨ 0 ≤ e then .exact (.fin neg 0 0)
    else
      let k := m * 2 % 2 ^ (-e).toNat
      let h := m * 2 / 2 ^ (-e).toNat
      if k = 0 then .exact (if h % 2 = 0 then .fin neg 0 0 else .fin (neg != (h % 4 == 3)) 1 0)
      else
        let (n, r) := sinReduce (toFix false m e)
        .near (ofFix (if n != neg then -(fixSinPi r) else fixSinPi r) 0) true
  | v => .exact v

/-- cos(pi x) = sin(pi (x + 1/2)). -/
def specialCos : FVal → SpecialResult
  | .inf _ => .exact defaultNan
  | .fin _ m e =>
    if m = 0 then .exact (.fin false 1 0)
    else if 0 ≤ e then .exact (.fin (bitAt (m * 2 ^ (min e 1).toNat) 0) 1 0)
    else
      let k := m * 2 % 2 ^ (-e).toNat
      let h := m * 2 / 2 ^ (-e).toNat
      if k = 0 then .exact (if h % 2 = 1 then .fin false 0 0 else .fin (h % 4 == 2) 1 0)
      else
        let (n, r) := sinReduce (toFix false m e + (2 ^ (fixBits - 1) : Nat))
        .near (ofFix (if n then -(fixSinPi r) else fixSinPi r) 0) true
  | v => .exact v

/-- tanh x. -/
def specialTanh : FVal → SpecialResult
  | .inf neg => .exact (.fin neg 1 0)
  | .fin neg m e =>
    if m = 0 then .exact (.fin neg 0 0)
    else if !lessV (.fin false m e) (.fin false 9 0) then .exact (.fin neg 1 0)
    else
      let one : Int := (2 ^ fixBits : Nat)
      let y := fixDiv (2 * toFix false m e) fixLn2
      let n := y / one
      let f := y % one
      let ex := one * one / (fixExp2 f * (2 ^ n.toNat : Nat))
      let r := fixDiv (one - ex) (one + ex)
      .near (ofFix (if neg then -r else r) 0) true
  | v => .exact v

/-- The special function of an FN of class 0x64. -/
def specialOf (fn : Nat) (v : FVal) : SpecialResult :=
  match fn with
  | 0 => specialEx2 v
  | 1 => specialLg2 v
  | 2 => specialRcp v
  | 3 => specialRsq v
  | 4 => specialSin v
  | 5 => specialCos v
  | _ => specialTanh v

/-- The spacing of F32 at a value. -/
def ulp32 : FVal → FVal
  | .fin _ m e => if m = 0 then .fin false 1 (-149) else .fin false 1 (max ((Nat.log2 m : Int) + e - 23) (-149))
  | _ => .fin false 1 (-149)

/-- The F32 result of a special function on F32 bits. -/
def special32 (fn x : Nat) : Nat :=
  match specialOf fn (decodeF 10 x) with
  | .exact v => roundF 10 0 false v
  | .near v absolute =>
    let c := Config.special fn x % 2 ^ 32
    let own := roundF 10 0 false v
    let room := mulV (if absolute then .fin false 1 (-22) else ulp32 v) (.fin false (2 ^ 20 - 1) (-20))
    match decodeF 10 c, decodeF 10 own with
    | .fin n m e, .fin _ _ _ =>
      if lessV room (addV 0 (.fin n m e) v.negate).magnitude then own else c
    | _, _ => own

/-- A special function in a type: F16 and BF16 are widened, and the F32 result is rounded to nearest (R130). -/
def specialIn (fn t x : Nat) : Nat :=
  if t = 10 then special32 fn x else convert 10 t 0 false (special32 fn (convert t 10 0 false x))

end Sys2Proof.Machine
end

