-- ==== Sys2Proof/Machine/SpecialOps.lean ====
section
/-! DEFINITION. The special-function instructions, class 0x64 (R130, R131). -/

namespace Sys2Proof.Machine

/-- A special function by its FN. -/
def specialOp (i : Instr) (fn : Nat) (s : State) : Out := vectorOp i s (fun s L k => specialIn fn (ty s) (elemA s L k))

/-- VEX2, R130. -/
def execVex2 (s : State) : Out := specialOp .vex2 0 s
/-- VLG2, R130. -/
def execVlg2 (s : State) : Out := specialOp .vlg2 1 s
/-- VRCP, R130. -/
def execVrcp (s : State) : Out := specialOp .vrcp 2 s
/-- VRSQ, R130. -/
def execVrsq (s : State) : Out := specialOp .vrsq 3 s
/-- VSIN, R130. -/
def execVsin (s : State) : Out := specialOp .vsin 4 s
/-- VCOS, R130. -/
def execVcos (s : State) : Out := specialOp .vcos 5 s
/-- VTANH, R130. -/
def execVtanh (s : State) : Out := specialOp .vtanh 6 s

end Sys2Proof.Machine
end

