-- ==== Sys2Proof/Machine/Stages.lean ====
section
/-! DEFINITION. The pipeline instructions, class 0x6E (R263 to R268, R277 to R279, R363). -/

namespace Sys2Proof.Machine

/-- n of QPUT and QTAKE. -/
def queueWords (s : State) : Nat := s.ir.imm.toNat % 32 + 1

/-- The stage instance of the current wave (R263). -/
def curStage (s : State) : Nat := s.curC.stage.getD 0

/-- The record of a lane: byte 8j + b is byte b of v[A + j] (R264). -/
def laneRecord (s : State) (n L : Nat) : List Byte :=
  (upTo n).flatMap (fun j => bytesOf 8 (readV s 64 (s.ir.a.toNat + j) L).toNat)

/-- Advance a DROP cursor past the oldest records up to a sequence number, gathering them in its gap (R279). -/
def passRecords (x : Instance) (upTo' : Nat) (c : Cursor) : Cursor :=
  if !c.drop || upTo' ≤ c.next then c
  else
    let frame := x.records.any (fun r => c.next ≤ r.seq && r.seq < upTo' && r.frame)
    let gap := match c.gap with
      | some (n, first, f) => (n + (upTo' - c.next), first, f || frame)
      | none => (upTo' - c.next, c.next, frame)
    { c with next := upTo', gap := some gap }

/-- The first sequence number from which records must be kept so that `k` slots are free. -/
def keepFrom (x : Instance) (k : Nat) : Nat := x.nextSeq + k - x.qcap

/-- Room for `k` records can be made: every HOLD cursor has passed what must go (R278, R279). -/
def roomFor (x : Instance) (k : Nat) : Bool := k ≤ x.qcap && x.cursors.all (fun c => c.2.drop || keepFrom x k ≤ c.2.next)

/-- Append records in one step (R264): DROP cursors make room, and cursors that wait for a frame marker skip what comes before it
(R276). DESIGN CHOICE: a DROP cursor passes no record while the QPUT still waits for a HOLD cursor (log 158). -/
def appendRecords (x : Instance) (recs : List (List Byte)) (frame : Bool) (pts : Nat) : Instance :=
  let from' := keepFrom x recs.length
  let cursors := x.cursors.map (fun c => (c.1, passRecords x from' c.2))
  let new := (upTo recs.length).map (fun i => (⟨x.nextSeq + i, frame && i == 0, recs.getD i [], pts⟩ : QRecord))
  let next := x.nextSeq + recs.length
  let cursors := cursors.map (fun c =>
    (c.1, if c.2.waitFrame && !recs.isEmpty then
        (if frame then { c.2 with waitFrame := false, next := x.nextSeq } else { c.2 with next := next })
      else c.2))
  prune { x with records := x.records ++ new, nextSeq := next, cursors := cursors }

/-- When the release of the current QPUT ended, plus 1: now, or as it was noted in its hold. -/
def releasedAt (s : State) : Nat := match s.curT.hold with | some h => if h.arg = 0 then s.clock + 1 else h.arg | none => s.clock + 1

/-- Another QPUT has reached the queue before the current one: its release ended before, and it waits for room (R264). -/
def putAhead (s : State) (i : Nat) : Bool :=
  let mine := releasedAt s
  s.threads.any (fun e => e.1 != s.cur && e.2.trap.isNone &&
    (match e.2.hold with | some h => h.op == .qput && h.arg != 0 && (decide (h.arg < mine) || (h.arg == mine && decide (e.1 < s.cur))) | none => false) &&
    (let c := s.crew (crewOf (waveOf e.1)); c.stage == some i && c.state == .running) && !(s.wave (waveOf e.1)).parked)

/-- Where the slots of an SP queue begin in the scratchpad of its pipeline's one crew (R258): downward from the top in stage order. DESIGN CHOICE: queues
that exceed the scratchpad wrap modulo 2^19 (log 155). -/
def spBase (s : State) (i : Nat) : Nat :=
  let path := (s.pipeline (s.instance' i).accountable).path
  let upto := path.takeWhile (· != i) ++ [i]
  wrap 19 (2 ^ 19 - ((upto.map s.instance').map (fun x => if x.qloc = 0 && !x.last then x.qcap * x.qsize else 0)).sum : Int)

/-- Where a record of an SP queue lies. -/
def spSlot (s : State) (i seq : Nat) : Nat := let x := s.instance' i; spBase s i + seq % max 1 x.qcap * x.qsize

/-- Records appended to an SP queue lie in the scratchpad (R258). -/
def storeRecords (s : State) (i : Nat) (recs : List (List Byte)) : State :=
  let x := s.instance' i
  if x.qloc != 0 then s
  else (upTo recs.length).foldl (fun s k => s.modCrew s.curCk (fun c => c.scratchWrite (spSlot s i (x.nextSeq + k)) (recs.getD k []))) s

/-- The bytes of a record of a queue: an SP queue's lie in the scratchpad. -/
def recordBytes (s : State) (i : Nat) (r : QRecord) : List Byte :=
  let x := s.instance' i
  if x.qloc = 0 then s.curC.scratchBytes (spSlot s i r.seq) x.qsize else r.bytes

/-- The release of a QPUT (R264), once: when the wave's earlier accesses are performed. -/
def putRelease (s : State) : State := match s.curT.hold with | some h => if h.arg = 0 then crewRelease s else s | none => crewRelease s

/-- QPUT, R264: a release at DIE scope, then room, then the append; one without lanes only releases, and a poisoned queue takes nothing (R379). -/
def execQput (s : State) : Out :=
  guarded .qput s (fun s =>
    let n := queueWords s
    let i := curStage s
    let x := s.instance' i
    let lanes := activeLanes s 64
    if x.last || 8 * n != x.qsize || x.qcap < lanes.length then arith s 4
    else if !performedAll s s.curWk then .next (holdAt s .qput)
    else if lanes.isEmpty then .next (finish (putRelease s))
    else if putAhead s i || !(x.poisoned || roomFor x lanes.length) then .next (holdWith (putRelease s) .qput (releasedAt s) [])
    else
      let s := putRelease s
      let rs := lanes.map (laneRecord s n)
      .next (finish (if x.poisoned then s
        else (storeRecords s i rs).putInstance i (appendRecords x rs (s.ir.imm.getLsbD 8) s.curW.pts))))

/-- A record as a reader receives it: its bytes, sequence number, frame marker and time. -/
abbrev Delivery := List Byte × Nat × Bool × Nat

/-- A pending gap as a record of a queue's record size (R279). -/
def gapRecord (size : Nat) (g : Nat × Nat × Bool) : Delivery :=
  let b := if size = 8 then bytesOf 4 (min g.1 (2 ^ 32 - 1)) ++ bytesOf 4 g.2.1
    else bytesOf 8 g.1 ++ bytesOf 8 g.2.1 ++ List.replicate (size - 16) 0
  (b, 2 ^ 63 + g.2.1, g.2.2, 0)

/-- The next `k` records of an input in order (R258, R265, R279), the pending gap first. -/
def takeRecords (s : State) (i k : Nat) : List Delivery :=
  let c := cursorOf s i
  let gap := match c.gap with | some g => [gapRecord (inputSize s i) g] | none => []
  let n := min (k - gap.length) (inputOccupancy s i)
  let real := match (s.instance' i).upstream with
    | none => (upTo n).map (fun j => (bytesOf 8 (c.next + j), c.next + j, c.next + j == 0, 0))
    | some u =>
      (((s.instance' u).records.filter (fun r => c.next ≤ r.seq && r.seq < c.next + n)).map (fun r => (recordBytes s u r, r.seq, r.frame, r.pts)))
  (gap ++ real).take k

/-- The cursor after `k` records were taken. -/
def advanceCursor (k : Nat) (c : Cursor) : Cursor :=
  { c with next := c.next + (k - if c.gap.isSome then 1 else 0), gap := if k = 0 then c.gap else none, taken := c.taken + k }

/-- The records that lanes of the current wave hold become done (R265, R266). -/
def doneLanesOf (s : State) (lanes : List Nat) : State :=
  let held := s.curW.records.filter (fun r => lanes.contains r.1)
  let s := held.foldl (fun s r => recordDone s r.2.1) s
  s.modWave s.curWk (fun w => { w with records := w.records.filter (fun r => !lanes.contains r.1) })

/-- Write what a QTAKE delivers to a lane: its registers, and with SQ the sequence number. -/
def deliver (s : State) (n : Nat) (sq : Bool) (L : Nat) (d : Delivery) : State :=
  let s := (upTo n).foldl (fun s j =>
    writeV s 0 (s.ir.d.toNat + j) L (BitVec.allOnes 64) (word (field d.1 (8 * j) 8))) s
  if sq then writeV s 0 (s.ir.d.toNat + n) L (BitVec.allOnes 64) (word d.2.1) else s

/-- The result of a QTAKE: status, predicates in the lanes of the fragment, and the delivered records with their acquire (R265). -/
def takeResult (s : State) (lanes : List Nat) (ds : List Delivery) (status : Nat) : State :=
  let i := curStage s
  let n := queueWords s
  let sq := s.ir.imm.getLsbD 16
  let q := bits s.ir.imm.toNat 8 5
  let got := lanes.take ds.length
  let s := (upTo ds.length).foldl (fun s m => deliver s n sq (lanes.getD m 0) (ds.getD m ([], 0, false, 0))) s
  let s := writeP s 0 q s.mask (maskOf got)
  let s := if sq then
      writeP s 0 (q + 1) s.mask (maskOf ((upTo ds.length).filterMap (fun m => if (ds.getD m ([], 0, false, 0)).2.2.1 then some (lanes.getD m 0) else none)))
    else s
  let s := raisePts s s.curWk (ds.foldl (fun m d => max m d.2.2.2) 0)
  let s := s.modWave s.curWk (fun w => { w with
    records := (upTo ds.length).foldl (fun t m => tput t (lanes.getD m 0) (i, (ds.getD m ([], 0, false, 0)).2.1)) w.records })
  writeS s 0 s.ir.c.toNat (word status)

/-- The order in which waiting QTAKEs are served (R265). -/
def takerOrder (s : State) (k : Nat) : List Nat :=
  [match (s.thread k).hold with | some h => h.since | none => s.clock, (s.crew (crewOf (waveOf k))).core, slotOf (widOf (waveOf k)), k]

/-- A waiting QTAKE can be served: its crew is on its core, and its wave is neither parked nor in a handler of another fragment. DESIGN CHOICE: the
others are passed over until they can be (log 161). -/
def mayTake (s : State) (k : Nat) : Bool :=
  let w := s.wave (waveOf k)
  (s.crew (crewOf (waveOf k))).state == .running && !w.parked && (match w.handler with | some h => h == k | none => true)

/-- The waiting QTAKE that is served first. -/
def firstTaker (s : State) (i : Nat) : Option Nat := minBy (takerOrder s) ((s.instance' i).takers.filter (mayTake s))

/-- Take records for the eligible lanes, or find the input exhausted (R265). -/
def completeTake (s : State) (lanes : List Nat) : State :=
  let i := curStage s
  let s := s.modInstance i (fun x => { x with takers := lerase s.cur x.takers })
  let k := min (inputAvailable s i) lanes.length
  let s :=
    if exhausted s i then takeResult s lanes [] (if inputPoisoned s i then 2 else 1)
    else
      let ds := takeRecords s i k
      let s := modCursor s i (advanceCursor k)
      let s := match (s.instance' i).upstream with | some u => s.modInstance u prune | none => s
      takeResult s lanes ds 0
  queueEnds s

/-- QTAKE, R265: the records that its eligible lanes hold are done when it issues; waiting QTAKEs are served in their order. -/
def execQtake (s : State) : Out :=
  guarded .qtake s (fun s =>
    let n := queueWords s
    let i := curStage s
    let sq := s.ir.imm.getLsbD 16
    let q := bits s.ir.imm.toNat 8 5
    let lanes := activeLanes s 64
    if 8 * n != inputSize s i || (sq && q == 31) then arith s 4
    else if sq && s.curC.vallot ≤ s.ir.d.toNat + n then trap s 0x03 0
    else
      let s := if s.curT.hold.isNone then
          queueEnds ((doneLanesOf s lanes).modInstance i (fun x => { x with takers := linsert s.cur x.takers }))
        else s
      let mine := match firstTaker s i with | some k => k == s.cur | none => true
      waitFor .qtake s (exhausted s i || (mine && inputAvailable s i != 0)) (fun s => completeTake s lanes))

/-- QDONE, R266. -/
def execQdone (s : State) : Out :=
  guarded .qdone s (fun s => .next (finish (queueEnds (doneLanesOf s (activeLanes s 64)))))

/-- QEOS, R267: no effect in the last stage. -/
def execQeos (s : State) : Out :=
  guarded .qeos s (fun s => .next (finish (queueEnds (s.modInstance (curStage s) (fun x => { x with eos := x.eos || !x.last })))))

/-! ### LAUNCH (R268) -/

/-- The packet with the launching wave's class and code object (R268). -/
def adjustPacket (s : State) (b : List Byte) : List Byte :=
  let b := patch b 2 [BitVec.ofNat 8 (max (pkPrio b) s.curC.prio)]
  if pkKind b ≤ 2 then patch b 0x10 (bytesOf 4 s.curC.codeObj) else b

/-- What LAUNCH reads for a packet (R268): the argument block through c[A] at AOFF, and the place of the completion word. -/
def launchParts (s : State) (b : List Byte) : Except (Int × Stop) (State × Table Word × Table Cap × Option (Nat × Nat)) :=
  let c := readC s s.ir.a.toNat
  let args := if pkKind b ≤ 2 then readArgs (fun s => translate s s.curC.ctx c) s s.curDie (pkAoff b : Nat) s.curW.pts false
    else .ok (s, [], [], s.curW.pts)
  match args with
  | .error st => .error ((pkAoff b : Nat), st)
  | .ok (s, a, ca, p) =>
    let s := raisePts s s.curWk p
    if !pkFlag b 2 then .ok (s, a, ca, none)
    else
      match translate s s.curC.ctx c (pkCoff b : Nat) 8 { rights := rightW + rightA, align := 8, write := true, atomic := true } with
      | .error st => .error ((pkCoff b : Nat), st)
      | .ok _ => .ok (s, a, ca, some (c.obj, pkCoff b))

/-- LAUNCH, R268: the packet joins the device queue of its class, whose room it waits for. -/
def execLaunch (s : State) : Out :=
  guarded .launch s (fun s =>
    withRecord .launch s (scalarOffset s) 64 (fun u b _ =>
      if !packetOk b then arith u 6
      else
        match launchParts u b with
        | .error (e, st) => stopAt .launch none s (faddrOf s.ir.a.toNat 0 e) 0 st
        | .ok (u, args, cargs, completion) =>
          let b := adjustPacket u b
          let cls := pkPrio b
          if !performedAll s s.curWk || 256 ≤ (tget [] (s.die s.curDie).devQueues cls).length then .next (holdAt s .launch)
          else
            let u := crewRelease u
            let p : DevPacket := {
              bytes := b, asid := u.curC.asid, args := args, cargs := cargs, completion := completion, parent := u.curC.launch
              pts := u.curW.pts }
            .next (finish (u.modDie u.curDie (fun d => { d with devQueues := tput d.devQueues cls (tget [] d.devQueues cls ++ [p]) })))))

end Sys2Proof.Machine
end

