-- ==== Sys2Proof/Machine/Dispatch.lean ====
section
/-! DEFINITION. The dispatcher: one arm for each constructor of `Instr`, each a direct call of its meaning. -/

namespace Sys2Proof.Machine

/-- Execute an instruction whose fields stand in `State.ir`, or an event whose arguments stand in `State.ev`. -/
def exec (i : Instr) (s : State) : Host.Outcome State Fault Refusal :=
  match i with
  | .nop => Sys2Proof.Machine.execNop s
  | .rep => Sys2Proof.Machine.execRep s
  | .repLit => Sys2Proof.Machine.execRepLit s
  | .grp => Sys2Proof.Machine.execGrp s
  | .smov => Sys2Proof.Machine.execSmov s
  | .smovLit => Sys2Proof.Machine.execSmovLit s
  | .sadd => Sys2Proof.Machine.execSadd s
  | .saddLit => Sys2Proof.Machine.execSaddLit s
  | .ssub => Sys2Proof.Machine.execSsub s
  | .ssubLit => Sys2Proof.Machine.execSsubLit s
  | .smul => Sys2Proof.Machine.execSmul s
  | .smulLit => Sys2Proof.Machine.execSmulLit s
  | .smulhi => Sys2Proof.Machine.execSmulhi s
  | .smulhiLit => Sys2Proof.Machine.execSmulhiLit s
  | .smulhn => Sys2Proof.Machine.execSmulhn s
  | .smulhnLit => Sys2Proof.Machine.execSmulhnLit s
  | .sdiv => Sys2Proof.Machine.execSdiv s
  | .sdivLit => Sys2Proof.Machine.execSdivLit s
  | .sdivn => Sys2Proof.Machine.execSdivn s
  | .sdivnLit => Sys2Proof.Machine.execSdivnLit s
  | .srem => Sys2Proof.Machine.execSrem s
  | .sremLit => Sys2Proof.Machine.execSremLit s
  | .sremn => Sys2Proof.Machine.execSremn s
  | .sremnLit => Sys2Proof.Machine.execSremnLit s
  | .sand => Sys2Proof.Machine.execSand s
  | .sandLit => Sys2Proof.Machine.execSandLit s
  | .sor => Sys2Proof.Machine.execSor s
  | .sorLit => Sys2Proof.Machine.execSorLit s
  | .sxor => Sys2Proof.Machine.execSxor s
  | .sxorLit => Sys2Proof.Machine.execSxorLit s
  | .sshl => Sys2Proof.Machine.execSshl s
  | .sshlLit => Sys2Proof.Machine.execSshlLit s
  | .sshr => Sys2Proof.Machine.execSshr s
  | .sshrLit => Sys2Proof.Machine.execSshrLit s
  | .ssar => Sys2Proof.Machine.execSsar s
  | .ssarLit => Sys2Proof.Machine.execSsarLit s
  | .srol => Sys2Proof.Machine.execSrol s
  | .srolLit => Sys2Proof.Machine.execSrolLit s
  | .smin => Sys2Proof.Machine.execSmin s
  | .sminLit => Sys2Proof.Machine.execSminLit s
  | .smax => Sys2Proof.Machine.execSmax s
  | .smaxLit => Sys2Proof.Machine.execSmaxLit s
  | .sminn => Sys2Proof.Machine.execSminn s
  | .sminnLit => Sys2Proof.Machine.execSminnLit s
  | .smaxn => Sys2Proof.Machine.execSmaxn s
  | .smaxnLit => Sys2Proof.Machine.execSmaxnLit s
  | .sclz => Sys2Proof.Machine.execSclz s
  | .spop => Sys2Proof.Machine.execSpop s
  | .sbfx => Sys2Proof.Machine.execSbfx s
  | .sbfxLit => Sys2Proof.Machine.execSbfxLit s
  | .sbfi => Sys2Proof.Machine.execSbfi s
  | .sbfiLit => Sys2Proof.Machine.execSbfiLit s
  | .sseq => Sys2Proof.Machine.execSseq s
  | .sseqLit => Sys2Proof.Machine.execSseqLit s
  | .sslt => Sys2Proof.Machine.execSslt s
  | .ssltLit => Sys2Proof.Machine.execSsltLit s
  | .ssltn => Sys2Proof.Machine.execSsltn s
  | .ssltnLit => Sys2Proof.Machine.execSsltnLit s
  | .ssel => Sys2Proof.Machine.execSsel s
  | .sselLit => Sys2Proof.Machine.execSselLit s
  | .sld => Sys2Proof.Machine.execSld s
  | .sldLit => Sys2Proof.Machine.execSldLit s
  | .sldw => Sys2Proof.Machine.execSldw s
  | .sldwLit => Sys2Proof.Machine.execSldwLit s
  | .sst => Sys2Proof.Machine.execSst s
  | .sstLit => Sys2Proof.Machine.execSstLit s
  | .sstw => Sys2Proof.Machine.execSstw s
  | .sstwLit => Sys2Proof.Machine.execSstwLit s
  | .cmov => Sys2Proof.Machine.execCmov s
  | .cadd => Sys2Proof.Machine.execCadd s
  | .caddLit => Sys2Proof.Machine.execCaddLit s
  | .cwin => Sys2Proof.Machine.execCwin s
  | .cwinLit => Sys2Proof.Machine.execCwinLit s
  | .cred => Sys2Proof.Machine.execCred s
  | .credLit => Sys2Proof.Machine.execCredLit s
  | .cget => Sys2Proof.Machine.execCget s
  | .csetoff => Sys2Proof.Machine.execCsetoff s
  | .csetoffLit => Sys2Proof.Machine.execCsetoffLit s
  | .cld => Sys2Proof.Machine.execCld s
  | .cldLit => Sys2Proof.Machine.execCldLit s
  | .cst => Sys2Proof.Machine.execCst s
  | .cstLit => Sys2Proof.Machine.execCstLit s
  | .br => Sys2Proof.Machine.execBr s
  | .brLit => Sys2Proof.Machine.execBrLit s
  | .brz => Sys2Proof.Machine.execBrz s
  | .brzLit => Sys2Proof.Machine.execBrzLit s
  | .brnz => Sys2Proof.Machine.execBrnz s
  | .brnzLit => Sys2Proof.Machine.execBrnzLit s
  | .brany => Sys2Proof.Machine.execBrany s
  | .branyLit => Sys2Proof.Machine.execBranyLit s
  | .brall => Sys2Proof.Machine.execBrall s
  | .brallLit => Sys2Proof.Machine.execBrallLit s
  | .brnone => Sys2Proof.Machine.execBrnone s
  | .brnoneLit => Sys2Proof.Machine.execBrnoneLit s
  | .call => Sys2Proof.Machine.execCall s
  | .callLit => Sys2Proof.Machine.execCallLit s
  | .ret => Sys2Proof.Machine.execRet s
  | .loop => Sys2Proof.Machine.execLoop s
  | .loopLit => Sys2Proof.Machine.execLoopLit s
  | .split => Sys2Proof.Machine.execSplit s
  | .splitLit => Sys2Proof.Machine.execSplitLit s
  | .join => Sys2Proof.Machine.execJoin s
  | .exit => Sys2Proof.Machine.execExit s
  | .yield => Sys2Proof.Machine.execYield s
  | .sleep => Sys2Proof.Machine.execSleep s
  | .sleepLit => Sys2Proof.Machine.execSleepLit s
  | .sleepExpiry => Sys2Proof.Machine.execSleepExpiry s
  | .trap => Sys2Proof.Machine.execTrap s
  | .trapLit => Sys2Proof.Machine.execTrapLit s
  | .sret => Sys2Proof.Machine.execSret s
  | .csrr => Sys2Proof.Machine.execCsrr s
  | .csrw => Sys2Proof.Machine.execCsrw s
  | .csrwLit => Sys2Proof.Machine.execCsrwLit s
  | .trc => Sys2Proof.Machine.execTrc s
  | .trcLit => Sys2Proof.Machine.execTrcLit s
  | .bkpt => Sys2Proof.Machine.execBkpt s
  | .pand => Sys2Proof.Machine.execPand s
  | .por => Sys2Proof.Machine.execPor s
  | .pxor => Sys2Proof.Machine.execPxor s
  | .pandn => Sys2Proof.Machine.execPandn s
  | .pnot => Sys2Proof.Machine.execPnot s
  | .pmov => Sys2Proof.Machine.execPmov s
  | .pset => Sys2Proof.Machine.execPset s
  | .psetLit => Sys2Proof.Machine.execPsetLit s
  | .pget => Sys2Proof.Machine.execPget s
  | .pcnt => Sys2Proof.Machine.execPcnt s
  | .pfirst => Sys2Proof.Machine.execPfirst s
  | .vadd => Sys2Proof.Machine.execVadd s
  | .vsub => Sys2Proof.Machine.execVsub s
  | .vmul => Sys2Proof.Machine.execVmul s
  | .vmulh => Sys2Proof.Machine.execVmulh s
  | .vmad => Sys2Proof.Machine.execVmad s
  | .vmin => Sys2Proof.Machine.execVmin s
  | .vmax => Sys2Proof.Machine.execVmax s
  | .vabs => Sys2Proof.Machine.execVabs s
  | .vneg => Sys2Proof.Machine.execVneg s
  | .vand => Sys2Proof.Machine.execVand s
  | .vor => Sys2Proof.Machine.execVor s
  | .vxor => Sys2Proof.Machine.execVxor s
  | .vandn => Sys2Proof.Machine.execVandn s
  | .vshl => Sys2Proof.Machine.execVshl s
  | .vshr => Sys2Proof.Machine.execVshr s
  | .vsar => Sys2Proof.Machine.execVsar s
  | .vrot => Sys2Proof.Machine.execVrot s
  | .vclz => Sys2Proof.Machine.execVclz s
  | .vpop => Sys2Proof.Machine.execVpop s
  | .vbfx => Sys2Proof.Machine.execVbfx s
  | .vbfi => Sys2Proof.Machine.execVbfi s
  | .vsel => Sys2Proof.Machine.execVsel s
  | .vmov => Sys2Proof.Machine.execVmov s
  | .vfadd => Sys2Proof.Machine.execVfadd s
  | .vfsub => Sys2Proof.Machine.execVfsub s
  | .vfmul => Sys2Proof.Machine.execVfmul s
  | .vfma => Sys2Proof.Machine.execVfma s
  | .vfms => Sys2Proof.Machine.execVfms s
  | .vfmin => Sys2Proof.Machine.execVfmin s
  | .vfmax => Sys2Proof.Machine.execVfmax s
  | .vfabs => Sys2Proof.Machine.execVfabs s
  | .vfneg => Sys2Proof.Machine.execVfneg s
  | .vfrnd => Sys2Proof.Machine.execVfrnd s
  | .vfcls => Sys2Proof.Machine.execVfcls s
  | .vfsqt => Sys2Proof.Machine.execVfsqt s
  | .vfdot => Sys2Proof.Machine.execVfdot s
  | .vfscl => Sys2Proof.Machine.execVfscl s
  | .vcmp => Sys2Proof.Machine.execVcmp s
  | .vcmpm => Sys2Proof.Machine.execVcmpm s
  | .vcvt => Sys2Proof.Machine.execVcvt s
  | .vpack => Sys2Proof.Machine.execVpack s
  | .vunpk => Sys2Proof.Machine.execVunpk s
  | .vsxp => Sys2Proof.Machine.execVsxp s
  | .vsxu => Sys2Proof.Machine.execVsxu s
  | .vmxp => Sys2Proof.Machine.execVmxp s
  | .vmxu => Sys2Proof.Machine.execVmxu s
  | .vqdec => Sys2Proof.Machine.execVqdec s
  | .vex2 => Sys2Proof.Machine.execVex2 s
  | .vlg2 => Sys2Proof.Machine.execVlg2 s
  | .vrcp => Sys2Proof.Machine.execVrcp s
  | .vrsq => Sys2Proof.Machine.execVrsq s
  | .vsin => Sys2Proof.Machine.execVsin s
  | .vcos => Sys2Proof.Machine.execVcos s
  | .vtanh => Sys2Proof.Machine.execVtanh s
  | .vshfl => Sys2Proof.Machine.execVshfl s
  | .vbcast => Sys2Proof.Machine.execVbcast s
  | .vrdx => Sys2Proof.Machine.execVrdx s
  | .vscan => Sys2Proof.Machine.execVscan s
  | .vread => Sys2Proof.Machine.execVread s
  | .vwrite => Sys2Proof.Machine.execVwrite s
  | .vddx => Sys2Proof.Machine.execVddx s
  | .vddy => Sys2Proof.Machine.execVddy s
  | .vrotl => Sys2Proof.Machine.execVrotl s
  | .vbsi => Sys2Proof.Machine.execVbsi s
  | .vbsr => Sys2Proof.Machine.execVbsr s
  | .vbsp => Sys2Proof.Machine.execVbsp s
  | .vbsc => Sys2Proof.Machine.execVbsc s
  | .vrng => Sys2Proof.Machine.execVrng s
  | .vld => Sys2Proof.Machine.execVld s
  | .vst => Sys2Proof.Machine.execVst s
  | .vldb => Sys2Proof.Machine.execVldb s
  | .vstb => Sys2Proof.Machine.execVstb s
  | .spld => Sys2Proof.Machine.execSpld s
  | .spst => Sys2Proof.Machine.execSpst s
  | .spldb => Sys2Proof.Machine.execSpldb s
  | .spstb => Sys2Proof.Machine.execSpstb s
  | .vpref => Sys2Proof.Machine.execVpref s
  | .vatom => Sys2Proof.Machine.execVatom s
  | .satom => Sys2Proof.Machine.execSatom s
  | .spatom => Sys2Proof.Machine.execSpatom s
  | .bar => Sys2Proof.Machine.execBar s
  | .arrv => Sys2Proof.Machine.execArrv s
  | .waitb => Sys2Proof.Machine.execWaitb s
  | .waitc => Sys2Proof.Machine.execWaitc s
  | .fence => Sys2Proof.Machine.execFence s
  | .fenceEvict => Sys2Proof.Machine.execFenceEvict s
  | .mon => Sys2Proof.Machine.execMon s
  | .mwait => Sys2Proof.Machine.execMwait s
  | .mwaitTimeout => Sys2Proof.Machine.execMwaitTimeout s
  | .sema => Sys2Proof.Machine.execSema s
  | .semr => Sys2Proof.Machine.execSemr s
  | .semt => Sys2Proof.Machine.execSemt s
  | .evph => Sys2Proof.Machine.execEvph s
  | .fencev => Sys2Proof.Machine.execFencev s
  | .strm => Sys2Proof.Machine.execStrm s
  | .subs => Sys2Proof.Machine.execSubs s
  | .unsub => Sys2Proof.Machine.execUnsub s
  | .tmpl => Sys2Proof.Machine.execTmpl s
  | .xgo => Sys2Proof.Machine.execXgo s
  | .deal => Sys2Proof.Machine.execDeal s
  | .meld => Sys2Proof.Machine.execMeld s
  | .gang => Sys2Proof.Machine.execGang s
  | .mres => Sys2Proof.Machine.execMres s
  | .mrel => Sys2Proof.Machine.execMrel s
  | .mldaSp => Sys2Proof.Machine.execMldaSp s
  | .mldaReg => Sys2Proof.Machine.execMldaReg s
  | .mldbSp => Sys2Proof.Machine.execMldbSp s
  | .mldbReg => Sys2Proof.Machine.execMldbReg s
  | .mma => Sys2Proof.Machine.execMma s
  | .mmap => Sys2Proof.Machine.execMmap s
  | .mzero => Sys2Proof.Machine.execMzero s
  | .mrda => Sys2Proof.Machine.execMrda s
  | .mrdaSt => Sys2Proof.Machine.execMrdaSt s
  | .mwra => Sys2Proof.Machine.execMwra s
  | .msta => Sys2Proof.Machine.execMsta s
  | .mbar => Sys2Proof.Machine.execMbar s
  | .mcmd => Sys2Proof.Machine.execMcmd s
  | .mcmdEnd => Sys2Proof.Machine.execMcmdEnd s
  | .qput => Sys2Proof.Machine.execQput s
  | .qtake => Sys2Proof.Machine.execQtake s
  | .qdone => Sys2Proof.Machine.execQdone s
  | .qeos => Sys2Proof.Machine.execQeos s
  | .launch => Sys2Proof.Machine.execLaunch s
  | .ared => Sys2Proof.Machine.execAred s
  | .agath => Sys2Proof.Machine.execAgath s
  | .trace => Sys2Proof.Machine.execTrace s
  | .qbox => Sys2Proof.Machine.execQbox s
  | .refit => Sys2Proof.Machine.execRefit s
  | .reord => Sys2Proof.Machine.execReord s
  | .ldlod => Sys2Proof.Machine.execLdlod s
  | .ldlodp => Sys2Proof.Machine.execLdlodp s
  | .lodq => Sys2Proof.Machine.execLodq s
  | .henc => Sys2Proof.Machine.execHenc s
  | .hgrad => Sys2Proof.Machine.execHgrad s
  | .egath => Sys2Proof.Machine.execEgath s
  | .trapEntry => Sys2Proof.Machine.execTrapEntry s
  | .asyncTrapDelivery => Sys2Proof.Machine.execAsyncTrapDelivery s
  | .kill => Sys2Proof.Machine.execKill s
  | .crewPlacement => Sys2Proof.Machine.execCrewPlacement s
  | .crewEnd => Sys2Proof.Machine.execCrewEnd s
  | .preemption => Sys2Proof.Machine.execPreemption s
  | .crewSpill => Sys2Proof.Machine.execCrewSpill s
  | .kittyRefill => Sys2Proof.Machine.execKittyRefill s
  | .ptsAdvance => Sys2Proof.Machine.execPtsAdvance s
  | .stageMoveEvaluation => Sys2Proof.Machine.execStageMoveEvaluation s
  | .crewStageLeave => Sys2Proof.Machine.execCrewStageLeave s
  | .copyCommand => Sys2Proof.Machine.execCopyCommand s
  | .subscriptionTile => Sys2Proof.Machine.execSubscriptionTile s
  | .collective => Sys2Proof.Machine.execCollective s
  | .matrixCommand => Sys2Proof.Machine.execMatrixCommand s
  | .gangAccept => Sys2Proof.Machine.execGangAccept s
  | .mmapPairStart => Sys2Proof.Machine.execMmapPairStart s
  | .gridPacket => Sys2Proof.Machine.execGridPacket s
  | .bindPacket => Sys2Proof.Machine.execBindPacket s
  | .nodePacket => Sys2Proof.Machine.execNodePacket s
  | .signalPacket => Sys2Proof.Machine.execSignalPacket s
  | .hostQueueTail => Sys2Proof.Machine.execHostQueueTail s
  | .launchComplete => Sys2Proof.Machine.execLaunchComplete s
  | .budgetWindowClose => Sys2Proof.Machine.execBudgetWindowClose s
  | .asidset => Sys2Proof.Machine.execAsidset s
  | .inval => Sys2Proof.Machine.execInval s
  | .exportObject => Sys2Proof.Machine.execExportObject s
  | .unexport => Sys2Proof.Machine.execUnexport s
  | .evsched => Sys2Proof.Machine.execEvsched s
  | .lqopen => Sys2Proof.Machine.execLqopen s
  | .lqclose => Sys2Proof.Machine.execLqclose s
  | .telem => Sys2Proof.Machine.execTelem s
  | .capset => Sys2Proof.Machine.execCapset s
  | .killreq => Sys2Proof.Machine.execKillreq s
  | .pgans => Sys2Proof.Machine.execPgans s
  | .pageRequestPost => Sys2Proof.Machine.execPageRequestPost s
  | .prgResponse => Sys2Proof.Machine.execPrgResponse s
  | .hostRegisterWrite => Sys2Proof.Machine.execHostRegisterWrite s
  | .migrationHoldTimeout => Sys2Proof.Machine.execMigrationHoldTimeout s
  | .rd => Sys2Proof.Machine.execRd s
  | .rdx => Sys2Proof.Machine.execRdx s
  | .upg => Sys2Proof.Machine.execUpg s
  | .wb => Sys2Proof.Machine.execWb s
  | .at => Sys2Proof.Machine.execAt s
  | .inv => Sys2Proof.Machine.execInv s
  | .recall => Sys2Proof.Machine.execRecall s
  | .forward => Sys2Proof.Machine.execForward s
  | .ack => Sys2Proof.Machine.execAck s
  | .exclusiveGrant => Sys2Proof.Machine.execExclusiveGrant s
  | .flitReceive => Sys2Proof.Machine.execFlitReceive s
  | .packetResendTimeout => Sys2Proof.Machine.execPacketResendTimeout s
  | .directoryUpdateReport => Sys2Proof.Machine.execDirectoryUpdateReport s
  | .homeAnswerTimeout => Sys2Proof.Machine.execHomeAnswerTimeout s
  | .dieFence => Sys2Proof.Machine.execDieFence s
  | .dieReset => Sys2Proof.Machine.execDieReset s
  | .functionReset => Sys2Proof.Machine.execFunctionReset s
  | .networkPut => Sys2Proof.Machine.execNetworkPut s
  | .networkGet => Sys2Proof.Machine.execNetworkGet s
  | .getVersion => Sys2Proof.Machine.execGetVersion s
  | .getCapabilities => Sys2Proof.Machine.execGetCapabilities s
  | .negotiateAlgorithms => Sys2Proof.Machine.execNegotiateAlgorithms s
  | .getDigests => Sys2Proof.Machine.execGetDigests s
  | .getCertificate => Sys2Proof.Machine.execGetCertificate s
  | .challenge => Sys2Proof.Machine.execChallenge s
  | .getMeasurements => Sys2Proof.Machine.execGetMeasurements s
  | .firmwareImageVerify => Sys2Proof.Machine.execFirmwareImageVerify s
  | .partitionForm => Sys2Proof.Machine.execPartitionForm s
  | .throttleRaise => Sys2Proof.Machine.execThrottleRaise s
  | .throttleLower => Sys2Proof.Machine.execThrottleLower s
  | .thermalEmergency => Sys2Proof.Machine.execThermalEmergency s
  | .emergencyStandby => Sys2Proof.Machine.execEmergencyStandby s
  | .uncorrectableError => Sys2Proof.Machine.execUncorrectableError s
  | .patrolScrub => Sys2Proof.Machine.execPatrolScrub s
  | .coreRetire => Sys2Proof.Machine.execCoreRetire s
  | .heatRetire => Sys2Proof.Machine.execHeatRetire s
  | .accessCompletion => Sys2Proof.Machine.execAccessCompletion s
  | .reservedEncoding => Sys2Proof.Machine.execReservedEncoding s
  | .instructionFetchFault => Sys2Proof.Machine.execInstructionFetchFault s
  | .mwaitSpuriousWake => Sys2Proof.Machine.execMwaitSpuriousWake s
  | .reservedCommand => Sys2Proof.Machine.execReservedCommand s
  | .priEnable => Sys2Proof.Machine.execPriEnable s
  | .modulePowerUp => Sys2Proof.Machine.execModulePowerUp s
  | .powerBudget => Sys2Proof.Machine.execPowerBudget s

end Sys2Proof.Machine
end

