-- ==== Sys2Proof/Machine/Fused.lean ====
section
/-! DEFINITION. The fused softmax sequence (R139): four instructions that the decoder takes together. -/

namespace Sys2Proof.Machine

/-- A decoded instruction with its fields and length. -/
abbrev Decoded := Instr × Fields × Nat

/-- The four instructions at an offset of a code object, where each decodes. -/
def decodedRun (s : State) (c : Crew) : Nat → Nat → Option (List Decoded)
  | 0, _ => some []
  | n + 1, off =>
    match instrAt s c off with
    | .ok (.ok (i, x, len)) => (decodedRun s c n (off + len)).map (fun t => (i, x, len) :: t)
    | _ => none

/-- Condition 3 of R139 on one instruction, given the first one's fields. -/
def fusable (f x : Fields) : Bool :=
  x.p == f.p && x.pn == f.pn && x.subp == f.subp && !x.abs && !x.na && !x.nb && !x.sat && x.lit.isNone && x.t == 0xA

/-- The conditions 2 to 4 of R139 on four instructions. -/
def fusesWith : List Decoded → Bool
  | [(.vrdx, m, _), (.vfsub, d, _), (.vex2, e, _), (.vrdx, a, _)] =>
    m.mod == 2 && m.imm == 0 && d.a == m.a && d.b == m.d && e.a == d.d && a.mod == 0 && a.a == e.d &&
      [m, d, e, a].all (fusable m) && [m, d, e].all (fun x => x.stall == 0)
  | _ => false

/-- The four instructions that a fragment without a REP fuses at its `pc`. -/
def fusedAt (s : State) (t : Nat) (first : Decoded) : Option (List Decoded) :=
  if first.1 != .vrdx || (s.thread t).rep.isSome || isSequencer (waveOf t) then none
  else
    match decodedRun s (s.crew (crewOf (waveOf t))) 4 (s.thread t).pc.toNat with
    | some ds => if fusesWith ds then some ds else none
    | none => none

/-- The meaning of a member of the sequence. -/
def fusedMember (i : Instr) (s : State) : Out :=
  match i with
  | .vfsub => execVfsub s
  | .vex2 => execVex2 s
  | _ => execVrdx s

/-- Run the members one after the other at one position, so that each reads what the earlier ones wrote; none when one would trap, with
code and detail. -/
def fusedRun : List Decoded → State → Except (Nat × Nat) State
  | [], s => .ok s
  | (i, x, len) :: t, s =>
    let s := { s with ir := x, len := len }
    match entryTrap s i with
    | some e => .error e
    | none =>
      match fusedMember i s with
      | .next u => fusedRun t (u.modThread u.cur (fun y => { y with position := s.curT.position }))
      | .fault _ => .ok s
      | .refused _ => .ok s

/-- Issue the fused sequence (R139): the fragment is ready again when all four results are written; a member's trap is reported at the first
instruction, and nothing is written. DESIGN CHOICE: for a read by another fragment all four results land together, when the last would have
landed had the four been issued one behind the other (log 126). -/
def runFused (s : State) (ds : List Decoded) : Out :=
  match fusedRun ds s with
  | .error (code, detail) => trap s code detail
  | .ok u =>
    let base := s.curT.position
    let lt := ds.foldl (fun n d => n + (latencyOf d.1 d.2.1).getD 0) 0
    let stall := (ds.getLast?.map (fun d => d.2.1.stall.toNat)).getD 0
    let at' := s.clock + 4 + lt
    let u := u.modWave u.curWk (fun w => { w with late := w.late.map (fun l =>
      if l.thread = u.cur ∧ l.by' = base then { l with landAt := at', due := 0 } else l) })
    .next (u.modThread u.cur (fun t => { t with position := base + 4 + stall, readyAt := max at' t.readyAt }))

end Sys2Proof.Machine
end

