-- ==== Sys2Proof/Machine/Schedule.lean ====
section
/-! DEFINITION. What happens next (R94 to R97, R189, R201): the inputs that have come, the events that are due in this cycle, the held
instructions, one instruction for each quarter and sequencer, and then the next cycle. -/

namespace Sys2Proof.Machine

/-- What a step does: execute an instruction or event on a prepared state, or nothing but what has been worked out. -/
inductive Plan where
  | run (i : Instr) (s : State)
  | out (o : Out)

/-! ### Inputs -/

/-- A store of the host or the driver, with its effect on tags, poison, timestamps and monitors (R177, R195): the host's program time comes after
every access performed so far (R182, R187; log 130). Nothing is stored in a context region, which the VN8 alone writes (R371). -/
def driverStore (s : State) (key : Nat) (bs : List Byte) : State :=
  (linePieces (key : Int) bs.length).foldl (fun (acc : State × List Byte) p =>
    let key := p.1.toNat
    (if inFrames key then acc.1 else (writeHome acc.1 (dieOfKey key) (hostTime acc.1 + 1) key (acc.2.take p.2)).cleanse key p.2,
      acc.2.drop p.2)) (s, bs) |>.1

/-- A line of a page that migrates (R187): its bytes, its tags (R142) and its poison (R392) come to the new place, which takes it at a time no lower than
the old owner's wts and mrts, and above the times of what stood there (log 151). -/
def moveLine (s : State) (src dst : Nat) : State :=
  let (w, m) := s.stamps (lineOf src)
  let (w', m') := s.stamps (lineOf dst)
  let tags := (upTo 4).filter (fun g => s.tags.contains (src / 16 + g))
  let u := writeHome s (dieOfKey dst) (storeTime (max w m) w' m') dst (s.bytes src 64)
  { u with
    tags := tags.foldl (fun t g => linsert (dst / 16 + g) t) u.tags
    poison := if s.poisoned src then linsert (lineOf dst) u.poison else lerase (lineOf dst) u.poison }

/-- Lines that a migration may move: whole, of one die, in its DRAM or its window of the second tier, outside the context regions (R371). -/
def movable (s : State) (src dst lines : Nat) : Bool :=
  src % 64 == 0 && dst % 64 == 0 && dieOfKey src == dieOfKey dst && !isHost src && (upTo lines).all (fun k =>
    s.has (src + 64 * k) && s.has (dst + 64 * k) && !inFrames (src + 64 * k) && !inFrames (dst + 64 * k))

/-- The driver's migration of some lines (R187). -/
def migrateLines (s : State) (src dst lines : Nat) : State :=
  if movable s src dst lines then (upTo lines).foldl (fun s k => moveLine s (src + 64 * k) (dst + 64 * k)) s else s

/-- An AtomicOp of the host on device memory (R345): FetchAdd, Swap or CAS on 32 or 64 bits, performed at the home; another operation, and one at
poisoned or absent bytes or in a context region, does nothing. -/
def hostAtomicOp (s : State) (key op n x y : Nat) : State :=
  if !s.has key || isHost key || inFrames key || !([0, 6, 7].contains op) || (n != 4 && n != 8) || key % n != 0 then s
  else
    match atomicAt s (dieOfKey key) (hostTime s + 1) { key := key } n (fun old => atomicNew op (if n = 4 then 6 else 7) 0 old x y) with
    | .ok (s, _, _) => s
    | .error _ => s

/-- The first line of some bytes of device memory that other dies hold, with its home. -/
def heldBytes (s : State) (key n : Nat) : Option (Nat × Nat) :=
  (linePieces (key : Int) n).findSome? (fun p =>
    let key := p.1.toNat
    match (if isHost key then none else storeStop s (dieOfKey key) { key := key }) with
    | some (.remote line _ _) => some (dieOfKey key, line)
    | _ => none)

/-- The first line that an input writes or reads at its home while other dies hold it: the input waits until the home has recalled it
(R179, R338). -/
def heldLine (s : State) (x : Input) : Option (Nat × Nat) :=
  match x with
  | .store key bs => heldBytes s key bs.length
  | .migrate src dst n => (match heldBytes s src (64 * n) with | some x => some x | none => heldBytes s dst (64 * n))
  | .hostAtomic key _ n _ _ => heldBytes s key n
  | .event .capset a => heldIn s a.subject a.cmd.asidField.toNat a.cmd.arg0.toNat a.cmd.arg1.toNat 16
  | _ => none

/-- The home has begun, or will begin, to recall a line for itself. -/
def recalling (s : State) (line : Nat) : Bool :=
  let e := s.dir line
  (match e.busy with | some r => r.kind == 4 | none => false) || e.waiting.any (fun r => r.kind == 4)

/-- An input that the module takes while it is in standby (R408): its power-up, and what the host does to its own memory. -/
def takenInStandby (x : Input) : Bool :=
  match x with
  | .event .modulePowerUp _ => true
  | .event _ _ => false
  | .store key _ => isHost key
  | .migrate _ _ _ => false
  | .hostAtomic _ _ _ _ _ => false
  | .hostPage _ _ => true
  | .atsInvalidate _ => true
  | .connection _ _ => true
  | .management _ _ => false
  | .networkRing _ _ _ => false
  | .tierWindow _ _ => false
  | .readings _ _ _ _ => true
  | .registerRead _ _ => true

/-- A management queue holds 16 to 4,096 commands, a network ring 2 to 65,536 requests, a power of two each (R253, R346, R350). -/
def ringSize (n lo hi : Nat) : Bool := lo ≤ n && n ≤ hi && 2 ^ Nat.log2 n == n

/-- Bytes of the second tier that the windows of the other dies of a partition take (R349). -/
def otherWindows (s : State) (p die : Nat) : Nat :=
  (upTo 12).foldl (fun n d => if d != die && (s.die d).partition == some p then n + (s.die d).window else n) 0

/-- The driver of a die's partition gives the die its window out of the partition's share (R155, R349): none beyond the share. -/
def setWindow (s : State) (die bytes : Nat) : State :=
  match (s.die die).partition with
  | none => s
  | some p =>
    if otherWindows s p die + bytes ≤ (tget (0, 0, 0) s.xd.partitions p).2.1 * 2 ^ 30 then s.modDie die (fun d => { d with window := bytes }) else s

/-- Take the first input. -/
def takeInput (s : State) (x : Input) (rest : List Input) : Plan :=
  let s := { s with inputs := rest }
  if s.xd.standby && !takenInStandby x then .out (.next s)
  else
  match x with
  | .event i a => .run i { s with ev := a }
  | .store key bs => .out (.next (driverStore s key bs))
  | .migrate src dst n => .out (.next (migrateLines s src dst n))
  | .hostAtomic key op n x y => .out (.next (hostAtomicOp s key op n x y))
  | .management die q => .out (.next (if die < 12 && ringSize q.n 16 4096 then s.modDie die (fun d => { d with mgmt := some q }) else s))
  | .networkRing die asid r =>
    .out (.next (if die < 12 && ringSize r.n 2 65536 then s.modDie die (fun d => { d with netRings := tput d.netRings asid r }) else s))
  | .tierWindow die bytes => .out (.next (setWindow s die bytes))
  | .readings power junction inlet flow =>
    .out (.next (reassess { s with xd := { s.xd with power := power, junction := junction, inlet := inlet, flow := flow } }))
  | .registerRead f off => .out (.next { s with xd := { s.xd with hostRead := hostRegister s f off } })
  | .hostPage page (some p) => .out (.next { s with hostPages := tput s.hostPages page p })
  | .atsInvalidate page => .out (.next (s.modDie (page / (8192 * 2 ^ 36)) (fun d => { d with ats := terase d.ats page })))
  | .hostPage page none => .out (.next { s with hostPages := terase s.hostPages page })
  | .connection c r => .out (.next (if 4096 ≤ c then s else { s with xd := { s.xd with
      connections := match r with | some x => tput s.xd.connections c x | none => terase s.xd.connections c } }))

/-! ### Held instructions -/

/-- A held instruction is looked at in a cycle: it goes on at once when it can (R189). A fragment behind a handler and what only an event
ends are passed over; of a parked wave and of a crew that stops only the accesses that have issued are looked at, which complete as far as
no page of their own is missing (R156, R256). -/
def mayPoll (s : State) (k : Nat) (t : Thread) : Bool :=
  let w := s.wave (waveOf k)
  let c := s.crew (crewOf (waveOf k))
  (match t.hold with | some h => !(h.op == .sleep || h.op == .sleepLit) | none => false) &&
    t.trap.isNone && t.state == .live && !s.polled.contains k && t.park.isNone && (!w.parked || (s.openOf k).isSome) &&
    (match w.handler with | none => true | some h => h == k) &&
    (c.state == .running || (c.state == .stopping && (s.openOf k).isSome))

/-- The order in which held instructions are looked at: the order of their issue, in one cycle by wave slot (R204, R210, R264). -/
def pollOrder (e : Nat × Thread) : List Nat :=
  [match e.2.hold with | some h => h.since | none => 0, slotOf (widOf (waveOf e.1)), e.1]

/-- The next held instruction to look at. -/
def nextPoll (s : State) : Option Nat := (minBy pollOrder (s.threads.filter (fun e => mayPoll s e.1 e.2))).map (·.1)

/-- Look at a held instruction: it is executed again as it stands; one held at its fetch is fetched again. -/
def poll (s : State) (k : Nat) : Plan :=
  let s := { s with polled := k :: s.polled, cur := k }
  match (s.thread k).hold with
  | none => .out (.next s)
  | some h =>
    if h.op = .instructionFetchFault then .out (.next (s.modThread k (fun t => { t with hold := none, waitLine := none })))
    else .run h.op (resumed s k)

/-! ### Issue -/

/-- A fragment that may issue in this cycle: it is ready as far as has been seen, its quarter has not issued, and no trap entry of its wave is
under way. -/
def mayIssue (s : State) (k : Nat) : Bool :=
  s.ready k && !s.issued.contains (issuerOf k) && !s.passed.contains k && (s.threadsOf (waveOf k)).all (fun j => (s.thread j).trap.isNone)

/-- The order of R95, quarter by quarter; of instructions that issue in one cycle, those of the lower core come first (R265). -/
def issueOrder (s : State) (k : Nat) : List Nat :=
  let t := s.thread k
  [(s.crew (crewOf (waveOf k))).core, issuerOf k, t.last, t.age, slotOf (widOf (waveOf k)), lowestLane t.mask]

/-- The next fragment or sequencer that issues. -/
def nextIssue (s : State) : Option Nat := minBy (issueOrder s) ((s.threads.map (·.1)).filter (mayIssue s))

/-- A fetch that is stopped: a trap (R363, R395), or a missing page, which parks the wave (R156). -/
def fetchStop (s : State) (st : Stop) : Plan :=
  let wait (s : State) : State := holdWith s .instructionFetchFault 0 []
  match st with
  | .trap code detail => .run .instructionFetchFault { s with ev := { subject := code, arg1 := detail } }
  | .hole key => .out (.fault (.noSuchAddress key))
  | .page die asid obj page why write atomic tail =>
    let (s, r) := requestPage s die asid obj page (requestKind why write atomic tail) why
    .out (.next (parkWave (wait s) r (faddrOf 0 0 (fetchOffset s))))
  | .host page =>
    if s.curT.retried.contains page then .run .instructionFetchFault { s with ev := { subject := 0x21, arg1 := 3 } }
    else if (s.die s.curDie).priFailed then
      .run .instructionFetchFault { s with ev := { subject := 0x21, arg1 := 4 } }
    else
      match requestHostPage (s.modThread s.cur (fun t => { t with missed := some page })) s.curWk page with
      | (s, some k) => .out (.next (parkWave (wait s) (2 ^ 40 + s.curDie * 2 ^ 32 + k) (faddrOf 0 0 (fetchOffset s))))
      | (s, none) => .out (.next (wait s))
  | .remote line exclusive alloc =>
    .out (.next (wait (requestLine (s.modThread s.cur (fun t => { t with waitLine := some line })) s.curDie line exclusive alloc)))
  | .locked _ _ _ => .out (.next (wait s))
  | .atHome _ _ _ => .out (.next (wait s))

/-- An iteration reads what an earlier one of the same repeat has written and what has not landed: the VN8 holds it (R40). -/
def waitsForOwn (s : State) (us : List RegUse) : Bool :=
  us.any (fun u => u.rd && s.curW.late.any (fun l =>
    l.thread == s.cur && l.file == u.file && l.by' == s.curT.position && decide (s.clock < l.landAt) &&
    (let k := if l.file = 1 then l.key / 32 else l.key
     u.first ≤ k && k < u.first + u.count)))

/-- Issue an iteration of a REP (R116), unless it waits for an earlier one's results. -/
def issueIteration (s : State) (r : RepRun) (i : Instr) (x : Fields) (n : Nat) : Plan :=
  let f := steppedFields i x r.i r.ds r.ss
  if waitsForOwn s (regUses i f) then .out (.next (stallIssue s)) else .run i { s with ir := f, len := r.prefixLen + n }

/-- Issue the instruction of a fragment or sequencer: an iteration of its REP (R116), a fused sequence (R139), or the instruction at its
`pc`. A REP issues together with its first iteration, in one step (R38). -/
def issue (s : State) (k : Nat) : Plan :=
  let s := { s with issued := issuerOf k :: s.issued, cur := k }
  let at' (s : State) (go : Instr → Fields → Nat → Plan) : Plan :=
    match instrAt s s.curC (fetchOffset s) with
    | .error st => fetchStop s st
    | .ok (.error d) => .run .reservedEncoding { s with ev := { subject := d } }
    | .ok (.ok (i, x, n)) => go i x n
  at' s (fun i x n =>
    match (s.thread k).rep with
    | some r => issueIteration s r i x n
    | none =>
      match fusedAt s k (i, x, n) with
      | some ds => .out (runFused s ds)
      | none =>
        let s := { s with ir := x, len := n }
        if i = .rep ∨ i = .repLit then
          (match repOp i s with
           | .next u =>
             (match (u.thread k).rep with
              | some r => at' u (issueIteration u r)
              | none => .run i s)
           | _ => .run i s)
        else .run i s)

/-! ### The events of a cycle -/

/-- An event with a subject and an argument. -/
def event (i : Instr) (subject : Nat) (arg1 : Nat := 0) : Instr × EventArgs := (i, { subject := subject, arg1 := arg1 })

/-- An event for each number of a list. -/
def eventsFor (i : Instr) (ks : List Nat) : List (Instr × EventArgs) := ks.map (fun k => event i k)

/-- The twelve compute dies. -/
def allDies : List Nat := upTo 12

/-- The crews that hold a core and are not without waves. -/
def activeCrews (s : State) : List (Nat × Crew) := s.crews.filter (fun e => e.2.state == .running || e.2.state == .stopping)

/-- The events of time: refills (R228), program timestamps (R178), stage moves (R261). -/
def timeEvents (s : State) : List (Instr × EventArgs) :=
  (if s.lastRefill + clockMHz s.xd.level ≤ s.clock then [event .kittyRefill 0] else []) ++
    (if s.lastPts + 16 ≤ s.clock then [event .ptsAdvance 0] else []) ++
    eventsFor .stageMoveEvaluation (allDies.filter (fun d => s.timew d % 8192 == 0 && s.pipelines.any (fun e => e.2.die == d)))

/-- An access completes: it and every earlier one of its wave and path have what they wait for (R97). -/
def accessDue (s : State) (id : Nat) (a : Access) : Bool :=
  s.accesses.all (fun e => !(e.2.wave == a.wave && e.2.path == a.path && decide (e.1 ≤ id)) ||
    (e.2.command.isNone && decide (e.2.doneAt ≤ s.clock)))

/-- Accesses that complete. -/
def accessEvents (s : State) : List (Instr × EventArgs) :=
  eventsFor .accessCompletion ((s.accesses.filter (fun e => accessDue s e.1 e.2)).map (·.1))

/-- The engines of a crew that have work in this cycle. -/
def engineEvents (s : State) (ck : Nat) (c : Crew) : List (Instr × EventArgs) :=
  (c.channels.filterMap (fun q =>
    match q.2 with
    | m :: _ => if m.doneAt ≤ s.clock && !m.wait.held then some (event .copyCommand ck q.1) else none
    | [] => none)) ++
  ((c.subs.filter (fun x => x.2.readyAt ≤ s.clock && !x.2.stopped && !x.2.wait.held && (c.state == .running || x.2.taken))).map
    (fun x => event .subscriptionTile ck x.1)) ++
  ((c.commands.filter (fun m => m.2.doneAt ≤ s.clock && !m.2.wait.held)).map (fun m => event .matrixCommand ck m.1)) ++
  ((c.gangs.filter (fun g => c.state == .running && !g.2.waiting.isEmpty && g.2.tryAt ≤ s.clock)).map (fun g => event .gangAccept ck g.1)) ++
  (match c.pair with
   | some pk =>
     (match readyMmap c, readyMmap (s.crew pk) with
      | some (_, m1), some (_, m2) =>
        if ck < pk ∧ m1.pairIdx = m2.pairIdx ∧ max (m1.pairReady.getD 0) (m2.pairReady.getD 0) + 4 ≤ s.clock then [event .mmapPairStart ck] else []
      | _, _ => [])
   | none => [])

/-- The collectives that are matched and whose leader has work, and those that cannot reach a member (R220, R406). -/
def collectiveEvents (s : State) : List (Instr × EventArgs) :=
  allDies.filterMap (fun d =>
    match headCollective s d with
    | some x =>
      if foreignGroup s d x.mask then some (event .collective x.mask (d + 1))
      else if (membersOf x.mask).head? = some d ∧ x.doneAt ≤ s.clock ∧ !x.wait.held ∧ (matched s x.mask).isSome then
        some (event .collective x.mask) else none
    | none => none)

/-- A held instruction whose time has passed (R112, R195). -/
def holdExpires (s : State) (e : Nat × Thread) : Option (Instr × EventArgs) :=
  match e.2.hold with
  | none => none
  | some h =>
    if h.arg ≤ s.clock && (s.crew (crewOf (waveOf e.1))).state == .running then
      match h.op with
      | .sleep => some (event .sleepExpiry e.1)
      | .sleepLit => some (event .sleepExpiry e.1)
      | .mwait => some (event .mwaitTimeout e.1)
      | _ => none
    else none

/-- The events of threads and waves. -/
def threadEvents (s : State) : List (Instr × EventArgs) :=
  s.threads.filterMap (holdExpires s) ++
    eventsFor .trapEntry ((s.threads.filter (fun e => e.2.trap.isSome && !commandsOutstanding s (waveOf e.1) &&
        ((s.crew (crewOf (waveOf e.1))).state == .running || (s.crew (crewOf (waveOf e.1))).state == .stopping))).map (·.1)) ++
    eventsFor .asyncTrapDelivery ((s.waves.filter (fun e => !e.2.pending.isEmpty && (s.crew (crewOf e.1)).state == .running)).map (·.1))

/-- The events of crews and of placement. DESIGN CHOICE: a die places one crew, or one pair, in a cycle (log 136). -/
def crewEvents (s : State) : List (Instr × EventArgs) :=
  eventsFor .crewEnd ((s.crews.filter (fun e => e.2.pipeline.isNone && crewOver s e.1)).map (·.1)) ++
    eventsFor .crewStageLeave ((s.crews.filter (fun e => e.2.pipeline.isSome && (e.2.state == .held || mustLeave s e.1 || mayMove s e.1 || crewOver s e.1))).map (·.1)) ++
    eventsFor .crewSpill ((s.crews.filter (fun e => (e.2.state == .running && allParked s e.1) ||
      (e.2.state == .stopping && (match (s.die e.2.die).preempting with | some v => v != e.1 && e.2.pair != some v | none => true)))).map (·.1)) ++
    eventsFor .preemption (allDies.filter (fun d => (s.die d).preempting.isSome || (nextVictim s d).isSome)) ++
    eventsFor .crewPlacement (allDies.filter (fun d => (firstWaiting s d).isSome))

/-- TAIL of a host queue has changed (R253). -/
def tailMoved (s : State) (d : Nat) (q : HostQueue) : Bool :=
  q.isOpen &&
    (match readVia (physReach d q.asid q.ring) s d 0 8 0 { rights := rightR } with
     | .ok (_, bs, _) => numOfBytes bs != q.tail
     | .error _ => true)

/-- The events of a die's front end: tails, one signal, one node that waited for its packet, or one packet, windows that close, the next command of its management ring. -/
def frontEvents (s : State) (d : Nat) : List (Instr × EventArgs) :=
  (((s.die d).hostQueues.filter (fun q => tailMoved s d q.2)).map (fun q => event .hostQueueTail d q.1)) ++
  (if (dueSignal s d).isSome then [event .signalPacket d]
   else if (dueNode s d).isSome then [event .nodePacket d]
   else
    match nextKind s d with
    | none => []
    | some 2 => [event .bindPacket d]
    | some 3 => [event .nodePacket d]
    | some 4 => [event .signalPacket d]
    | some _ => [event .gridPacket d]) ++
  ((s.die d).graphs.filter (fun g => match g.closeAt with | some e => decide (e ≤ s.clock) | none => false)).map
    (fun g => (.budgetWindowClose, { subject := d, arg1 := g.obj, arg2 := g.asid })) ++
  (ringEvent s d).toList ++ networkEvents s d

/-- The launches that complete. -/
def launchEvents (s : State) : List (Instr × EventArgs) :=
  eventsFor .launchComplete ((s.launches.filter (fun e => launchReady s e.1)).map (·.1))

/-- The row of a packet that a home or a cache acts on. -/
def rowOf (k : PacketKind) : Option Instr :=
  match k with
  | .rd => some .rd
  | .rdx => some .rdx
  | .upg => some .upg
  | .wb => some .wb
  | .at' => some .at
  | .inv => some .inv
  | .recall => some .recall
  | .forward => some .forward
  | .ack => some .ack
  | .grant => some .exclusiveGrant
  | .data => none
  | .atAnswer => none
  | .peerInval => none
  | .peerAck => none

/-- The packets that have come, each with every earlier one of its pair, by ascending `DIEID` of the sender, those of a pair in order (R337, R342). -/
def nextPackets (s : State) : List (Nat × Packet) :=
  let come (p : Packet) : Bool := p.here && (upTo (p.seq - tget 0 (s.die p.dst).recvSeq p.src)).all (fun k =>
    s.packets.any (fun e => e.2.src == p.src && e.2.dst == p.dst && e.2.here && e.2.seq + k + 1 == p.seq))
  sortBy (fun (e : Nat × Packet) => [e.2.src, e.2.dst, e.2.seq]) (s.packets.filter (fun e => come e.2))

/-- The events of the fabric: packets, resends, homes that have waited too long. -/
def fabricEvents (s : State) : List (Instr × EventArgs) :=
  (nextPackets s).filterMap (fun e => (rowOf e.2.kind).map (fun i => event i e.1)) ++
    eventsFor .packetResendTimeout ((s.packets.filter (fun e => resendDue s e.2)).map (·.1)) ++
    eventsFor .homeAnswerTimeout ((s.directory.filter (fun e => (silentDie s e.1).isSome)).map (·.1))

/-- The events of page requests and migration holds. -/
def pageEvents (s : State) : List (Instr × EventArgs) :=
  eventsFor .pageRequestPost (allDies.filter (fun d => (unposted s d).isSome)) ++
    eventsFor .migrationHoldTimeout ((s.threads.filter (lockTimeout s)).map (·.1))

/-- The events of XD: standby after an emergency, the reset of fenced dies, cores that retire. -/
def moduleEvents (s : State) : List (Instr × EventArgs) :=
  (if s.xd.overheated && s.xd.emergencyAt.isNone then [event .thermalEmergency 0] else []) ++ (if raiseDue s then [event .throttleRaise 0] else []) ++
    (if lowerDue s then [event .throttleLower 0] else []) ++ (if standbyDue s then [event .emergencyStandby 0] else []) ++ eventsFor .dieReset (allDies.filter (fun d => (s.die d).fenced)) ++
    allDies.flatMap (fun d => ((s.die d).retiring.filter (coreEmpty s d)).map (fun k => event .coreRetire d k))

/-- Everything that is due in the cycle that begins. -/
def agendaOf (s : State) : List (Instr × EventArgs) :=
  timeEvents s ++ accessEvents s ++ (activeCrews s).flatMap (fun e => engineEvents s e.1 e.2) ++ collectiveEvents s ++
    fabricEvents s ++ pageEvents s ++ threadEvents s ++ crewEvents s ++ launchEvents s ++ allDies.flatMap (frontEvents s) ++ moduleEvents s

/-- Answers that only bring a value, and stand first of their pairs, reach the dies that asked. -/
def landAnswers (s : State) : State :=
  ((s.packets.map (fun e => (e.2.src, e.2.dst))).eraseDups).foldl (fun s d => drain d.1 d.2 s.packets.length s) s

/-- Homes go on with the requests that waited behind an access of the home die. -/
def settleLines (s : State) : State :=
  (s.directory.filter (fun e => e.2.busy.isNone && !e.2.waiting.isEmpty)).foldl (fun s e =>
    settle (dieOfKey (64 * e.1)) e.1 (e.2.waiting.length + 1) s) s

/-- The next cycle begins: packets arrive, and what is due is worked out; the takes of subscriptions come after the instructions of the cycle (R196).
In standby nothing happens (R408). -/
def newCycle (s : State) : State :=
  let s := { s with clock := s.clock + 1, issued := [], polled := [], passed := [] }
  if s.xd.standby then s
  else
    let s := landAnswers (landPackets (settleLines (dropUnallocated s)))
    let s := (s.dies.filter (fun d => !d.2.prefetches.isEmpty)).foldl (fun s d => fillPrefetched s d.1) s
    let s := (s.dies.filter (fun d => d.2.mgmtPending.isSome)).foldl (fun s d => finishCommand s d.1) s
    let take (e : Instr × EventArgs) : Bool :=
      e.1 == .subscriptionTile && (match tfind? (s.crew e.2.subject).subs e.2.arg1 with | some x => !x.taken | none => false)
    let all := agendaOf s
    { s with agenda := all.filter (fun e => !take e), after := all.filter take }

/-- What a step does when no input is taken: an event that is due, a held instruction, an issue, or the next cycle. -/
def planWork (s : State) : Plan :=
  match s.agenda with
  | (i, a) :: rest => .run i { s with agenda := rest, ev := a }
  | [] =>
    match nextPoll s with
    | some k => poll s k
    | none =>
      match nextIssue s with
      | some k => issue s k
      | none =>
        match s.after with
        | (i, a) :: rest => .run i { s with after := rest, ev := a }
        | [] => .out (.next (newCycle s))

/-- A management command that comes as an event of its own waits while another awaits the importers' acknowledgements (R346). -/
def commandWaits (s : State) (x : Input) : Bool :=
  match x with
  | .event i a =>
    [Instr.asidset, .inval, .exportObject, .unexport, .evsched, .lqopen, .lqclose, .telem, .capset, .reservedCommand].contains i &&
      (s.die a.subject).mgmtPending.isSome
  | _ => false

/-- The first input that no management command under way keeps waiting, and the others. -/
def firstInput (s : State) : List Input → Option (Input × List Input)
  | [] => none
  | x :: rest => if commandWaits s x then (firstInput s rest).map (fun y => (y.1, x :: y.2)) else some (x, rest)

/-- What the next step does: the first input, once its home holds the lines it touches, else the machine's own work. -/
def plan (s : State) : Plan :=
  let s := { s with fresh := s.fresh + 1 }
  match firstInput s s.inputs with
  | none => planWork s
  | some (x, rest) =>
    match heldLine s x with
    | none => takeInput s x rest
    | some (die, line) => if recalling s line then planWork s else .out (.next (recallForHome s die line))

end Sys2Proof.Machine
end

