-- ==== Sys2Proof/Machine/Load.lean ====
section
/-! DEFINITION. A program loaded from outside the machine (log 1): a crew of one wave on core 0 of die 8, whose code object of 4 KiB
holds given bytes at offset 0, where its only fragment stands. -/

namespace Sys2Proof.Machine

/-- The physical address of the object table of the loaded program, and of its code object, on die 8. -/
def loadTable : Nat := 0x1000
/-- The physical address of its code. -/
def loadCode : Nat := 0x2000

/-- The crew of the loaded program, of a launch. -/
def loadedCrew (s : State) (l : Nat) : Crew :=
  { die := 8, asid := 1, launch := l, age := s.clock, state := .running, started := true, vallot := 64, startPts := 0 }

/-- The state in which the next step fetches and runs the instruction that some bytes begin with. -/
def loaded (s : State) (bs : List Byte) : State :=
  let ck := tnext s.crews
  let l := tnext s.launches
  let wk := 64 * ck
  let s := s.modDie 8 (fun d => { d with asids := tput d.asids 1 { base := loadTable, count := 1 } })
  let s := (s.write (keyOf 8 loadTable) (bytesOf 8 (2 ^ 63 + 2 ^ 60 + 4096) ++ bytesOf 8 loadCode)).write (keyOf 8 loadCode) bs
  let s := (s.putLaunch l { die := 8, asid := 1, kind := 1, age := s.clock }).putCrew ck (loadedCrew s l)
  let s := s.putWave wk {}
  { s.putThread (32 * wk) { state := .live, mask := BitVec.allOnes 32, readyAt := s.clock } with
    inputs := [], agenda := [], polled := s.threads.map (·.1), issued := s.threads.map (fun e => issuerOf e.1) }

end Sys2Proof.Machine
end

