-- ==== Sys2Proof/Machine/Step.lean ====
section
/-! DEFINITION. One step of the machine, and the state in which the next step runs a given instruction. -/

namespace Sys2Proof.Machine

/-- One step: what `plan` says. -/
def step (s : State) : Host.Outcome State Fault Refusal :=
  match plan s with
  | .run i u => exec i u
  | .out o => o

/-- The state with an instruction of the opcode table, zeros behind it, loaded where the next step fetches (log 1). -/
def State.withFetchWord (s : State) (nbits w : Nat) : State := loaded s (tableBytes nbits w)

end Sys2Proof.Machine
end

