-- ==== Sys2Proof/Safety.lean ====
section
/-! DEFINITION. The terms of the statements: memory in its canonical form, what an instruction may change (its frame), and where it goes
on. -/

namespace Sys2Proof.Machine

/-- Memory is in its canonical form: keys rise strictly, and no byte that reads 0 anyway is listed. -/
def Memory.wf (m : Table Byte) : Bool := tsorted m && m.all (fun e => e.2 != 0)

/-- A run of `n` steps that neither faults nor is refused. -/
def runs (n : Nat) (s t : State) : Prop := Sys2Proof.core.run n s = .next t

/-- What an instruction may change: registers of its own fragment and wave, by file, and, where it emits trace packets, the wave's trace
state and the ring in the crew's scratchpad. -/
structure Change where
  s : List Nat := []
  c : List Nat := []
  v : List Nat := []
  p : List Nat := []
  traced : Bool := false
  deriving DecidableEq, Repr

/-- The frame of an instruction: from `s` to `t` nothing has changed but what `x` names, and what issuing any instruction changes of its
own fragment: `pc`, readiness, position, hold, and the late writes of its wave (with `REPIDX` at the end of a `REP`). Memory, tags,
every other fragment, wave and crew, and every control register stand as before. -/
def Frame (x : Change) (s t : State) : Prop :=
  t = { s with threads := t.threads, waves := t.waves, crews := if x.traced then t.crews else s.crews } ∧
  (∀ k, k ≠ s.cur → t.thread k = s.thread k) ∧
  (∀ k, k ≠ s.curWk → t.wave k = s.wave k) ∧
  (∀ k, k ≠ s.curCk → t.crew k = s.crew k) ∧
  (∀ r, r ∉ x.s → t.curT.sreg r = s.curT.sreg r) ∧
  (∀ r, r ∉ x.c → t.curT.creg r = s.curT.creg r) ∧
  (∀ r L, r ∉ x.v → L < 32 → t.curW.vreg r L = s.curW.vreg r L) ∧
  (∀ r, r ∉ x.p → t.curW.preg r = s.curW.preg r) ∧
  t.curT.mask = s.curT.mask ∧ t.curT.joins = s.curT.joins ∧ t.curT.age = s.curT.age ∧ t.curT.state = s.curT.state ∧
  t.curW = { s.curW with
    v := t.curW.v, p := t.curW.p, late := t.curW.late, repidx := if s.curT.rep.isSome then t.curW.repidx else s.curW.repidx
    tracectl := if x.traced then t.curW.tracectl else s.curW.tracectl
    traceLast := if x.traced then t.curW.traceLast else s.curW.traceLast
    tracePackets := if x.traced then t.curW.tracePackets else s.curW.tracePackets } ∧
  t.curC = { s.curC with scratch := t.curC.scratch, scratchPoison := t.curC.scratchPoison }

/-- The fragment goes on behind the instruction, unless it is one iteration of a `REP`. -/
def Completes (s t : State) : Prop := s.curT.rep = none → t.curT.pc = s.curT.pc + word s.len

/-- Every byte of memory stands as before but those of a range and those of the leaf that the access came through (R147). -/
def MemoryKept (s t : State) (leaf : Option Nat) (key n : Nat) : Prop :=
  ∀ a, ¬ (key ≤ a ∧ a < key + n) → (∀ q, leaf = some q → ¬ (q ≤ a ∧ a < q + 8)) → t.byte a = s.byte a

end Sys2Proof.Machine
end

