-- ==== Sys2Proof/Certificates/Slice0/Obligations.lean ====
section
/-! DEFINITION. The statements for the provers. -/

open Sys2Proof Sys2Proof.Machine

namespace Sys2Proof.Claims

/-- What the scalar operations compute (R101, R103), from s[A], B, the old s[D] and the field X, in terms of integers and bits. -/
def scalarSpec (i : Instr) : Option (Word → Word → Word → BitVec 2 → Word) :=
  let flag (c : Bool) : Word := if c then 1 else 0
  match i with
  | .smov | .smovLit => some fun _ b _ _ => b
  | .sadd | .saddLit => some fun a b _ _ => BitVec.ofNat 64 (a.toNat + b.toNat)
  | .ssub | .ssubLit => some fun a b _ _ => BitVec.ofInt 64 (a.toInt - b.toInt)
  | .smul | .smulLit => some fun a b _ _ => BitVec.ofNat 64 (a.toNat * b.toNat)
  | .smulhi | .smulhiLit => some fun a b _ _ => BitVec.ofInt 64 (a.toInt * b.toInt / 2 ^ 64)
  | .smulhn | .smulhnLit => some fun a b _ _ => BitVec.ofNat 64 (a.toNat * b.toNat / 2 ^ 64)
  | .sand | .sandLit => some fun a b _ _ => a &&& b
  | .sor | .sorLit => some fun a b _ _ => a ||| b
  | .sxor | .sxorLit => some fun a b _ _ => a ^^^ b
  | .sshl | .sshlLit => some fun a b _ _ => BitVec.ofNat 64 (a.toNat * 2 ^ (b.toNat % 64))
  | .sshr | .sshrLit => some fun a b _ _ => BitVec.ofNat 64 (a.toNat / 2 ^ (b.toNat % 64))
  | .ssar | .ssarLit => some fun a b _ _ => BitVec.ofInt 64 (a.toInt / 2 ^ (b.toNat % 64))
  | .srol | .srolLit => some fun a b _ _ => a <<< (b.toNat % 64) ||| a >>> (64 - b.toNat % 64)
  | .smin | .sminLit => some fun a b _ _ => if a.toInt ≤ b.toInt then a else b
  | .smax | .smaxLit => some fun a b _ _ => if a.toInt ≤ b.toInt then b else a
  | .sminn | .sminnLit => some fun a b _ _ => if a.toNat ≤ b.toNat then a else b
  | .smaxn | .smaxnLit => some fun a b _ _ => if a.toNat ≤ b.toNat then b else a
  | .sclz => some fun a _ _ _ => BitVec.ofNat 64 ((List.range 65).find? (fun n => a.toNat < 2 ^ (64 - n) && (n == 64 || 2 ^ (63 - n) ≤ a.toNat))).get!
  | .spop => some fun a _ _ _ => BitVec.ofNat 64 ((List.range 64).countP (fun k => a.getLsbD k))
  | .sbfx | .sbfxLit => some fun a b _ x =>
    let pos := b.toNat % 64
    let w := min (b.toNat / 256 % 128) (64 - pos)
    let v := a.toNat / 2 ^ pos % 2 ^ w
    BitVec.ofInt 64 (if x.getLsbD 0 && 0 < w && 2 ^ (w - 1) ≤ v then (v : Int) - 2 ^ w else v)
  | .sbfi | .sbfiLit => some fun a b d _ =>
    let pos := b.toNat % 64
    let w := min (b.toNat / 256 % 128) (64 - pos)
    let m : Word := BitVec.ofNat 64 ((2 ^ w - 1) * 2 ^ pos)
    (d &&& ~~~m) ||| (a <<< pos &&& m)
  | .sseq | .sseqLit => some fun a b _ _ => flag (a == b)
  | .sslt | .ssltLit => some fun a b _ _ => flag (decide (a.toInt < b.toInt))
  | .ssltn | .ssltnLit => some fun a b _ _ => flag (decide (a.toNat < b.toNat))
  | .ssel | .sselLit => some fun a b d _ => if d = 0 then b else a
  | _ => none

/-- The divisions (R102), from s[A] and a divisor other than 0. -/
def divisionSpec (i : Instr) : Option (Word → Word → Word) :=
  match i with
  | .sdiv | .sdivLit => some fun a b => BitVec.ofInt 64 (a.toInt.tdiv b.toInt)
  | .sdivn | .sdivnLit => some fun a b => BitVec.ofNat 64 (a.toNat / b.toNat)
  | .srem | .sremLit => some fun a b => BitVec.ofInt 64 (a.toInt.tmod b.toInt)
  | .sremn | .sremnLit => some fun a b => BitVec.ofNat 64 (a.toNat % b.toNat)
  | _ => none

/-- A value in a scalar register that reads 0 and discards writes as s0 does (R32). -/
def inS (r : Nat) (v : Word) : Word := if r = 0 then 0 else v

/-- What the predicate operations put into p[D], in the lanes of the fragment (R108), from p[A], p[B] and B. -/
def predicateSpec (i : Instr) : Option (LaneMask → LaneMask → Word → LaneMask) :=
  match i with
  | .pand => some fun a b _ => a &&& b
  | .por => some fun a b _ => a ||| b
  | .pxor => some fun a b _ => a ^^^ b
  | .pandn => some fun a b _ => a &&& ~~~b
  | .pnot => some fun a _ _ => ~~~a
  | .pmov => some fun a _ _ => a
  | .pset | .psetLit => some fun _ _ w => w.extractLsb' 0 32
  | _ => none

/-- What the counts over p[A] put into s[D] (R108), from its lanes in the fragment. -/
def predicateCount (i : Instr) : Option (LaneMask → Word) :=
  match i with
  | .pget => some fun m => BitVec.ofNat 64 m.toNat
  | .pcnt => some fun m => BitVec.ofNat 64 ((List.range 32).countP (fun L => m.getLsbD L))
  | .pfirst => some fun m => BitVec.ofNat 64 (((List.range 32).find? (fun L => m.getLsbD L)).getD 32)
  | _ => none

/-- The fields of a capability: RIGHTS, G, BASE, LEN, OBJ, OFF and bits [1:0] (R140). -/
def capFields (c : Cap) : List Nat := [c.rights, c.g, c.base, c.len, c.obj, c.off, c.raw.toNat % 4]

/-- The fields and the tag that the capability operations leave in c[D] (R105, R106), from c[A] and B; none where B is refused. -/
def capabilitySpec (i : Instr) : Option (Cap → Word → Option (List Nat × Bool)) :=
  let sealed (c : Cap) : Bool := c.rights % 2 == 1
  let keep (c : Cap) (off : Nat) : Option (List Nat × Bool) :=
    some ([c.rights, c.g, c.base, c.len, c.obj, off, c.raw.toNat % 4], c.tag && !sealed c)
  match i with
  | .cmov => some fun c _ => some (capFields c, c.tag)
  | .cadd | .caddLit => some fun c b => keep c ((c.off + b.toNat) % 2 ^ 44)
  | .csetoff | .csetoffLit => some fun c b => keep c (b.toNat % 2 ^ 44)
  | .cred | .credLit => some fun c b =>
    if b.toNat < 256 then some ([c.rights &&& b.toNat, c.g, c.base, c.len, c.obj, c.off, c.raw.toNat % 4], c.tag && !sealed c) else none
  | .cwin | .cwinLit => some fun c b =>
    let g := b.toNat / 2 ^ 36 % 64
    let len := b.toNat / 2 ^ 18 % 2 ^ 18
    let base := b.toNat % 2 ^ 18
    let lo := if 26 < c.g then 0 else c.base * 2 ^ c.g
    let hi := if 26 < c.g then 0 else (c.base + c.len) * 2 ^ c.g
    if b.toNat < 2 ^ 42 ∧ g ≤ 26 then
      some ([c.rights, g, base, len, c.obj, c.off, c.raw.toNat % 4],
        c.tag && !sealed c && (len == 0 || decide (lo ≤ base * 2 ^ g ∧ (base + len) * 2 ^ g ≤ hi)))
    else none
  | _ => none

/-- What the loads put where (R104, R107): the bytes read, and from them and the granule's tag the register write that is due. -/
def loadSpec (i : Instr) : Option (Nat × (State → List Byte → Bool → RegWrite)) :=
  match i with
  | .sld | .sldLit => some (8, fun s bs _ => .s s.cur s.ir.d.toNat (BitVec.ofNat 64 (numOfBytes bs)))
  | .sldw | .sldwLit => some (4, fun s bs _ => .s s.cur s.ir.d.toNat
      (if s.ir.x.getLsbD 0 ∧ 2 ^ 31 ≤ numOfBytes bs then BitVec.ofInt 64 ((numOfBytes bs : Int) - 2 ^ 32) else BitVec.ofNat 64 (numOfBytes bs)))
  | .cld | .cldLit => some (16, fun s bs tag => .c s.cur s.ir.d.toNat ⟨BitVec.ofNat 128 (numOfBytes bs), tag && numOfBytes bs % 4 == 0⟩)
  | _ => none

/-- What the stores write (R104, R107): how many bytes, of which number, and with which tag. -/
def storeSpec (i : Instr) : Option (Nat × (State → Nat) × (State → Bool)) :=
  match i with
  | .sst | .sstLit => some (8, fun s => (readS s s.ir.d.toNat).toNat, fun _ => false)
  | .sstw | .sstwLit => some (4, fun s => (readS s s.ir.d.toNat).toNat, fun _ => false)
  | .cst | .cstLit => some (16, fun s => (readC s s.ir.d.toNat).raw.toNat, fun s => (readC s s.ir.d.toNat).tag)
  | _ => none

/-- The rights that the scalar accesses need (R104, R107, R141) and their sizes, which are their alignments. -/
def accessSpec (i : Instr) : Option (Nat × Nat) :=
  match i with
  | .sld | .sldLit => some (8, 128)
  | .sldw | .sldwLit => some (4, 128)
  | .cld | .cldLit => some (16, 128)
  | .sst | .sstLit => some (8, 64)
  | .sstw | .sstwLit => some (4, 64)
  | .cst | .cstLit => some (16, 64)
  | _ => none

/-- The branches (R109): whether they are taken, and whether they emit a trace packet (R416). -/
def branchSpec (i : Instr) : Option ((State → Bool) × Bool) :=
  let any (s : State) : Bool := (List.range 32).any (fun L => s.mask.getLsbD L && (readP s s.ir.a.toNat).getLsbD L)
  let all (s : State) : Bool := (List.range 32).all (fun L => !s.mask.getLsbD L || (readP s s.ir.a.toNat).getLsbD L)
  match i with
  | .br | .brLit => some (fun _ => true, false)
  | .brz | .brzLit => some (fun s => readS s s.ir.a.toNat == 0, true)
  | .brnz | .brnzLit => some (fun s => readS s s.ir.a.toNat != 0, true)
  | .brany | .branyLit => some (any, true)
  | .brall | .brallLit => some (all, true)
  | .brnone | .brnoneLit => some (fun s => !any s, true)
  | _ => none

/-- The target of a control transfer: the instruction's own address plus B (R109). -/
def goal (s : State) : Word := s.curT.pc + operandB s

/-- The wave's trace is on. -/
def tracing (s : State) : Bool := traceEn s.curW.tracectl

/-- The state when the accesses of a wave have completed and its SYNC set, if one is due at a trap, is written (R359, R417). -/
def settled (s : State) (k : Nat) : State := completeAccesses (traceSyncSet s k (s.thread k).pc) (waveOf k)

/-- A trap of fragment `k` can be entered at once (R359): no sequencer, nothing of its wave outstanding, no trap being handled, and
c15 a handler. -/
def canTrap (s : State) (k : Nat) : Prop :=
  isSequencer (waveOf k) = false ∧ s.openOf k = none ∧ commandsOutstanding s (waveOf k) = false ∧ (s.wave (waveOf k)).hm = false ∧
  handlerOk ((settled s k).crew (crewOf (waveOf k))) (((settled s k).thread k).creg 15) = true

/-- What trap entry does (R359): CAUSE, EPC, FADDR and FMASK, HM set with the fragment as the handler, s56 to s63 saved, and the fragment
at the OFF of its c15, ready in the next cycle. -/
def TrapTaken (s t : State) (k code detail : Nat) (faddr : Word) (fmask : LaneMask) (epc : Word) : Prop :=
  let w := t.wave (waveOf k)
  let x := (settled s k).thread k
  w.cause = BitVec.ofNat 64 (code + 256 * (detail % 256)) ∧ w.epc = epc ∧ w.faddr = faddr ∧ w.fmask = fmask ∧
  w.hm = true ∧ w.handler = some k ∧ w.shadow = (List.range 8).map (fun i => x.sreg (56 + i)) ∧
  (t.thread k).pc = BitVec.ofNat 64 (x.creg 15).off ∧ (t.thread k).state = .live ∧ (t.thread k).hold = none ∧
  (t.thread k).rep = none ∧ (t.thread k).readyAt = s.clock + 1 ∧ (t.thread k).mask = x.mask ∧
  (t.thread k).s = x.s ∧ (t.thread k).c = x.c

/-- A memory instruction is performed as it issues: it is not held, its path's counter is below 63 (R97), and no earlier instruction of the wave has
an access still to perform (R165). -/
def mayAccess (s : State) (path : Nat) : Prop := s.curT.hold = none ∧ s.curW.counter path < 63 ∧ earlierOpen s = false

/-- What a control register reads (R35 to R37): its number and its value. -/
def csrSpec (s : State) (n : Nat) : Option Nat :=
  let w := s.curW
  let c := s.curC
  match n with
  | 0x00 => some (c.vallot * 256 + c.prio * 16 + if w.hm then 1 else 0)
  | 0x01 => some w.cause.toNat
  | 0x02 => some w.epc.toNat
  | 0x03 => some w.faddr.toNat
  | 0x04 => some w.fmask.toNat
  | 0x05 => some w.repidx.toNat
  | 0x08 => some (if c.krate = 0 then 2 ^ 32 - 1 else c.kitty)
  | 0x09 => some c.krate
  | 0x11 => some (s.curWk % 64)
  | 0x12 => some c.crewid
  | 0x13 => some (c.core / 8)
  | 0x14 => some (c.core / 8 / (if c.die < 8 then 8 else 6))
  | 0x15 => some c.die
  | 0x16 => some (if c.die < 8 then 0 else 1)
  | 0x18 => some w.pts
  | 0x19 => some (s.clock - (s.die c.die).resetAt)
  | 0x10 =>
    let L := ((List.range 32).find? (fun L => s.mask.getLsbD L)).getD 32
    some (match tfind? w.lid L with | some v => v.toNat | none => 32 * (s.curWk % 64) + L)
  | 0x1A => some (if w.scbchk then 1 else 0)
  | 0x1B => some (if w.tracectl.toNat / 2 ^ 32 % 16 < 12 then w.tracectl.toNat else w.tracectl.toNat / 2 * 2)
  | 0x1C =>
    let n (x : ThreadState) : Nat := min 15 (s.threads.countP (fun e => waveOf e.1 == s.curWk && e.2.state == x))
    some (n .live + 256 * n .deferred)
  | _ => some 0

/-- How many lanes a mask names. -/
def lanesIn (m : LaneMask) : Nat := (List.range 32).countP (fun L => m.getLsbD L)

/-- A property of the one place, or of both places, of an access. -/
def AtPlaces (l : Loc) (P : Nat → Prop) : Prop := P l.key ∧ ∀ x, l.second = some x → P x.2

/-- Every byte of memory stands as before but the `n` bytes of an access and those of the leaf that it came through (R147). -/
def AccessKept (s t : State) (l : Loc) (n : Nat) : Prop :=
  ∀ a, (∀ j, j < n → a ≠ l.keyAt j) → (∀ q, l.leaf = some q → ¬ (q ≤ a ∧ a < q + 8)) → t.byte a = s.byte a

/-- The number that the `n` bytes of an access hold. -/
def numAt (s : State) (l : Loc) (n : Nat) : Nat := numOfBytes ((List.range n).map (fun j => s.byte (l.keyAt j)))

/-- Two bytes of an access of `n` bytes do not lie in one place. -/
def Apart (l : Loc) (n : Nat) : Prop := ∀ i j, i < j → j < n → l.keyAt i ≠ l.keyAt j

/-- The last of the values that the register writes of an access give, where `f` tells the writes of one register. -/
def lastWrite {α : Type} (ws : List RegWrite) (f : RegWrite → Option α) (old : α) : α := ((ws.filterMap f).getLast?).getD old

/-- The fragments of the current wave that are parked at a join record. -/
def ParkedAt (s : State) (r k : Nat) : Prop :=
  k ∈ s.threadsOf s.curWk ∧ k ≠ s.cur ∧ (s.thread k).state = .joined ∧ (s.thread k).joins.head? = some r

/-- The issuing fragment and those parked at the record hold every lane of the record that has not ended (R90). -/
def AllCome (s : State) (r : Nat) : Prop :=
  ∀ L, L < 32 → (((tget {} s.curW.joins r).expect &&& s.lanesLeft s.curWk).getLsbD L = true ↔
    s.mask.getLsbD L = true ∨ ∃ k, ParkedAt s r k ∧ (s.thread k).mask.getLsbD L = true)

/-- The ring address of byte `j` of a trace packet that starts at the count `w` (R413). -/
def ringByte (v : Word) (w j : Nat) : Nat :=
  (v.toNat / 2 ^ 8 % 2 ^ 19 / 16 * 16 + 16 + (w + j) % 2 ^ (v.toNat / 2 ^ 32 % 16 + 4)) % 2 ^ 19

/-! ### Numbers -/

/-- The rational number that a finite value is (R65, R68). -/
def rat : FVal → ℚ
  | .fin neg m e => (if neg then -1 else 1) * (m : ℚ) * (2 : ℚ) ^ e
  | _ => 0

/-- The value is neither a NaN nor an infinity. -/
def finite : FVal → Bool
  | .fin _ _ _ => true
  | _ => false

/-- The results of the special functions for -infinity, +infinity, -0 and +0 (R130). -/
def specialEnds (fn : Nat) : List Nat :=
  match fn with
  | 0 => [0, 0x7F800000, 0x3F800000, 0x3F800000]
  | 1 => [0x7FC00000, 0x7F800000, 0xFF800000, 0xFF800000]
  | 2 => [0x80000000, 0, 0xFF800000, 0x7F800000]
  | 3 => [0x7FC00000, 0, 0xFF800000, 0x7F800000]
  | 4 => [0x7FC00000, 0x7FC00000, 0x80000000, 0]
  | 5 => [0x7FC00000, 0x7FC00000, 0x3F800000, 0x3F800000]
  | _ => [0xBF800000, 0x3F800000, 0x80000000, 0]

/-- The exact cases of a special function (R130), for a finite operand of value `q` and its sign: the result's value, or its code. -/
def ExactCases (fn : Nat) (neg : Bool) (q : ℚ) (y : Nat) : Prop :=
  let is (v : ℚ) : Prop := finite (decodeF 10 y) = true ∧ rat (decodeF 10 y) = v
  match fn with
  | 0 => ∀ n : Int, -149 ≤ n → n ≤ 127 → q = n → is (2 ^ n)
  | 1 => (∀ n : Int, q = 2 ^ n → is n) ∧ (q < 0 → y = 0x7FC00000)
  | 2 => ∀ n : Int, -127 ≤ n → |q| = 2 ^ n → is q⁻¹
  | 3 => (∀ n : Int, q = 2 ^ (2 * n) → is (2 ^ (-n))) ∧ (q < 0 → y = 0x7FC00000)
  | 4 => ∀ n : Int, (q = n → y = if neg then 0x80000000 else 0) ∧ (q = n + 1 / 2 → is ((-1) ^ n))
  | 5 => ∀ n : Int, (q = n + 1 / 2 → y = 0) ∧ (q = n → is ((-1) ^ n))
  | _ => 9 ≤ |q| → y = if neg then 0xBF800000 else 0x3F800000

/-! ### Vector -/

/-- Sub-element `k` of lane `L` runs: its lane is one that the instruction still runs in, and the predicate selects it (R29). -/
def selected (s : State) (L k : Nat) : Bool :=
  s.lanes.getLsbD L && ((readP s (s.ir.p.toNat + if s.ir.subp then k else 0)).getLsbD L != s.ir.pn)

/-- After an instruction, element `k` (of width `w`) of lane `L` of v[D] holds f L k modulo 2^w where it is selected, and what it held
where not (R120). -/
def ElementsWritten (s t : State) (w : Nat) (f : Nat → Nat → Int) : Prop :=
  ∀ L k, L < 32 → k < 64 / w → (elem w k (t.curW.vreg s.ir.d.toNat L) : Int) =
    if selected s L k then f L k % 2 ^ w else (elem w k (s.curW.vreg s.ir.d.toNat L) : Int)

/-- The width of the type of an instruction. -/
def wd (s : State) : Nat := widthOf s.ir.t.toNat
/-- T is a signed integer type (R30). -/
def isI (s : State) : Bool := decide (s.ir.t.toNat < 4)
/-- An element's value: two's complement for a signed integer type (R121). -/
def val (s : State) (x : Nat) : Int := if isI s && decide (2 ^ (wd s - 1) ≤ x) then (x : Int) - 2 ^ wd s else x
/-- The exact integer saturated into T where SAT = 1 (R28). -/
def sat (s : State) (x : Int) : Int :=
  if !s.ir.sat then x
  else if isI s then (if x < -(2 ^ (wd s - 1)) then -(2 ^ (wd s - 1)) else if 2 ^ (wd s - 1) ≤ x then 2 ^ (wd s - 1) - 1 else x)
  else if x < 0 then 0 else if 2 ^ wd s ≤ x then 2 ^ wd s - 1 else x

/-- The integer operations of class 0x60 (R121, R122), VMOV (R123), VCMPM (R126), from the elements after their modifiers. -/
def integerSpec (i : Instr) : Option (State → Nat → Nat → Int) :=
  let a (s : State) (L k : Nat) : Nat := elemA s L k
  let b (s : State) (L k : Nat) : Nat := elemB s L k
  let c (s : State) (L k : Nat) : Nat := elemC s L k
  let d (s : State) (L k : Nat) : Nat := elem (wd s) k (readV s (wd s) s.ir.d.toNat L)
  let sh (s : State) (L k : Nat) : Nat := b s L k % wd s
  let pos (s : State) : Nat := s.ir.imm.toNat % 64
  let wf (s : State) : Nat := min (s.ir.imm.toNat / 2 ^ 8 % 128) (wd s - pos s)
  match i with
  | .vadd => some fun s L k => sat s (val s (a s L k) + val s (b s L k))
  | .vsub => some fun s L k => sat s (val s (a s L k) - val s (b s L k))
  | .vmul => some fun s L k => sat s (val s (a s L k) * val s (b s L k))
  | .vmulh => some fun s L k => val s (a s L k) * val s (b s L k) / 2 ^ wd s
  | .vmad => some fun s L k => sat s (val s (a s L k) * val s (b s L k) + val s (c s L k))
  | .vmin => some fun s L k => min (val s (a s L k)) (val s (b s L k))
  | .vmax => some fun s L k => max (val s (a s L k)) (val s (b s L k))
  | .vabs => some fun s L k => sat s |val s (a s L k)|
  | .vneg => some fun s L k => sat s (-val s (a s L k))
  | .vand => some fun s L k => (a s L k &&& b s L k : Nat)
  | .vor => some fun s L k => (a s L k ||| b s L k : Nat)
  | .vxor => some fun s L k => (a s L k ^^^ b s L k : Nat)
  | .vandn => some fun s L k => (a s L k &&& (2 ^ wd s - 1 - b s L k) : Nat)
  | .vshl => some fun s L k => a s L k * 2 ^ sh s L k
  | .vshr => some fun s L k => a s L k / 2 ^ sh s L k
  | .vsar => some fun s L k => (if 2 ^ (wd s - 1) ≤ a s L k then (a s L k : Int) - 2 ^ wd s else a s L k) / 2 ^ sh s L k
  | .vrot => some fun s L k => a s L k * 2 ^ sh s L k + a s L k / 2 ^ (wd s - sh s L k)
  | .vclz => some fun s L k => ((List.range (wd s + 1)).find? (fun n => decide (a s L k < 2 ^ (wd s - n)) &&
      (n == wd s || decide (2 ^ (wd s - n - 1) ≤ a s L k)))).getD 0
  | .vpop => some fun s L k => (List.range (wd s)).countP (fun j => a s L k / 2 ^ j % 2 = 1)
  | .vbfx => some fun s L k =>
    let v := a s L k / 2 ^ pos s % 2 ^ wf s
    if isI s && decide (0 < wf s) && decide (2 ^ (wf s - 1) ≤ v) then (v : Int) - 2 ^ wf s else v
  | .vbfi => some fun s L k =>
    (d s L k : Int) - (d s L k / 2 ^ pos s % 2 ^ wf s : Nat) * 2 ^ pos s + (a s L k % 2 ^ wf s : Nat) * 2 ^ pos s
  | .vsel => some fun s L k => if c s L k = 0 then b s L k else a s L k
  | .vmov => some fun s L k =>
    match s.ir.imm.toNat % 16 with
    | 0 => elem (wd s) k (Machine.vecB s (wd s) L)
    | 1 => ((tfind? s.curW.lid L).getD (word (32 * (s.curWk % 64) + L))).toNat
    | 2 => L
    | _ => 64 / wd s * L + k
  | .vcmpm => some fun s L k => if condition s.ir.cc.toNat (compareElems s.ir.t.toNat (a s L k) (b s L k)) then 2 ^ wd s - 1 else 0
  | _ => none

/-- The element operations on floats of classes 0x61, 0x64 and 0x67 (R124, R125, R130, R138): exact arithmetic on the values of the
elements after their modifiers, rounded once into T. A NaN of an operand is the result, the first in the order A, B, C (R66). -/
def floatSpec (i : Instr) : Option (State → Nat → Nat → Int) :=
  let a (s : State) (L k : Nat) : FVal := decodeF s.ir.t.toNat (elemA s L k)
  let b (s : State) (L k : Nat) : FVal := decodeF s.ir.t.toNat (elemB s L k)
  let c (s : State) (L k : Nat) : FVal := decodeF s.ir.t.toNat (elemC s L k)
  let rm (s : State) : Nat := s.ir.rm.toNat
  let r (s : State) (v : FVal) : Int := roundF s.ir.t.toNat s.ir.rm.toNat s.ir.sat v
  let fused (s : State) (x y z : FVal) : FVal := if (mulV x y).isNan then mulV x y else addV s.ir.rm.toNat (mulV x y) z
  let n (s : State) (L k : Nat) : Int :=
    let x := elem (wd s) k (Machine.vecB s (wd s) L)
    if 2 ^ (wd s - 1) ≤ x then (x : Int) - 2 ^ wd s else x
  match i with
  | .vfadd => some fun s L k => r s (firstNan [a s L k, b s L k] (addV (rm s) (a s L k) (b s L k)))
  | .vfsub => some fun s L k => r s (firstNan [a s L k, b s L k] (addV (rm s) (a s L k) (b s L k).negate))
  | .vfmul => some fun s L k => r s (firstNan [a s L k, b s L k] (mulV (a s L k) (b s L k)))
  | .vfma => some fun s L k => r s (firstNan [a s L k, b s L k, c s L k] (fused s (a s L k) (b s L k) (c s L k)))
  | .vfms => some fun s L k => r s (firstNan [a s L k, b s L k, c s L k] (fused s (a s L k) (b s L k) (c s L k).negate))
  | .vfmin => some fun s L k => r s
    (if (a s L k).isNan then (if (b s L k).isNan then a s L k else b s L k)
     else if (b s L k).isNan then a s L k else if lessV (b s L k) (a s L k) then b s L k else a s L k)
  | .vfmax => some fun s L k => r s
    (if (a s L k).isNan then (if (b s L k).isNan then a s L k else b s L k)
     else if (b s L k).isNan then a s L k else if lessV (a s L k) (b s L k) then b s L k else a s L k)
  | .vfabs => some fun s L k => elemA s L k % 2 ^ (wd s - 1)
  | .vfneg => some fun s L k => (elemA s L k ^^^ 2 ^ (wd s - 1) : Nat)
  | .vfrnd => some fun s L k => r s (integralF (rm s) (a s L k))
  | .vfcls => some fun s L k => classMask s.ir.t.toNat (elemA s L k)
  | .vfsqt => some fun s L k => r s (sqrtF (a s L k))
  | .vfscl => some fun s L k => r s ((a s L k).scale (max (-16384) (min 16384 (n s L k))))
  | .vex2 => some fun s L k => specialIn 0 s.ir.t.toNat (elemA s L k)
  | .vlg2 => some fun s L k => specialIn 1 s.ir.t.toNat (elemA s L k)
  | .vrcp => some fun s L k => specialIn 2 s.ir.t.toNat (elemA s L k)
  | .vrsq => some fun s L k => specialIn 3 s.ir.t.toNat (elemA s L k)
  | .vsin => some fun s L k => specialIn 4 s.ir.t.toNat (elemA s L k)
  | .vcos => some fun s L k => specialIn 5 s.ir.t.toNat (elemA s L k)
  | .vtanh => some fun s L k => specialIn 6 s.ir.t.toNat (elemA s L k)
  | .vrng => some fun s L k =>
    let key := (Machine.vecB s 64 L).toNat
    let x : Nat := elem 32 k (Machine.vecA s 32 L) ^^^ key % 2 ^ 32
    let x : Nat := x * 0x3A8F05C5 % 2 ^ 32
    let x : Nat := x ^^^ x / 2 ^ 15
    let x : Nat := (x + key / 2 ^ 32) % 2 ^ 32
    let x : Nat := x * 0x91E10DA7 % 2 ^ 32
    let x : Nat := x ^^^ x / 2 ^ 16
    if s.ir.t.toNat = 6 then x else roundF 10 0 false (.fin false (x / 2 ^ 8) (-24))
  | _ => none

/-- VFDOT's result in 32-bit element `j` (R125): the exact sum of c and two products, rounded once; the first NaN in the order A, B, A, B, C; an
invalid product or sum gives the default NaN. -/
def dotSpec (s : State) (L j : Nat) : Nat :=
  let a (k : Nat) : FVal := decodeF s.ir.t.toNat (elemA s L k)
  let b (k : Nat) : FVal := decodeF s.ir.t.toNat (elemB s L k)
  let c := decodeF 10 (elem 32 j (Machine.vecC s 32 L))
  let p := mulV (a (2 * j)) (b (2 * j))
  let q := mulV (a (2 * j + 1)) (b (2 * j + 1))
  let t := addV s.ir.rm.toNat p q
  roundF 10 s.ir.rm.toNat s.ir.sat
    (firstNan [a (2 * j), b (2 * j), a (2 * j + 1), b (2 * j + 1), c, p, q] (if t.isNan then t else addV s.ir.rm.toNat t c))

/-- The flat index of element `k` of lane `L` names it (R132, R133). -/
def flat (s : State) (e : Nat) : Nat := elem (wd s) (e % (64 / wd s)) (Machine.vecA s (wd s) (e / (64 / wd s)))

/-- The elements of v[A] that the fragment's predication selects, in ascending flat index, with their indices (R134). -/
def chosen (s : State) : List (Nat × Nat) :=
  ((List.range (32 * (64 / wd s))).filter (fun e => selected s (e / (64 / wd s)) (e % (64 / wd s)))).map (fun e => (e, flat s e))

/-- The operand types and orders that a reduction accepts (R134): MOD `op`, order `ord`, type `ty`. -/
def reduces (ty op ord : Nat) : Prop :=
  (ty < 8 ∧ op ≤ 5 ∧ ord = 0) ∨ (8 ≤ ty ∧ ty ≤ 11 ∧ op ≤ 2 ∧ ord = 0) ∨ (ty = 10 ∧ op = 0 ∧ ord ≤ 2)

/-- What an integer reduction makes of some elements (R134): the exact sum, saturated where SAT = 1; an extreme; a bitwise combination. -/
def reducedInt (s : State) (op : Nat) (xs : List Nat) : Int :=
  match op with
  | 0 => sat s (xs.map (val s)).sum
  | 1 => ((xs.map (val s)).min?).getD 0
  | 2 => ((xs.map (val s)).max?).getD 0
  | 3 => (xs.foldl (· &&& ·) (2 ^ wd s - 1) : Nat)
  | 4 => (xs.foldl (· ||| ·) 0 : Nat)
  | _ => (xs.foldl (· ^^^ ·) 0 : Nat)

/-- What a sum makes of terms among which a NaN or an infinity is (R79, R81). -/
def specialSum (vs : List FVal) : Nat :=
  if vs.any (fun v => v.isNan) || (vs.contains (.inf false) && vs.contains (.inf true)) then 0x7FC00000
  else if vs.contains (.inf false) then 0x7F800000 else 0xFF800000

/-- The result `r` of a reduction of some elements, of which there is one at least (R134): sums of floats in the three orders of R77 to R81, and extremes that
skip NaNs (R125). -/
def Reduced (s : State) (op ord : Nat) (xs : List Nat) (r : Nat) : Prop :=
  let ty := s.ir.t.toNat
  let rm := s.ir.rm.toNat
  let dec (x : Nat) : FVal := decodeF ty x
  let vs := xs.map dec
  let total : ℚ := (vs.map rat).sum
  let size : ℚ := (vs.map (fun v => |rat v|)).sum
  let numbers := xs.filter (fun x => !(dec x).isNan)
  let first (less : FVal → FVal → Bool) : Nat := match numbers.find? (fun x => numbers.all (fun y => !less (dec y) (dec x))) with
    | some x => x
    | none => roundF ty 0 false defaultNan
  if ty < 8 then (r : Int) % 2 ^ wd s = reducedInt s op xs % 2 ^ wd s
  else if op = 1 then r = first lessV
  else if op = 2 then r = first (fun a b => lessV b a)
  else if ord = 0 then
    r = xs.foldl (fun acc x => roundF ty rm false (firstNan [dec acc, dec x] (addV rm (dec acc) (dec x)))) (2 ^ (wd s - 1))
  else if vs.all finite = false then r = specialSum vs
  else if ord = 1 then (total = 0 → r = 0) ∧ (total ≠ 0 → ∀ v, finite v = true → rat v = total → r = roundF 10 rm false v)
  else size ≤ (2 ^ 24 - 1) * 2 ^ 104 → finite (decodeF 10 r) = true ∧
    |rat (decodeF 10 r) - total| ≤ (xs.length + 1) * (1 / 2 ^ 24) * size + (xs.length + 1) * (1 / 2 ^ 149)

/-- The identity of a reduction (R135): 0 or -0; the type's largest or smallest value or an infinity; all ones. -/
def identitySpec (s : State) (op : Nat) : Int :=
  let ty := s.ir.t.toNat
  let inf : Nat := match ty with | 8 => 0x7C00 | 9 => 0x7F80 | 10 => 0x7F800000 | _ => 0x7FF0000000000000
  if ty < 8 then
    match op with
    | 1 => if isI s then 2 ^ (wd s - 1) - 1 else 2 ^ wd s - 1
    | 2 => if isI s then -(2 ^ (wd s - 1)) else 0
    | 3 => 2 ^ wd s - 1
    | _ => 0
  else match op with
    | 1 => inf
    | 2 => 2 ^ (wd s - 1) + inf
    | _ => 2 ^ (wd s - 1)

/-- The condition of VCMP for elements that compare as given (R126): none is unordered. -/
def holds (cc : Nat) (o : Option Ordering) : Bool :=
  match cc with
  | 0 => o == some .eq
  | 1 => o != some .eq
  | 2 => o == some .lt
  | 3 => o == some .lt || o == some .eq
  | 4 => o == some .gt
  | 5 => o == some .gt || o == some .eq
  | 6 => o.isNone
  | _ => o.isSome

/-- The source type of a conversion, its part, and the number of elements converted (R127). -/
def cvt (s : State) : Nat × Nat × Nat :=
  (s.ir.imm.toNat % 16, s.ir.imm.toNat / 16 % 4, 64 / max (widthOf (s.ir.imm.toNat % 16)) (wd s))

/-- The block conversions (R128): how many registers each writes in a lane, and the number that they hold. -/
def blockSpec (i : Instr) : Option (State → Nat × (Nat → Nat)) :=
  match i with
  | .vsxp => some fun s => (blockRegs s.ir.mod.toNat, fun L => sxEncode s.ir.mod.toNat s.ir.rm.toNat s.ir.sat (runValues s 16 L))
  | .vsxu => some fun s => (8, fun L => packF32 ((List.range 16).map (fun k =>
      roundF 10 0 false (sxValue s.ir.mod.toNat (runNum s s.ir.a.toNat (blockRegs s.ir.mod.toNat) L) k))))
  | .vmxp => some fun s => (3, fun L =>
      let e := mxEncodeBlock s.ir.rm.toNat (runValues s 32 L)
      (List.range 32).foldl (fun r i => r + e.1.getD i 0 * 2 ^ (4 * i)) 0 + e.2 * 2 ^ 128)
  | .vmxu => some fun s => (16, fun L => packF32 ((List.range 32).map (fun k =>
      roundF 10 s.ir.rm.toNat false (mxValue (runNum s s.ir.a.toNat 3 L / 2 ^ 128 % 256) (runNum s s.ir.a.toNat 3 L / 2 ^ (4 * k) % 16)))))
  | _ => none

/-! ### Memory -/

/-- The loads of a lane, in order: where each went and what it read, and the state after them; none where one stops. -/
def loadRun (c : Cap) : List Piece → State → Option (State × List (Piece × Loc × List Byte))
  | [], u => some (u, [])
  | p :: rest, u =>
    match translate u u.curC.ctx c p.off p.n { rights := rightR, align := p.align } with
    | .error _ => none
    | .ok l =>
      match loadAt u u.curDie (some u.curC.core) u.curW.pts l p.n with
      | .error _ => none
      | .ok (u, g) => (loadRun c rest (raisePts u u.curWk g.ts)).map fun r => (r.1, (p, l, g.bytes) :: r.2)

/-- The loads of the lanes of a vector load, the lowest lane first (R161, R361). -/
def loadRuns (s : State) (block : Bool) : List Nat → State → Option (State × List (Nat × Piece × Loc × List Byte))
  | [], u => some (u, [])
  | L :: rest, u =>
    match loadRun (readC s s.ir.a.toNat) (piecesOf s block true L) u with
    | none => none
    | some (u, ps) => (loadRuns s block rest u).map fun r => (r.1, ps.map (fun q => (L, q)) ++ r.2)

/-- The width in which a store reads its registers: bytes for a block. -/
def storeWidth (s : State) (block : Bool) : Nat := if block then 8 else wd s

/-- The stores of the lanes of a vector store, the lowest lane first: a lane's places are all checked before it stores (R361). -/
def storeRuns (s : State) (block : Bool) : List Nat → State → Option (State × List (Nat × Piece × Loc))
  | [], u => some (u, [])
  | L :: rest, u =>
    match placePieces u (readC s s.ir.a.toNat) (piecesOf u block true L), storeLane block (readC s s.ir.a.toNat) u L with
    | .ok ps, (v, .ok _) => (storeRuns s block rest v).map fun r => (r.1, ps.map (fun q => (L, q)) ++ r.2)
    | _, _ => none

/-- The byte that the last of the stores to a place leaves there: none where no store goes to it, or its line is another die's. -/
def lastStored (s : State) (block : Bool) (rs : List (Nat × Piece × Loc)) (a : Nat) : Option Byte :=
  if isHost a || dieOfKey a == s.curDie then
    rs.reverse.findSome? (fun r => ((List.range r.2.1.n).reverse.find? (fun j => r.2.2.keyAt j == a)).map (fun j =>
      BitVec.ofNat 8 ((readV s (storeWidth s block) r.2.1.reg r.1).toNat / 2 ^ r.2.1.lo / 256 ^ j)))
  else none

/-- The byte lies in the extent leaf that an access came through (R147). -/
def inLeaf (l : Loc) (a : Nat) : Prop := ∃ q, l.leaf = some q ∧ q ≤ a ∧ a < q + 8

/-- Nothing but one access has been added to what is under way: path, register writes, counter; the fragment's, and every other
fragment's and wave's registers stand, and so does every crew. -/
def Issued (s t : State) (path : Nat) (writes : List RegWrite) : Prop :=
  (∃ id a, tfind? s.accesses id = none ∧ tfind? t.accesses id = some a ∧ a.wave = s.curWk ∧ a.path = path ∧ a.command = none ∧
    a.writes = writes ∧ s.clock < a.doneAt) ∧
  t.curW.counter path = s.curW.counter path + 1 ∧ s.curW.pts ≤ t.curW.pts ∧
  t.curT.s = s.curT.s ∧ t.curT.c = s.curT.c ∧ t.curT.mask = s.curT.mask ∧
  (∀ k, (t.wave k).v = (s.wave k).v ∧ (t.wave k).p = (s.wave k).p) ∧
  (∀ k, k ≠ s.cur → t.thread k = s.thread k) ∧ Completes s t

/-- The new value of an atomic (R170): operation, type, rounding mode, old value, operand or compare value, swap value. -/
def atomSpec (op t rm old x y : Nat) : Nat :=
  let w := widthOf t
  let v (n : Nat) : Int := if t < 4 ∧ 2 ^ (w - 1) ≤ n then (n : Int) - 2 ^ w else n
  match op with
  | 0 => (old + x) % 2 ^ w
  | 1 => if v x < v old then x else old
  | 2 => if v old < v x then x else old
  | 3 => old &&& x
  | 4 => old ||| x
  | 5 => old ^^^ x
  | 6 => x
  | 7 => if old = x then y else old
  | 8 => roundF t rm false (firstNan [decodeF t old, decodeF t x] (addV rm (decodeF t old) (decodeF t x)))
  | 9 => roundF t 0 false (minMaxF false (decodeF t old) (decodeF t x))
  | _ => roundF t 0 false (minMaxF true (decodeF t old) (decodeF t x))

/-- The atomics of the lanes of VATOM, the lowest lane first: the old values by lane and element; none where one stops. -/
def atomRuns (s : State) : List Nat → State → Option (State × List (Nat × AtomPiece × Nat) × List (AtomPiece × Loc))
  | [], u => some (u, [], [])
  | L :: rest, u =>
    match placeAtomics u (readC s s.ir.a.toNat) (wd s / 8) (atomPieces s true L) with
    | .error _ => none
    | .ok ps =>
      match probeAtomics (wd s / 8) ps u, performAtomics (wd s / 8) ps u with
      | some _, _ => none
      | none, .error _ => none
      | none, .ok (u, os) => (atomRuns s rest u).map fun r => (r.1, os.map (fun q => (L, q)) ++ r.2.1, ps ++ r.2.2)

/-- Atomics of `n` bytes one after the other on any memory: each has the place of its byte j, x and y; the old values, in order, and the
memory after them (R165, R170). -/
def atomFold (op t rm n : Nat) : List ((Nat → Nat) × Nat × Nat) → (Nat → Byte) → List Nat × (Nat → Byte)
  | [], m => ([], m)
  | q :: rest, m =>
    let old := numOfBytes ((List.range n).map (fun j => m (q.1 j)))
    let new := atomSpec op t rm old q.2.1 q.2.2
    let r := atomFold op t rm n rest (fun a =>
      match (List.range n).reverse.find? (fun j => q.1 j == a) with | some j => BitVec.ofNat 8 (new / 256 ^ j) | none => m a)
    (old :: r.1, r.2)

/-- The atomics of the current instruction on a memory. -/
def atomsOn (s : State) (qs : List ((Nat → Nat) × Nat × Nat)) (m : Nat → Byte) : List Nat × (Nat → Byte) :=
  atomFold (s.ir.imm.toNat / 2 ^ 28 % 16) s.ir.t.toNat s.ir.rm.toNat (wd s / 8) qs m

/-- The writes of the old values to v[D] (R171). -/
def oldWrites (s : State) (os : List (Nat × AtomPiece × Nat)) : List RegWrite :=
  if s.ir.mod.getLsbD 0 then os.map (fun q => .v s.ir.d.toNat q.1 (elemMask (wd s) q.2.1.k) (setElem (wd s) q.2.1.k 0 q.2.2)) else []

/-- A scratchpad address: modulo 2^19 (R153). -/
def spad (off : Int) : Nat := (off % 2 ^ 19).toNat

/-- The scratchpad atomics of SPATOM, the lowest lane first: lane, element, and the place and operands of each. -/
def scratchAtoms (s : State) : List (Nat × AtomPiece) := (activeLanes s (wd s)).flatMap (fun L => (atomPieces s false L).map (fun p => (L, p)))

/-- No piece of the lanes lies in a poisoned scratchpad word. -/
def unpoisoned (s : State) (block : Bool) (ls : List Nat) : Prop :=
  ∀ L ∈ ls, ∀ p ∈ piecesOf s block false L, s.curC.scratchPoisoned (spad p.off) p.n = none

/-! ### Synchronisation and units -/

/-- An instruction that completes, changes registers only as `x` says and no memory, and may change its own fragment's readiness, its crew
and the dies: every other fragment, wave and crew, and every access under way, stand. -/
def Quiet (x : Change) (s t : State) : Prop :=
  t.mem = s.mem ∧ t.accesses = s.accesses ∧ (∀ k, k ≠ s.cur → t.thread k = s.thread k) ∧ (∀ k, k ≠ s.curWk → t.wave k = s.wave k) ∧
  (∀ k, k ≠ s.curCk → t.crew k = s.crew k) ∧ (∀ r, r ∉ x.s → t.curT.sreg r = s.curT.sreg r) ∧ t.curT.c = s.curT.c ∧
  t.curW.v = s.curW.v ∧ (∀ r, r ∉ x.p → t.curW.preg r = s.curW.preg r) ∧ t.curT.mask = s.curT.mask ∧ Completes s t

/-- The fragment is held at the instruction (R189): nothing else changes. -/
def Waits (s t : State) : Prop :=
  t = { s with threads := t.threads } ∧ (∀ k, k ≠ s.cur → t.thread k = s.thread k) ∧
  ∃ h, t.curT = { s.curT with hold := some h, last := t.curT.last }

/-- The fragment is held at the instruction, as `Waits`, and its crew may hold a place for it. -/
def Queues (s t : State) : Prop :=
  t = { s with threads := t.threads, crews := t.crews } ∧ (∀ k, k ≠ s.cur → t.thread k = s.thread k) ∧
  (∀ k, k ≠ s.curCk → t.crew k = s.crew k) ∧ ∃ h, t.curT = { s.curT with hold := some h, last := t.curT.last }

/-- The instruction is not ready (R94): it has not issued, its issuer may issue another, and it is looked at again in the next cycle; its crew may keep
a place for it in the queue for the kitty (R227). -/
def NotReady (s t : State) : Prop :=
  t = { s with threads := t.threads, crews := t.crews, issued := s.issued.erase (issuerOf s.cur), passed := s.cur :: s.passed } ∧
  (∀ k, k ≠ s.cur → t.thread k = s.thread k) ∧ (∀ k, k ≠ s.curCk → t.crew k = s.crew k) ∧
  t.curC = { s.curC with kittyQueue := t.curC.kittyQueue } ∧
  t.curT = { s.curT with notReadyAt := some s.clock, rep := t.curT.rep }

/-- An outcome in p[D]: 1 or 0 in every lane of the fragment; p0 discards it (R32, R196). -/
def Outcome (s t : State) (v : Bool) : Prop :=
  ∀ L, L < 32 → (t.curW.preg s.ir.d.toNat).getLsbD L =
    (s.ir.d.toNat == 0 || (if s.mask.getLsbD L then v else (s.curW.preg s.ir.d.toNat).getLsbD L))

/-- A bit field of a number. -/
def fld (x lo n : Nat) : Nat := x / 2 ^ lo % 2 ^ n

/-- The reads of a record through c[A], 16 bytes at a time: where they went, the bytes, the tags; none where one stops. -/
def recordRun (c : Cap) : List Int → State → Option (State × List Loc × List Byte × List Bool)
  | [], u => some (u, [], [], [])
  | e :: rest, u =>
    match translate u u.curC.ctx c e 16 { rights := rightR } with
    | .error _ => none
    | .ok l =>
      match loadAt u u.curDie (some u.curC.core) (issuePts u) l 16 with
      | .error _ => none
      | .ok (u, g) => (recordRun c rest (accessedAt u g.ts)).map fun r => (r.1, l :: r.2.1, g.bytes ++ r.2.2.1, g.tag :: r.2.2.2)

/-- A record of `n` bytes at offset `e`, a multiple of 64, is read whole (R207, R209, R218). -/
def record (s : State) (e : Int) (n : Nat) : Option (State × List Loc × List Byte × List Bool) :=
  match translate s s.curC.ctx (readC s s.ir.a.toNat) e n { rights := rightR, align := 64 } with
  | .error _ => none
  | .ok _ => recordRun (readC s s.ir.a.toNat) ((List.range (n / 16)).map (fun j => e + (16 * j : Nat))) s

/-- An instruction that reads memory and completes: registers, counters, every other fragment and wave, and every byte but the marks of the
leaves read through, stand. -/
def Reads (s t : State) (ls : List Loc) : Prop :=
  (∀ a, (∀ l ∈ ls, ¬ inLeaf l a) → t.byte a = s.byte a) ∧ t.accesses = s.accesses ∧ (∀ k, k ≠ s.cur → t.thread k = s.thread k) ∧
  (∀ k, k ≠ s.curWk → t.wave k = s.wave k) ∧ t.curT.s = s.curT.s ∧ t.curT.c = s.curT.c ∧ t.curW.v = s.curW.v ∧ t.curW.p = s.curW.p ∧
  t.curW.counters = s.curW.counters ∧ t.curT.mask = s.curT.mask ∧ Completes s t

/-- A byte of a record. -/
def byteAt (bs : List Byte) (k : Nat) : Nat := (bs.getD k 0).toNat

/-- A number of two's-complement form. -/
def sgn (w x : Nat) : Int := if x < 2 ^ (w - 1) then (x : Int) else (x : Int) - 2 ^ w

/-- i_d of element n of a pattern (R206). -/
def dimAt (bs : List Byte) (n d : Nat) : Nat :=
  let count (d : Nat) : Nat := field bs (8 * d) 2
  match d with
  | 0 => n % count 0
  | 1 => n / count 0 % count 1
  | 2 => n / (count 0 * count 1) % count 2
  | _ => n / (count 0 * count 1 * count 2)

/-- off(n) of a pattern (R206), where `v` is what stands for i_d in its indirect dimension, if it has one. -/
def offAt (bs : List Byte) (n v : Nat) : Int :=
  let i (d : Nat) : Nat := if 128 ≤ byteAt bs 0x21 ∧ byteAt bs 0x21 % 4 = d then v else dimAt bs n d
  ((List.range 4).map (fun d => (i d : Int) * sgn 32 (field bs (8 * d + 4) 4))).sum

/-- The offset of element n of a pattern for an agent of a crew: with an index, which it loads as an engine does (R206). -/
def IndexRead (s : State) (ck : Nat) (p : PatternSlot) (n pts : Nat) (u : State) (o : Int) (q : Nat) : Prop :=
  if 128 ≤ byteAt p.record 0x21 then
    ∃ bs, o = offAt p.record n (numOfBytes bs) ∧ engineRead s (s.crew ck).ctx p.icap
      ((field p.record 0x28 8 + 4 * dimAt p.record n (byteAt p.record 0x21 % 4) : Nat) : Int) 4 pts engineR = .ok (u, bs, q)
  else u = s ∧ q = pts ∧ o = offAt p.record n 0

/-- An engine's read of one side of a copy (R211): the crew's scratchpad (16), or memory through a capability. -/
def SideRead (s : State) (ck sel : Nat) (c : Cap) (e : Int) (n p : Nat) (u : State) (bs : List Byte) (q : Nat) : Prop :=
  if sel = 16 then (s.crew ck).scratchPoisoned (spad e) n = none ∧ u = s ∧ q = p ∧ bs = (s.crew ck).scratchBytes (spad e) n
  else engineRead s (s.crew ck).ctx c e n p engineR = .ok (u, bs, q)

/-- An engine can write one side of a copy: the scratchpad always. -/
def CanWrite (s : State) (ck sel : Nat) (c : Cap) (e : Int) (bs : List Byte) (p : Nat) : Prop :=
  sel = 16 ∨ ∃ r, engineWrite s (s.crew ck).ctx c e bs p engineW = .ok r

/-- What the write of one side leaves: memory, the other scratchpad bytes, and its time. -/
def SideWritten (s t : State) (ck sel : Nat) (c : Cap) (e : Int) (bs : List Byte) (p q : Nat) : Prop :=
  if sel = 16 then t.mem = s.mem ∧ q = p ∧ (t.crew ck).scratchBytes (spad e) bs.length = bs ∧
    ∀ a, a < 2 ^ 19 → bs.length ≤ (a + 2 ^ 19 - spad e) % 2 ^ 19 → (t.crew ck).scratchByte a = (s.crew ck).scratchByte a
  else (t.crew ck).scratch = (s.crew ck).scratch ∧
    ∃ u, engineWrite s (s.crew ck).ctx c e bs p engineW = .ok (u, q) ∧ t.mem = u.mem ∧ t.tags = u.tags

/-- The leader's reads of the members' elements, in order, from a time on (R221, R222); none where one stops. -/
def giversRun (x : Collective) : List Nat → State → Nat → Option (State × List Nat × Nat)
  | [], u, p => some (u, [], p)
  | m :: rest, u, p =>
    let c := x.bufs.getD m {}
    let n := widthOf x.f.t.toNat / 8
    match engineRead u (u.crew (crewOf (waveOf x.thread))).ctx c ((c.off + x.next * n : Nat) : Int) n p { engineR with field := 3 } with
    | .error _ => none
    | .ok (u, bs, q) => (giversRun x rest u q).map fun r => (r.1, numOfBytes bs :: r.2.1, r.2.2)

/-- The number of elements of a pattern (R206). -/
def elements (bs : List Byte) : Nat := field bs 0 2 * field bs 8 2 * field bs 16 2 * field bs 24 2

/-- A step of an engine: every fragment and every other crew stands. -/
def EngineStep (s t : State) (ck : Nat) : Prop := t.threads = s.threads ∧ t.waves = s.waves ∧ (∀ k, k ≠ ck → t.crew k = s.crew k)

/-- The issue of the matrix instructions that become commands of their own (R226 to R245): the trap that their checks find (R363), the
counter that the command keeps (R97), and whether the fragment is held until the command has run. -/
def matrixIssue (i : Instr) : Option ((State → Option (Nat × Nat)) × Option Nat × Bool) :=
  let operand (s : State) : Option (Nat × Nat) :=
    if fld (readS s s.ir.a.toNat).toNat 40 24 ≠ 0 then some (0x30, 1)
    else if fld (operandB s).toNat 23 41 ≠ 0 ∨ fld (operandB s).toNat 20 3 = 7 then some (0x30, 2) else none
  let rows (s : State) : Bool := decide (64 < fld s.ir.imm.toNat 0 6 + fld s.ir.imm.toNat 6 6 + 1)
  let bad (c : Bool) : Option (Nat × Nat) := if c then some (0x30, 4) else none
  match i with
  | .mldaSp | .mldbSp => some (fun s => (operand s).orElse (fun _ => bad (loadBad s)), some 2, false)
  | .mldaReg | .mldbReg => some (fun s => bad (loadBad s), none, false)
  | .mma => some (fun s => bad (mmaBad s), none, false)
  | .mzero => some (fun s => bad (s.ir.imm.getLsbD 0 && decide (2 ≤ s.ir.d.toNat)), none, false)
  | .mrda => some (fun s => bad (rows s), none, true)
  | .mrdaSt => some (fun _ => none, none, true)
  | .mwra => some (fun s => bad (rows s), none, false)
  | .mbar => some (fun s => if s.ir.imm.toNat % 2 ^ 16 = 0 then some (0x30, 4)
      else if (readS s s.ir.a.toNat).toNat % 8 ≠ 0 then some (0x30, 1) else none, none, false)
  | .mrel => some (fun s => if 8 ≤ s.ir.d.toNat then some (0x30, 0) else none, none, false)
  | _ => none

/-- The current fragment's tag lets its next command be accepted: no live command has its id (R246). -/
def tagAllows (s : State) : Prop :=
  ∀ id a b, s.curT.tag = some (id, a, b) → id = 0 ∨ ∀ e ∈ s.curC.commands, e.2.id ≠ id

/-- The crew's kitty can pay for the instruction (R227). -/
def canPay (s : State) : Prop :=
  s.curC.krate = 0 ∨ ((s.curC.kittyQueue = [] ∨ s.curC.kittyQueue.head? = some s.cur) ∧ 2 ^ s.ir.ec.toNat ≤ s.curC.kitty)

/-- The kitty after it has paid. -/
def paid (s : State) : Nat := if s.curC.krate = 0 then s.curC.kitty else s.curC.kitty - 2 ^ s.ir.ec.toNat

/-- The engine has accepted one command of the current instruction (R224). -/
def Accepts (s t : State) (i : Instr) (m : MatrixCmd) : Prop :=
  (∃ key, thas s.curC.commands key = false ∧ tfind? t.curC.commands key = some m ∧
    ∀ j, j ≠ key → tfind? t.curC.commands j = tfind? s.curC.commands j) ∧
  m.op = i ∧ m.f = s.ir ∧ m.agents = [s.curWk] ∧ (i ≠ .mrel → m.opA = readS s s.ir.a.toNat) ∧ m.opB = operandB s ∧ m.pts = s.curW.pts ∧
  m.started = false ∧ m.id = (match s.curT.tag with | some x => x.1 | none => 0) ∧
  t.curT.tag = none ∧ t.curC.kitty = paid s ∧ t.mem = s.mem ∧ t.curT.s = s.curT.s ∧ t.curT.c = s.curT.c ∧ t.curW.v = s.curW.v ∧
  t.curW.p = s.curW.p ∧ (∀ k, k ≠ s.cur → t.thread k = s.thread k) ∧ (∀ k, k ≠ s.curCk → t.crew k = s.crew k)

/-- The commands that the current fragment's tag names have completed, and its id is free (R246). -/
def tagOpen (s : State) : Prop :=
  ∀ id a b, s.curT.tag = some (id, a, b) → ∀ n ∈ [id, a, b], n = 0 ∨ ∀ e ∈ s.curC.commands, e.2.id ≠ n

/-- The integer nearest a rational number, ties to even (R78). -/
def nearestInt (q : ℚ) : Int :=
  let f := ⌊q⌋
  if q - f < 1 / 2 then f else if 1 / 2 < q - f then f + 1 else if f % 2 = 0 then f else f + 1

/-- The exact state `y` is `x` after some terms were added, one at least, in any order (R78). -/
def ExactAdded (x : ExactState) (vs : List FVal) (y : ExactState) : Prop :=
  let big (neg : Bool) (v : FVal) : Prop := v = .inf neg ∨ (finite v = true ∧ (if neg then rat v ≤ -2 ^ 128 else (2 : ℚ) ^ 128 ≤ rat v))
  let small (v : FVal) : Bool := finite v && decide (|rat v| < 2 ^ 128)
  y.n = min (x.n + vs.length) (2 ^ 48 - 1) ∧ (y.nan = true ↔ x.nan = true ∨ ∃ v ∈ vs, v.isNan = true) ∧
  (y.pinf = true ↔ x.pinf = true ∨ ∃ v ∈ vs, big false v) ∧ (y.ninf = true ↔ x.ninf = true ∨ ∃ v ∈ vs, big true v) ∧
  (y.ovf = true ↔ x.ovf = true ∨ 2 ^ 42 ≤ y.n) ∧
  ((2 : Int) ^ 320 ∣ (y.q : Int) - (x.q : Int) - ((vs.filter small).map (fun v => nearestInt (rat v * 2 ^ 149))).sum)

/-- An exact state read into F32 gives `r` (R79). -/
def ExactReads (x : ExactState) (rm r : Nat) : Prop :=
  let q : Nat := x.q % 2 ^ 320
  let v : Int := if q < 2 ^ 319 then (q : Int) else (q : Int) - 2 ^ 320
  if x.nan = true ∨ x.ovf = true ∨ (x.pinf = true ∧ x.ninf = true) then r = 0x7FC00000
  else if x.pinf = true then r = 0x7F800000
  else if x.ninf = true then r = 0xFF800000
  else if v = 0 then r = 0 else r = roundF 10 rm false (.fin (decide (v < 0)) v.natAbs (-149))

/-- What a `.FREE` sum of `n` terms and a start, together `vs`, may give (R81). -/
def FreeSummed (n : Nat) (vs : List FVal) (r : Nat) : Prop :=
  let size : ℚ := (vs.map (fun v => |rat v|)).sum
  if vs.all finite = false then r = specialSum vs
  else size ≤ (2 ^ 24 - 1) * 2 ^ 104 → finite (decodeF 10 r) = true ∧
    |rat (decodeF 10 r) - (vs.map rat).sum| ≤ (n + 1) * (1 / 2 ^ 24) * size + (n + 1) * (1 / 2 ^ 149)

/-- The scratchpad address of word `j` of row `r` of tile `t` of an operand named by two scalars, with rows of `w` words (R154). -/
def operandWord (a b w t r j : Nat) : Nat :=
  let rho := (match fld b 20 3 with | 0 => 0 | 1 => r | 2 => r / 2 | 3 => r / 4 | 4 => 2 * r | 5 => 4 * r | _ => r / 8) % w
  (fld a 0 20 + t * fld b 0 20 + r * fld a 20 20 + 8 * ((j + rho) % w)) % 2 ^ 19

/-- The value that MSTA stores for element `j` of row `i` (R244). -/
def epilogueSpec (c : Crew) (m : MatrixCmd) (i j : Nat) : Nat :=
  let imm := m.f.imm.toNat
  let rm := m.f.rm.toNat
  let d := m.f.d.toNat
  let key := 4096 * d + 64 * (imm % 64 + i) + j
  let x := if (tget {} c.tileStatus d).exm then exactValue (tget {} c.exact key) else decodeF 10 (tget 0 c.tiles key).toNat
  let y := x.scale (sgn 6 (fld imm 16 6))
  let b := decodeF 10 (elem 32 (j % 2) (m.data.getD (j / 2) 0))
  let y := if m.f.imm.getLsbD 13 then firstNan [y, b] (addV rm y b) else y
  let y := if fld imm 14 2 = 1 ∧ y.isNan = false ∧ lessV (.fin false 0 0) y = false then .fin false 0 0 else y
  roundF m.f.t.toNat rm m.f.sat y

/-- The terms of element (i, j) of a product (R238): the exact products of run i of the A tile and run j of the B tile, scaled by both
reservations' exponents. -/
def terms (c : Crew) (ra rb : Resv) (ta tb i j : Nat) : List FVal :=
  (List.range (formatK ra.t ra.mod)).map (fun k =>
    (firstNan [operandElem c ra ta i k, operandElem c rb tb j k] (mulV (operandElem c ra ta i k) (operandElem c rb tb j k))).scale
      (ra.xoff + rb.xoff))

/-- The input's cursor stands in the queue that it reads, whose records follow one another up to the last appended (R264, R277). -/
def Consecutive (s : State) (i : Nat) : Prop :=
  ∀ u, (s.instance' i).upstream = some u → ∃ b, b ≤ (cursorOf s i).next ∧ b + (s.instance' u).records.length = (s.instance' u).nextSeq ∧
    thas (s.instance' u).cursors i = true ∧ ∀ j r, (s.instance' u).records[j]? = some r → r.seq = b + j

/-- What the `m`-th lane of a QTAKE receives (R258, R265, R279): the bytes, the sequence number, the frame marker and the time of its QPUT. -/
def Delivered (s : State) (i m : Nat) (bs : List Byte) (seq : Nat) (frame : Bool) (p : Nat) : Prop :=
  let c := cursorOf s i
  let real (j : Nat) : Prop := seq = c.next + j ∧
    match (s.instance' i).upstream with
    | none => bs = bytesOf 8 seq ∧ frame = decide (seq = 0) ∧ p = 0
    | some u => ∃ r ∈ (s.instance' u).records, r.seq = seq ∧ frame = r.frame ∧ p = r.pts ∧
        bs = if (s.instance' u).qloc = 0 then s.curC.scratchBytes (spSlot s u seq) (s.instance' u).qsize else r.bytes
  match c.gap, m with
  | none, m => real m
  | some _, m + 1 => real m
  | some (count, first, f), 0 => seq = 2 ^ 63 + first ∧ frame = f ∧ p = 0 ∧
      bs = if inputSize s i = 8 then bytesOf 4 (min count (2 ^ 32 - 1)) ++ bytesOf 4 first
        else bytesOf 8 count ++ bytesOf 8 first ++ List.replicate (inputSize s i - 16) 0

/-! ### Rays, levels of detail, hash encodings -/

/-- What the lanes of an instruction do in order, the lowest first, when none stops: the state after them and their register writes. -/
def lanesRun (f : State → Nat → Except (Int × Stop) (State × List RegWrite)) : List Nat → State → Option (State × List RegWrite)
  | [], u => some (u, [])
  | L :: rest, u =>
    match f u L with
    | .error _ => none
    | .ok (u, ws) => (lanesRun f rest u).map fun r => (r.1, ws ++ r.2)

/-- Whatever the caches hold and some bytes become, the places that a capability reaches are those of a contiguous object that starts at a
key; the die holds no other entry of the object than the one by which it translates now. -/
def Flat (s : State) (c : Cap) (base : Nat) (changed : Nat → Prop) : Prop :=
  ∀ v : State, (∀ k, ¬ changed k → v.byte k = s.byte k) → (∀ d, (v.die d).asids = (s.die d).asids) →
    (∀ w, tfind? (v.die s.curDie).held (heldKey s.curC.asid c.obj) = some w →
      entryOf s s.curDie s.curC.asid c.obj = some ⟨w.1, w.2.1, w.2.2.1, w.2.2.2⟩) → ∀ (e : Int) (n : Nat) (need : Need) (l : Loc),
    translate v s.curC.ctx c e n need = .ok l → l.leaf = none ∧ l.key = base + e.toNat ∧ ∀ j, j < n → l.keyAt j = base + e.toNat + j

/-- The number of a finite F32, in units of 2^-149; none for an infinity or a NaN (R58). -/
def unitsF32 (x : Nat) : Option Int :=
  let e := x / 2 ^ 23 % 256
  let m := x % 2 ^ 23
  let n : Nat := if e = 0 then m else (2 ^ 23 + m) * 2 ^ (e - 1)
  if e = 255 then none else some (if x / 2 ^ 31 % 2 = 1 then -(n : Int) else n)

/-- A NaN of F32. -/
def isNanF32 (x : Nat) : Bool := x / 2 ^ 23 % 256 == 255 && x % 2 ^ 23 != 0

/-- A ray of R304 that has no meaning: a component is not finite, tmin or tmax is a NaN, the direction is 0, or tmin is above tmax. -/
def badRay (s : State) (L : Nat) : Bool :=
  let o (k : Nat) : Nat := (readV s 32 (s.ir.b.toNat + k) L).toNat % 2 ^ 32
  let d (k : Nat) : Nat := (readV s 32 (s.ir.c.toNat + k) L).toNat % 2 ^ 32
  let tmin := (readV s 32 s.ir.b.toNat L).toNat / 2 ^ 32
  let tmax := (readV s 32 (s.ir.b.toNat + 1) L).toNat / 2 ^ 32
  let above : Bool :=
    match unitsF32 tmin, unitsF32 tmax with
    | some a, some b => decide (b < a)
    | some _, none => tmax == 0xFF800000
    | none, some _ => tmin == 0x7F800000
    | none, none => tmin == 0x7F800000 && tmax == 0xFF800000
  (List.range 3).any (fun k => (unitsF32 (o k)).isNone || (unitsF32 (d k)).isNone) || isNanF32 tmin || isNanF32 tmax ||
    (List.range 3).all (fun k => unitsF32 (d k) == some 0) || above

/-- The value of a dyadic number. -/
def dyadicValue (a : Machine.Dyadic) : ℚ := (a.m : ℚ) / 2 ^ a.e

/-- The vector of the values of a point. -/
def pointValue (p : V3) : Fin 3 → ℚ := ![dyadicValue p.x, dyadicValue p.y, dyadicValue p.z]

/-- A full write of a vector register in a lane. -/
def laneWrite (r L v : Nat) : RegWrite := .v r L (BitVec.allOnes 64) (BitVec.ofNat 64 v)

/-- The rights that the level-of-detail instructions need, and what they do in a lane (R287, R293, R294). -/
def lodSpec (i : Instr) : Option (Nat × (LodObject → State → State → Nat → Except (Int × Stop) (State × List RegWrite))) :=
  match i with
  | .ldlod => some (rightR + rightL, fun h s u L => lodLane h (levelFromC s h L) false u L)
  | .ldlodp => some (rightR + rightL, fun h s u L =>
    let q := levelFromQuad s h ((List.range 32).map (fun M => (Machine.vecB s 32 M).toNat)) L
    lodLane h q.1 q.2 u L)
  | _ => none

/-- `y` is the code of type `t`, F32 or BF16, that a rational number rounds to, to nearest even (R74, R75): an infinity from half a step above the
largest number on; a zero of its sign. -/
def NearestTo (t : Nat) (q : ℚ) (y : Nat) : Prop :=
  let w := widthOf t
  let p := if t = 9 then 8 else 24
  y < 2 ^ w ∧ y / 2 ^ (w - 1) = (if q < 0 then 1 else 0) ∧
  if ((2 : ℚ) ^ p - 1 / 2) * 2 ^ (128 - p) ≤ |q| then y % 2 ^ (w - 1) = 255 * 2 ^ (w - 9)
  else finite (decodeF t y) = true ∧ ∀ c, c < 2 ^ w → finite (decodeF t c) = true → |rat (decodeF t y) - q| ≤ |rat (decodeF t c) - q| ∧
    (|rat (decodeF t y) - q| = |rat (decodeF t c) - q| → rat (decodeF t y) ≠ rat (decodeF t c) → y % 2 = 0)

/-- The scalar product of a direction and the vector product of two others. -/
def crossDot (a b d : Fin 3 → ℚ) : ℚ := (a 1 * b 2 - a 2 * b 1) * d 0 + (a 2 * b 0 - a 0 * b 2) * d 1 + (a 0 * b 1 - a 1 * b 0) * d 2

/-- A triangle record is a candidate of a ray (R305), with the codes of t, u and v and BACK. -/
def Candidate (q : Ray) (info : Option InstanceInfo) (mask : Nat) (b : List Byte) (tF uF vF : Nat) (back : Bool) : Prop :=
  (∀ i, info = some i → i.mask &&& mask ≠ 0) ∧
  ∃ (v0 v1 v2 : V3) (t u v : ℚ), triangleOf b = some (v0, v1, v2) ∧
    (let n := crossDot (fun k => pointValue v1 k - pointValue v0 k) (fun k => pointValue v2 k - pointValue v0 k) (pointValue q.d)
     n ≠ 0 ∧ (back = true ↔ 0 < n)) ∧ 0 ≤ u ∧ 0 ≤ v ∧ u + v ≤ 1 ∧
    (∀ k, pointValue q.o k + t * pointValue q.d k =
      pointValue v0 k + u * (pointValue v1 k - pointValue v0 k) + v * (pointValue v2 k - pointValue v0 k)) ∧
    NearestTo 10 t tF ∧ NearestTo 10 u uF ∧ NearestTo 10 v vF

/-- The hit that a candidate gives (R305): PRIM and GEOM of its record, INST and the shader index with the instance's. -/
def hitOf (info : Option InstanceInfo) (b : List Byte) (tF uF vF : Nat) (back : Bool) : Hit :=
  let inst := match info with | some i => i.inst | none => 0
  let base := match info with | some i => i.sbase | none => 0
  ⟨tF, uF, vF, field b 0x28 4, field b 0x24 4, inst, (base + field b 0x2C 2) % 4096, back⟩

/-- INST ‖ GEOM ‖ PRIM (R305). -/
def hitKey (h : Hit) : Nat := (h.inst * 2 ^ 32 + h.geom) * 2 ^ 32 + h.prim

/-- The reads of a leaf's triangles, in order; none where one stops. -/
def leafRun (cap : Cap) (b : List Byte) (off : Int) (c : Nat) : List Nat → State → Option (State × List (List Byte))
  | [], u => some (u, [])
  | i :: rest, u =>
    match waveRead u cap (childRecord b off c i) 64 { rights := rightR, align := 64 } with
    | .error _ => none
    | .ok (u, r) => (leafRun cap b off c rest u).map fun x => (x.1, r :: x.2)

/-- A node whose only child is the leaf in slot 0. -/
def OneLeaf (b : List Byte) : Prop := childKind b 0 = 2 ∧ ∀ k, 1 ≤ k → k < 8 → childKind b k = 0

/-- A bound of a query is at most a number, or at least. -/
def boundBelow (b : Bound) (x : ℚ) : Prop := match b with | .low => True | .num a => dyadicValue a ≤ x | .high => False
def boundAbove (b : Bound) (x : ℚ) : Prop := match b with | .low => False | .num a => x ≤ dyadicValue a | .high => True

/-- A query box meets a box, both closed (R309). -/
def MeetsBox (q : Query) (lo hi : Fin 3 → ℚ) : Prop :=
  ∀ k : Fin 3, boundBelow (q.lo.getD k .high) (hi k) ∧ boundAbove (q.hi.getD k .low) (lo k)

/-- The least and the greatest component of three points, by axis. -/
def leastOf (a b c : V3) (k : Fin 3) : ℚ := min (min (pointValue a k) (pointValue b k)) (pointValue c k)
def greatestOf (a b c : V3) (k : Fin 3) : ℚ := max (max (pointValue a k) (pointValue b k)) (pointValue c k)

/-- The arrivals at the REORD of a set, the current wave's with them (R313): thread, A, register mask, set. -/
def comeTo (s : State) (mask m : Nat) : List Arrival :=
  (s.curC.reord ++ if s.curT.hold = none then [(s.cur, s.ir.a.toNat, mask, m)] else []).filter (fun x => x.2.2.2 == m)

/-- The rendezvous of a set is complete (R313): every member that has not ended has arrived, from one fragment each, its counters are 0 and its
late writes have landed. -/
def Gathered (s : State) (mask m : Nat) : Prop :=
  let xs := comeTo s mask m
  (s.cur, s.ir.a.toNat, mask, m) ∈ xs ∧ xs.Pairwise (fun x y => waveOf x.1 ≠ waveOf y.1) ∧
  (∀ x ∈ xs, thas s.threads x.1 = true ∧ waveOf x.1 / 64 = s.curCk ∧ m / 2 ^ (waveOf x.1 % 64) % 2 = 1 ∧
    (x.1 = s.cur ∨ ∃ h, (s.thread x.1).hold = some h ∧ h.op = .reord) ∧ (∀ p, p < 6 → (s.wave (waveOf x.1)).counter p = 0) ∧
    ∀ l ∈ (s.wave (waveOf x.1)).late, l.landAt ≤ s.clock) ∧
  ∀ w, w < 32 → m / 2 ^ w % 2 = 1 → thas s.waves (64 * s.curCk + w) = true → (s.wave (64 * s.curCk + w)).ended = false →
    ∃ x ∈ xs, waveOf x.1 = 64 * s.curCk + w

/-- A position of the reordering (R314): a member's fragment and a lane of it. -/
def Position (s : State) (xs : List Arrival) (p : Nat × Nat) : Prop :=
  (∃ x ∈ xs, x.1 = p.1) ∧ p.2 < 32 ∧ (s.thread p.1).mask.getLsbD p.2 = true

/-- The order of the positions: by WID, then by lane. -/
def Before (p q : Nat × Nat) : Prop := waveOf p.1 < waveOf q.1 ∨ (p.1 = q.1 ∧ p.2 < q.2)

/-- The key of the lane at a position. -/
def reordKey (s : State) (p : Nat × Nat) : Nat := ((s.wave (waveOf p.1)).vreg s.ir.a.toNat p.2).toNat % 2 ^ 32

/-- What a lane carries, from `q` in `s` to `p` in `t`: the registers of the mask, the predicates and LID; the others stay. -/
def Carried (s t : State) (mask : Nat) (p q : Nat × Nat) : Prop :=
  let w := t.wave (waveOf p.1)
  let old := s.wave (waveOf p.1)
  let from' := s.wave (waveOf q.1)
  (∀ r, r < 64 → w.vreg r p.2 = if mask / 2 ^ r % 2 = 1 then from'.vreg r q.2 else old.vreg r p.2) ∧
  (∀ r, r < 32 → (w.preg r).getLsbD p.2 = (from'.preg r).getLsbD q.2) ∧
  lidOf w (waveOf p.1) p.2 = lidOf from' (waveOf q.1) q.2

/-- The code of type `t`, F32 or BF16, that a weighted sum gives (R289, R319): terms of weight 0 take no part; a NaN, or infinities of both signs, give
the default NaN, one sign of infinity itself, and the rest the exact sum rounded once. -/
def WeightedTo (t : Nat) (xs : List (ℚ × FVal)) (y : Nat) : Prop :=
  let us := xs.filter (fun x => decide (x.1 ≠ 0))
  let top := 255 * 2 ^ (widthOf t - 9)
  let has (v : FVal) : Bool := us.any (fun x => x.2 == v)
  if us.any (fun x => x.2.isNan) || (has (.inf false) && has (.inf true)) then y = top + 2 ^ (widthOf t - 10)
  else if has (.inf false) then y = top
  else if has (.inf true) then y = 2 ^ (widthOf t - 1) + top
  else NearestTo t ((us.map (fun x => x.1 * rat x.2)).sum) y

/-- The page and the object offset of a texel of a level, with its column and row clamped to the level (R283, R289). -/
def texelPlace (h : LodObject) (d : Nat) (i j : Int) : Nat × Nat :=
  let w := max 1 (h.w0 / 2 ^ d)
  let x := (max 0 (min i (w - 1))).toNat
  let y := (max 0 (min j (max 1 (h.h0 / 2 ^ d) - 1 : Nat))).toNat
  let p := y / 2 ^ h.th * ((w + 2 ^ h.tw - 1) / 2 ^ h.tw) + x / 2 ^ h.tw
  (p, h.loff d + 65536 * p + h.texel * (y % 2 ^ h.th * 2 ^ h.tw + x % 2 ^ h.tw))

/-- The map bit of a page of a level (R285). -/
def mapBitOf (s : State) (h : LodObject) (d p : Nat) : Bool :=
  (s.byte (keyOf h.die (h.map + (h.moff d + p) / 8))).getLsbD ((h.moff d + p) % 8)

/-- A page is resident: its map bit is 1 and, but for the tail, its leaf translates (R289, R393). -/
def Resident (s : State) (h : LodObject) (d p : Nat) : Prop := mapBitOf s h d p = true ∧ (d = h.tail ∨ leafPresent s h d p = true)

/-- The map byte and the leaf of a page can be read now, at the header's home. -/
def Charted (s : State) (h : LodObject) (d p : Nat) : Prop :=
  let a := h.map + (h.moff d + p) / 8
  let k := keyOf h.die a
  a % 2 ^ 52 / 2 ^ 48 ≠ 2 ∧ s.has k = true ∧ isHost k = false ∧ lineAway s (k / 64) = false ∧ s.poisoned k = false ∧
  walkPoisoned s h.die (some s.curC.core) h.asid h.obj h.root (h.loff d + 65536 * p) = false

/-- The first page of a list that is not resident. -/
def MissedAt (s : State) (h : LodObject) (d : Nat) (pages : List Nat) (p : Nat) : Prop :=
  ∃ i : Nat, pages[i]? = some p ∧ ¬ Resident s h d p ∧ ∀ j q : Nat, j < i → pages[j]? = some q → Resident s h d q

/-- The filter bit of a page (R291). -/
def filterOf (w p : Nat) : Nat := (w * 2 ^ 20 + p) * 0x9E3779B1 % 2 ^ 32 / 2 ^ 20

/-- The places of a page's feedback, at its home, and what the filter and the ring's counters hold: the filter byte, WPTR, RPTR and DROP (R284, R291). -/
def FeedbackAt (s : State) (h : LodObject) (w p fk wk : Nat) : Prop :=
  h.die = s.curDie ∧ ownPlaces s h [h.header + 0x100 + filterOf w p / 8, h.header + 0x18] = .ok [fk, wk] ∧ isHost fk = false ∧ isHost wk = false ∧
  s.poisoned fk = false ∧ s.poisoned wk = false ∧ (fk < wk ∨ wk + 24 ≤ fk)

/-- Corner `c` of a level for a position in units of 2^-149 (R318): its entry and its weight. -/
def cornerSpec (g : GridLevel) (q : List Nat) (c : Nat) : Nat × ℚ :=
  let x (a : Nat) : ℚ := (q.getD a 0 : ℚ) / 2 ^ 149 * g.n
  let i (a : Nat) : Nat := min ⌊x a⌋.toNat (g.n - 1)
  let b (a : Nat) : Nat := c / 2 ^ a % 2
  let f (a : Nat) : ℚ := if b a = 1 then x a - i a else 1 - (x a - i a)
  let e (a : Nat) : Nat := i a + b a
  (if (g.n + 1) ^ 3 ≤ 2 ^ g.tlog then e 0 + (g.n + 1) * (e 1 + (g.n + 1) * e 2)
   else (e 0 ^^^ (e 1 * 0x4F1BBCDD) ^^^ (e 2 * 0xA2C73E19)) % 2 ^ 32 % 2 ^ g.tlog, f 0 * f 1 * f 2)

/-- The F32 that a pooled column gives from the values of its rows (R324): by the order of IMM[1:0], from -0. -/
def PoolsTo (x : Fields) (ts : List FVal) (r : Nat) : Prop :=
  let rm := x.rm.toNat
  let zero : FVal := .fin true 0 0
  match x.imm.toNat % 4 with
  | 0 => r = roundF 10 rm false (ts.foldl (fun acc v => decodeF 10 (roundF 10 rm false (firstNan [acc, v] (addV rm acc v)))) zero)
  | 1 => ∃ y, ExactAdded {} (zero :: ts) y ∧ ExactReads y rm r
  | _ => FreeSummed ts.length (zero :: ts) r

/-- The rows of a bag, read in order by its indices; none where a read stops (R324, R325). -/
def bagRun (t : EmbedTable) (q4 : Bool) (col n : Nat) (c : Cap) (first : Nat) : List Nat → State → Option (State × List (List FVal))
  | [], u => some (u, [])
  | m :: rest, u =>
    match waveRead u c (c.off + 4 * (first + m) : Nat) 4 { field := 1, rights := rightR, align := 4 } with
    | .error _ => none
    | .ok (u, b) =>
      match readRow t q4 col n (numOfBytes b) u with
      | .error _ => none
      | .ok (u, r) => (bagRun t q4 col n c first rest u).map fun x => (x.1, r :: x.2)


/-! ### Crews and the front end -/

/-- A crew that waits to be placed on a die (R83, R156, R272): its stage, where it has one, is not closed (R281). -/
def waitsOn (s : State) (die ck : Nat) (c : Crew) : Prop :=
  c.die = die ∧ c.state = .waiting ∧ c.budgetHeld = false ∧ onClosed s c = false ∧
  ¬ (c.started = true ∧ allParked s ck = true)

/-- The first of its kind by a list of numbers compared from the left. -/
def FirstBy (key : Nat × Crew → List Nat) (ok : Nat × Crew → Prop) (s : State) (ck : Nat) (c : Crew) : Prop :=
  ok (ck, c) ∧ ∀ e ∈ s.crews, ok e → lexLt (key e) (key (ck, c)) = false

/-- The order among free cores (R83): the division with the most free cores, then the heat with the most, lower numbers first. -/
def coreKey (s : State) (die k : Nat) : List Nat :=
  let free := freeCores s die
  [256 - free.countP (fun j => divisionOf die j == divisionOf die k), divisionOf die k, 256 - free.countP (fun j => heatOf j == heatOf k),
    heatOf k, k]

/-- The waves of a crew in their first state (R85): fragment 0 of each at the kernel's entry with every lane, the argument block in its
registers, nothing in its vector registers and predicates. -/
def FreshWaves (s t : State) (ck : Nat) (entry : Word) (n : Nat) (args : Table Word) (cargs : Table Cap) (pts : Nat) (scb : Bool) : Prop :=
  ∀ w, w < n →
    t.thread (32 * (64 * ck + w)) = { state := .live, pc := entry, mask := BitVec.allOnes 32, s := args, c := cargs, age := s.clock,
                                      last := s.clock, readyAt := s.clock + 1 } ∧
    t.wave (64 * ck + w) = { pts := pts, scbchk := scb }

/-- A crew has been saved to the free frame `n` of its division (R256, R371, R372): its header stands there, no byte outside the frame has changed,
threads stand, and its waves keep everything but the late results, which have landed, and the place of an interrupted REP (R117). -/
def SavedInFrame (s t : State) (ck n : Nat) (c : Crew) : Prop :=
  let base := keyOf c.die (frameBase c.die n)
  (∀ a, ¬ (base ≤ a ∧ a < base + 2 ^ 22) → t.byte a = s.byte a) ∧
  t.num base 8 = c.asid % 2 ^ 64 ∧ t.num (base + 8) 8 = c.crewid % 2 ^ 64 ∧ t.num (base + 16) 8 = c.age % 2 ^ 64 ∧
  t.crew ck = { c with state := if c.stopFor = some 1 then .preempted else .waiting, frame := some n, stopFor := none, quarterErrors := [] } ∧
  t.threads = s.threads ∧ (∀ k, k ≠ ck → t.crew k = s.crew k) ∧ (∀ w, crewOf w ≠ ck → t.wave w = s.wave w) ∧
  (∀ w, thas s.waves w = true → crewOf w = ck → (∀ k ∈ s.threadsOf w, (s.thread k).rep = none) → t.wave w = { s.wave w with late := [] }) ∧
  (∀ w k r, thas s.waves w = true → crewOf w = ck → k ∈ s.threadsOf w → (s.thread k).rep = some r →
    (∀ j ∈ s.threadsOf w, j ≠ k → (s.thread j).rep = none) → t.wave w = { s.wave w with
      late := [], repidx := BitVec.ofNat 16 r.i, epc := if (s.wave w).handler.isNone then (s.thread k).pc else (s.wave w).epc })

/-- A crew that stops alone may be saved (R256, R371): everything of its has completed, `n` is a free frame, and no other die shares a line of it. -/
def maySave (s : State) (ck n : Nat) (c : Crew) : Prop :=
  tfind? s.crews ck = some c ∧ c.state = .stopping ∧ c.paired = false ∧ c.die < 12 ∧ c.vallot ≤ 64 ∧ drained s ck = true ∧
  (∀ w ∈ s.wavesOf ck, widOf w < 34) ∧ freeFrame s c.die (divisionOf c.die c.core) = some n ∧ frameShared s c.die n = []

/-- The share of KITTYRATE that a throttle level gives a priority class, in sixteenths (R407). -/
def refillShare (level cls : Nat) : Nat :=
  let row : List Nat := [[16, 16, 16, 16], [16, 16, 16, 8], [16, 16, 16, 0], [16, 16, 8, 0], [16, 16, 0, 0], [16, 8, 0, 0], [12, 4, 0, 0],
    [8, 0, 0, 0]].getD level []
  row.getD cls 0

/-- The occupancy of a stage's input over its capacity (R261). -/
def stageLoad (s : State) (i : Nat) : ℚ := (inputOccupancy s i : ℚ) / max 1 (inputCapacity s i)

/-- How many crews are on a stage. -/
def onStage (s : State) (i : Nat) : Nat := s.crews.countP (fun e => e.2.stage == some i && e.2.state != .ended)

/-- The stages that a pipeline is accountable for, in stage order (R280). -/
def stagesOf (s : State) (p : Nat) : List Nat := (s.pipeline p).path.filter (fun i => (s.instance' i).accountable == p && !(s.instance' i).closed)

/-- A stage may receive a crew (R261): its input is above the high mark, its output below, and it has fewer crews than MAXC. -/
def mayReceive (s : State) (i : Nat) : Prop :=
  let x := s.instance' i
  inputCapacity s i - inputCapacity s i / 4 < inputOccupancy s i ∧ (x.last = true ∨ outputOccupancy x < x.qcap - x.qcap / 4) ∧ onStage s i < x.maxc

/-- The receiver of R261: the fullest input among those that may receive, ties to the higher stage. -/
def Receiver (s : State) (p r : Nat) : Prop :=
  ∃ a : Nat, (stagesOf s p)[a]? = some r ∧ mayReceive s r ∧ ∀ b j : Nat, (stagesOf s p)[b]? = some j → mayReceive s j →
    stageLoad s j < stageLoad s r ∨ (stageLoad s j = stageLoad s r ∧ b ≤ a)

/-- The donor of R261: the emptiest input among the other stages with more crews than MINC, ties to the lower stage. -/
def Donor (s : State) (p r d : Nat) : Prop :=
  let gives (i : Nat) : Prop := i ≠ r ∧ (s.instance' i).minc < onStage s i
  ∃ a : Nat, (stagesOf s p)[a]? = some d ∧ gives d ∧ ∀ b j : Nat, (stagesOf s p)[b]? = some j → gives j →
    stageLoad s d < stageLoad s j ∨ (stageLoad s d = stageLoad s j ∧ a ≤ b)

/-- The lowest-numbered crew of a stage. -/
def FirstOn (s : State) (d k : Nat) : Prop :=
  ∃ c, tfind? s.crews k = some c ∧ c.stage = some d ∧ c.state ≠ .ended ∧
    ∀ e ∈ s.crews, e.2.stage = some d → e.2.state ≠ .ended → c.crewid < e.2.crewid ∨ (c.crewid = e.2.crewid ∧ k ≤ e.1)

/-- The age that a front-end log entry gives (R368; log 163): of the root of the launch that made the packet, 0 for a host's packet. -/
def packetAge (s : State) (x : Source) : Nat := match x.parent with | some l => (s.launch (s.rootLaunch l)).age | none => 0

/-- What starts a packet of each kind (R252, R258, R270, R255). -/
def packetStart (i : Instr) : Option (Nat × (State → Source → List Byte → Except Stop State)) :=
  match i with
  | .gridPacket => some (1, startGrid)
  | .bindPacket => some (2, startBind)
  | .nodePacket => some (3, readNode)
  | .signalPacket => some (4, readSignal)
  | _ => none

/-- A packet without a reserved value or a misplaced block (R250, R362, R424). -/
def packetGood (s : State) (die : Nat) (b : List Byte) : Prop :=
  packetOk b = true ∧ packetAligned b = true ∧ (pkKind b ≤ 2 → pkFlag b 0 = true → pairLeft s die = true)

/-! ### The host's commands -/

/-- The die of the event has answered a management command with STAT (R346): the count of answers, STAT and vector 0; every other part of
the die but `x` stands, and so does every other die. -/
def Answers (s t : State) (stat : Nat) (x : Die → Die) : Prop :=
  let die := s.ev.subject
  t.die die = { x (s.die die) with
    mgmtCount := (s.die die).mgmtCount + 1, mgmtStat := stat, msix := tput (s.die die).msix 0 (tget 0 (s.die die).msix 0 + 1) } ∧
  (∀ d, d ≠ die → t.die d = s.die d) ∧ t.crews = s.crews ∧ t.launches = s.launches ∧ t.accesses = s.accesses

/-- The management commands (R347). -/
def managementCommands : List Instr :=
  [.asidset, .inval, .exportObject, .unexport, .evsched, .lqopen, .lqclose, .telem, .capset, .reservedCommand]

/-- A command comes to a die that exists and has no other under way, not through its ring (R346; log 1). -/
def commandComes (s : State) : Prop :=
  s.ev.subject < 12 ∧ (s.die s.ev.subject).mgmtPending = none ∧ (s.die s.ev.subject).mgmtWait = [] ∧
    (s.die s.ev.subject).mgmtTelem = none ∧ s.ev.arg1 ≠ 1

/-- It has its reserved fields 0. -/
def goodCommand (s : State) : Prop := commandComes s ∧ s.ev.cmd.resv1 = 0 ∧ s.ev.cmd.asidField.toNat < 2 ^ 13

/-- The translation of an object is invalidated (R150, R336): the die keeps nothing of it. With no importer to be told the command is answered with STAT 0;
else each is told, and the answer waits for them. -/
def Invalidated (s t : State) (asid obj : Nat) : Prop :=
  let die := s.ev.subject
  let ds := importersOf s die asid obj
  t.mem = s.mem ∧ tfind? (t.die die).held (asid * 2 ^ 32 + obj) = none ∧
  (∀ k, ∀ x ∈ tget [] (t.die die).extents k, ¬ (x.asid = asid ∧ x.obj = obj)) ∧
  (ds = [] → (t.die die).mgmtStat = 0 ∧ (t.die die).mgmtCount = (s.die die).mgmtCount + 1) ∧
  (ds ≠ [] → (t.die die).mgmtCount = (s.die die).mgmtCount ∧ (t.die die).mgmtPending = some (0, false) ∧ (t.die die).mgmtWait = ds ∧
    ∀ d ∈ ds, ∃ id q, tfind? s.packets id = none ∧ tfind? t.packets id = some q ∧ q.kind = .peerInval ∧ q.src = die ∧ q.dst = d ∧
      q.op = exportsOf s die asid obj)

/-- Everything stands but the answer. -/
def OnlyAnswers (s t : State) (stat : Nat) : Prop := Answers s t stat id ∧ t = { s with dies := t.dies }

/-- An argument of a command lies outside the form that R347 states for it. -/
def badArguments (i : Instr) (c : MgmtCmd) : Prop :=
  let a := c.arg0.toNat
  let b := c.arg1.toNat
  (i = .asidset ∧ (b % 32 ≠ 0 ∨ 2 ^ 48 ≤ b ∨ 2 ^ 16 ≤ c.arg2.toNat)) ∨ (i = .exportObject ∧ (a / 8 % 2 = 1 ∨ 2 ^ 16 ≤ a)) ∨
  (i = .unexport ∧ fld a 12 4 ≠ 0) ∨ (i = .evsched ∧ (8 ≤ a ∨ 2 ^ 48 ≤ b)) ∨
  (i = .lqopen ∧ ((¬ ∃ k, 1 ≤ k ∧ k ≤ 16 ∧ a = 2 ^ k) ∨ 3 * 2 ^ 48 ≤ b)) ∨ (i = .lqclose ∧ 64 ≤ a) ∨ (i = .telem ∧ b / 2 ^ 48 ≠ 2) ∨
  (i = .capset ∧ b % 16 ≠ 0) ∨ i = .reservedCommand

/-- What a well-formed command asks for that the die's state does not allow (R347): a crew of the ASID that runs or waits; an object that may not be
exported or a capability without E or the rights asked, or no free slot; an id that names no export; no free queue; a destination that is not valid, a
peer's, too short or in space 2, or a capability that names no valid object or reaches beyond it. -/
def notAllowed (s : State) (i : Instr) : Prop :=
  let die := s.ev.subject
  let c := s.ev.cmd
  let asid := c.asidField.toNat
  let a := c.arg0.toNat
  let k := capOf (bytesOf 16 c.arg3.toNat) true
  let need := a / 4 % 2 * 128 + a / 2 % 2 * 64 + a % 2 * 16
  let exportOf (j : Nat) := tget (0, 0) (s.die die).exports j
  (i = .asidset ∧ ∃ e ∈ s.crews, e.2.die = die ∧ e.2.asid = asid ∧ e.2.state ≠ .ended) ∨
  (i = .exportObject ∧ (k.rights / 2 % 2 = 0 ∨ k.rights &&& need ≠ need ∨ entryOf s die asid k.obj = none ∨
    (∃ e, entryOf s die asid k.obj = some e ∧ (e.valid = false ∨ (e.kind ≠ 1 ∧ e.kind ≠ 2) ∨ 2 ≤ fld e.w1 48 4)) ∨
    ∀ j, j < 4096 → (exportOf j).1 / 2 ^ 63 % 2 = 1)) ∨
  (i = .unexport ∧ (fld (exportOf (a % 4096)).1 63 1 = 0 ∨ fld (exportOf (a % 4096)).2 48 16 ≠ fld a 16 16)) ∨
  (i = .lqopen ∧ ∀ q, q < 64 → ∃ x, tfind? (s.die die).hostQueues q = some x ∧ x.isOpen = true) ∨
  (i = .capset ∧ (entryOf s die asid a = none ∨ entryOf s die asid k.obj = none ∨
    (∃ e, entryOf s die asid a = some e ∧ (e.valid = false ∨ e.kind = 3 ∨ e.bound < c.arg1.toNat + 16 ∨
      (e.kind = 1 ∧ fld (e.w1 + c.arg1.toNat) 48 4 = 2))) ∨
    ∃ e, entryOf s die asid k.obj = some e ∧ (e.valid = false ∨ e.bound < k.window.2)))

/-- Nothing waits for a migration lock of an object. -/
def noneWaits (s : State) (request : Nat) : Prop :=
  (∀ e ∈ s.threads, ∀ a, e.2.park ≠ some (request, a)) ∧ ∀ e ∈ s.waves, request ∉ e.2.pages

/-- The waves that wait for a request wait no more for it, and those that wait for nothing else go on (R156); threads keep their
registers. -/
def Woken (s t : State) (request : Nat) : Prop :=
  (∀ k, (t.wave k).pages = (s.wave k).pages.filter (· != request)) ∧
  (∀ k, request ∈ (s.wave k).pages → ((t.wave k).parked = true ↔ (t.wave k).pages ≠ [])) ∧
  (∀ k a, (s.thread k).park = some (request, a) → (t.thread k).park = none) ∧
  (∀ k, (t.thread k).s = (s.thread k).s ∧ (t.thread k).c = (s.thread k).c ∧ (t.thread k).pc = (s.thread k).pc)

/-! ### Dies, the fabric and the module -/

/-- The event's packet is of a kind, is the next of its pair, its receiver takes it (R331, R337, R351), and the packet after it has not arrived. -/
def Arrives (s : State) (kind : PacketKind) (p : Packet) : Prop :=
  tfind? s.packets s.ev.subject = some p ∧ p.kind = kind ∧ p.taken = false ∧ deliverable s p = true ∧ acceptable s p = true ∧
  ∀ e ∈ s.packets, e.2.src = p.src → e.2.dst = p.dst → e.2.seq = p.seq + 1 → e.2.here = false

/-- The packet has been taken: the pair's sequence number is one higher, and every fragment and crew stands. -/
def TakenOff (s t : State) (p : Packet) : Prop :=
  tget 0 (t.die p.dst).recvSeq p.src = p.seq + 1 ∧ t.threads = s.threads ∧ t.crews = s.crews

/-- The line was granted to the packet's receiver in this cycle: its held store comes before the packet (R343). -/
def justGranted (s : State) (p : Packet) : Prop := ∃ r, tfind? (s.die p.dst).rdc p.line = some r ∧ r.grantedAt = some s.clock

/-- What XD has been told asks for a higher level (R355, R408). -/
def Strained (x : Module) : Prop := x.budget < x.power ∨ 105000 ≤ x.junction ∨ 40000 < x.inlet ∨ x.flow < 6000

/-- `n` microseconds have passed at the level's clock since a cycle, where there was one. -/
def Since (s : State) (t : Option Nat) (n : Nat) : Prop := ∀ c, t = some c → c + n * clockMHz s.xd.level ≤ s.clock

/-- A network request `q`, a PUT or not, starts from the state `u` at the time `p` (R350): it comes of its own, or is read from its ASID's ring. -/
def requestStarts (i : Instr) (s u : State) (put : Bool) (q : NetRequest) (p : Nat) : Prop :=
  (s.ev.arg1 ≠ 1 ∧ s.ev.arg1 ≠ 2 ∧ u = s ∧ p = hostTime s ∧ q = s.ev.net ∧ put = decide (i = .networkPut)) ∨
  (s.ev.arg1 = 1 ∧ ∃ b, takeRequest s s.ev.subject s.ev.net.asid = .ok (u, some (b, p)) ∧
    q = (requestOf s.ev.subject s.ev.net.asid b).2.net ∧ put = decide ((requestOf s.ev.subject s.ev.net.asid b).1 = .networkPut))
/-- A new packet is on its way. -/
def Sent (s t : State) (kind : PacketKind) (src dst line : Nat) (ok : Packet → Prop) : Prop :=
  ∃ id q, tfind? t.packets id = some q ∧ (tfind? s.packets id = none ∨ id = s.ev.subject) ∧ q.kind = kind ∧ q.src = src ∧ q.dst = dst ∧
    q.line = line ∧ q.incarnation = (s.die src).incarnation ∧ q.here = false ∧ q.lost = false ∧ s.clock < q.arriveAt ∧ ok q

/-- The requests that a home serves one at a time (R338 to R340). -/
def homeRequest (i : Instr) : Option (PacketKind × Nat) :=
  match i with
  | .rd => some (.rd, 0)
  | .rdx => some (.rdx, 1)
  | .upg => some (.upg, 2)
  | .at => some (.at', 3)
  | _ => none

/-- The request that a packet makes at the home. -/
def requestOf (p : Packet) (kind : Nat) : HomeRequest := { kind := kind, die := p.src, op := p.op, agent := p.agent }

/-- The line is idle at its home. -/
def idleLine (s : State) (line : Nat) : Prop := (s.dir line).busy = none ∧ (s.dir line).waiting = []

/-- The highest time that a die has granted for a line (R179). -/
def granted (s : State) (die line : Nat) : Nat :=
  max (tget 0 (s.die die).ghosts line) (match tfind? (s.die die).rdc line with | some r => r.mrts | none => 0)

/-- The module's log has one more entry, of a code and a DETAIL, unless it was full. -/
def ModuleLogs (s t : State) (code detail : Nat) : Prop :=
  s.xd.log.head - s.xd.log.tail < 256 → t.xd.log.head = s.xd.log.head + 1 ∧ t.xd.log.tail = s.xd.log.tail ∧
    ∃ e, tfind? t.xd.log.entries (s.xd.log.head % 256) = some e ∧ e.code = code ∧ e.detail = detail

/-- The event that resets a die (R345, R405). -/
def resets (i : Instr) (s : State) (die : Nat) : Prop :=
  (i = .dieReset ∧ s.ev.subject = die) ∨ (i = .functionReset ∧ s.ev.subject = die + 1)

/-- An answer of function 0: nothing but its SPDM state changes. -/
def SpdmAnswers (s t : State) (answer : List Nat) : Prop := t = { s with xd := t.xd } ∧ t.xd.spdmAnswer = answer ∧
  t.xd = { s.xd with
    spdmAnswer := t.xd.spdmAnswer, transcript := t.xd.transcript, spdmVersion := t.xd.spdmVersion, spdmReady := t.xd.spdmReady }

/-! ### The machine as a whole -/

/-- The state of a step before anything runs in it: one more open choice can be taken. -/
def begun (s : State) : State := { s with fresh := s.fresh + 1 }

/-- The state in which the chosen fragment runs an instruction of `n` bytes with the fields `x`. -/
def running (s : State) (k : Nat) (x : Fields) (n : Nat) : State :=
  { begun s with issued := issuerOf k :: s.issued, cur := k, ir := x, len := n }

/-- The instruction and fields of a decoded word. -/
def readWord (bs : List Byte) : Option (Instr × Fields) :=
  match decode bs with
  | .ok (r, _) => some r
  | .error _ => none

/-- The bytes of words, as memory holds them. -/
def storedWords (ws : List (BitVec 32)) : List Byte := ws.flatMap wordBytes

/-- The value of a finite number is zero, with this sign. -/
def zeroWith (neg : Bool) (v : FVal) : Prop := ∃ e, v = .fin neg 0 e

/-- The random word of R138, from the counter and the key. -/
def randomWord (i : BitVec 32) (key : Word) : BitVec 32 :=
  let x := (i ^^^ key.extractLsb' 0 32) * 0x3A8F05C5#32
  let x := ((x ^^^ x >>> 15) + key.extractLsb' 32 32) * 0x91E10DA7#32
  x ^^^ x >>> 16

end Sys2Proof.Claims

open Sys2Proof.Claims

/-- R101, R103, R32: the scalar operations write their result to s[D], change nothing else, and the fragment goes on; a result for s0 is
discarded. -/
def Obligations.ScalarArithmetic : Prop :=
  ∀ (i : Instr) (f : Word → Word → Word → BitVec 2 → Word), scalarSpec i = some f → ∀ s : State, admits s i = true →
    ∃ t, exec i s = .next t ∧
      t.curT.sreg s.ir.d.toNat = inS s.ir.d.toNat (f (readS s s.ir.a.toNat) (operandB s) (readS s s.ir.d.toNat) s.ir.x) ∧
      Frame { s := [s.ir.d.toNat] } s t ∧ Completes s t

/-- R102: with a divisor other than 0 a division writes its quotient or remainder to s[D]. -/
def Sys2Proof.Claims.ScalarDivision : Prop :=
  ∀ (i : Instr) (f : Word → Word → Word), divisionSpec i = some f → ∀ s : State, admits s i = true → operandB s ≠ 0 →
    ∃ t, exec i s = .next t ∧
      t.curT.sreg s.ir.d.toNat = inS s.ir.d.toNat (f (readS s s.ir.a.toNat) (operandB s)) ∧
      Frame { s := [s.ir.d.toNat] } s t ∧ Completes s t

/-- R108: the predicate operations write p[D] in the fragment's lanes, whatever the predicates hold; p0 reads 1 and discards writes. -/
def Sys2Proof.Claims.PredicateLogic : Prop :=
  ∀ (i : Instr) (f : LaneMask → LaneMask → Word → LaneMask), predicateSpec i = some f → ∀ s : State, admits s i = true →
    ∃ t, exec i s = .next t ∧
      (∀ L, L < 32 → (t.curW.preg s.ir.d.toNat).getLsbD L =
        (s.ir.d.toNat == 0 || (if s.mask.getLsbD L then
          (f (readP s s.ir.a.toNat) (readP s s.ir.b.toNat) (operandB s)).getLsbD L else (s.curW.preg s.ir.d.toNat).getLsbD L))) ∧
      Frame { p := [s.ir.d.toNat] } s t ∧ Completes s t

/-- R108: PGET, PCNT and PFIRST write to s[D] what p[A] holds in the fragment's lanes. -/
def Sys2Proof.Claims.PredicateCounts : Prop :=
  ∀ (i : Instr) (f : LaneMask → Word), predicateCount i = some f → ∀ s : State, admits s i = true →
    ∃ t, exec i s = .next t ∧
      t.curT.sreg s.ir.d.toNat = inS s.ir.d.toNat (f (readP s s.ir.a.toNat &&& s.mask)) ∧
      Frame { s := [s.ir.d.toNat] } s t ∧ Completes s t

/-- R105, R106: the capability operations leave these fields and this tag in c[D]; a B outside their range traps ARITH 2 instead. CGET
writes a field to s[D]. The readings in it are the model's: logs 14, 45. -/
def Sys2Proof.Claims.CapabilityOperations : Prop :=
  (∀ (i : Instr) (f : Cap → Word → Option (List Nat × Bool)), capabilitySpec i = some f → ∀ s : State, admits s i = true →
    match f (readC s s.ir.a.toNat) (operandB s) with
    | some (fields, tag) => ∃ t, exec i s = .next t ∧ capFields (t.curT.creg s.ir.d.toNat) = fields ∧
        (t.curT.creg s.ir.d.toNat).tag = tag ∧ Frame { c := [s.ir.d.toNat] } s t ∧ Completes s t
    | none => exec i s = arith s 2) ∧
  (∀ s : State, admits s .cget = true → ∃ t, exec .cget s = .next t ∧ Frame { s := [s.ir.d.toNat] } s t ∧ Completes s t ∧
    (let c := readC s s.ir.a.toNat
     t.curT.sreg s.ir.d.toNat = inS s.ir.d.toNat (match s.ir.x.toNat with
      | 0 => BitVec.ofNat 64 c.off
      | 1 => BitVec.ofNat 64 c.obj
      | 2 => BitVec.ofNat 64 (c.g * 2 ^ 36 + c.len * 2 ^ 18 + c.base)
      | _ => BitVec.ofNat 64 (c.rights + if c.tag then 256 else 0))))

/-- R104, R107, R97: a load whose access is allowed and whose line can be read reads memory at issue and writes its register when the
access completes; the LD counter rises, `PTS` takes the load's time, and the registers and memory stand meanwhile. The readings in it are the model's: log 36. -/
def Obligations.ScalarLoads : Prop :=
  ∀ (i : Instr) (n : Nat) (w : State → List Byte → Bool → RegWrite), loadSpec i = some (n, w) →
  ∀ (s u : State) (l : Loc) (g : Got), admits s i = true → mayAccess s 0 →
    translate s s.curC.ctx (readC s s.ir.a.toNat) (scalarOffset s) n { rights := rightR, align := n } = .ok l →
    loadAt s s.curDie (some s.curC.core) s.curW.pts l n = .ok (u, g) →
    ∃ t id a, exec i s = .next t ∧ tfind? s.accesses id = none ∧ tfind? t.accesses id = some a ∧
      a.wave = s.curWk ∧ a.path = 0 ∧ a.command = none ∧ a.writes = [w s g.bytes g.tag] ∧ s.clock < a.doneAt ∧
      t.curW.counter 0 = s.curW.counter 0 + 1 ∧ t.curW.pts = max s.curW.pts g.ts ∧
      t.curT.s = s.curT.s ∧ t.curT.c = s.curT.c ∧ t.curW.v = s.curW.v ∧ t.curW.p = s.curW.p ∧
      (∀ k, k ≠ s.cur → t.thread k = s.thread k) ∧ (∀ k, k ≠ s.curWk → t.wave k = s.wave k) ∧ t.crews = s.crews ∧
      MemoryKept s t l.leaf l.key 0 ∧ Completes s t

/-- R104, R107, R142: a store whose access is allowed and whose lines the die may write: at home, or in host memory, the bytes stand in
memory and nothing else does change there, the tag of a granule is the capability's, for a whole granule, or 0; a line of another die that this one
owns is changed in the remote-data cache. The ST counter rises, and no register changes. The readings in it are the model's: log 147. -/
def Obligations.ScalarStores : Prop :=
  ∀ (i : Instr) (n : Nat) (v : State → Nat) (tag : State → Bool), storeSpec i = some (n, v, tag) →
  ∀ (s : State) (l : Loc), admits s i = true → mayAccess s 1 →
    translate s s.curC.ctx (readC s s.ir.a.toNat) (scalarOffset s) n { rights := rightW, align := n, write := true } = .ok l →
    storeStop s s.curDie l = none →
    ∃ t, exec i s = .next t ∧ t.curW.counter 1 = s.curW.counter 1 + 1 ∧ s.curW.pts ≤ t.curW.pts ∧
      t.curT.s = s.curT.s ∧ t.curT.c = s.curT.c ∧ (∀ k, (t.wave k).v = (s.wave k).v ∧ (t.wave k).p = (s.wave k).p) ∧
      (∀ k, k ≠ s.cur → t.thread k = s.thread k) ∧ t.crews = s.crews ∧ Completes s t ∧
      (AtPlaces l (fun k => isHost k = true ∨ dieOfKey k = s.curDie) → Apart l n →
        (∀ j, j < n → t.byte (l.keyAt j) = BitVec.ofNat 8 (v s / 256 ^ j)) ∧ AccessKept s t l n ∧
        (AtPlaces l (fun k => isHost k = false) → ∀ j, j < n →
          t.tags.contains (l.keyAt j / 16) = (tag s && !l.peer && l.second.isNone && l.key % 16 == 0))) ∧
      (l.second = none → isHost l.key = false → dieOfKey l.key ≠ s.curDie → ∃ r r', tfind? (s.die s.curDie).rdc (l.key / 64) = some r ∧
        tfind? (t.die s.curDie).rdc (l.key / 64) = some r' ∧ r'.state = .m ∧
        r'.bytes = r.bytes.take (l.key % 64) ++ bytesOf n (v s) ++ r.bytes.drop (l.key % 64 + n) ∧ MemoryKept s t l.leaf l.key 0)

/-- R385, R104: a scalar access through a capability whose tag, object and rights pass their checks and at an offset that its size does not divide
traps CAPBOUND with DETAIL 2; nothing is read or written. -/
def Sys2Proof.Claims.MisalignedAccessTraps : Prop :=
  ∀ (i : Instr) (n r : Nat), accessSpec i = some (n, r) → ∀ s : State, admits s i = true →
    mayAccess s (if r = 128 then 0 else 1) → (∃ o, objectCheck s s.curC.ctx (readC s s.ir.a.toNat) { rights := r } = .ok o) →
    scalarOffset s % n ≠ 0 → s.curT.doneLanes = 0 → canTrap s s.cur →
    ∃ t, exec i s = .next t ∧
      TrapTaken s t s.cur 0x11 2 (faddrOf s.ir.a.toNat 0 (scalarOffset s)) 0 s.curT.pc ∧ ∀ k, t.byte k = s.byte k

/-- R385, R141, R104, R363: a scalar access through a tagged capability of a valid object of a kind that the spec gives, without the right that it needs, traps
CAPRIGHT with DETAIL that right; nothing is read or written. -/
def Sys2Proof.Claims.RightlessAccessTraps : Prop :=
  ∀ (i : Instr) (n r : Nat), accessSpec i = some (n, r) → ∀ (s : State) (o : Entry), admits s i = true →
    mayAccess s (if r = 128 then 0 else 1) →
    let c := readC s s.ir.a.toNat
    c.tag = true → entryPoisoned s s.curDie s.curC.asid c.obj = false → entryOf s s.curDie s.curC.asid c.obj = some o →
    o.valid = true → 1 ≤ o.kind → o.kind ≤ 5 → c.rights &&& r = 0 → s.curT.doneLanes = 0 → canTrap s s.cur →
    ∃ t, exec i s = .next t ∧
      TrapTaken s t s.cur 0x12 r (faddrOf s.ir.a.toNat 0 (scalarOffset s)) 0 s.curT.pc ∧ ∀ k, t.byte k = s.byte k

/-- R359: trap entry, of any cause: what it saves and where the fragment goes; memory stands. EPC is the address of the instruction, or
for TRAP and BKPT of the next one (R113). The readings in it are the model's: log 29. -/
def Obligations.TrapEntrySaves : Prop :=
  ∀ (s : State) (k code detail : Nat) (faddr : Word) (fmask : LaneMask) (next : Bool), thas s.threads k = true → canTrap s k →
    TrapTaken s (takeTrapOf s k code detail faddr fmask next) k code detail faddr fmask
      (if next then (s.thread k).pc + BitVec.ofNat 64 s.len else (s.thread k).pc) ∧
    ∀ a, (takeTrapOf s k code detail faddr fmask next).byte a = s.byte a

/-- R113, R359: TRAP takes a trap with code 0x05 and B[7:0], BKPT one with code 0x06, each with EPC at the next instruction. The event
TRAP_ENTRY enters a trap that waited for the commands of its wave. -/
def Sys2Proof.Claims.TrapInstructions : Prop :=
  (∀ (i : Instr) (s : State), i = .trap ∨ i = .trapLit → admits s i = true → canTrap s s.cur →
    ∃ t, exec i s = .next t ∧ TrapTaken s t s.cur 0x05 ((operandB s).toNat % 256) 0 0 (s.curT.pc + BitVec.ofNat 64 s.len)) ∧
  (∀ s : State, admits s .bkpt = true → canTrap s s.cur →
    ∃ t, exec .bkpt s = .next t ∧ TrapTaken s t s.cur 0x06 0 0 0 (s.curT.pc + BitVec.ofNat 64 s.len)) ∧
  (∀ (s : State) (code detail : Nat) (faddr epc : Word) (fmask : LaneMask), canTrap s s.ev.subject →
    (s.thread s.ev.subject).trap = some (code, detail, faddr, fmask, epc) →
    ∃ t, exec .trapEntry s = .next t ∧ TrapTaken s t s.ev.subject code detail faddr fmask epc)

/-- R360, R113: SRET while HM = 1 restores s56 to s63, clears HM, and goes on at EPC; while HM = 0 it traps ILLEGAL 7. -/
def Sys2Proof.Claims.ReturnFromTrap : Prop :=
  ∀ s : State, admits s .sret = true →
    (s.curW.hm = true → ∃ t, exec .sret s = .next t ∧ t.curW.hm = false ∧ t.curW.handler = none ∧ t.curT.pc = s.curW.epc ∧
      (∀ j, j < 8 → t.curT.sreg (56 + j) = s.curW.shadow.getD j 0) ∧ (∀ r, r < 56 → t.curT.sreg r = s.curT.sreg r) ∧
      t.curT.c = s.curT.c ∧ t.curW.v = s.curW.v ∧ t.curW.p = s.curW.p ∧ t.curW.cause = s.curW.cause ∧
      t.curT.doneLanes = (if s.curW.epc = s.curW.trapPc then s.curW.fmask else 0) ∧
      (∀ k, k ≠ s.cur → t.thread k = s.thread k) ∧ (∀ k, t.byte k = s.byte k)) ∧
    (s.curW.hm = false → exec .sret s = illegal s 7)

/-- R102, R363: a division whose divisor is 0 traps DIVZERO and writes nothing but what trap entry writes. -/
def Sys2Proof.Claims.DivisionByZeroTraps : Prop :=
  ∀ (i : Instr) (f : Word → Word → Word), divisionSpec i = some f → ∀ s : State, admits s i = true → operandB s = 0 →
    exec i s = trap s 0x31 0 ∧
    (canTrap s s.cur → ∃ t, exec i s = .next t ∧ TrapTaken s t s.cur 0x31 0 0 0 s.curT.pc)

/-- R109: a branch whose target is a multiple of 4 goes there when it is taken and on to the next instruction when not; it changes nothing
but the trace ring, and that only while the wave is traced. A target that is no multiple of 4 traps ILLEGAL 8 (R358). -/
def Sys2Proof.Claims.Branches : Prop :=
  ∀ (i : Instr) (taken : State → Bool) (traced : Bool), branchSpec i = some (taken, traced) → ∀ s : State, admits s i = true →
    s.curT.rep = none →
    if (goal s).toNat % 4 = 0 then
      ∃ t, exec i s = .next t ∧ t.curT.pc = (if taken s then goal s else s.curT.pc + BitVec.ofNat 64 s.len) ∧
        Frame { traced := traced && tracing s } s t
    else exec i s = illegal s 8

/-- R110: CALL leaves the address of the next instruction in s[D] and goes to its target; RET goes to s[A]; LOOP counts s[D] down and goes to
its target until it is 0. -/
def Sys2Proof.Claims.CallsAndLoops : Prop :=
  (∀ (i : Instr) (s : State), i = .call ∨ i = .callLit → admits s i = true → s.curT.rep = none → (goal s).toNat % 4 = 0 →
    ∃ t, exec i s = .next t ∧ t.curT.pc = goal s ∧
      t.curT.sreg s.ir.d.toNat = inS s.ir.d.toNat (s.curT.pc + BitVec.ofNat 64 s.len) ∧ Frame { s := [s.ir.d.toNat] } s t) ∧
  (∀ s : State, admits s .ret = true → s.curT.rep = none → (readS s s.ir.a.toNat).toNat % 4 = 0 →
    ∃ t, exec .ret s = .next t ∧ t.curT.pc = readS s s.ir.a.toNat ∧ Frame { traced := tracing s } s t) ∧
  (∀ (i : Instr) (s : State), i = .loop ∨ i = .loopLit → admits s i = true → s.curT.rep = none → (goal s).toNat % 4 = 0 →
    ∃ t, exec i s = .next t ∧ t.curT.sreg s.ir.d.toNat = inS s.ir.d.toNat (readS s s.ir.d.toNat - 1) ∧
      t.curT.pc = (if readS s s.ir.d.toNat = 1 then s.curT.pc + BitVec.ofNat 64 s.len else goal s) ∧
      Frame { s := [s.ir.d.toNat], traced := tracing s } s t)

/-- R89, R111: a SPLIT on a predicate that holds in some lanes and not in others divides the fragment: the lanes where it holds stand at the
target, the others at the next instruction, in two fragments of the wave that share a new join record with the token, every lane of the fragment and
the lanes that stay. The taken side detaches when it is no larger than the other, else the other; the detached fragment is live where a place is
free. A fragment with 16 join records traps ILLEGAL 9 instead (R363). Where the predicate holds in all lanes or in none the fragment goes on
whole. The readings in it are the model's: log 25. -/
def Sys2Proof.Claims.SplitDivides : Prop :=
  ∀ (i : Instr) (s : State), i = .split ∨ i = .splitLit → admits s i = true → s.curT.rep = none → (goal s).toNat % 4 = 0 →
    let tk := readP s s.ir.a.toNat &&& s.mask
    ((tk = 0 ∨ tk = s.mask) → ∃ t, exec i s = .next t ∧
      t.curT.pc = (if tk = 0 then s.curT.pc + BitVec.ofNat 64 s.len else goal s) ∧ Frame { traced := tracing s } s t) ∧
    ((tk ≠ 0 ∧ tk ≠ s.mask) → s.curT.joins.length < 16 → (∃ j, j < 32 ∧ thas s.threads (32 * s.curWk + j) = false) →
      ∃ t g r, exec i s = .next t ∧ waveOf g = s.curWk ∧ thas s.threads g = false ∧
        (let taken := (tk, goal s)
         let other := (s.mask &&& ~~~tk, s.curT.pc + BitVec.ofNat 64 s.len)
         let (det, stay) := if lanesIn tk ≤ lanesIn (s.mask &&& ~~~tk) then (taken, other) else (other, taken)
         ((t.thread g).mask, (t.thread g).pc) = det ∧ (t.curT.mask, t.curT.pc) = stay) ∧
        tfind? t.curW.joins r = some ⟨s.ir.d.toNat, s.mask, t.curT.mask⟩ ∧
        (∀ f, f = s.cur ∨ f = g → (t.thread f).s = s.curT.s ∧ (t.thread f).c = s.curT.c ∧ (t.thread f).joins = r :: s.curT.joins) ∧
        (t.thread g).state = (if (s.liveOf s.curWk).length < 8 then .live else .deferred) ∧ (t.thread g).age = s.clock ∧
        (∀ k, k ≠ s.cur → k ≠ g → t.thread k = s.thread k) ∧ (∀ k, t.byte k = s.byte k) ∧
        t.curW.v = s.curW.v ∧ t.curW.p = s.curW.p) ∧
    ((tk ≠ 0 ∧ tk ≠ s.mask) → 16 ≤ s.curT.joins.length → exec i s = illegal s 9 ∧
      (canTrap s s.cur → ∃ t, exec i s = .next t ∧ TrapTaken s t s.cur 0x01 9 0 0 s.curT.pc))

/-- R90, R111: a JOIN without a join record, or whose token is not the record's, does nothing. With it, a fragment parks while others of its record have
not come, and nothing else changes. When it and those parked at the record hold every lane that the record expects and that has not ended, they merge
into one live fragment behind the JOIN: with all their lanes, the registers, the age and the rest of the join stack of one of them that holds a
lane that stayed, or else of the one with the lowest lane; the others are gone. The readings in it are the model's: log 25. -/
def Sys2Proof.Claims.JoinMerges : Prop :=
  ∀ s : State, admits s .join = true → s.curT.rep = none →
    ((s.curT.joins = [] ∨ ∃ r rest, s.curT.joins = r :: rest ∧ (tget {} s.curW.joins r).token ≠ s.ir.d.toNat) →
      ∃ t, exec .join s = .next t ∧ Frame {} s t ∧ Completes s t) ∧
    (∀ r rest, s.curT.joins = r :: rest → (tget {} s.curW.joins r).token = s.ir.d.toNat → s.curT.state = .live → s.curW.ended = false →
      isSequencer s.curWk = false → s.mask ≠ 0 → thas s.waves s.curWk = true →
      (¬ AllCome s r → (∃ k ∈ s.threadsOf s.curWk, k ≠ s.cur ∧ (s.thread k).state = .live) →
        (∀ k ∈ s.threadsOf s.curWk, (s.thread k).state ≠ .deferred) → ∃ t, exec .join s = .next t ∧
          t = { s with threads := t.threads } ∧ (∀ k, k ≠ s.cur → t.thread k = s.thread k) ∧
          t.curT = { s.curT with state := .joined, last := t.curT.last, position := t.curT.position, readyAt := t.curT.readyAt }) ∧
      (AllCome s r → ∃ t m, exec .join s = .next t ∧ (m = s.cur ∨ ParkedAt s r m) ∧
        (let stay := (tget {} s.curW.joins r).stay
         let here (k : Nat) : Prop := k = s.cur ∨ ParkedAt s r k
         ((∃ k, here k ∧ (s.thread k).mask &&& stay ≠ 0) → (s.thread m).mask &&& stay ≠ 0) ∧
         ((∀ k, here k → (s.thread k).mask &&& stay = 0) →
           ∀ k, here k → lowestLane (s.thread m).mask ≤ lowestLane (s.thread k).mask) ∧
         (∀ k, here k → k ≠ m → thas t.threads k = false)) ∧
        (t.thread m).mask = (tget {} s.curW.joins r).expect &&& s.lanesLeft s.curWk ∧ (t.thread m).joins = (s.thread m).joins.tail ∧
        (t.thread m).state = .live ∧ (t.thread m).pc = (s.thread m).pc + 4 ∧ (t.thread m).s = (s.thread m).s ∧
        (t.thread m).c = (s.thread m).c ∧ (t.thread m).age = (s.thread m).age ∧ (t.thread m).last = s.clock ∧
        (t.wave s.curWk).v = s.curW.v ∧ (t.wave s.curWk).p = s.curW.p ∧ (∀ a, t.byte a = s.byte a)))

/-- R112, R91, R87: NOP completes and does nothing. EXIT ends its fragment: with another live fragment of the wave, no join record and
no deferred fragment, the fragment is gone, what its outstanding loads would write to it is discarded, and the registers of the wave
and of every other fragment and memory stand; the last fragment of a wave ends the wave. On a sequencer EXIT makes the sequencer idle
(R201). R112, R96: YIELD, SLEEP (both forms) and SLEEP_EXPIRY complete. YIELD goes on at once when no other fragment of its quarter is
ready, and holds its fragment otherwise, for the fragments of its quarter that are ready then, until each of those has issued. SLEEP
holds its fragment for min(B, 2^24) cycles; SLEEP_EXPIRY lets it go on behind the SLEEP. The readings in it are the model's: log 27. -/
def Obligations.Idling : Prop :=
  ((∀ s : State, admits s .nop = true → ∃ t, exec .nop s = .next t ∧ Frame {} s t ∧ Completes s t) ∧
  (∀ s : State, admits s .exit = true → isSequencer s.curWk = false → s.curW.joins = [] → s.curW.records = [] →
    (∃ k, k ≠ s.cur ∧ waveOf k = s.curWk ∧ thas s.threads k = true ∧ (s.thread k).state = .live) →
    (∀ k ∈ s.threadsOf s.curWk, (s.thread k).state ≠ .deferred) →
    ∃ t, exec .exit s = .next t ∧ thas t.threads s.cur = false ∧
      (∀ k, k ≠ s.cur → (t.thread k).s = (s.thread k).s ∧ (t.thread k).c = (s.thread k).c ∧ (t.thread k).mask = (s.thread k).mask) ∧
      (t.wave s.curWk).v = s.curW.v ∧ (t.wave s.curWk).p = s.curW.p ∧ (∀ k, t.byte k = s.byte k) ∧
      ∀ id a, tfind? t.accesses id = some a → a.wave = s.curWk → ∀ r v x, RegWrite.s s.cur r v ∉ a.writes ∧ RegWrite.c s.cur r x ∉ a.writes) ∧
  (∀ s : State, admits s .exit = true → isSequencer s.curWk = false → s.curW.records = [] → s.curC.gangs = [] → s.threadsOf s.curWk = [s.cur] →
    ∃ t, exec .exit s = .next t ∧ thas t.threads s.cur = false ∧ (t.wave s.curWk).ended = true ∧
      (∀ k, k ≠ s.cur → (t.thread k).s = (s.thread k).s ∧ (t.thread k).c = (s.thread k).c) ∧ (∀ k, t.byte k = s.byte k)) ∧
  (∀ s : State, admits s .exit = true → isSequencer s.curWk = true → ∃ t, exec .exit s = .next t ∧ t.curT.state = .idle ∧
    t.curT.s = s.curT.s ∧ (∀ k, k ≠ s.cur → t.thread k = s.thread k) ∧ (∀ k, t.byte k = s.byte k))) ∧
  (let Ready (k : Nat) (s : State) : Prop := thas s.threads k = true ∧ k ≠ s.cur ∧ isSequencer (waveOf k) = false ∧
    crewOf (waveOf k) = s.curCk ∧ widOf (waveOf k) % 4 = widOf s.curWk % 4 ∧ s.ready k = true ∧ s.passed.contains k = false
  (∀ s : State, admits s .yield = true → s.curT.hold = none →
    (∀ e ∈ s.threads, e.1 ≠ s.cur → s.ready e.1 = false) → ∃ t, exec .yield s = .next t ∧ Frame {} s t ∧ Completes s t) ∧
  (∀ s : State, admits s .yield = true → s.curT.hold = none → (∃ k, Ready k s) →
    ∃ t, exec .yield s = .next t ∧ Frame {} s t ∧ t.curT.pc = s.curT.pc ∧ t.curT.s = s.curT.s ∧ t.curT.c = s.curT.c ∧
      ∃ h, t.curT.hold = some h ∧ h.op = .yield ∧ h.since = s.clock ∧ ∀ k, k ∈ h.peers ↔ Ready k s) ∧
  (∀ (s : State) (h : Hold), admits s .yield = true → s.curT.hold = some h →
    (∀ k ∈ h.peers, h.since < (s.thread k).last) → ∃ t, exec .yield s = .next t ∧ Frame {} s t ∧ Completes s t) ∧
  (∀ (i : Instr) (s : State), i = .sleep ∨ i = .sleepLit → admits s i = true → s.curT.hold = none → ∃ t, exec i s = .next t ∧ Frame {} s t ∧
    (if operandB s = 0 then Completes s t
     else t.curT.pc = s.curT.pc ∧ ∃ h, t.curT.hold = some h ∧ h.op = i ∧ h.arg = s.clock + min (operandB s).toNat (2 ^ 24))) ∧
  (∀ (s : State) (h : Hold), (s.thread s.ev.subject).hold = some h → (h.op = .sleep ∨ h.op = .sleepLit) → h.arg ≤ s.clock →
    (s.thread s.ev.subject).rep = none → ∃ t, exec .sleepExpiry s = .next t ∧ (t.thread s.ev.subject).hold = none ∧
      (t.thread s.ev.subject).pc = (s.thread s.ev.subject).pc + BitVec.ofNat 64 h.len ∧
      (t.thread s.ev.subject).s = (s.thread s.ev.subject).s ∧ (∀ k, k ≠ s.ev.subject → t.thread k = s.thread k) ∧
      (∀ k, t.byte k = s.byte k)))



/-- R35 to R37, R114, R412, R417: CSRR reads a control register into s[D], LID in the lowest lane; EN of TRACECTL reads 0 with a reserved RSZ, and a reserved
number reads 0. CSRW writes EPC, REPIDX, SCBCHK or TRACECTL, and the other control registers stand. One that turns the trace of a wave of one fragment
on, with LOSS 0 and room in the ring, writes a SYNC packet there: the live fragment's lowest lane, its join depth, its mask, the address of the next
instruction and TIMEW. TRC changes nothing but the trace. -/
def Obligations.ControlRegisters : Prop :=
  (∀ (s : State) (v : Nat), admits s .csrr = true → csrSpec s s.ir.a.toNat = some v →
    ∃ t, exec .csrr s = .next t ∧ t.curT.sreg s.ir.d.toNat = inS s.ir.d.toNat (BitVec.ofNat 64 v) ∧
      Frame { s := [s.ir.d.toNat] } s t ∧ Completes s t) ∧
  (∀ (i : Instr) (s : State), i = .csrw ∨ i = .csrwLit → admits s i = true → s.curT.rep = none →
    (s.ir.d.toNat = 0x1B → (operandB s).getLsbD 0 = false ∨ 12 ≤ (operandB s).toNat / 2 ^ 32 % 16) →
    ∃ t, exec i s = .next t ∧ Completes s t ∧ t = { s with threads := t.threads, waves := t.waves } ∧
      (∀ k, k ≠ s.cur → t.thread k = s.thread k) ∧ t.curT.s = s.curT.s ∧ t.curT.c = s.curT.c ∧
      t.curW = { s.curW with
        epc := if s.ir.d.toNat = 0x02 then operandB s else s.curW.epc
        repidx := if s.ir.d.toNat = 0x05 then (operandB s).extractLsb' 0 16 else s.curW.repidx
        scbchk := if s.ir.d.toNat = 0x1A then (operandB s).getLsbD 0 else s.curW.scbchk
        tracectl := if s.ir.d.toNat = 0x1B then operandB s &&& 0xFFFF000F07FFFFFB else s.curW.tracectl }) ∧
  (∀ (i : Instr) (s : State), i = .csrw ∨ i = .csrwLit → admits s i = true → s.curT.rep = none → s.ir.d.toNat = 0x1B →
    let v := operandB s &&& 0xFFFF000F07FFFFFB
    let ring := v.toNat / 2 ^ 8 % 2 ^ 19 / 16 * 16
    let size := 2 ^ (v.toNat / 2 ^ 32 % 16 + 4)
    let w := s.curC.scratchNum ring 8
    v.getLsbD 0 = true → v.toNat / 2 ^ 32 % 16 < 12 →
    ∃ t, exec i s = .next t ∧ Completes s t ∧ Frame { traced := true } s t ∧
      (tracing s = false → v.getLsbD 3 = false → isSequencer s.curWk = false → s.threadsOf s.curWk = [s.cur] → s.curT.state = .live →
        w + 16 < 2 ^ 64 → s.curC.scratchNum (ring + 8) 8 ≤ w → 24 + (w - s.curC.scratchNum (ring + 8) 8) ≤ size →
        t.curW.tracectl = v ∧ t.curC.scratchNum ring 8 = w + 16 ∧
        ∀ j, j < 16 → t.curC.scratchNum (ringByte v w j) 1 = (
          [192 + lowestLane s.mask, 128, s.curT.joins.length % 256, 0] ++ (List.range 4).map (fun k => s.mask.toNat / 256 ^ k % 256) ++
          (List.range 4).map (fun k => (nextPc s).toNat / 256 ^ k % 256) ++
          (List.range 4).map (fun k => (s.clock - (s.die s.curDie).resetAt) / 256 ^ k % 256)).getD j 0)) ∧
  (∀ (i : Instr) (s : State), i = .trc ∨ i = .trcLit → admits s i = true →
    ∃ t, exec i s = .next t ∧ Frame { traced := tracing s } s t ∧ Completes s t)

/-- R44, R116: a REP with iterations left and all their registers within their files puts its fragment into the repeat, from REPIDX on; REPIDX
stands until the repeat is over. One without iterations skips the instruction that it prefixes, and REPIDX reads 0. The readings in it are the
model's: log 41. -/
def Sys2Proof.Claims.RepeatPrefix : Prop :=
  ∀ (i : Instr) (s : State) (j : Instr) (x : Fields) (n count : Nat) (stride : Nat), i = .rep ∨ i = .repLit → admits s i = true →
    instrAt s s.curC (nextPc s).toNat = .ok (.ok (j, x, n)) → j.extCode.isSome = true → repTrap s = none → repOperands s = (count, stride) →
    (count ≤ s.curW.repidx.toNat → ∃ t, exec i s = .next t ∧ t.curT.pc = BitVec.ofNat 64 ((nextPc s).toNat + n) ∧
      t.curW.repidx = 0 ∧ t.curT.s = s.curT.s ∧ t.curT.c = s.curT.c ∧ t.curW.v = s.curW.v ∧ t.mem = s.mem) ∧
    (s.curW.repidx.toNat < count →
      repBeyond s.curC.vallot s.curW.repidx.toNat count (s.ir.d.toNat % 8) stride (regUses j x) = none →
      ∃ t, exec i s = .next t ∧ t.curT = { s.curT with
          rep := some ⟨s.curW.repidx.toNat, count, s.ir.d.toNat % 8, stride, s.len, true⟩, hold := none } ∧
        t = { s with threads := t.threads } ∧ ∀ k, k ≠ s.cur → t.thread k = s.thread k)

/-- R119, R186: a GRP whose members all pass their checks commits: memory is what the members made of it, the register writes of the members
and s[D] := 1 are due on the AT counter, and the fragment goes on behind the group. Before, s[D] is 0. The readings in it are the model's: log 42. -/
def Sys2Proof.Claims.GroupCommits : Prop :=
  ∀ (s : State) (g : GroupRun) (pc : Word), admits s .grp = true → mayAccess s 5 → s.curT.rep = none →
    (let s := writeS s 0 s.ir.d.toNat 0
     let k := 1 + s.ir.stall.toNat
     runMembers (s.ir.a.toNat % 16) (nextPc s)
       { u := ({ s with clock := s.clock + k }).modThread s.cur (fun t => { t with position := t.position + k, hold := none }) } = .ok (g, pc)) →
    ∃ t id a, exec .grp s = .next t ∧ t.mem = g.u.mem ∧ t.curT.pc = pc ∧ t.curT.sreg s.ir.d.toNat = 0 ∧
      tfind? t.accesses id = some a ∧ a.path = 5 ∧ a.writes = g.writes ++ [.s s.cur s.ir.d.toNat 1] ∧
      t.curW.counter 5 = s.curW.counter 5 + 1 ∧ t.crews = s.crews ∧ (∀ k, k ≠ s.cur → t.thread k = s.thread k)

/-- R97, R104, R361: when an access completes, its register writes are made in their order, each in the register, the lane and the bits that it names, whatever
their number and file; its counter falls and it is no longer outstanding; memory stands. A fragment that is gone gets none (R90). -/
def Sys2Proof.Claims.AccessesComplete : Prop :=
  ∀ (s : State) (a : Access), tfind? s.accesses s.ev.subject = some a → ∃ t, exec .accessCompletion s = .next t ∧
    tfind? t.accesses s.ev.subject = none ∧ (t.wave a.wave).counter a.path = (s.wave a.wave).counter a.path - 1 ∧ t.mem = s.mem ∧
    (∀ k r, thas s.threads k = true → (t.thread k).sreg r =
      lastWrite a.writes (fun w => match w with | .s k' r' v => if k' = k ∧ r' = r then some (inS r v) else none | _ => none) ((s.thread k).sreg r)) ∧
    (∀ k r, thas s.threads k = true → (t.thread k).creg r =
      lastWrite a.writes (fun w => match w with | .c k' r' v => if k' = k ∧ r' = r then some v else none | _ => none) ((s.thread k).creg r)) ∧
    (∀ r L b, L < 32 → b < 64 → ((t.wave a.wave).vreg r L).getLsbD b =
      lastWrite a.writes (fun w => match w with
        | .v r' L' m v => if 32 * r' + L' = 32 * r + L ∧ m.getLsbD b then some (v.getLsbD b) else none | _ => none)
        (((s.wave a.wave).vreg r L).getLsbD b)) ∧
    (∀ r L, L < 32 → ((t.wave a.wave).preg r).getLsbD L = (r == 0 ||
      lastWrite a.writes (fun w => match w with
        | .p r' m v => if r' = r ∧ m.getLsbD L then some (v.getLsbD L) else none | _ => none) (((s.wave a.wave).preg r).getLsbD L)))

/-- R376, R377, R367: the oldest pending event of a wave that handles no trap and is not parked strikes the chosen fragment, and is pending no more: it is a trap with
the event's CODE, DETAIL and FADDR, FMASK 0, and EPC at the fragment's instruction; a copy channel whose fault is delivered runs again. A kill
ends the launch from which the crew descends and every launch below it, and their crews. The readings in it are the model's: logs 29, 90. -/
def Sys2Proof.Claims.AsyncEventsAndKills : Prop :=
  (∀ (s : State) (e : AsyncEvent) (rest : List AsyncEvent) (k : Nat), (s.wave s.ev.subject).pending = e :: rest →
    asyncFragment s s.ev.subject = some k → (s.wave s.ev.subject).hm = false → (s.wave s.ev.subject).parked = false →
    (∀ j ∈ s.threadsOf s.ev.subject, (s.thread j).trap = none) → strikable (s.thread k) = true →
    let ck := crewOf s.ev.subject
    let v := s.modWave s.ev.subject (fun w => { w with pending := rest })
    let u := leaveQueues (if e.code = 0x42 ∧ e.detail < 8 then v.modCrew ck (fun c => { c with chanFault := c.chanFault.filter (· != e.detail) }) else v) k
    ∃ t, exec .asyncTrapDelivery s = .next t ∧ t = takeTrapOf u k e.code e.detail e.faddr 0 false ∧
      (canTrap u k → waveOf k = s.ev.subject → thas s.threads k = true → TrapTaken u t k e.code e.detail e.faddr 0 (s.thread k).pc ∧
        (t.wave s.ev.subject).pending = rest)) ∧
  (∀ s : State, ∃ t, exec .kill s = .next t ∧
    (∀ l ∈ s.family (s.rootLaunch (s.crew s.ev.subject).launch), (t.launch l).killed = true) ∧
    (∀ k c, tfind? s.crews k = some c → c.launch ∈ s.family (s.rootLaunch (s.crew s.ev.subject).launch) → c.stage = none →
      (t.crew k).state = .ended))

/-- R63 to R67: sums, products, scalings and comparisons of finite values are those of the rational numbers that the values are. -/
def Obligations.ExactArithmetic : Prop :=
  ∀ (x y : FVal) (rm : Nat) (n : Int), finite x = true → finite y = true →
    (finite (addV rm x y) = true ∧ rat (addV rm x y) = rat x + rat y) ∧
    (finite (mulV x y) = true ∧ rat (mulV x y) = rat x * rat y) ∧
    (finite (x.scale n) = true ∧ rat (x.scale n) = rat x * (2 : ℚ) ^ n) ∧
    rat x.negate = -rat x ∧ compareV x y = compare (rat x) (rat y)

/-- R74, R75: where round_F of a finite value gives a finite code, the code's value is, under RM 0 the nearest value of the format and on a
tie the one whose code is even, under RM 1 the nearest that is not larger in magnitude, and without SAT under RM 2 the nearest not above,
under RM 3 the nearest not below; the sign bit is the value's. -/
def Obligations.RoundingIsCorrect : Prop :=
  ∀ (t rm : Nat) (sat neg : Bool) (m : Nat) (e : Int), 8 ≤ t → t ≤ 13 →
    let v : FVal := .fin neg m e
    let code := roundF t rm sat v
    let x := decodeF t code
    bitAt code (widthOf t - 1) = neg ∧ code < 2 ^ widthOf t ∧
    (finite x = true → ∀ c, c < 2 ^ widthOf t → finite (decodeF t c) = true →
      let y := decodeF t c
      (rm = 0 → |rat v - rat x| ≤ |rat v - rat y| ∧ (|rat v - rat x| = |rat v - rat y| → rat y ≠ rat x → code % 2 = 0)) ∧
      (rm = 1 → |rat x| ≤ |rat v| ∧ (|rat y| ≤ |rat v| → |rat y| ≤ |rat x|)) ∧
      (rm = 2 → sat = false → rat x ≤ rat v ∧ (rat y ≤ rat v → rat y ≤ rat x)) ∧
      (rm = 3 → sat = false → rat v ≤ rat x ∧ (rat v ≤ rat y → rat x ≤ rat y)))

/-- R130, R66: the special functions on F32: a NaN is made quiet; infinities and zeros give the table's results; the exact cases are exact, and a
negative operand of VLG2 and VRSQ gives the default NaN. On F16 and BF16 they are the F32 function of the widened operand, rounded to nearest even. -/
def Sys2Proof.Claims.SpecialValues : Prop :=
  (∀ fn x : Nat, fn < 7 → x < 2 ^ 32 →
    let y := specialIn fn 10 x
    ((decodeF 10 x).isNan = true → y = x ||| 2 ^ 22) ∧
    (∀ j, j < 4 → x = [0xFF800000, 0x7F800000, 0x80000000, 0].getD j 0 → y = (specialEnds fn).getD j 0) ∧
    (finite (decodeF 10 x) = true → ExactCases fn (bitAt x 31) (rat (decodeF 10 x)) y)) ∧
  (∀ fn t x : Nat, fn < 7 → t = 8 ∨ t = 9 → x < 2 ^ 16 →
    specialIn fn t x = roundF t 0 false (decodeF 10 (specialIn fn 10 (roundF 10 0 false (decodeF t x)))))

/-- R130: the accuracy of the special functions on F32, for finite operands and results, against the real functions: VEX2, VRCP and VRSQ within 1 ulp, VLG2
within 2^-22 from 1/2 to 2 and within 1 ulp elsewhere, VSIN and VCOS of half turns and VTANH within 2^-22. -/
def Obligations.SpecialAccuracy : Prop :=
  ∀ fn x : Nat, fn < 7 → x < 2 ^ 32 → finite (decodeF 10 x) = true → finite (decodeF 10 (specialIn fn 10 x)) = true →
    let q : ℝ := (rat (decodeF 10 x) : ℚ)
    let y : ℝ := (rat (decodeF 10 (specialIn fn 10 x)) : ℚ)
    let ulp (z : ℝ) : ℝ := (2 : ℝ) ^ max (Int.log 2 |z| - 23) (-149)
    match fn with
    | 0 => |y - (2 : ℝ) ^ q| ≤ ulp ((2 : ℝ) ^ q)
    | 1 => 0 < q → |y - Real.logb 2 q| ≤ if 1 / 2 ≤ q ∧ q ≤ 2 then 1 / 2 ^ 22 else ulp (Real.logb 2 q)
    | 2 => q ≠ 0 → |y - q⁻¹| ≤ ulp q⁻¹
    | 3 => 0 < q → |y - (Real.sqrt q)⁻¹| ≤ ulp (Real.sqrt q)⁻¹
    | 4 => |y - Real.sin (Real.pi * q)| ≤ 1 / 2 ^ 22
    | 5 => |y - Real.cos (Real.pi * q)| ≤ 1 / 2 ^ 22
    | _ => |y - Real.tanh q| ≤ 1 / 2 ^ 22

/-- R120 to R123, R126: the integer operations, VMOV and VCMPM write each selected element of v[D], and keep every other element. -/
def Obligations.VectorIntegers : Prop :=
  ∀ (i : Instr) (f : State → Nat → Nat → Int), integerSpec i = some f → ∀ s : State, admits s i = true →
    ∃ t, exec i s = .next t ∧ ElementsWritten s t (wd s) (f s) ∧ Frame { v := [s.ir.d.toNat] } s t ∧ Completes s t

/-- R124, R125, R130, R138: the floating operations, the special functions and the counter generator write each selected element of v[D].
VFDOT's 32-bit elements are the exact sum of c and two products, rounded once. The reading in it is the model's: log 20. -/
def Sys2Proof.Claims.VectorFloats : Prop :=
  (∀ (i : Instr) (f : State → Nat → Nat → Int), floatSpec i = some f → ∀ s : State, admits s i = true →
    s.ir.t.toNat ∈ (if i = .vrng then [6, 10] else [8, 9, 10, 11]) →
    ∃ t, exec i s = .next t ∧ ElementsWritten s t (wd s) (f s) ∧ Frame { v := [s.ir.d.toNat] } s t ∧ Completes s t) ∧
  (∀ s : State, admits s .vfdot = true → s.ir.t.toNat ∈ [8, 9] → ∃ t, exec .vfdot s = .next t ∧
    ElementsWritten s t 32 (fun L j => (dotSpec s L j : Nat)) ∧ Frame { v := [s.ir.d.toNat] } s t ∧ Completes s t)

/-- R126, R33: VCMP writes the outcome for each selected sub-element k of lane L into p[D + k][L]; p0 discards it. The readings in it are the model's: log 24. -/
def Sys2Proof.Claims.VectorCompares : Prop :=
  ∀ s : State, admits s .vcmp = true → ∃ t, exec .vcmp s = .next t ∧
    (∀ L k, L < 32 → k < 64 / wd s → (t.curW.preg (s.ir.d.toNat + k)).getLsbD L =
      (s.ir.d.toNat + k == 0 || (if selected s L k then
        holds s.ir.cc.toNat (compareElems s.ir.t.toNat (elemA s L k) (elemB s L k))
        else (s.curW.preg (s.ir.d.toNat + k)).getLsbD L))) ∧
    Frame { p := (List.range (64 / wd s)).map (s.ir.d.toNat + ·) } s t ∧ Completes s t

/-- R127 to R129: VCVT, VUNPK, VPACK and VQDEC convert each selected element of v[D]; a part, a relation of widths or a start index that
does not exist traps ARITH 4 (R363). The block conversions write their runs of registers in each selected lane. The readings in it are the model's: log 142. -/
def Sys2Proof.Claims.VectorConversions : Prop :=
  let cv (s : State) (x : Nat) : Int := convert (cvt s).1 s.ir.t.toNat s.ir.rm.toNat s.ir.sat x
  let ws (s : State) : Nat := widthOf (cvt s).1
  let part (s : State) : Prop := (cvt s).2.1 < max (ws s) (wd s) / min (ws s) (wd s)
  (∀ (i : Instr) (s : State), i = .vcvt ∨ (i = .vunpk ∧ wd s = 2 * ws s) → admits s i = true → part s →
    ∃ t, exec i s = .next t ∧ Frame { v := [s.ir.d.toNat] } s t ∧ Completes s t ∧
      (if ws s ≤ wd s then
        ElementsWritten s t (wd s) (fun L k => cv s (elem (ws s) (k + (cvt s).2.1 * (cvt s).2.2) (Machine.vecA s (ws s) L)))
       else ∀ L k, L < 32 → k < 64 / wd s → (elem (wd s) k (t.curW.vreg s.ir.d.toNat L) : Int) =
        if selected s L k && decide ((cvt s).2.1 * (cvt s).2.2 ≤ k) && decide (k < ((cvt s).2.1 + 1) * (cvt s).2.2) then
          cv s (elem (ws s) (k - (cvt s).2.1 * (cvt s).2.2) (Machine.vecA s (ws s) L)) % 2 ^ wd s
        else (elem (wd s) k (s.curW.vreg s.ir.d.toNat L) : Int))) ∧
  (∀ s : State, admits s .vpack = true → ws s = 2 * wd s → ∃ t, exec .vpack s = .next t ∧
    ElementsWritten s t (wd s) (fun L k =>
      if k < (cvt s).2.2 then cv s (elem (ws s) k (Machine.vecA s (ws s) L)) else cv s (elem (ws s) (k - (cvt s).2.2) (Machine.vecB s (ws s) L))) ∧
    Frame { v := [s.ir.d.toNat] } s t ∧ Completes s t) ∧
  (∀ s : State, admits s .vqdec = true → s.ir.imm.toNat % 16 ≤ (if s.ir.mod = 0 then 6 else 14) → ∃ t, exec .vqdec s = .next t ∧
    ElementsWritten s t 32 (fun L k =>
      let j := s.ir.imm.toNat % 16 + k
      let code := if s.ir.mod = 0 then (Machine.vecA s 8 L).toNat / 2 ^ (8 * j) % 256 else (Machine.vecA s 4 L).toNat / 2 ^ (4 * j) % 16
      (rowDecode ((Machine.vecB s 16 L).toNat % 2 ^ 16) ((Machine.vecB s 16 L).toNat / 2 ^ 16 % 2 ^ 16) code : Nat)) ∧
    Frame { v := [s.ir.d.toNat] } s t ∧ Completes s t) ∧
  (∀ s : State, (admits s .vcvt = true → ¬ part s → exec .vcvt s = arith s 4) ∧
    (admits s .vunpk = true → (wd s ≠ 2 * ws s ∨ ¬ part s) → exec .vunpk s = arith s 4) ∧
    (admits s .vpack = true → ws s ≠ 2 * wd s → exec .vpack s = arith s 4) ∧
    (admits s .vqdec = true → (if s.ir.mod = 0 then 6 else 14) < s.ir.imm.toNat % 16 → exec .vqdec s = arith s 4)) ∧
  (∀ (i : Instr) (f : State → Nat × (Nat → Nat)), blockSpec i = some f → ∀ s : State, admits s i = true →
    ∃ t, exec i s = .next t ∧ Frame { v := (List.range (f s).1).map (s.ir.d.toNat + ·) } s t ∧ Completes s t ∧
      ∀ L j, L < 32 → j < (f s).1 → t.curW.vreg (s.ir.d.toNat + j) L =
        if selected s L 0 then BitVec.ofNat 64 ((f s).2 L / 2 ^ (64 * j)) else s.curW.vreg (s.ir.d.toNat + j) L)

/-- R132 to R135: VSHFL writes each selected element of v[D] from the element that its index names; VBCAST's index beyond the register traps ARITH 4; VROTL moves
whole lanes. VRDX writes the reduction of every selected element of v[A] into every selected element: exact integer sums, sums of floats in the
order of R77, R78 and R79, or R81, and extremes that skip NaNs. VSCAN writes the reduction of the elements up to each one, or below it with the identity
where there is none. Which sum `.FREE` gives is the model's free value: logs 21, 143. -/
def Sys2Proof.Claims.CrossLaneElements : Prop :=
  (∀ s : State, admits s .vshfl = true → ∃ t, exec .vshfl s = .next t ∧
    ElementsWritten s t (wd s) (fun L k => flat s (elem (wd s) k (Machine.vecB s (wd s) L) % (32 * (64 / wd s)))) ∧
    Frame { v := [s.ir.d.toNat] } s t ∧ Completes s t) ∧
  (∀ s : State, admits s .vrdx = true → reduces s.ir.t.toNat s.ir.mod.toNat (s.ir.imm.toNat % 4) → ∃ t r, exec .vrdx s = .next t ∧
    ElementsWritten s t (wd s) (fun _ _ => (r : Nat)) ∧ Frame { v := [s.ir.d.toNat] } s t ∧ Completes s t ∧
    (chosen s ≠ [] → Reduced s s.ir.mod.toNat (s.ir.imm.toNat % 4) ((chosen s).map (·.2)) r)) ∧
  (∀ s : State, admits s .vscan = true → reduces s.ir.t.toNat s.ir.mod.toNat 0 → ∃ (t : State) (f : Nat → Nat → Nat), exec .vscan s = .next t ∧
    ElementsWritten s t (wd s) (fun L k => (f L k : Nat)) ∧ Frame { v := [s.ir.d.toNat] } s t ∧ Completes s t ∧
    ∀ L k, selected s L k = true → L < 32 → k < 64 / wd s →
      let excl := s.ir.imm.getLsbD 2
      let e := 64 / wd s * L + k
      let xs := ((chosen s).filter (fun x => decide (x.1 < e) || (!excl && x.1 == e))).map (·.2)
      let live := if s.ir.t.toNat < 8 ∨ s.ir.mod.toNat = 0 then xs else xs.filter (fun x => !(decodeF s.ir.t.toNat x).isNan)
      (excl = true → live = [] → (f L k : Int) % 2 ^ wd s = identitySpec s s.ir.mod.toNat % 2 ^ wd s) ∧
      ((excl = false ∨ live ≠ []) → Reduced s s.ir.mod.toNat 0 xs (f L k))) ∧
  (∀ s : State, admits s .vbcast = true →
    (s.ir.imm.toNat % 2 ^ 11 < 32 * (64 / wd s) → ∃ t, exec .vbcast s = .next t ∧
      ElementsWritten s t (wd s) (fun _ _ => flat s (s.ir.imm.toNat % 2 ^ 11)) ∧ Frame { v := [s.ir.d.toNat] } s t ∧ Completes s t) ∧
    (32 * (64 / wd s) ≤ s.ir.imm.toNat % 2 ^ 11 → exec .vbcast s = arith s 4)) ∧
  (∀ s : State, admits s .vrotl = true → ∃ t, exec .vrotl s = .next t ∧
    ElementsWritten s t 64 (fun L _ => (Machine.vecA s 64 ((L + s.ir.imm.toNat) % 32)).toNat) ∧
    Frame { v := [s.ir.d.toNat] } s t ∧ Completes s t)

/-- R133: VREAD moves one element to s[D], sign-extended for I types; VWRITE moves s[A] into one element of v[D], where the fragment has its
lane and selects it. An index in IMM beyond the register traps ARITH 4 (R363). -/
def Sys2Proof.Claims.ElementMoves : Prop :=
  let index (s : State) : Nat := if s.ir.mod.getLsbD 0 then s.ir.imm.toNat % 2 ^ 11 else (readS s s.ir.c.toNat).toNat
  let beyond (s : State) : Prop := s.ir.mod.getLsbD 0 = true ∧ 32 * (64 / wd s) ≤ index s
  (∀ (i : Instr) (s : State), i = .vread ∨ i = .vwrite → admits s i = true → beyond s → exec i s = arith s 4) ∧
  (∀ s : State, admits s .vread = true → ¬ beyond s → ∃ t, exec .vread s = .next t ∧
    t.curT.sreg s.ir.d.toNat = inS s.ir.d.toNat (BitVec.ofInt 64 (val s (flat s (index s % (32 * (64 / wd s)))))) ∧
    Frame { s := [s.ir.d.toNat] } s t ∧ Completes s t) ∧
  (∀ s : State, admits s .vwrite = true → ¬ beyond s → ∃ t, exec .vwrite s = .next t ∧
    (∀ L k, L < 32 → k < 64 / wd s → elem (wd s) k (t.curW.vreg s.ir.d.toNat L) =
      if selected s L k && 64 / wd s * L + k == index s % (32 * (64 / wd s)) then (readS s s.ir.a.toNat).toNat % 2 ^ wd s
      else elem (wd s) k (s.curW.vreg s.ir.d.toNat L)) ∧
    Frame { v := [s.ir.d.toNat] } s t ∧ Completes s t)

/-- R136: VDDX and VDDY complete for all operands. They give each selected element of a valid pair the difference of the pair, every
other selected element +0, and say in p[Q] which lanes had an element without one. The readings in it are the model's: log 43. R137:
VBSR, VBSC, VBSI and VBSP complete for all operands, but VBSI with n = 0, which traps ARITH 4. They write v[D] alone, in lanes of the
fragment alone: VBSR a field of the stream of v[A], VBSC the sums of the lengths below, VBSI the stream of v[D] with fields inserted,
VBSP that stream with the fields of the lanes one behind the other and 0 behind the last. The readings in it are the model's: logs 43,
137. -/
def Obligations.QuadsAndBitStreams : Prop :=
  (∀ (i : Instr) (step : Nat) (s : State), (i = .vddx ∧ step = 1) ∨ (i = .vddy ∧ step = 2) → admits s i = true →
    let lid (L : Nat) : Nat := ((tfind? s.curW.lid L).getD (word (32 * (s.curWk % 64) + L))).toNat
    let low (L : Nat) : Nat := L - L / step % 2 * step
    let on (L k : Nat) : Bool := s.mask.getLsbD L && ((readP s (s.ir.p.toNat + if s.ir.subp then k else 0)).getLsbD L != s.ir.pn)
    let valid (L k : Nat) : Bool := on (low L) k && on (low L + step) k && lid (low L) / 4 == lid (low L + step) / 4 &&
      lid (low L) % 4 == low L % 4 && lid (low L + step) % 4 == (low L + step) % 4
    let v (L k : Nat) : FVal := decodeF s.ir.t.toNat (elem (wd s) k (Machine.vecA s (wd s) L))
    ∃ t, exec i s = .next t ∧
      ElementsWritten s t (wd s) (fun L k => if valid L k then
        (roundF s.ir.t.toNat s.ir.rm.toNat false (firstNan [v (low L + step) k, v (low L) k]
          (addV s.ir.rm.toNat (v (low L + step) k) (v (low L) k).negate)) : Nat) else 0) ∧
      (∀ L, L < 32 → (∃ k, k < 64 / wd s ∧ selected s L k) → (t.curW.preg (s.ir.imm.toNat % 32)).getLsbD L =
        (s.ir.imm.toNat % 32 == 0 || (List.range (64 / wd s)).any (fun k => selected s L k && !valid L k))) ∧
      Frame { v := [s.ir.d.toNat], p := [s.ir.imm.toNat % 32] } s t ∧ Completes s t) ∧
  (let len (s : State) (x : Nat → Word) (L : Nat) : Nat :=
    (((List.range L).filter (fun M => selected s M 0)).map (fun M => (x M).toNat % 128)).sum
  let stays (s t : State) : Prop := ∀ L, L < 32 → s.mask.getLsbD L = false → t.curW.vreg s.ir.d.toNat L = s.curW.vreg s.ir.d.toNat L
  let stream (r : Nat → Word) (j : Nat) : Bool := (r (j / 64)).getLsbD (j % 64)
  (∀ s : State, admits s .vbsr = true → ∃ t, exec .vbsr s = .next t ∧
    ElementsWritten s t 64 (fun L _ => (((List.range (s.ir.imm.toNat % 128)).map (fun j =>
      let o := (Machine.vecB s 64 L).toNat % 2048 + j
      if o < 2048 ∧ stream (readV s 64 s.ir.a.toNat) o = true then 2 ^ j else 0)).sum : Nat)) ∧
    Frame { v := [s.ir.d.toNat] } s t ∧ Completes s t) ∧
  (∀ s : State, admits s .vbsc = true → ∃ t, exec .vbsc s = .next t ∧
    ElementsWritten s t 64 (fun L _ => (len s (Machine.vecA s 64) L : Nat)) ∧ Frame { v := [s.ir.d.toNat] } s t ∧ Completes s t) ∧
  (∀ s : State, admits s .vbsi = true →
    (s.ir.imm.toNat % 128 = 0 → exec .vbsi s = arith s 4) ∧
    (s.ir.imm.toNat % 128 ≠ 0 → ∃ t, exec .vbsi s = .next t ∧ stays s t ∧ Frame { v := [s.ir.d.toNat] } s t ∧ Completes s t ∧
      ∀ j, j < 2048 → s.mask.getLsbD (j / 64) = true → stream (t.curW.vreg s.ir.d.toNat) j =
        match (List.range 32).reverse.find? (fun L => selected s L 0 &&
            decide ((Machine.vecB s 64 L).toNat % 2048 ≤ j ∧ j < (Machine.vecB s 64 L).toNat % 2048 + s.ir.imm.toNat % 128)) with
        | some L => (Machine.vecA s 64 L).getLsbD (j - (Machine.vecB s 64 L).toNat % 2048)
        | none => stream (s.curW.vreg s.ir.d.toNat) j)) ∧
  (∀ s : State, admits s .vbsp = true → ∃ t, exec .vbsp s = .next t ∧ stays s t ∧ Frame { v := [s.ir.d.toNat] } s t ∧ Completes s t ∧
    ∀ j, j < 2048 → s.mask.getLsbD (j / 64) = true → stream (t.curW.vreg s.ir.d.toNat) j =
      if len s (Machine.vecB s 64) 32 ≤ j then false
      else match (List.range 32).find? (fun L => selected s L 0 && decide (len s (Machine.vecB s 64) L ≤ j ∧
          j < len s (Machine.vecB s 64) L + min ((Machine.vecB s 64 L).toNat % 128) 64)) with
        | some L => (Machine.vecA s 64 L).getLsbD (j - len s (Machine.vecB s 64) L)
        | none => stream (s.curW.vreg s.ir.d.toNat) j))



/-- R385, R141: the checks of an access in their order, each with its trap, by the entry that the die holds (R150) or else by the one in the
table; an access of a contiguous object on its own die that passes them all goes to the object's base plus its offset (R144), unless it would write
into a context region (R371). The readings in it are the model's: logs 33, 134. -/
def Sys2Proof.Claims.AccessChecks : Prop :=
  ∀ (s : State) (x : Ctx) (c : Cap) (e : Int) (n : Nat) (need : Need),
    let count := (tget {} (s.die x.die).asids x.asid).count
    let entry := keyOf x.die ((tget {} (s.die x.die).asids x.asid).base + 32 * c.obj)
    let words := (tfind? (s.die x.die).held (x.asid * 2 ^ 32 + c.obj)).getD (s.num entry 8, s.num (entry + 8) 8, s.num (entry + 16) 8, s.num (entry + 24) 8)
    let w0 := words.1
    let phys := words.2.1 + e.toNat
    let held := (tfind? (s.die x.die).held (x.asid * 2 ^ 32 + c.obj)).isSome
    let readable := held = true ∨ s.poisoned entry = false
    let kind := w0 / 2 ^ 60 % 8
    let size := w0 % 2 ^ 44
    let lo := if 26 < c.g then 0 else c.base * 2 ^ c.g
    let hi := if 26 < c.g then 0 else (c.base + c.len) * 2 ^ c.g
    let r := translate s x c e n need
    (c.tag = false → r = .error (.trap 0x10 need.field)) ∧
    (c.tag = true → count ≤ c.obj → r = .error (.trap 0x22 1)) ∧
    (c.tag = true → c.obj < count → ¬ readable → r = .error (.trap 0x50 2)) ∧
    (c.tag = true → c.obj < count → readable → w0 / 2 ^ 63 % 2 = 0 → r = .error (.trap 0x22 2)) ∧
    (c.tag = true → c.obj < count → readable → w0 / 2 ^ 63 % 2 = 1 →
      ((kind = 0 ∨ 6 ≤ kind) → r = .error (.trap 0x22 3)) ∧
      (1 ≤ kind ∧ kind ≤ 5 → (need.kind = 1 ∧ kind ≠ 4) ∨ (need.kind = 2 ∧ kind ≠ 5) → r = .error (.trap 0x22 4)) ∧
      (1 ≤ kind ∧ kind ≤ 5 → need.kind = 0 → need.rights < 256 →
        (c.rights &&& need.rights ≠ need.rights → r = .error (.trap 0x12 (need.rights &&& (255 - c.rights)))) ∧
        (c.rights &&& need.rights = need.rights →
          (e % need.align ≠ 0 → r = .error (.trap 0x11 2)) ∧
          (e % need.align = 0 → ¬ ((lo : Int) ≤ e ∧ 0 ≤ e ∧ e + n ≤ hi) → r = .error (.trap 0x11 0)) ∧
          (e % need.align = 0 → (lo : Int) ≤ e ∧ 0 ≤ e ∧ e + n ≤ hi →
            ((if kind = 5 then 2 * size else size : Nat) < e + n → r = .error (.trap 0x11 1)) ∧
            (kind = 1 → e + n ≤ size → (∀ j, j < max n 1 → (phys + j) / 2 ^ 48 = 0 ∧ s.has (keyOf x.die (phys + j)) = true) →
              (need.write = true → inFrames (keyOf x.die phys) = true →
                r = .error (.trap 0x12 (if need.atomic then rightW + rightA else rightW))) ∧
              (need.write = false ∨ (∀ j, j < max n 1 → inFrames (keyOf x.die (phys + j)) = false) → ∃ l, r = .ok l ∧
                l.key = x.die * 2 ^ 52 + phys ∧ (∀ j, j < n → l.keyAt j = x.die * 2 ^ 52 + phys + j) ∧ l.leaf = none ∧ l.peer = false))))))

/-- R147: the walk of an extent tree whose nodes on the path are valid and whose leaf is valid and resident gives the 64 KiB page of the
leaf with the offset's low bits. The readings in it are the model's: log 33. -/
def Sys2Proof.Claims.ExtentWalk : Prop :=
  ∀ (s : State) (die root off : Nat),
    let next (node index : Nat) : Nat := s.num (keyOf die (node + 8 * index)) 8
    let node (v : Nat) : Nat := v / 2 ^ 8 % 2 ^ 44 * 2 ^ 8
    let goes (v : Nat) : Prop := v / 2 ^ 63 % 2 = 1 ∧ v / 2 ^ 52 % 2 = 0 ∧ v / 2 ^ 48 % 16 ≤ 2
    let v0 := next root (off / 2 ^ 39 % 32)
    let v1 := next (node v0) (off / 2 ^ 30 % 512)
    let v2 := next (node v1) (off / 2 ^ 21 % 512)
    let leafKey := keyOf die (node v2 + 8 * (off / 2 ^ 16 % 32))
    let leaf := s.num leafKey 8
    goes v0 → goes v1 → goes v2 → leaf / 2 ^ 63 % 2 = 1 → leaf / 2 ^ 62 % 2 = 1 → leaf / 2 ^ 52 % 2 = 0 → leaf / 2 ^ 57 % 4 ≠ 3 →
      leaf / 2 ^ 53 % 16 < 4 → leaf / 2 ^ 48 % 16 < 3 →
      walkTree s die root off = .ok ⟨leaf / 2 ^ 16 % 2 ^ 36 * 2 ^ 16 + off % 2 ^ 16, leaf, leafKey⟩

/-- R177: a load by an agent after its own store to the same bytes of a line of its die reads what it stored, at a time not before the store,
whatever copies the caches hold, as long as no copy's lease runs beyond the line's mrts at its owner. The readings in it are the model's: log 35. -/
def Obligations.OwnStoresAreSeen : Prop :=
  ∀ (s u v : State) (die core p p' ts n : Nat) (l : Loc) (bs : List Byte) (g : Got),
    dieOfKey l.key = die → isHost l.key = false → l.leaf = none → l.second = none → bs.length = n → l.key % 64 + n ≤ 64 →
    (∀ c x, tfind? (s.die die).copies (c * 2 ^ 52 + l.key / 64 % 2 ^ 46) = some x → x.rts ≤ (s.stamps (l.key / 64)).2) →
    storeAt s die p l bs false = (u, ts) → ts ≤ p' → loadAt u die (some core) p' l n = .ok (v, g) →
    g.bytes = bs ∧ ts ≤ g.ts

/-- R157 to R162, R97: a vector load whose lanes all go through reads memory at issue, lane by lane, and writes its registers when the
access completes: each piece its element, the rest of a block's run 0. Memory stands but for the leaves' marks. The readings in it are the model's: logs 32, 36. -/
def Obligations.VectorLoads : Prop :=
  ∀ (i : Instr) (block : Bool), (i = .vld ∧ block = false) ∨ (i = .vldb ∧ block = true) →
  ∀ (s u : State) (rs : List (Nat × Piece × Loc × List Byte)), admits s i = true → mayAccess s 0 →
    lanesFor s block ≠ [] → loadRuns s block (lanesFor s block) s = some (u, rs) →
    ∃ t, exec i s = .next t ∧ t.mem = u.mem ∧ t.curW.pts = u.curW.pts ∧ t.crews = s.crews ∧
      Issued s t 0 ((lanesFor s block).flatMap (fun L => blankRun s block L ++
        (rs.filter (fun r => r.1 == L)).map (fun r => .v r.2.1.reg L
          (BitVec.ofNat 64 ((2 ^ (8 * r.2.1.n) - 1) * 2 ^ r.2.1.lo)) (BitVec.ofNat 64 (numOfBytes r.2.2.2 * 2 ^ r.2.1.lo))))) ∧
      ∀ a, (∀ r ∈ rs, ¬ inLeaf r.2.2.1 a) → t.byte a = s.byte a

/-- R157 to R162: a vector store whose lanes all go through writes its registers' bytes to the places of its pieces, the highest lane's byte
standing, and no other byte but the leaves' marks; what goes to another die's lines goes to the remote-data cache. -/
def Obligations.VectorStores : Prop :=
  ∀ (i : Instr) (block : Bool), (i = .vst ∧ block = false) ∨ (i = .vstb ∧ block = true) →
  ∀ (s u : State) (rs : List (Nat × Piece × Loc)), admits s i = true → mayAccess s 1 → tget 0 s.curT.answers piecesKey = 0 →
    lanesFor s block ≠ [] → storeRuns s block (lanesFor s block) s = some (u, rs) →
    ∃ t, exec i s = .next t ∧ t.mem = u.mem ∧ t.curW.pts = u.curW.pts ∧ t.crews = s.crews ∧ Issued s t 1 [] ∧
      ∀ a, (∀ r ∈ rs, ¬ inLeaf r.2.2 a) → t.byte a = (lastStored s block rs a).getD (s.byte a)

/-- R158 to R161: where a vector access goes: element k of register r of lane L lies 8r + kw/8 bytes behind the lane's offset, which is the base
plus the displacement plus, by mode, v[B][L], v[B][L] times the span, or B plus L times the span. -/
def Sys2Proof.Claims.LaneAddresses : Prop :=
  ∀ (s : State) (mem : Bool) (L : Nat),
    let imm := s.ir.imm.toNat
    let disp : Int := if imm % 2 ^ 24 < 2 ^ 23 then (imm % 2 ^ 24 : Nat) else (imm % 2 ^ 24 : Nat) - 2 ^ 24
    let base : Int := if mem then (readC s s.ir.a.toNat).off else (readS s s.ir.a.toNat).toNat
    let regs := 2 ^ (imm / 2 ^ 26 % 4)
    let e : Int := base + disp + (match imm / 2 ^ 24 % 4 with
      | 0 => (Machine.vecB s 64 L).toInt
      | 1 => (Machine.vecB s 64 L).toInt * (8 * regs : Nat)
      | _ => (operandB s).toInt + (8 * regs * L : Nat))
    (piecesOf s false mem L).map (fun p => (p.off, p.n, p.reg, p.lo)) =
      (List.range regs).flatMap (fun r => ((List.range (64 / wd s)).filter (fun k =>
        (readP s (s.ir.p.toNat + if s.ir.subp then k else 0)).getLsbD L != s.ir.pn)).map (fun k =>
          (e + (8 * r + k * (wd s / 8) : Nat), wd s / 8, s.ir.d.toNat + r, k * wd s)))

/-- R163, R153: the scratchpad forms of the loads and stores read and write the crew's scratchpad at their addresses modulo 2^19, where no word
they touch is poisoned; memory stands. -/
def Obligations.ScratchpadAccesses : Prop :=
  (∀ (i : Instr) (block : Bool), (i = .spld ∧ block = false) ∨ (i = .spldb ∧ block = true) →
    ∀ s : State, admits s i = true → s.curT.hold = none → s.curW.counter 2 < 63 → lanesFor s block ≠ [] →
    unpoisoned s block (lanesFor s block) → ∃ t, exec i s = .next t ∧ t.mem = s.mem ∧ t.crews = s.crews ∧
      Issued s t 2 ((lanesFor s block).flatMap (fun L => blankRun s block L ++ (piecesOf s block false L).map (fun p =>
        .v p.reg L (BitVec.ofNat 64 ((2 ^ (8 * p.n) - 1) * 2 ^ p.lo))
          (BitVec.ofNat 64 (s.curC.scratchNum (spad p.off) p.n * 2 ^ p.lo)))))) ∧
  (∀ (i : Instr) (block : Bool), (i = .spst ∧ block = false) ∨ (i = .spstb ∧ block = true) →
    ∀ s : State, admits s i = true → s.curT.hold = none → s.curW.counter 2 < 63 → lanesFor s block ≠ [] →
    let rs := (lanesFor s block).flatMap (fun L => (piecesOf s block false L).map (fun p => (L, p)))
    ∃ t, exec i s = .next t ∧ t.mem = s.mem ∧ Issued s t 2 [] ∧ (∀ k, k ≠ s.curCk → t.crew k = s.crew k) ∧
      t.curC = { s.curC with scratch := t.curC.scratch, scratchPoison := t.curC.scratchPoison } ∧
      ∀ a, a < 2 ^ 19 → t.curC.scratchByte a =
        match rs.reverse.find? (fun r => decide (((a : Int) - r.2.off) % 2 ^ 19 < r.2.n)) with
        | some r => BitVec.ofNat 8 ((readV s (storeWidth s block) r.2.reg r.1).toNat / 2 ^ r.2.lo / 256 ^ (((a : Int) - r.2.off) % 2 ^ 19).toNat)
        | none => s.curC.scratchByte a)

/-- R167: a vector access without a selected lane completes without an access; VPREF changes no register, no counter, no time and no byte
(R164). The readings in it are the model's: log 91. -/
def Sys2Proof.Claims.EmptyAccessesAndPrefetch : Prop :=
  (∀ (i : Instr) (s : State), (i ∈ [Instr.vld, .vst, .spld, .spst] ∧ activeLanes s (wd s) = []) ∨
      (i ∈ [Instr.vldb, .vstb, .spldb, .spstb] ∧ activeLanes s 64 = []) ∨ (i ∈ [Instr.vatom, .spatom] ∧ activeLanes s (wd s) = []) →
    admits s i = true → s.curT.hold = none → ∃ t, exec i s = .next t ∧ Frame {} s t ∧ Completes s t) ∧
  (∀ s : State, admits s .vpref = true → ∃ t, exec .vpref s = .next t ∧ t.mem = s.mem ∧ t.accesses = s.accesses ∧ t.crews = s.crews ∧
    t.curW.pts = s.curW.pts ∧ t.curW.counters = s.curW.counters ∧ t.curT.s = s.curT.s ∧ t.curT.c = s.curT.c ∧ t.curW.v = s.curW.v ∧
    t.curW.p = s.curW.p ∧ (∀ k, k ≠ s.cur → t.thread k = s.thread k) ∧ (∀ k, k ≠ s.curWk → t.wave k = s.wave k) ∧ Completes s t)

/-- R385, R361: a vector access through an untagged capability traps CAPTAG at its first lane, with no lane done. -/
def Sys2Proof.Claims.UntaggedAccessTraps : Prop :=
  ∀ (i : Instr) (block : Bool) (s : State) (L : Nat) (rest : List Nat),
    (i ∈ [Instr.vld, .vst] ∧ block = false) ∨ (i ∈ [Instr.vldb, .vstb] ∧ block = true) → admits s i = true →
    mayAccess s (if i = .vld ∨ i = .vldb then 0 else 1) → lanesFor s block = L :: rest → L < 32 →
    (readC s s.ir.a.toNat).tag = false → s.curT.doneLanes = 0 → canTrap s s.cur →
    ∃ t, exec i s = .next t ∧ (∀ a, t.byte a = s.byte a) ∧
      TrapTaken s t s.cur 0x10 0 (faddrOf s.ir.a.toNat L (laneOffset s true (if block then blockBytes s.ir else 8 * runOf s.ir) L)) 0
        s.curT.pc

/-- R169 to R172: the atomics. SATOM on a line of its own die or of host memory writes the new value of its operation and leaves the old one
for s[D], sign-extended for I32, where RET asks; VATOM performs its lanes' atomics one after the other, the lowest first, each on what those before
it left, and SPATOM those of the scratchpad. -/
def Obligations.Atomics : Prop :=
  (∀ op t rm old x y, op ≤ 10 → old < 2 ^ widthOf t → x < 2 ^ widthOf t → y < 2 ^ widthOf t → (8 ≤ op → t = 10 ∨ t = 11) →
    (op < 8 → t ∈ [2, 3, 6, 7] ∨ (6 ≤ op ∧ t ∈ [10, 11])) → atomicNew op t rm old x y = atomSpec op t rm old x y) ∧
  (∀ (s : State) (l : Loc), admits s .satom = true → mayAccess s 5 → 8 ≤ wd s → wd s ≤ 64 →
    let c := readC s s.ir.a.toNat
    let n := wd s / 8
    let disp : Int := if s.ir.imm.toNat % 2 ^ 24 < 2 ^ 23 then (s.ir.imm.toNat % 2 ^ 24 : Nat) else (s.ir.imm.toNat % 2 ^ 24 : Nat) - 2 ^ 24
    let x (r : Nat) : Nat := (readS s r).toNat % 2 ^ wd s
    let old := numAt s l n
    translate s s.curC.ctx c (c.off + disp + (operandB s).toInt) n
      { rights := rightA + rightW + (if s.ir.mod.getLsbD 0 then rightR else 0), align := n, write := true, atomic := true } = .ok l →
    placementOk s.ir l = true → AtPlaces l (fun k => isHost k = true ∨ dieOfKey k = s.curDie) → storeStop s s.curDie l = none →
    (if isHost l.key = true then l.fails = false else AtPlaces l (fun k => s.poisoned k = false)) →
    ∃ t, exec .satom s = .next t ∧ t.crews = s.crews ∧ AccessKept s t l n ∧
      (Apart l n → ∀ j, j < n → t.byte (l.keyAt j) = BitVec.ofNat 8 (atomSpec (s.ir.imm.toNat / 2 ^ 28 % 16) s.ir.t.toNat s.ir.rm.toNat old
        (x s.ir.c.toNat) (x (s.ir.c.toNat + 1)) / 256 ^ j)) ∧
      Issued s t 5 (if s.ir.mod.getLsbD 0 then [.s s.cur s.ir.d.toNat (BitVec.ofInt 64
        (if s.ir.t = 2 ∧ 2 ^ 31 ≤ old then (old : Int) - 2 ^ 32 else old))] else [])) ∧
  (∀ (s u : State) (os : List (Nat × AtomPiece × Nat)) (ps : List (AtomPiece × Loc)), admits s .vatom = true → mayAccess s 5 → activeLanes s (wd s) ≠ [] → atomRuns s (activeLanes s (wd s)) s = some (u, os, ps) →
    ∃ t, exec .vatom s = .next t ∧ t.mem = u.mem ∧ t.crews = s.crews ∧ t.curW.pts = u.curW.pts ∧ Issued s t 5 (oldWrites s os) ∧
      ((∀ q ∈ ps, AtPlaces q.2 (fun k => isHost k = true ∨ dieOfKey k = s.curDie)) →
        (∀ q ∈ ps, ∀ j, j < wd s / 8 → ∀ q' ∈ ps, ¬ inLeaf q'.2 (q.2.keyAt j)) →
        os.map (fun o => o.2.1) = ps.map (fun q => q.1) ∧
        (let r := atomsOn s (ps.map (fun q => (q.2.keyAt, q.1.x, q.1.y))) s.byte
         os.map (fun o => o.2.2) = r.1 ∧ ∀ a, (∀ q ∈ ps, ¬ inLeaf q.2 a) → t.byte a = r.2 a))) ∧
  (∀ s : State, admits s .spatom = true → s.curT.hold = none → s.curW.counter 5 < 63 → activeLanes s (wd s) ≠ [] →
    (∀ L ∈ activeLanes s (wd s), ∀ p ∈ atomPieces s false L, spad p.off % (wd s / 8) = 0 ∧
      s.curC.scratchPoisoned (spad p.off) (wd s / 8) = none) →
    let qs := scratchAtoms s
    let r := atomsOn s (qs.map (fun q => (fun j => (spad q.2.off + j) % 2 ^ 19, q.2.x, q.2.y))) s.curC.scratchByte
    ∃ t, exec .spatom s = .next t ∧ t.mem = s.mem ∧ (∀ k, k ≠ s.curCk → t.crew k = s.crew k) ∧
      t.curC = { s.curC with scratch := t.curC.scratch } ∧ (∀ a, a < 2 ^ 19 → t.curC.scratchByte a = r.2 a) ∧
      Issued s t 5 (oldWrites s ((qs.zip r.1).map (fun q => (q.1.1, q.1.2, q.2)))))

/-- R190, R93, R181: BAR parks its fragment while another wave of the crew has not arrived; when every other wave has, and the fragment's own
wave arrives with it, the barrier's phase advances, and the fragment goes on behind the BAR, or at the next iteration of its REP (R116). The readings in it are the model's: log 26. -/
def Sys2Proof.Claims.CrewBarrier : Prop :=
  ∀ s : State, admits s .bar = true → s.curT.hold = none →
    ((∃ w ∈ s.wavesOf s.curCk, w ≠ s.curWk ∧ isSequencer w = false ∧ (s.wave w).ended = false ∧ arrivedAtBarrier s w = false) →
      ∃ t, exec .bar s = .next t ∧ t.curT.state = .barred ∧ t.curT.pc = s.curT.pc ∧ t.curT.s = s.curT.s ∧ t.curT.c = s.curT.c ∧
        t = { s with threads := t.threads } ∧ (∀ k, waveOf k ≠ s.curWk → t.thread k = s.thread k)) ∧
    ((∀ w ∈ s.wavesOf s.curCk, w = s.curWk ∨ isSequencer w = true ∨ (s.wave w).ended = true ∨ arrivedAtBarrier s w = true) →
      s.curWk ∈ s.wavesOf s.curCk → s.curW.ended = false → (∀ p, p < 6 → s.curW.counter p = 0) →
      (∀ k ∈ s.threadsOf s.curWk, k = s.cur ∨ (s.thread k).state = .joined ∨ (s.thread k).state = .barred) →
      ∃ t, exec .bar s = .next t ∧ t.curC.barPhase = s.curC.barPhase + 1 ∧
        (match s.curT.rep with
          | none => t.curT.rep = none ∧ t.curT.pc = s.curT.pc + BitVec.ofNat 64 s.len
          | some r => if r.i + 1 < r.count then t.curT.rep = some { r with i := r.i + 1, first := false } ∧ t.curT.pc = s.curT.pc
            else t.curT.rep = none ∧ t.curT.pc = s.curT.pc + BitVec.ofNat 64 s.len) ∧
        (t.curT.state = .live ∨ t.curT.state = .deferred) ∧ t.curT.s = s.curT.s ∧ t.curT.c = s.curT.c ∧ t.mem = s.mem ∧
        (∀ w ∈ s.wavesOf s.curCk, isSequencer w = false → (s.wave w).ended = false → s.curW.pts ≤ (t.wave w).pts))

/-- R191, R192: ARRV gives s[D] the phase of the object, and takes n from what is pending, or begins the next phase; WAITB completes once the
phase differs from B[15:0], and raises `PTS` to the crew's release mark. An n of 0, a misaligned object and a poisoned one trap. The readings in it are the model's: log 37. -/
def Sys2Proof.Claims.BarrierObjects : Prop :=
  let at' (s : State) : Nat := (readS s s.ir.a.toNat).toNat % 2 ^ 19
  let word (s : State) : Nat := s.curC.scratchNum (at' s) 8
  let n (s : State) : Nat := s.ir.imm.toNat % 2 ^ 16
  (∀ s : State, admits s .arrv = true → n s ≠ 0 → (readS s s.ir.a.toNat).toNat % 8 = 0 → s.curC.scratchPoisoned (at' s) 8 = none →
    (performedAll s s.curWk = true → ∃ t, exec .arrv s = .next t ∧
      t.curT.sreg s.ir.d.toNat = inS s.ir.d.toNat (BitVec.ofNat 64 (fld (word s) 48 16)) ∧
      t.curC.scratchNum (at' s) 8 = (if n s < fld (word s) 0 16 then word s - n s
        else (fld (word s) 48 16 + 1) % 2 ^ 16 * 2 ^ 48 + fld (word s) 32 16 * 2 ^ 32 + fld (word s) 16 16 * 2 ^ 16 + fld (word s) 32 16) ∧
      t.curC.relMark = max s.curC.relMark s.curW.pts ∧ (∀ a, a < 2 ^ 19 → (a < at' s ∨ at' s + 8 ≤ a) →
        t.curC.scratchByte a = s.curC.scratchByte a) ∧ Quiet { s := [s.ir.d.toNat] } s t) ∧
    (performedAll s s.curWk = false → ∃ t, exec .arrv s = .next t ∧ Waits s t)) ∧
  (∀ s : State, admits s .waitb = true → s.curC.scratchPoisoned (at' s) 8 = none → ∃ t, exec .waitb s = .next t ∧
    if fld (word s) 48 16 ≠ (operandB s).toNat % 2 ^ 16 then
      Quiet {} s t ∧ t.crews = s.crews ∧ t.curW.pts = max s.curW.pts s.curC.relMark
    else Waits s t) ∧
  (∀ s : State, (admits s .arrv = true → n s = 0 → exec .arrv s = arith s 4) ∧
    (admits s .arrv = true → n s ≠ 0 → (readS s s.ir.a.toNat).toNat % 8 ≠ 0 → exec .arrv s = arith s 1) ∧
    (∀ i, i = .arrv ∧ n s ≠ 0 ∧ (readS s s.ir.a.toNat).toNat % 8 = 0 ∨ i = .waitb → admits s i = true →
      s.curC.scratchPoisoned (at' s) 8 ≠ none → exec i s = trapWith s 0x50 4 (faddrOf 0 0 (at' s : Nat)) 0))

/-- R98, R193, R194: WAITC completes once the counter of its path is at most B; FENCE once no access that the wave issued before it is under
way; FENCE.EVICT once no load of its object that read the map before is. Until then they hold their fragment. The readings in it are the model's: log 39. -/
def Sys2Proof.Claims.WaitsAndFences : Prop :=
  (∀ s : State, admits s .waitc = true → ∃ t, exec .waitc s = .next t ∧
    if s.curW.counter (s.ir.imm.toNat % 8) ≤ (operandB s).toNat then Frame {} s t ∧ Completes s t else Waits s t) ∧
  (∀ s : State, admits s .fence = true → ∃ t, exec .fence s = .next t ∧
    if ∃ e ∈ s.accesses, e.2.wave = s.curWk ∧ e.1 < issuedBefore s then Waits s t else Frame {} s t ∧ Completes s t) ∧
  (∀ (s : State) (o : Entry), admits s .fenceEvict = true →
    objectCheck s s.curC.ctx (readC s s.ir.a.toNat) { rights := rightL, kind := 1 } = .ok o → ∃ t, exec .fenceEvict s = .next t ∧
    if ∃ e ∈ s.accesses, e.2.lod = entryKey s s.curDie s.curC.asid (readC s s.ir.a.toNat).obj + 1 ∧ e.1 < issuedBefore s then Waits s t
    else Frame {} s t ∧ Completes s t)

/-- R195: MON arms the wave's monitor on its line at the time of a load; a store above that time which the line's owner already knows has
triggered it. MWAIT gives 0 without a monitor, 1 when a store has triggered it, 2
when B is 0, and else holds its fragment for min(B, 2^32) cycles; its time and a spurious wake complete it. The readings in it are the model's: log 38. -/
def Sys2Proof.Claims.Monitor : Prop :=
  let off (s : State) : Int := (readC s s.ir.a.toNat).off + (operandB s).toInt +
    (if s.ir.imm.toNat % 2 ^ 24 < 2 ^ 23 then ((s.ir.imm.toNat % 2 ^ 24 : Nat) : Int) else (s.ir.imm.toNat % 2 ^ 24 : Nat) - 2 ^ 24)
  (∀ (s u : State) (l : Loc) (g : Got), admits s .mon = true → s.curT.hold = none → earlierOpen s = false →
    translate s s.curC.ctx (readC s s.ir.a.toNat) (off s) 1 { rights := rightR } = .ok l →
    loadAt s s.curDie (some s.curC.core) (issuePts s) l 1 = .ok (u, g) → ∃ t, exec .mon s = .next t ∧
      t.curW.monitor = some { line := l.key / 64, ts := g.ts, hit := !isHost l.key && decide (g.ts < (if dieOfKey l.key = s.curDie
        then (u.stamps (l.key / 64)).1 else ((tfind? (u.die s.curDie).rdc (l.key / 64)).map (·.wts)).getD 0)) } ∧ t.curW.pts = max s.curW.pts g.ts ∧
      t.curT.s = s.curT.s ∧ t.curT.c = s.curT.c ∧ t.curW.v = s.curW.v ∧ t.curW.p = s.curW.p ∧ t.accesses = s.accesses ∧
      (∀ k, k ≠ s.cur → t.thread k = s.thread k) ∧ (∀ k, k ≠ s.curWk → t.wave k = s.wave k) ∧ t.crews = s.crews ∧
      MemoryKept s t l.leaf 0 0 ∧ Completes s t) ∧
  (∀ s : State, admits s .mwait = true → ∃ t, exec .mwait s = .next t ∧
    match s.curW.monitor, s.curT.hold with
    | none, _ => t.curT.sreg s.ir.d.toNat = 0 ∧ Quiet { s := [s.ir.d.toNat] } s t
    | some m, h =>
      if m.hit then t.curT.sreg s.ir.d.toNat = inS s.ir.d.toNat 1 ∧ t.curW.monitor = none ∧ Quiet { s := [s.ir.d.toNat] } s t
      else if h = none ∧ operandB s = 0 then
        t.curT.sreg s.ir.d.toNat = inS s.ir.d.toNat 2 ∧ t.curW.monitor = none ∧ Quiet { s := [s.ir.d.toNat] } s t
      else Waits s t ∧ (h = none → (t.curT.hold.map (·.arg)) = some (s.clock + min (operandB s).toNat (2 ^ 32)))) ∧
  (∀ (s : State) (h : Hold) (i : Instr), (s.thread s.ev.subject).hold = some h → h.op = .mwait → (s.thread s.ev.subject).rep = none →
    i = .mwaitSpuriousWake ∨ (i = .mwaitTimeout ∧ h.arg ≤ s.clock) →
    ∃ t, exec i s = .next t ∧ (t.thread s.ev.subject).hold = none ∧ (t.wave (waveOf s.ev.subject)).monitor = none ∧
      (t.thread s.ev.subject).pc = (s.thread s.ev.subject).pc + BitVec.ofNat 64 h.len ∧ t.mem = s.mem ∧ t.crews = s.crews ∧
      (t.thread s.ev.subject).sreg h.f.d.toNat = inS h.f.d.toNat (if i = .mwaitSpuriousWake then 0
        else if ((s.wave (waveOf s.ev.subject)).monitor.map (·.hit)) = some true then 1 else 2) ∧
      (∀ r, r ≠ h.f.d.toNat → (t.thread s.ev.subject).sreg r = (s.thread s.ev.subject).sreg r) ∧
      (∀ k, k ≠ s.ev.subject → t.thread k = s.thread k))

/-- R196, R375: the semaphores. SEMA at the head of its queue takes n once the count allows, and says 1 in p[D]; a closed semaphore says 0 at
once; otherwise it joins the queue. SEMT takes only from a semaphore without a queue, else says 0 and changes nothing. SEMR adds n, up to
2^32 - 1, as a release. -/
def Sys2Proof.Claims.Semaphores : Prop :=
  let k (s : State) : Nat := s.ir.imm.toNat % 64
  let n (s : State) : Nat := s.ir.imm.toNat / 2 ^ 16 % 2 ^ 16
  let count (c : Crew) (j : Nat) : Nat := tget 0 c.sems j
  let queue (c : Crew) (j : Nat) : List SemWaiter := tget [] c.semQueue j
  let me (s : State) : SemWaiter := .thread s.cur (n s)
  let others (s t : State) : Prop := (∀ j, j ≠ k s → count t.curC j = count s.curC j ∧ queue t.curC j = queue s.curC j) ∧
    t.curC = { s.curC with sems := t.curC.sems, semQueue := t.curC.semQueue, relMark := t.curC.relMark }
  (∀ s : State, admits s .sema = true →
    (s.curC.semClosed.contains (k s) = true → ∃ t, exec .sema s = .next t ∧ Outcome s t false ∧ Quiet { p := [s.ir.d.toNat] } s t ∧
      count t.curC (k s) = count s.curC (k s) ∧ queue t.curC (k s) = (queue s.curC (k s)).filter (fun w => w != me s) ∧ others s t) ∧
    (s.curC.semClosed.contains (k s) = false → ((queue s.curC (k s)).head? = none ∨ (queue s.curC (k s)).head? = some (me s)) →
      n s ≤ count s.curC (k s) → ∃ t, exec .sema s = .next t ∧ Outcome s t true ∧ Quiet { p := [s.ir.d.toNat] } s t ∧
      count t.curC (k s) = count s.curC (k s) - n s ∧ queue t.curC (k s) = (queue s.curC (k s)).filter (fun w => w != me s) ∧
      t.curW.pts = max s.curW.pts s.curC.relMark ∧ others s t) ∧
    (s.curC.semClosed.contains (k s) = false → (count s.curC (k s) < n s ∨ ∃ w rest, queue s.curC (k s) = w :: rest ∧ w ≠ me s) →
      ∃ t, exec .sema s = .next t ∧ Queues s t ∧ me s ∈ queue t.curC (k s) ∧ count t.curC (k s) = count s.curC (k s) ∧ others s t)) ∧
  (∀ s : State, admits s .semt = true →
    let takes := s.curC.semClosed.contains (k s) = false ∧ queue s.curC (k s) = [] ∧ n s ≤ count s.curC (k s)
    (takes → ∃ t, exec .semt s = .next t ∧ Outcome s t true ∧ Quiet { p := [s.ir.d.toNat] } s t ∧
      count t.curC (k s) = count s.curC (k s) - n s ∧ t.curW.pts = max s.curW.pts s.curC.relMark ∧ others s t) ∧
    (¬ takes → ∃ t, exec .semt s = .next t ∧ Outcome s t false ∧ Frame { p := [s.ir.d.toNat] } s t ∧ Completes s t)) ∧
  (∀ s : State, admits s .semr = true →
    (performedAll s s.curWk = true → ∃ t, exec .semr s = .next t ∧ Quiet {} s t ∧
      count t.curC (k s) = min (count s.curC (k s) + n s) (2 ^ 32 - 1) ∧ t.curC.relMark = max s.curC.relMark s.curW.pts ∧ others s t) ∧
    (performedAll s s.curWk = false → ∃ t, exec .semr s = .next t ∧ Waits s t))

/-- R198: FENCEV on a completion word of its own die flips the object and clears DONE when DONE is TOTAL, and says 1; else it says 0 and
no byte changes. The readings in it are the model's: log 34. -/
def Sys2Proof.Claims.Publishing : Prop :=
  ∀ (s : State) (o : Entry) (l : Loc),
    let a := readC s s.ir.a.toNat
    let c := readC s s.ir.c.toNat
    let entry := entryKey s s.curDie s.curC.asid a.obj + 24
    let total := numAt s l 8 / 2 ^ 32
    admits s .fencev = true → s.curT.hold = none → earlierOpen s = false → objectCheck s s.curC.ctx a { rights := rightW, kind := 2 } = .ok o →
    translate s s.curC.ctx c (c.off + (operandB s).toInt) 8
      { field := 1, rights := rightR + rightW + rightA, align := 8, write := true, atomic := true } = .ok l →
    AtPlaces l (fun k => isHost k = true ∨ dieOfKey k = s.curDie) → storeStop s s.curDie l = none →
    (if isHost l.key = true then l.fails = false else AtPlaces l (fun k => s.poisoned k = false)) →
    o.w3 < 2 ^ 64 →
    ∃ t, exec .fencev s = .next t ∧ (∀ k, k ≠ s.cur → t.thread k = s.thread k) ∧ t.curT.c = s.curT.c ∧ t.curW.v = s.curW.v ∧
      (∀ r, r ≠ s.ir.d.toNat → t.curT.sreg r = s.curT.sreg r) ∧ t.curW.p = s.curW.p ∧ t.accesses = s.accesses ∧ Completes s t ∧
      if numAt s l 8 % 2 ^ 32 = total then
        t.curT.sreg s.ir.d.toNat = inS s.ir.d.toNat 1 ∧ t.num entry 8 = (if o.w3 % 2 = 0 then o.w3 + 1 else o.w3 - 1) ∧
        ((∀ j, j < 8 → ¬ (entry ≤ l.keyAt j ∧ l.keyAt j < entry + 8)) → Apart l 8 → numAt t l 8 = total * 2 ^ 32) ∧
        (∀ b, ¬ inLeaf l b → (∀ j, j < 8 → b ≠ l.keyAt j) → ¬ (entry ≤ b ∧ b < entry + 8) → t.byte b = s.byte b)
      else t.curT.sreg s.ir.d.toNat = 0 ∧ AccessKept s t l 0 ∧ t.crews = s.crews

/-- R201 to R204: DEAL starts an idle sequencer at its target with the fragment's registers and `PTS` and with counters of 0, once the fragment's
accesses are performed, its writes have landed, and no DEAL of the sequencer stands before it; MELD waits for its sequencers to be idle and raises `PTS` to theirs and to the crew's release mark. -/
def Sys2Proof.Claims.SequencersDealAndMeld : Prop :=
  let seq (s : State) (k : Nat) : Nat := 64 * s.curCk + 32 + k
  let idle (s : State) (k : Nat) : Prop := (s.thread (32 * seq s k)).state = .idle
  (∀ s : State, admits s .deal = true → s.curT.rep = none →
    let k := s.ir.mod.toNat % 2
    let ready := idle s k ∧ performedAll s s.curWk = true ∧ (∀ l ∈ s.curW.late, l.thread = s.cur → l.landAt ≤ s.clock) ∧ dealAhead s k = false
    (¬ (goal s).toNat % 4 = 0 → exec .deal s = illegal s 8) ∧
    ((goal s).toNat % 4 = 0 → ready → ∃ t, exec .deal s = .next t ∧
      (let q := t.thread (32 * seq s k)
       q.state = .live ∧ q.pc = goal s ∧ q.s = s.curT.s ∧ q.c = s.curT.c ∧ q.dealer = s.curWk ∧ q.hold = none) ∧
      (t.wave (seq s k)).pts = s.curW.pts ∧ (∀ p, (t.wave (seq s k)).counter p = 0) ∧ t.curC.relMark = max s.curC.relMark s.curW.pts ∧ t.mem = s.mem ∧
      t.curT.s = s.curT.s ∧ t.curT.c = s.curT.c ∧ (∀ j, j ≠ s.cur → j ≠ 32 * seq s k → t.thread j = s.thread j) ∧ Completes s t) ∧
    ((goal s).toNat % 4 = 0 → ¬ ready → ∃ t, exec .deal s = .next t ∧ Waits s t)) ∧
  (∀ s : State, admits s .meld = true →
    ((∀ k, k < 2 → s.ir.mod.getLsbD k = true → idle s k) → ∃ t, exec .meld s = .next t ∧ Quiet {} s t ∧ t.crews = s.crews ∧
      t.curW.pts = ((List.range 2).filter (fun k => s.ir.mod.getLsbD k)).foldl (fun p k => max p (s.wave (seq s k)).pts)
        (max s.curW.pts s.curC.relMark)) ∧
    ((∃ k, k < 2 ∧ s.ir.mod.getLsbD k = true ∧ ¬ idle s k) → ∃ t, exec .meld s = .next t ∧ Waits s t))

/-- R207, R209: STRM and TMPL read a record of 64 bytes and put it, with the capabilities it names captured from the fragment's registers, into
the core's slot. A reserved value in it traps ARITH 6 and the slot keeps its contents. The readings in it are the model's: log 61. -/
def Sys2Proof.Claims.PatternsAndTemplates : Prop :=
  ∀ (s u : State) (ls : List Loc) (bs : List Byte) (tags : List Bool), record s (scalarOffset s) 64 = some (u, ls, bs, tags) →
    s.curT.hold = none → earlierOpen s = false →
    let slot := s.ir.imm.toNat % 64
    (admits s .strm = true →
      if byteAt bs 0x20 % 8 ≠ 7 ∧ (128 ≤ byteAt bs 0x21 → field bs 0x28 8 % 4 = 0) then
        ∃ t, exec .strm s = .next t ∧ Reads s t ls ∧ tfind? t.curC.patterns slot =
          some ⟨bs, if 128 ≤ byteAt bs 0x21 then readC s (byteAt bs 0x22 % 16) else {}⟩ ∧
          t.curC = { s.curC with patterns := t.curC.patterns } ∧
          (∀ j, j ≠ slot → tfind? t.curC.patterns j = tfind? s.curC.patterns j)
      else exec .strm s = arith u 6) ∧
    (admits s .tmpl = true →
      let ord := byteAt bs 5
      let cap (r : Nat) : Cap := if r < 16 then readC s r else {}
      if byteAt bs 0 ≤ 2 ∧ byteAt bs 1 ≤ 16 ∧ byteAt bs 2 ≤ 16 ∧ ord % 8 ≠ 7 ∧ ord / 16 % 8 ≠ 7 then
        ∃ t, exec .tmpl s = .next t ∧ Reads s t ls ∧
          tfind? t.curC.templates slot = some ⟨bs, cap (byteAt bs 1), cap (byteAt bs 2)⟩ ∧
          t.curC = { s.curC with templates := t.curC.templates } ∧
          (∀ j, j ≠ slot → tfind? t.curC.templates j = tfind? s.curC.templates j)
      else exec .tmpl s = arith u 6)

/-- R210: XGO appends a command with a snapshot of its template and pattern to the channel, and waits while the channel holds 16. The readings in it are the
model's: log 139. -/
def Sys2Proof.Claims.CopiesAreQueued : Prop :=
  ∀ s : State, admits s .xgo = true →
    let b := (operandB s).toNat
    let ch := s.ir.imm.toNat / 16 % 8
    let tm := tget {} s.curC.templates (b % 64)
    let pt := tget {} s.curC.patterns (byteAt tm.record 3 % 64)
    let queue (c : Crew) : List CopyCmd := tget [] c.channels ch
    (b / 64 % 4 ≠ 0 → exec .xgo s = arith s 2) ∧
    (b / 64 % 4 = 0 → combineBad tm pt = false → (byteAt tm.record 0 = 0 ↔ byteAt pt.record 0x21 < 128) →
      ((queue s.curC).length < 16 → s.curC.chanFault.contains ch = false → ∃ t m, exec .xgo s = .next t ∧ Quiet {} s t ∧
        queue t.curC = queue s.curC ++ [m] ∧ m.agent = s.curWk ∧ m.tmpl = tm ∧ m.pat = pt ∧ m.arg = sgn 56 (b / 256) ∧ m.pts = s.curW.pts ∧
        m.next = 0 ∧ m.started = false ∧ (∀ j, j ≠ ch → tget [] t.curC.channels j = tget [] s.curC.channels j) ∧
        t.curC = { s.curC with channels := t.curC.channels }) ∧
      ((16 ≤ (queue s.curC).length ∨ s.curC.chanFault.contains ch = true) → ∃ t, exec .xgo s = .next t ∧ Waits s t)) ∧
    (b / 64 % 4 = 0 → ¬ (byteAt tm.record 0 = 0 ↔ byteAt pt.record 0x21 < 128) → exec .xgo s = arith s 6)

/-- R213, R183: an engine's read of a contiguous object of its die, all of it in place and whole, gives the bytes of memory and changes none, and its write leaves its
bytes there and every other byte as it was, with the tags of the granules 0; no time falls. -/
def Sys2Proof.Claims.EngineAccesses : Prop :=
  ∀ (s : State) (x : Ctx) (c : Cap) (o : Entry) (e p n : Nat),
    let key := keyOf x.die (o.w1 + e)
    c.tag = true → entryPoisoned s x.die x.asid c.obj = false → entryOf s x.die x.asid c.obj = some o → o.valid = true → o.kind = 1 →
    c.covers e n = true → e + n ≤ o.size → 0 < n → o.w1 + e + n < 2 ^ 48 →
    (∀ j, j < n → s.has (key + j) = true ∧ inFrames (key + j) = false) →
    (c.rights &&& 128 = 128 → (∀ j, j < n → lineAway s ((key + j) / 64) = false ∧ s.poisoned (key + j) = false) →
      ∃ u q, engineRead s x c e n p engineR = .ok (u, s.bytes key n, q) ∧ u.mem = s.mem ∧ p ≤ q) ∧
    (c.rights &&& 64 = 64 → (∀ j, j < n → (s.dir ((key + j) / 64)).busy = none ∧ (s.dir ((key + j) / 64)).state = .i) →
      ∀ bs, bs.length = n → ∃ u q, engineWrite s x c e bs p engineW = .ok (u, q) ∧ p ≤ q ∧
        (∀ a, u.byte a = if key ≤ a ∧ a < key + n then bs.getD (a - key) 0 else s.byte a) ∧
        ∀ j, j < n → u.tags.contains ((key + j) / 16) = false)

/-- R206, R211, R212: the steps of the command at the head of a channel. An element of a COPY or GATHER goes from SOFF + arg + off(n) to DOFF + n 2^ESIZE,
one of a SCATTER the other way, each side in the scratchpad or behind its capability's OFF. A SCATTER with COMBINE collects its
elements first, and then writes each destination once: its element as it is, or the sum of its duplicates, which wraps or is exact and rounded to
nearest even. When every element is moved, the command leaves its channel and its semaphore rises. The readings in it are the model's: log 60. -/
def Sys2Proof.Claims.CopyStep : Prop :=
  ∀ (s : State) (m : CopyCmd) (rest : List CopyCmd),
    let ck := s.ev.subject
    let c := s.crew ck
    tget [] c.channels s.ev.arg1 = m :: rest → m.wait.refused = none → crewOf m.agent = ck → m.got = none → m.bad = none →
    let rec' := m.tmpl.record
    let kind := byteAt rec' 0
    let combines := kind = 2 ∧ byteAt rec' 6 % 2 = 0
    let size := 2 ^ (byteAt m.pat.record 0x20 % 8)
    let near : Int := sgn 64 (field rec' 8 8) + m.arg + if byteAt rec' 1 = 16 then 0 else m.tmpl.src.off
    let far : Int := sgn 64 (field rec' 16 8) + if byteAt rec' 2 = 16 then 0 else m.tmpl.dst.off
    let head (t : State) : List CopyCmd := tget [] (t.crew ck).channels s.ev.arg1
    let others (t : State) : Prop := t.threads = s.threads ∧ ∀ k, k ≠ ck → t.crew k = s.crew k
    (m.started = false → byteAt rec' 5 / 8 % 2 = 0 → ∃ t m', exec .copyCommand s = .next t ∧ EngineStep s t ck ∧ t.mem = s.mem ∧
      head t = m' :: rest ∧ m' = { m with started := true, doneAt := m'.doneAt }) ∧
    (∀ (n : Nat) (u v : State) (o : Int) (q q' : Nat) (bs : List Byte), m.started = true → m.next < elements m.pat.record →
      ((combines ∧ n = m.values.length ∧ n < elements m.pat.record) ∨ (¬ combines ∧ n = m.next)) →
      let dense : Int := (n * size : Nat)
      let src := near + if kind = 2 then dense else o
      let dst := far + if kind = 2 then o else dense
      IndexRead s ck m.pat n m.pts u o q → SideRead u ck (byteAt rec' 1) m.tmpl.src src size q v bs q' →
      (¬ combines → CanWrite v ck (byteAt rec' 2) m.tmpl.dst dst bs q' → ∃ t m', exec .copyCommand s = .next t ∧ others t ∧
        head t = m' :: rest ∧ m' = { m with next := m.next + 1, pts := m'.pts, wait := { m.wait with line := none }, doneAt := m'.doneAt } ∧
        SideWritten v t ck (byteAt rec' 2) m.tmpl.dst dst bs q' m'.pts) ∧
      (combines → ∃ t m', exec .copyCommand s = .next t ∧ others t ∧ head t = m' :: rest ∧ t.mem = v.mem ∧ (t.crew ck).scratch = c.scratch ∧
        m' = { m with
          values := m.values ++ [(if byteAt rec' 2 = 16 then ((spad dst : Nat) : Int) else dst, numOfBytes bs)], pts := q'
          wait := { m.wait with line := none }, doneAt := m'.doneAt })) ∧
    (∀ d v, m.started = true → combines → m.values.length = elements m.pat.record → 0 < m.next → m.values[m.next]? = some (d, v) →
      (∀ x ∈ m.values.take m.next, x.1 ≠ d) → (∀ bs, bs.length = size → CanWrite s ck (byteAt rec' 2) m.tmpl.dst d bs m.pts) →
      let same := (m.values.filter (fun x => x.1 == d)).map (·.2)
      let ty := byteAt rec' 7 % 16
      8 * size = widthOf ty → ty ∈ [2, 3, 6, 7, 10] → same.length < 2 ^ 42 → ∃ t m' bs r, exec .copyCommand s = .next t ∧ others t ∧ head t = m' :: rest ∧
        m' = { m with next := m.next + 1, pts := m'.pts, wait := { m.wait with line := none }, doneAt := m'.doneAt } ∧
        bs = bytesOf size r ∧ (if same.length = 1 then r = v else Reduced { s with ir := { t := BitVec.ofNat 4 ty } } 0 1 same r) ∧
        SideWritten s t ck (byteAt rec' 2) m.tmpl.dst d bs m.pts m'.pts) ∧
    (m.started = true → elements m.pat.record ≤ m.next → ∃ t, exec .copyCommand s = .next t ∧ EngineStep s t ck ∧ t.mem = s.mem ∧
      head t = rest ∧ ∀ k, k < 64 → tget 0 (t.crew ck).sems k = (if 128 ≤ byteAt rec' 4 ∧ byteAt rec' 4 % 64 = k then
        min (tget 0 c.sems k + 1) (2 ^ 32 - 1) else tget 0 c.sems k))

/-- R215, R216, R217: SUBS binds a subscription under a free id, which s[D] takes, adds its slots to FREE and waits while 8 are live; UNSUB of one
between its tiles ends it, and of an id that names none does nothing. A loader takes from FREE, moves element n of tile t from
c[A].OFF + s[C] + off into slot t mod K, and at a tile's end adds to FULL; a storer moves it back. The readings in it are the model's: logs 60, 63, 138. -/
def Sys2Proof.Claims.Subscriptions : Prop :=
  (∀ s : State, admits s .subs = true →
    let b := (operandB s).toNat
    let pt := tget {} s.curC.patterns (s.ir.imm.toNat % 64)
    (subsOk b pt = false → exec .subs s = arith s 2) ∧
    (subsOk b pt = true → (∃ k, k < 8 ∧ thas s.curC.subs k = false) → ∃ t id x, exec .subs s = .next t ∧ Quiet { s := [s.ir.d.toNat] } s t ∧
      id < 8 ∧ thas s.curC.subs id = false ∧ tfind? t.curC.subs id = some x ∧ t.curT.sreg s.ir.d.toNat = inS s.ir.d.toNat (BitVec.ofNat 64 id) ∧
      x.agent = s.curWk ∧ x.storer = s.ir.imm.getLsbD 8 ∧ x.cap = readC s s.ir.a.toNat ∧ x.base = (readS s s.ir.c.toNat).toInt ∧ x.pat = pt ∧
      x.full = fld b 48 6 ∧ x.free = fld b 54 6 ∧ x.slots = fld b 40 8 ∧ x.slotSize = fld b 20 20 ∧ x.ring = fld b 0 20 ∧ x.tile = 0 ∧
      x.taken = false ∧ (∀ j, j ≠ id → tfind? t.curC.subs j = tfind? s.curC.subs j) ∧
      (∀ k, tget 0 t.curC.sems k = if k = fld b 54 6 then min (tget 0 s.curC.sems k + fld b 40 8) (2 ^ 32 - 1) else tget 0 s.curC.sems k) ∧
      t.curC.semClosed.contains (fld b 48 6) = false ∧ t.curC.semClosed.contains (fld b 54 6) = false) ∧
    (subsOk b pt = true → (∀ k, k < 8 → ∃ x, tfind? s.curC.subs k = some x ∧ x.stopped = false) → ∃ t, exec .subs s = .next t ∧ Waits s t)) ∧
  (∀ s : State, admits s .unsub = true →
    let id := (readS s s.ir.a.toNat).toNat
    let named (x : Sub) : Prop := ∀ h, s.curT.hold = some h → x.boundAt ≤ h.since
    ((tfind? s.curC.subs id = none ∨ ∃ x, tfind? s.curC.subs id = some x ∧ ¬ named x) → ∃ t, exec .unsub s = .next t ∧ Frame {} s t ∧ Completes s t) ∧
    (∀ x, tfind? s.curC.subs id = some x → named x → x.stopped = false → x.taken = false → ∃ t, exec .unsub s = .next t ∧ Quiet {} s t ∧
      thas t.curC.subs id = false ∧ t.curC.sems = s.curC.sems) ∧
    (∀ x, tfind? s.curC.subs id = some x → named x → x.stopped = false → x.taken = true → ∃ t, exec .unsub s = .next t ∧ Queues s t ∧
      tfind? t.curC.subs id = some { x with cancel := true })) ∧
  (∀ (s : State) (x : Sub),
    let ck := s.ev.subject
    let c := s.crew ck
    let now (t : State) : Option Sub := tfind? (t.crew ck).subs s.ev.arg1
    let count (t : State) (k : Nat) : Nat := tget 0 (t.crew ck).sems k
    tfind? c.subs s.ev.arg1 = some x → x.stopped = false → x.wait.refused = none → x.storer = false → x.tile < field x.pat.record 24 2 →
    (x.taken = false → c.semClosed.contains x.free = false → tget [] c.semQueue x.free = [] → 0 < tget 0 c.sems x.free →
      ∃ t y, exec .subscriptionTile s = .next t ∧ EngineStep s t ck ∧ t.mem = s.mem ∧ count t x.free = count s x.free - 1 ∧
        now t = some y ∧ y = { x with taken := true, queued := false, readyAt := y.readyAt }) ∧
    (x.taken = true → x.cancel = false → field x.pat.record 0 2 * field x.pat.record 8 2 * field x.pat.record 16 2 ≤ x.next →
      ∃ t, exec .subscriptionTile s = .next t ∧ EngineStep s t ck ∧ t.mem = s.mem ∧
        count t x.full = min (count s x.full + 1) (2 ^ 32 - 1) ∧ (t.crew ck).relMark = max c.relMark x.pts ∧
        (if field x.pat.record 24 2 ≤ x.tile + 1 then now t = none
         else ∃ y, now t = some y ∧ y = { x with tile := x.tile + 1, taken := false, next := 0, readyAt := y.readyAt }))) ∧
  (∀ (s u v : State) (x : Sub) (o : Int) (q q' : Nat) (bs : List Byte),
    let ck := s.ev.subject
    let size := 2 ^ (byteAt x.pat.record 0x20 % 8)
    let tile := field x.pat.record 0 2 * field x.pat.record 8 2 * field x.pat.record 16 2
    let slot : Int := (x.ring + x.tile % x.slots * x.slotSize + x.next * size : Nat)
    tfind? (s.crew ck).subs s.ev.arg1 = some x → crewOf x.agent = ck → x.stopped = false → x.wait.refused = none →
    x.tile < field x.pat.record 24 2 → x.taken = true → x.next < tile → IndexRead s ck x.pat (x.next + tile * x.tile) x.pts u o q →
    let place := x.cap.off + x.base + o
    let ends := if x.storer then ((16, slot), (0, place)) else ((0, place), (16, slot))
    SideRead u ck ends.1.1 x.cap ends.1.2 size q v bs q' → CanWrite v ck ends.2.1 x.cap ends.2.2 bs q' →
    ∃ t y, exec .subscriptionTile s = .next t ∧ t.threads = s.threads ∧ (∀ k, k ≠ ck → t.crew k = s.crew k) ∧
      tfind? (t.crew ck).subs s.ev.arg1 = some y ∧
      y = { x with next := x.next + 1, pts := y.pts, wait := { x.wait with line := none }, readyAt := y.readyAt } ∧
      SideWritten v t ck ends.2.1 x.cap ends.2.2 bs q' y.pts)

/-- R218 to R222: ARED and AGATH read their group record and join their die's collective engine; a die that is no member refuses them, and
so does a mask with a bit above 11 (R362). Matched commands that disagree stop on every member with ENGINEFAULT 9. The leader reads each element, reduces the
contributions by ascending die (R134) or takes the block's, and writes the result to every member; when all are written each command leaves its engine and its semaphore rises.
A command that no packet takes to a member stops with ENGINEFAULT 9 (R406). The readings in it are the model's: logs 60, 64, 132, 140. -/
def Sys2Proof.Claims.Collectives : Prop :=
  (∀ (i : Instr) (s u : State) (ls : List Loc) (bs : List Byte) (tags : List Bool), i = .ared ∨ i = .agath → admits s i = true →
    s.curT.hold = none → earlierOpen s = false → record s ((readC s s.ir.a.toNat).off : Nat) 256 = some (u, ls, bs, tags) →
    let mask := field bs 0 8
    let queue (t : State) : List Collective := (t.die s.curDie).collectives
    if mask < 2 ^ 12 ∧ mask / 2 ^ s.curDie % 2 = 1 then
      ∃ t x, exec i s = .next t ∧ Reads s t ls ∧ t.crews = s.crews ∧ queue t = queue s ++ [x] ∧ x.thread = s.cur ∧ x.crew = s.curCk ∧
        x.gather = (i == .agath) ∧ x.mask = mask ∧ x.count = (operandB s).toNat ∧ x.f = s.ir ∧ x.pts = t.curW.pts ∧
        x.occurrence = tget 0 (s.die s.curDie).matchCounts mask ∧
        (∀ m, m < 12 → mask / 2 ^ m % 2 = 1 → (x.bufs.getD m {}).raw.toNat = numOfBytes ((bs.drop (0x40 + 16 * m)).take 16))
    else exec i s = arith u 6) ∧
  (∀ (s : State) (xs : List Collective) (x : Collective) (rest : List Collective),
    let members := (List.range 12).filter (fun d => s.ev.subject / 2 ^ d % 2 = 1)
    s.ev.arg1 = 0 → matched s s.ev.subject = some xs → xs = x :: rest → x.wait.refused = none →
    ((∃ y ∈ rest, agrees x y = false) → ∃ t, exec .collective s = .next t ∧ t.mem = s.mem ∧ t.threads = s.threads ∧
      (∀ d ∈ members, (t.die d).collectives = (s.die d).collectives.tail) ∧
      (∀ y ∈ xs, ∀ w, asyncTarget s (waveOf y.thread) = some w → ⟨0x42, 9, 1⟩ ∈ (t.wave w).pending)) ∧
    ((∀ y ∈ rest, agrees x y = true) → (if x.gather then members.length * x.count else x.count) ≤ x.next →
      ∃ t, exec .collective s = .next t ∧ t.mem = s.mem ∧ t.threads = s.threads ∧ t.waves = s.waves ∧
        (∀ d ∈ members, (t.die d).collectives = (s.die d).collectives.tail) ∧
        (rest = [] → ∀ k, tget 0 (t.crew x.crew).sems k = if x.f.imm.getLsbD 8 ∧ k = fld x.f.imm.toNat 2 6 then
          min (tget 0 (s.crew x.crew).sems k + 1) (2 ^ 32 - 1) else tget 0 (s.crew x.crew).sems k))) ∧
  (∀ (s : State) (xs rest : List Collective) (x : Collective),
    let members := (List.range 12).filter (fun d => s.ev.subject / 2 ^ d % 2 = 1)
    let die := members.headD 0
    let size := widthOf x.f.t.toNat / 8
    let ck := crewOf (waveOf x.thread)
    let mark (y : Collective) : Nat := (s.crew (crewOf (waveOf y.thread))).relMark
    let p := xs.foldl (fun p y => max p (if y.f.imm.getLsbD 12 ∧ fld y.f.imm.toNat 9 3 ≠ 0 then max y.pts (mark y) else y.pts)) x.pts
    let led (t : State) : Option Collective := (t.die die).collectives.head?
    s.ev.arg1 = 0 → matched s s.ev.subject = some xs → xs = x :: rest → x.wait.refused = none → (∀ y ∈ rest, agrees x y = true) →
    x.next < (if x.gather then members.length * x.count else x.count) →
    (∀ u vs q, x.value = none → reduces x.f.t.toNat x.f.mod.toNat (x.f.imm.toNat % 4) →
      giversRun x (if x.gather then [members.getD (x.next / x.count) 0] else members) s p = some (u, vs, q) →
      ∃ t r, exec .collective s = .next t ∧ t.mem = u.mem ∧ t.threads = s.threads ∧ (led t).map (fun y => (y.value, y.wrote, y.next, y.pts)) =
        some (some r, 0, x.next, q) ∧
        (if x.gather then vs = [r] else Reduced { s with ir := { x.f with sat := false } } x.f.mod.toNat (x.f.imm.toNat % 4) vs r)) ∧
    (∀ v m u q, x.value = some v → members[x.wrote]? = some m →
      engineWrite s (s.crew ck).ctx (x.bufs.getD m {}) (((x.bufs.getD m {}).off + x.next * size : Nat) : Int) (bytesOf size v) p
        { engineW with field := 3 } = .ok (u, q) →
      ∃ t, exec .collective s = .next t ∧ t.mem = u.mem ∧ t.tags = u.tags ∧
        (led t).map (fun y => (y.value, y.wrote, y.next, y.pts)) = some (some v, x.wrote + 1, x.next, q)) ∧
    (∀ v, x.value = some v → members.length ≤ x.wrote → ∃ t, exec .collective s = .next t ∧ t.mem = s.mem ∧
      (led t).map (fun y => (y.value, y.wrote, y.next)) = some (none, 0, x.next + 1))) ∧
  (∀ (s : State) (d : Nat) (x : Collective) (rest : List Collective), s.ev.arg1 = d + 1 → (s.die d).collectives = x :: rest →
    ∃ t, exec .collective s = .next t ∧ t.mem = s.mem ∧ t.threads = s.threads ∧ (t.die d).collectives = rest ∧
      (∀ w, asyncTarget s (waveOf x.thread) = some w → ⟨0x42, 9, 0⟩ ∈ (t.wave w).pending))

/-- R224, R226, R227, R234 to R245: a matrix instruction whose checks find a trap takes it; one that passes them, finds room in the engine and a
kitty that can pay becomes a command, and its fragment goes on, or waits for it where R242 says so; with a full counter, a full queue or a short kitty
it is not ready (R94), and one whose id is live holds its fragment. The readings in it are the model's: logs 67, 69. -/
def Sys2Proof.Claims.MatrixIssue : Prop :=
  ∀ (i : Instr) (check : State → Option (Nat × Nat)) (path : Option Nat) (held : Bool), matrixIssue i = some (check, path, held) →
  ∀ s : State, admits s i = true → s.curT.hold = none → (i = .mma ∨ i = .mldaReg ∨ i = .mldbReg → s.ir.imm.getLsbD 31 = false) →
    (∀ code d, check s = some (code, d) → exec i s = trap s code d) ∧
    (check s = none → (∀ p, path = some p → s.curW.counter p < 63) →
      (s.curC.commands.length < 16 → tagAllows s → canPay s → ∃ t m, exec i s = .next t ∧ Accepts s t i m ∧
        (if held then t.curT.pc = s.curT.pc ∧ t.curT.hold.isSome = true ∧ m.thread = some s.cur else Completes s t) ∧
        (∀ p, path = some p → t.curW.counter p = s.curW.counter p + 1) ∧
        (i = .mrel → (m.opA ≠ 0 ↔ ∃ r, tfind? s.curC.resv s.ir.d.toNat = some r ∧ r.releasing = false) ∧ ∀ r, tfind? s.curC.resv s.ir.d.toNat = some r → tfind? t.curC.resv s.ir.d.toNat = some { r with releasing := true })) ∧
      (¬ tagAllows s → ∃ t, exec i s = .next t ∧ Waits s t) ∧
      (16 ≤ s.curC.commands.length → tagAllows s → ∃ t, exec i s = .next t ∧ NotReady s t ∧ t.crews = s.crews) ∧
      (s.curC.commands.length < 16 → tagAllows s → ¬ canPay s → ∃ t, exec i s = .next t ∧ NotReady s t ∧ s.cur ∈ t.curC.kittyQueue)) ∧
    (check s = none → ∀ p, path = some p → 63 ≤ s.curW.counter p → ∃ t, exec i s = .next t ∧ NotReady s t ∧ t.crews = s.crews)

/-- R244: MSTA becomes a command that holds its capability or its scratchpad operand, and its bias where it has one; it raises ST or SP. -/
def Sys2Proof.Claims.MatrixStores : Prop :=
  ∀ s : State, admits s .msta = true → s.curT.hold = none →
    let mem := s.ir.imm.getLsbD 12
    mstaTrap s = none → s.curW.counter (if mem then 1 else 2) < 63 → s.curC.commands.length < 16 → tagAllows s → canPay s →
    ∃ t m, exec .msta s = .next t ∧ Accepts s t .msta m ∧ Completes s t ∧ m.cap = (if mem then readC s s.ir.a.toNat else {}) ∧
      m.data = (if s.ir.imm.getLsbD 13 then (List.range 32).map (fun L => readV s 32 s.ir.c.toNat L) else []) ∧
      t.curW.counter (if mem then 1 else 2) = s.curW.counter (if mem then 1 else 2) + 1

/-- R231, R246, R224: MRES makes a reservation once its id and its lines are free; MCMD takes the command graph for its agent and tags the next
command; MCMD.END gives the graph up. Each waits while it cannot, or while a command that its own tag names is live, and is not ready (R94) while the
command queue is full. -/
def Sys2Proof.Claims.ReservationsAndGraphs : Prop :=
  (∀ s : State, admits s .mres = true → mresTrap s = none → canPay s →
    let b := (operandB s).toNat
    let free := thas s.curC.resv s.ir.d.toNat = false ∧
      ∀ e ∈ s.curC.resv, ¬ (fld b 0 8 < e.2.first + e.2.lines ∧ e.2.first < fld b 0 8 + fld b 8 9)
    (free → tagOpen s → 16 ≤ s.curC.commands.length → s.curT.hold = none → ∃ t, exec .mres s = .next t ∧ NotReady s t) ∧
    (free → tagOpen s → s.curC.commands.length < 16 → ∃ t, exec .mres s = .next t ∧ Quiet {} s t ∧ t.curC.kitty = paid s ∧ tfind? t.curC.resv s.ir.d.toNat =
        some { t := s.ir.t.toNat, mod := s.ir.mod.toNat, first := fld b 0 8, lines := fld b 8 9, scl := fld b 17 8, xoff := sgn 8 (fld b 25 8) } ∧
      ∀ q, q ≠ s.ir.d.toNat → tfind? t.curC.resv q = tfind? s.curC.resv q) ∧
    (¬ free ∨ ¬ tagOpen s → ∃ t, exec .mres s = .next t ∧ Waits s t)) ∧
  (∀ s : State, admits s .mcmd = true → canPay s →
    let imm := s.ir.imm.toNat
    let mine := (s.curC.forerunner = none ∨ s.curC.forerunner = some s.curWk) ∧ ∀ e ∈ s.curC.commands, e.2.id ≠ imm % 256
    (imm % 256 = 0 → exec .mcmd s = arith s 4) ∧
    (imm % 256 ≠ 0 → mine → tagOpen s → 16 ≤ s.curC.commands.length → s.curT.hold = none → ∃ t, exec .mcmd s = .next t ∧ NotReady s t) ∧
    (imm % 256 ≠ 0 → mine → tagOpen s → s.curC.commands.length < 16 → ∃ t, exec .mcmd s = .next t ∧ Quiet {} s t ∧ t.curC.kitty = paid s ∧ t.curC.forerunner = some s.curWk ∧
      t.curT.tag = some (imm % 256, fld imm 8 8, fld imm 16 8)) ∧
    (imm % 256 ≠ 0 → ¬ mine ∨ ¬ tagOpen s → ∃ t, exec .mcmd s = .next t ∧ Waits s t)) ∧
  (∀ s : State, admits s .mcmdEnd = true → canPay s →
    let mine := s.curC.forerunner = none ∨ s.curC.forerunner = some s.curWk
    (mine → tagOpen s → 16 ≤ s.curC.commands.length → s.curT.hold = none → ∃ t, exec .mcmdEnd s = .next t ∧ NotReady s t) ∧
    (mine → tagOpen s → s.curC.commands.length < 16 → ∃ t, exec .mcmdEnd s = .next t ∧ Quiet {} s t ∧
      t.curC.forerunner = none ∧ t.curT.tag = none) ∧
    (¬ mine ∨ ¬ tagOpen s → ∃ t, exec .mcmdEnd s = .next t ∧ Waits s t))

/-- R236, R237, R380: GANG defines a gang of distinct waves of the crew once it has nothing in work; a joint instruction of a member arrives at the
latch and waits; with every member there and agreeing the engine accepts one command and every member goes on, and members that disagree
all trap GANGFAIL. The readings in it are the model's: log 69. -/
def Sys2Proof.Claims.Gangs : Prop :=
  (∀ s : State, admits s .gang = true →
    let ws := (List.range s.ir.mod.toNat).map (fun k => fld s.ir.imm.toNat (5 * k) 5)
    let g := tget {} s.curC.gangs s.ir.d.toNat
    (¬ ws.Nodup ∨ (∃ w ∈ ws, s.curC.nwaves ≤ w) → exec .gang s = arith s 4) ∧
    (ws.Nodup → (∀ w ∈ ws, w < s.curC.nwaves) → g.waiting = [] → (∀ e ∈ s.curC.commands, e.2.gang ≠ some s.ir.d.toNat) →
      ∃ t, exec .gang s = .next t ∧ Quiet {} s t ∧ tfind? t.curC.gangs s.ir.d.toNat = some { waves := ws }) ∧
    (ws.Nodup → (∀ w ∈ ws, w < s.curC.nwaves) → g.waiting ≠ [] → ∃ t, exec .gang s = .next t ∧ Waits s t)) ∧
  (∀ (i : Instr) (s : State), i = .mma ∨ i = .mldaReg ∨ i = .mldbReg → admits s i = true → s.ir.imm.getLsbD 31 = true →
    s.curT.hold = none →
    let gid := fld s.ir.imm.toNat 29 2
    let g := tget {} s.curC.gangs gid
    (s.curWk % 64 ∉ g.waves → exec i s = arith s 4) ∧
    (s.curWk % 64 ∈ g.waves → ∀ d, g.failed = some d → exec i s = trap s 0x40 d) ∧
    (s.curWk % 64 ∈ g.waves → g.failed = none → (if i = .mma then mmaBad s else loadBad s) = false → ∃ t g', exec i s = .next t ∧
      Queues s t ∧ tfind? t.curC.gangs gid = some g' ∧ g'.waiting = g.waiting ++ [⟨s.cur, i, s.ir, tget 0 g.counts (s.curWk % 64), 0⟩] ∧
      tget 0 g'.counts (s.curWk % 64) = tget 0 g.counts (s.curWk % 64) + 1)) ∧
  (∀ (s : State) (es : List GangEntry) (e0 : GangEntry) (rest : List GangEntry),
    let ck := s.ev.subject
    let g := tget {} (s.crew ck).gangs s.ev.arg1
    arrived g = some es → es = e0 :: rest → e0.op ≠ .mmap →
    ((∃ e ∈ es, wordsAgree e0 e = false) → exec .gangAccept s = .next (failOccurrence s ck s.ev.arg1 g es 0x40 0x80)) ∧
    ((∀ e ∈ es, wordsAgree e0 e = true) → (s.crew ck).commands.length < 16 → (∀ e ∈ es, (s.thread e.thread).tag = none) →
      (s.crew ck).krate = 0 → (∀ e ∈ es, ∃ h, (s.thread e.thread).hold = some h ∧ h.f = e.f) → (∀ e ∈ es, (s.thread e.thread).rep = none) →
      (es.map (·.thread)).Nodup → (∀ e ∈ es, crewOf (waveOf e.thread) = ck) →
      ∃ t key m, exec .gangAccept s = .next t ∧ t.mem = s.mem ∧ thas (s.crew ck).commands key = false ∧
        tfind? (t.crew ck).commands key = some m ∧ m.op = e0.op ∧ m.gang = some s.ev.arg1 ∧ m.agents = g.waves.map (fun w => 64 * ck + w) ∧
        (∀ e ∈ es, (t.thread e.thread).hold = none ∧
          ∀ h, (s.thread e.thread).hold = some h → (t.thread e.thread).pc = (s.thread e.thread).pc + BitVec.ofNat 64 h.len)))

/-- R240, R381: an MMAP takes the next number of its crew and waits for its partner's match; a crew not placed as a pair traps PARTNERLOST. Both
engines of a pair start 4 cycles after the later side is ready, as long as no conflict (R229) keeps a side. The readings in it are the model's: log 70. -/
def Sys2Proof.Claims.PairedProducts : Prop :=
  (∀ s : State, admits s .mmap = true → s.ir.imm.getLsbD 31 = false →
    (s.curC.paired = false → exec .mmap s = trap s 0x41 1) ∧
    (s.curC.paired = true → s.curC.pairBroken = true → exec .mmap s = trap s 0x41 0) ∧
    (s.curC.paired = true → s.curC.pairBroken = false → s.curC.pairEnded = false →
      (s.curT.hold = none → mmapBad s = true → exec .mmap s = arith s 4) ∧
      (s.curT.hold = none → mmapBad s = false → ∃ t, exec .mmap s = .next t ∧ Queues s t ∧ t.curC.mmapCount = s.curC.mmapCount + 1 ∧
        t.curT.hold.map (·.arg) = some (s.curC.mmapCount + 1)) ∧
      (∀ (h : Hold) (p : Nat), s.curT.hold = some h → s.curC.pair = some p → s.curC.commands.length < 16 → tagAllows s → canPay s →
        (h.arg ≤ (s.crew p).mmapCount → ∃ t m, exec .mmap s = .next t ∧ Accepts s t .mmap m ∧ m.pairIdx = h.arg ∧ Completes s t) ∧
        ((s.crew p).mmapCount < h.arg → ∃ t, exec .mmap s = .next t ∧ Waits s t)))) ∧
  (∀ (s : State) (pk k1 k2 : Nat) (m1 m2 : MatrixCmd) (a b : Nat),
    let ck := s.ev.subject
    (s.crew ck).pair = some pk → pk ≠ ck → readyMmap (s.crew ck) = some (k1, m1) → readyMmap (s.crew pk) = some (k2, m2) →
    m1.pairIdx = m2.pairIdx → m1.pairReady = some a → m2.pairReady = some b →
    let cycles (c : Crew) (m : MatrixCmd) : Nat := (if c.die < 8 then 16 else 128) * (if fld m.f.imm.toNat 18 2 = 1 then 4 else 1)
    let go1 := mayStart (s.crew ck) k1 m1
    let go2 := mayStart (s.crew pk) k2 m2
    let back (go : Bool) (m : MatrixCmd) : MatrixCmd := if go then m else { m with pairReady := none, doneAt := s.clock + 1 }
    ((go1 && go2) = false → ∃ t, exec .mmapPairStart s = .next t ∧ t.mem = s.mem ∧ t.threads = s.threads ∧
      tfind? (t.crew ck).commands k1 = some (back go1 m1) ∧ tfind? (t.crew pk).commands k2 = some (back go2 m2)) ∧
    ((go1 && go2) = true → ∃ t, exec .mmapPairStart s = .next t ∧ t.mem = s.mem ∧ t.threads = s.threads ∧
      tfind? (t.crew ck).commands k1 = some { m1 with started := true, doneAt := max a b + 4 + cycles (s.crew ck) m1 } ∧
      tfind? (t.crew pk).commands k2 = some { m2 with started := true, doneAt := max a b + 4 + cycles (s.crew pk) m2 }))

/-- R229, R238, R239, R241, R245: what accepted commands do when their time has come: MZERO clears its tile and sets its mode, MMA adds the terms of each
element, in .SEQ order one at a time with one rounding each, in .EXACT order to the exact state, in .FREE order within the bound of R81; MBAR arrives on its
object, MREL frees the reservation that it named; each leaves the engine and lowers its counter. The readings in it are the model's: logs 66, 143. -/
def Sys2Proof.Claims.MatrixWork : Prop :=
  ∀ (s : State) (m : MatrixCmd),
    let ck := s.ev.subject
    let c := s.crew ck
    let d := m.f.d.toNat
    let imm := m.f.imm.toNat
    tfind? c.commands s.ev.arg1 = some m → m.wait.refused = none → m.started = true → m.doneAt ≤ s.clock →
    let ends (t : State) : Prop := EngineStep s t ck ∧ t.mem = s.mem ∧ tfind? (t.crew ck).commands s.ev.arg1 = none ∧
      ∀ a x, m.access = some a → tfind? s.accesses a = some x → tfind? t.accesses a = some { x with doneAt := s.clock, command := none }
    let key (i j : Nat) : Nat := 4096 * d + 64 * i + j
    let bits' (t : State) (i j : Nat) : Nat := (tget 0 (t.crew ck).tiles (key i j)).toNat
    (m.op = .mzero → ∃ t, exec .matrixCommand s = .next t ∧ ends t ∧ (∀ i j, i < 64 → j < 64 → bits' t i j = 0 ∧
        tget {} (t.crew ck).exact (key i j) = {}) ∧
      tget {} (t.crew ck).tileStatus d = { exm := decide (imm % 2 = 1) }) ∧
    (∀ ra rb, m.op = .mma → tfind? c.resv (imm % 8) = some ra → tfind? c.resv (fld imm 9 3) = some rb →
      let ts (i j : Nat) : List FVal := terms c ra rb (fld imm 3 6) (fld imm 12 6) i j
      let start (i j : Nat) : FVal := if m.f.imm.getLsbD 20 then .fin false 0 0 else decodeF 10 (bits' s i j)
      ∃ t, exec .matrixCommand s = .next t ∧ ends t ∧
        tget {} (t.crew ck).tileStatus d = { tget {} c.tileStatus d with kdone := formatK ra.t ra.mod, part := false } ∧
        ∀ i j, i < 64 → j < 64 →
          (fld imm 18 2 = 0 → bits' t i j = roundF 10 m.f.rm.toNat false ((ts i j).foldl
            (fun acc x => decodeF 10 (roundF 10 m.f.rm.toNat false (firstNan [acc, x] (addV m.f.rm.toNat acc x)))) (start i j)) % 2 ^ 32) ∧
          (fld imm 18 2 = 1 → ExactAdded (if m.f.imm.getLsbD 20 then {} else tget {} c.exact (key i j)) (ts i j) (tget {} (t.crew ck).exact (key i j))) ∧
          (fld imm 18 2 = 2 → FreeSummed (formatK ra.t ra.mod) (start i j :: ts i j) (bits' t i j))) ∧
    (m.op = .mrel → ∃ t, exec .matrixCommand s = .next t ∧ ends t ∧
      tfind? (t.crew ck).resv d = (if m.opA = 0 then tfind? c.resv d else none) ∧
      ∀ q, q ≠ d → tfind? (t.crew ck).resv q = tfind? c.resv q) ∧
    (let at' := m.opA.toNat % 2 ^ 19
     m.op = .mbar → at' % 8 = 0 → c.scratchPoisoned at' 8 = none → ∃ t, exec .matrixCommand s = .next t ∧ ends t ∧
      (t.crew ck).relMark = max c.relMark m.pts ∧
      (let w := c.scratchNum at' 8
       (t.crew ck).scratchNum at' 8 = if imm % 2 ^ 16 < fld w 0 16 then w - imm % 2 ^ 16
        else (fld w 48 16 + 1) % 2 ^ 16 * 2 ^ 48 + fld w 32 16 * 2 ^ 32 + fld w 16 16 * 2 ^ 16 + fld w 32 16))

/-- R234, R235: the loads of operand tiles: the scratchpad form copies row after row, its words rotated and the scales of MXF4 to their own area, or, transposing, row k to
element k of every run; the register form puts the bytes of its registers from 256 o on. R242, R243, R79: MRDA writes the elements of its rows, an exact one read with one
rounding, and MRDA.ST the tile status, and the fragment goes on; MWRA writes the elements that its lanes select, in an exact tile as one term. R244: MSTA stores row after row of
elements scaled, biased and rounded once, to the scratchpad or to memory. The readings in it are the model's: log 66. -/
def Sys2Proof.Claims.MatrixMoves : Prop :=
  ∀ (s : State) (m : MatrixCmd),
    let ck := s.ev.subject
    let c := s.crew ck
    let imm := m.f.imm.toNat
    let a := m.opA.toNat
    let b := m.opB.toNat
    tfind? c.commands s.ev.arg1 = some m → m.wait.refused = none → m.started = true → m.doneAt ≤ s.clock →
    let now (t : State) : Option MatrixCmd := tfind? (t.crew ck).commands s.ev.arg1
    let goesOn (t : State) (rows : Nat) : Prop := if rows ≤ m.next + 1 then now t = none
      else ∃ m', now t = some m' ∧ m' = { m with next := m.next + 1, pts := m'.pts, wait := m'.wait, doneAt := s.clock + 1 }
    let cell (u : Crew) (t i j : Nat) : Nat := (tget 0 u.tiles (4096 * t + 64 * i + j)).toNat
    let state (u : Crew) (t i j : Nat) : ExactState := tget {} u.exact (4096 * t + 64 * i + j)
    let exm (t : Nat) : Bool := (tget {} c.tileStatus t).exm
    let first := imm % 64
    let n := fld imm 6 6 + 1
    (∀ r, m.op ∈ [Instr.mldaSp, .mldbSp] → m.f.imm.getLsbD 15 = false → m.f.imm.getLsbD 16 = false → tfind? c.resv (imm % 8) = some r →
      let w := formatW r.t r.mod
      let mx := r.t = 0xE ∧ r.mod = 3
      let from' (j : Nat) : Nat := operandWord a b (if r.t = 0xE ∧ r.mod = 3 then 9 else w) (fld imm 9 6) m.next j
      let dest (j k : Nat) : Nat := (256 * r.first + fld imm 3 6 * (512 * w) + 8 * (w * m.next + j) + k) % 2 ^ 16
      let scale (k : Nat) : Nat := (256 * (r.first + r.scl) + 256 * fld imm 3 6 + 4 * m.next + k) % 2 ^ 16
      (∀ j, j < (if r.t = 0xE ∧ r.mod = 3 then 9 else w) → c.scratchPoisoned (from' j) 8 = none) →
      ∃ t, exec .matrixCommand s = .next t ∧ EngineStep s t ck ∧ t.mem = s.mem ∧ goesOn t 64 ∧
        (∀ j k, j < w → k < 8 → (mx → ∀ q, q < 4 → scale q ≠ dest j k) → (t.crew ck).bufByte (dest j k) = c.scratchByte (from' j + k)) ∧
        (mx → ∀ k, k < 4 → (t.crew ck).bufByte (scale k) = c.scratchByte (from' 8 + k)) ∧
        ∀ x, x < 2 ^ 16 → (∀ j k, j < w → k < 8 → x ≠ dest j k) → (mx → ∀ k, k < 4 → x ≠ scale k) → (t.crew ck).bufByte x = c.bufByte x) ∧
    (∀ r, m.op = .mldbSp → m.f.imm.getLsbD 15 = false → m.f.imm.getLsbD 16 = true → tfind? c.resv (imm % 8) = some r → r.t ∈ [8, 9, 0xC, 0xD] →
      let ew := widthOf r.t
      let from' (j : Nat) : Nat := operandWord a b ew (fld imm 9 6) m.next (j * ew / 64)
      let dest (j e : Nat) : Nat := (256 * r.first + fld imm 3 6 * 4096 + 64 * j + m.next * ew / 8 + e) % 2 ^ 16
      (∀ j, j < 64 → c.scratchPoisoned (from' j) 8 = none) →
      ∃ t, exec .matrixCommand s = .next t ∧ EngineStep s t ck ∧ t.mem = s.mem ∧ goesOn t (formatK r.t r.mod) ∧
        (∀ j e, j < 64 → e < ew / 8 → (t.crew ck).bufByte (dest j e) = c.scratchByte (from' j + j * ew % 64 / 8 + e)) ∧
        ∀ x, x < 2 ^ 16 → (∀ j e, j < 64 → e < ew / 8 → x ≠ dest j e) → (t.crew ck).bufByte x = c.bufByte x) ∧
    (∀ r, m.op ∈ [Instr.mldaReg, .mldbReg] → m.f.imm.getLsbD 15 = true → tfind? c.resv (imm % 8) = some r → m.data.length ≤ 2 ^ 13 →
      let dest (k : Nat) : Nat := (256 * r.first + fld imm 3 6 * (512 * formatW r.t r.mod) + 256 * fld imm 9 6 + k) % 2 ^ 16
      ∃ t, exec .matrixCommand s = .next t ∧ EngineStep s t ck ∧ t.mem = s.mem ∧ now t = none ∧
        (∀ k, k < 8 * m.data.length → (t.crew ck).bufByte (dest k) = BitVec.ofNat 8 ((m.data.getD (k / 8) 0).toNat / 256 ^ (k % 8))) ∧
        ∀ x, x < 2 ^ 16 → (∀ k, k < 8 * m.data.length → x ≠ dest k) → (t.crew ck).bufByte x = c.bufByte x) ∧
    (∀ k h, m.op = .mrda → m.f.imm.getLsbD 12 = false → m.thread = some k → (s.thread k).hold = some h → (s.thread k).rep = none →
      (tget {} c.tileStatus m.f.a.toNat).pois = false → first + n ≤ 64 → ∃ t, exec .matrixCommand s = .next t ∧ t.mem = s.mem ∧ now t = none ∧
        (t.thread k).hold = none ∧ (t.thread k).pc = (s.thread k).pc + BitVec.ofNat 64 h.len ∧ (∀ j, j ≠ k → t.thread j = s.thread j) ∧
        (∀ i L w, i < n → L < 32 → w < 2 → ∃ r,
          (if exm m.f.a.toNat then ExactReads (state c m.f.a.toNat (first + i) (2 * L + w)) m.f.rm.toNat r
            else r = cell c m.f.a.toNat (first + i) (2 * L + w)) ∧
          ∀ q, q < 32 → ((t.wave (waveOf k)).vreg (m.f.d.toNat + i) L).getLsbD (32 * w + q) =
            if (m.data.getD L 0).getLsbD (32 * w + q) then r.testBit q else ((s.wave (waveOf k)).vreg (m.f.d.toNat + i) L).getLsbD (32 * w + q)) ∧
        ∀ r L, L < 32 → (∀ i, i < n → r ≠ m.f.d.toNat + i) → (t.wave (waveOf k)).vreg r L = (s.wave (waveOf k)).vreg r L) ∧
    (∀ k h, m.op = .mrdaSt → m.f.imm.getLsbD 12 = true → m.thread = some k → (s.thread k).hold = some h → (s.thread k).rep = none →
      ∃ t, exec .matrixCommand s = .next t ∧ t.mem = s.mem ∧ now t = none ∧ (t.thread k).hold = none ∧
        (t.thread k).pc = (s.thread k).pc + BitVec.ofNat 64 h.len ∧ (∀ j, j ≠ k → t.thread j = s.thread j) ∧
        (let x := tget {} c.tileStatus m.f.a.toNat
         (t.thread k).sreg m.f.d.toNat = inS m.f.d.toNat (BitVec.ofNat 64
          (x.kdone * 2 ^ 24 + (if x.part then 4 else 0) + (if x.pois then 2 else 0) + if x.exm then 1 else 0)))) ∧
    (m.op = .mwra → first + n ≤ 64 →
      let d := m.f.d.toNat
      let value (i j : Nat) : Nat := elem 32 (j % 2) (m.data.getD (32 + 32 * i + j / 2) 0)
      let writes (r j : Nat) : Prop := first ≤ r ∧ r < first + n ∧ elem 32 (j % 2) (m.data.getD (j / 2) 0) ≠ 0
      ∃ t, exec .matrixCommand s = .next t ∧ EngineStep s t ck ∧ t.mem = s.mem ∧ now t = none ∧
        (t.crew ck).tileStatus = c.tileStatus ∧
        ∀ r j, r < 64 → j < 64 →
          (writes r j → if exm d then ExactAdded {} [decodeF 10 (value (r - first) j)] (state (t.crew ck) d r j)
            else cell (t.crew ck) d r j = value (r - first) j) ∧
          (∀ x, ((x ≠ d ∧ x < 8) ∨ (x = d ∧ ¬ writes r j)) → cell (t.crew ck) x r j = cell c x r j ∧ state (t.crew ck) x r j = state c x r j)) ∧
    (m.op = .msta → m.f.t.toNat ∈ [8, 9, 10, 0xC, 0xD] → (m.next ≠ 0 ∨ (tget {} c.tileStatus m.f.d.toNat).pois = false) →
      let w := widthOf m.f.t.toNat
      let row := (List.range 64).flatMap (fun j => bytesOf (w / 8) (epilogueSpec c m m.next j))
      (m.f.imm.getLsbD 12 = false → ∃ t, exec .matrixCommand s = .next t ∧ t.mem = s.mem ∧ t.threads = s.threads ∧ goesOn t n ∧
        (∀ j k, j < w → k < 8 → (t.crew ck).scratchByte (operandWord a b w 0 m.next j + k) = row.getD (8 * j + k) 0) ∧
        ∀ x, x < 2 ^ 19 → (∀ j k, j < w → k < 8 → x ≠ (operandWord a b w 0 m.next j + k) % 2 ^ 19) →
          (t.crew ck).scratchByte x = c.scratchByte x) ∧
      (∀ u q, m.f.imm.getLsbD 12 = true → engineWrite s (s.crew (crewOf (m.agents.headD 0))).ctx m.cap
          ((m.cap.off + fld b 0 44 + m.next * fld b 44 20 : Nat) : Int) row m.pts engineW = .ok (u, q) →
        ∃ t, exec .matrixCommand s = .next t ∧ t.mem = u.mem ∧ t.tags = u.tags ∧ t.threads = s.threads ∧ goesOn t n ∧
          (t.crew ck).scratch = c.scratch))

/-- R258, R259, R262 to R268, R277 to R279: QPUT releases once the wave's accesses are performed, waits for room and for the QPUTs that reached the queue before,
and appends its lanes' records in order, an SP queue's in the scratchpad too; a DROP cursor passes what makes room into its gap, one that waits for a frame
marker skips what comes before it. QTAKE gives its lanes the next records, seeds at a path's start, the pending gap first, with sequence numbers and frame
markers under SQ, and raises PTS to theirs; at the end of its input it answers 1, of a poisoned one 2; else it waits, behind those issued before. QDONE gives back what its lanes
hold; QEOS marks the end of the instance's output, but in the last stage. The readings in it are the model's: logs 84, 155, 158, 161. -/
def Sys2Proof.Claims.QueueInstructions : Prop :=
  (∀ s : State, admits s .qput = true →
    let i := s.curC.stage.getD 0
    let x := s.instance' i
    let n := s.ir.imm.toNat % 32 + 1
    let lanes := activeLanes s 64
    let from' := x.nextSeq + lanes.length - x.qcap
    let frm := s.ir.imm.getLsbD 8
    let room : Prop := ∀ e ∈ x.cursors, e.2.drop = true ∨ from' ≤ e.2.next
    let fresh : Prop := ∀ h, s.curT.hold = some h → h.arg = 0
    (x.last = true ∨ 8 * n ≠ x.qsize ∨ x.qcap < lanes.length → exec .qput s = arith s 4) ∧
    (x.last = false → 8 * n = x.qsize → lanes.length ≤ x.qcap →
      (performedAll s s.curWk = false → ∃ t, exec .qput s = .next t ∧ Waits s t) ∧
      (performedAll s s.curWk = true → lanes = [] → ∃ t, exec .qput s = .next t ∧ Quiet {} s t ∧ t.instances = s.instances ∧
        (fresh → t.curC = { s.curC with relMark := max s.curC.relMark s.curW.pts })) ∧
      (performedAll s s.curWk = true → lanes ≠ [] → putAhead s i = false → x.poisoned = true → ∃ t, exec .qput s = .next t ∧ Quiet {} s t ∧
        t.instances = s.instances) ∧
      (performedAll s s.curWk = true → lanes ≠ [] → putAhead s i = false → x.poisoned = false → room → ∃ t, exec .qput s = .next t ∧
        Quiet {} s t ∧ (fresh → t.curC.relMark = max s.curC.relMark s.curW.pts) ∧
        (let y := t.instance' i
         y.nextSeq = x.nextSeq + lanes.length ∧
         (∀ m L, lanes[m]? = some L → (∃ c ∈ x.cursors, c.2.drop = false ∧ c.2.waitFrame = false ∧ c.2.next ≤ x.nextSeq) →
          ⟨x.nextSeq + m, frm && m == 0, laneRecord s n L, s.curW.pts⟩ ∈ y.records) ∧
         (∀ r c, tfind? x.cursors r = some c → ∃ c', tfind? y.cursors r = some c' ∧
          if c.waitFrame = true then
            c'.waitFrame = !frm ∧ c'.next = (if frm = true then x.nextSeq else x.nextSeq + lanes.length)
          else if c.drop = true ∧ c.next < from' then
            ∃ f, (f = true ↔ ∃ q ∈ x.records, c.next ≤ q.seq ∧ q.seq < from' ∧ q.frame = true) ∧ c' = { c with
              next := from', gap := some (match c.gap with
                | some g => (g.1 + (from' - c.next), g.2.1, g.2.2 || f)
                | none => (from' - c.next, c.next, f)) }
          else c' = c) ∧
         (x.qloc ≠ 0 → t.curC = { s.curC with relMark := t.curC.relMark }) ∧
         (x.qloc = 0 → x.qcap * x.qsize ≤ 2 ^ 19 → ∀ m L, lanes[m]? = some L →
          t.curC.scratchBytes (spSlot s i (x.nextSeq + m)) x.qsize = laneRecord s n L))) ∧
      (performedAll s s.curWk = true → lanes ≠ [] → (putAhead s i = true ∨ (x.poisoned = false ∧ ¬ room)) → ∃ t, exec .qput s = .next t ∧ Queues s t ∧
        (fresh → t.curC = { s.curC with relMark := max s.curC.relMark s.curW.pts })))) ∧
  (∀ s : State, admits s .qtake = true →
    let i := s.curC.stage.getD 0
    let n := s.ir.imm.toNat % 32 + 1
    let sq := s.ir.imm.getLsbD 16
    let q := fld s.ir.imm.toNat 8 5
    let cur := cursorOf s i
    let lanes := activeLanes s 64
    let past : Prop := ∀ u, (s.instance' i).upstream = some u → (s.instance' u).ended = true ∨ (s.instance' u).poisoned = true
    let avail := (inputAppended s i - cur.next) + if cur.gap = none then 0 else 1
    let k := min avail lanes.length
    let others (t : State) : Prop := t.mem = s.mem ∧ (∀ j, j ≠ s.cur → t.thread j = s.thread j) ∧ (∀ j, j ≠ s.curWk → t.wave j = s.wave j) ∧
      t.crews = s.crews ∧ (∀ r, r ≠ s.ir.c.toNat → t.curT.sreg r = s.curT.sreg r) ∧ t.curT.c = s.curT.c ∧
      ∀ r, r ≠ q → (sq = true → r ≠ q + 1) → t.curW.preg r = s.curW.preg r
    (8 * n ≠ inputSize s i ∨ (sq = true ∧ q = 31) → exec .qtake s = arith s 4) ∧
    (8 * n = inputSize s i → (sq = true → q ≠ 31 ∧ s.ir.d.toNat + n < s.curC.vallot) → s.curT.hold = none → s.curW.records = [] → queueEnds s = s →
      ((s.instance' i).takers = [] → avail ≠ 0 → lanes ≠ [] → Consecutive s i → ∃ t, exec .qtake s = .next t ∧ others t ∧ Completes s t ∧
        t.curT.sreg s.ir.c.toNat = 0 ∧ cursorOf t i = { cur with next := cur.next + (k - if cur.gap = none then 0 else 1), gap := none, taken := cur.taken + k } ∧
        s.curW.pts ≤ t.curW.pts ∧
        (∀ m L, lanes[m]? = some L → m < k → ∃ bs seq frame p, Delivered s i m bs seq frame p ∧ p ≤ t.curW.pts ∧
          (∀ j, j < n → t.curW.vreg (s.ir.d.toNat + j) L = BitVec.ofNat 64 (numOfBytes ((bs.drop (8 * j)).take 8))) ∧
          (sq = true → t.curW.vreg (s.ir.d.toNat + n) L = BitVec.ofNat 64 seq) ∧ tfind? t.curW.records L = some (i, seq)) ∧
        (∀ L, L < 32 → s.mask.getLsbD L = true → (t.curW.preg q).getLsbD L = (q == 0 || (lanes.take k).contains L)) ∧
        (sq = true → ∀ L, L < 32 → s.mask.getLsbD L = true → ((t.curW.preg (q + 1)).getLsbD L = true ↔
          ∃ m bs seq p, lanes[m]? = some L ∧ m < k ∧ Delivered s i m bs seq true p)) ∧
        ∀ r L, L < 32 → (r < s.ir.d.toNat ∨ s.ir.d.toNat + n + (if sq = true then 1 else 0) ≤ r ∨ L ∉ lanes.take k) →
          t.curW.vreg r L = s.curW.vreg r L) ∧
      (avail = 0 → past → ∃ t, exec .qtake s = .next t ∧ others t ∧ Completes s t ∧ cursorOf t i = cur ∧ t.curW.v = s.curW.v ∧
        t.curW.pts = s.curW.pts ∧ t.curT.sreg s.ir.c.toNat = inS s.ir.c.toNat (if inputPoisoned s i = true then 2 else 1) ∧
        ∀ L, L < 32 → s.mask.getLsbD L = true → (t.curW.preg q).getLsbD L = (q == 0) ∧ (sq = true → (t.curW.preg (q + 1)).getLsbD L = false)) ∧
      ((avail = 0 ∧ ¬ past) ∨ (avail ≠ 0 ∧ ∃ j ∈ (s.instance' i).takers, j ≠ s.cur ∧ mayTake s j = true ∧
          ∃ h, (s.thread j).hold = some h ∧ h.since < s.clock) → ∃ t, exec .qtake s = .next t ∧
        t = { s with threads := t.threads, instances := t.instances, waves := t.waves } ∧ (∀ j, j ≠ s.cur → t.thread j = s.thread j) ∧
        (∃ h, t.curT = { s.curT with hold := some h, last := t.curT.last }) ∧ s.cur ∈ (t.instance' i).takers ∧ cursorOf t i = cur))) ∧
  (∀ s : State, admits s .qdone = true → ∃ t, exec .qdone s = .next t ∧ Quiet {} s t ∧
    t.curW.records = s.curW.records.filter (fun r => !(activeLanes s 64).contains r.1) ∧
    ∀ i, cursorOf t i = { cursorOf s i with
      taken := (cursorOf s i).taken - s.curW.records.countP (fun r => r.2.1 == i && (activeLanes s 64).contains r.1) }) ∧
  (∀ s : State, admits s .qeos = true → ∃ t, exec .qeos s = .next t ∧ Quiet {} s t ∧ t.crews = s.crews ∧
    (let x := s.instance' (s.curC.stage.getD 0)
     (t.instance' (s.curC.stage.getD 0)).eos = (x.eos || !x.last)))

/-- R268: LAUNCH reads its packet and what the packet names, and puts it at the end of the die's queue of its class, with the class raised to
the launcher's and the launcher's code object; a packet with a reserved value traps ARITH 6. The readings in it are the model's: log 83. -/
def Sys2Proof.Claims.Launches : Prop :=
  ∀ (s u v : State) (ls : List Loc) (b : List Byte) (tags : List Bool) (args : Table Word) (cargs : Table Cap) (done : Option (Nat × Nat)),
    admits s .launch = true → s.curT.hold = none → earlierOpen s = false → record s (scalarOffset s) 64 = some (u, ls, b, tags) →
    (packetOk b = false → exec .launch s = arith u 6) ∧
    (let cls := max (pkPrio b) s.curC.prio
     let queue (t : State) : List DevPacket := tget [] (t.die s.curDie).devQueues cls
     packetOk b = true → b.length = 64 → s.curC.prio < 4 → launchParts u b = .ok (v, args, cargs, done) →
      (performedAll s s.curWk = true → (queue s).length < 256 → ∃ t p, exec .launch s = .next t ∧ t.mem = v.mem ∧
        t.curT.s = s.curT.s ∧ t.curT.c = s.curT.c ∧ t.curW.v = s.curW.v ∧ t.curW.p = s.curW.p ∧
        (∀ k, k ≠ s.cur → t.thread k = s.thread k) ∧ Completes s t ∧ queue t = queue s ++ [p] ∧
        p.asid = s.curC.asid ∧ p.parent = s.curC.launch ∧ p.args = args ∧ p.cargs = cargs ∧ p.completion = done ∧
        p.bytes.getD 2 0 = BitVec.ofNat 8 cls ∧ (pkKind b ≤ 2 → field p.bytes 0x10 4 = s.curC.codeObj % 2 ^ 32)) ∧
      ((performedAll s s.curWk = false ∨ 256 ≤ (queue s).length) → ∃ t, exec .launch s = .next t ∧ Waits s t))

/-- R304 to R308: TRACE walks from the root in every selected lane and writes the lane's results when its access completes; a lane whose ray has
no meaning has status 4 and tmax and reads nothing. A triangle is accepted exactly where the ray meets it nearer than the hit before, or as near with a
lower key, so that the nearest of any triangles is kept; a box that holds a point of the ray in its range is entered; a lane whose root has one leaf writes
the hit of that leaf's triangles, or its miss. The readings in it are the model's: log 93. -/
def Sys2Proof.Claims.RayQueries : Prop :=
  (∀ (s u : State) (ws : List RegWrite), admits s .trace = true → mayAccess s 4 →
    lanesRun traceLane (activeLanes s 64) s = some (u, ws) → activeLanes s 64 ≠ [] →
    ∃ t, exec .trace s = .next t ∧ t.mem = u.mem ∧ Issued s t 4 ws ∧
      (∀ base, Flat s (readC s s.ir.a.toNat) base (fun _ => False) → t.mem = s.mem) ∧
      ((∀ L ∈ activeLanes s 64, badRay s L = true) → t.mem = s.mem ∧ ws = (activeLanes s 64).flatMap (fun L =>
        [laneWrite s.ir.d.toNat L (4 + (readV s 32 (s.ir.b.toNat + 1) L).toNat / 2 ^ 32 * 2 ^ 32), laneWrite (s.ir.d.toNat + 1) L 0,
         laneWrite (s.ir.d.toNat + 2) L 0, laneWrite (s.ir.d.toNat + 3) L 0]))) ∧
  (∀ s : State, admits s .trace = true → s.curT.hold = none → activeLanes s 64 = [] →
    ∃ t, exec .trace s = .next t ∧ Frame {} s t ∧ Completes s t) ∧
  (∀ (s u v : State) (L : Nat) (b : List Byte) (rs : List (List Byte)) (o d org : V3),
    let c := readC s s.ir.a.toNat
    let n := s.ir.b.toNat
    let w (k r : Nat) : Nat := fld (readV s 32 r L).toNat (32 * k) 32
    let r0 : RayWalk := ⟨orderF32 (w 1 n), orderF32 (w 1 (n + 1)), 2 ^ 96 - 1, w 1 (n + 2) % 256, none⟩
    let box := childBox b org 0
    badRay s L = false → v3Of ((List.range 3).map (fun a => dyadicF32 (w 0 (n + a)))) = some o →
    v3Of ((List.range 3).map (fun a => dyadicF32 (w 0 (s.ir.c.toNat + a)))) = some d →
    nodeRead s c (c.off : Nat) { rights := rightR, align := 64 } = .ok (u, b) → nodeOrigin b = some org → OneLeaf b →
    boxEmpty box.1 box.2 = false → (rayEnters r0 ⟨o, d⟩ box.1 box.2).isSome = true →
    leafRun c b (c.off : Nat) 0 (List.range (childCount b 0)) u = some (v, rs) →
    let best := (rs.foldl (fun r x => rayTriangle r ⟨o, d⟩ none x) r0).best
    ∃ ws, traceLane s L = .ok (v, ws) ∧
      (best = none → ws = [laneWrite s.ir.d.toNat L (w 1 (n + 1) * 2 ^ 32), laneWrite (s.ir.d.toNat + 1) L 0, laneWrite (s.ir.d.toNat + 2) L 0,
        laneWrite (s.ir.d.toNat + 3) L 0]) ∧
      ∀ h, best = some h → ws = [laneWrite s.ir.d.toNat L (1 + (if h.back = true then 2 else 0) + h.shidx * 2 ^ 20 + h.t * 2 ^ 32),
        laneWrite (s.ir.d.toNat + 1) L (h.u + h.v * 2 ^ 32), laneWrite (s.ir.d.toNat + 2) L (h.prim + h.geom * 2 ^ 32),
        laneWrite (s.ir.d.toNat + 3) L h.inst]) ∧
  (∀ (r : RayWalk) (q : Ray) (lo hi : V3) (a b : Nat) (x : ℚ), r.tmin = orderF32 a → r.tcur = orderF32 b → a < 2 ^ 32 → b < 2 ^ 32 →
    (a = 0xFF800000 ∨ (finite (decodeF 10 a) = true ∧ rat (decodeF 10 a) ≤ x)) →
    (b = 0x7F800000 ∨ (finite (decodeF 10 b) = true ∧ x ≤ rat (decodeF 10 b))) →
    (∀ k, pointValue lo k ≤ pointValue q.o k + x * pointValue q.d k ∧ pointValue q.o k + x * pointValue q.d k ≤ pointValue hi k) →
    (rayEnters r q lo hi).isSome = true) ∧
  (∀ (r : RayWalk) (q : Ray) (info : Option InstanceInfo) (b : List Byte),
    ((∀ tF uF vF back, ¬ Candidate q info r.mask b tF uF vF back) → rayTriangle r q info b = r) ∧
    ∀ tF uF vF back, Candidate q info r.mask b tF uF vF back →
      let h := hitOf info b tF uF vF back
      rayTriangle r q info b = if r.tmin ≤ orderF32 tF ∧ (orderF32 tF < r.tcur ∨ (orderF32 tF = r.tcur ∧ hitKey h < r.kcur)) then
          { r with tcur := orderF32 tF, kcur := hitKey h, best := some h }
        else r) ∧
  (∀ (r0 : RayWalk) (cs : List (Ray × Option InstanceInfo × List Byte)), r0.best = none → r0.kcur = 2 ^ 96 - 1 →
    let r := cs.foldl (fun r x => rayTriangle r x.1 x.2.1 x.2.2) r0
    (∀ h, r.best = some h → ∃ x ∈ cs, Candidate x.1 x.2.1 r0.mask x.2.2 h.t h.u h.v h.back ∧ h = hitOf x.2.1 x.2.2 h.t h.u h.v h.back ∧
      r0.tmin ≤ orderF32 h.t ∧ orderF32 h.t ≤ r0.tcur) ∧
    ∀ x ∈ cs, ∀ tF uF vF back, Candidate x.1 x.2.1 r0.mask x.2.2 tF uF vF back → r0.tmin ≤ orderF32 tF →
      let g := hitOf x.2.1 x.2.2 tF uF vF back
      (orderF32 tF < r0.tcur ∨ (orderF32 tF = r0.tcur ∧ hitKey g < 2 ^ 96 - 1)) →
      ∃ h, r.best = some h ∧ (orderF32 h.t < orderF32 tF ∨ (orderF32 h.t = orderF32 tF ∧ hitKey h ≤ hitKey g)))

/-- R309 to R311: QBOX gathers the entries of its lanes, adds their number to COUNT once, stores those that lie below CAP behind it, and gives every
lane the number of its entries and of its first one; without a selected lane it does nothing. A triangle is an entry exactly where its bound meets the
query box, a box is entered exactly where it meets it, and a lane whose root has one leaf gathers that leaf's entries. The readings in it are the model's: logs 91, 95. -/
def Sys2Proof.Claims.BoxQueries : Prop :=
  (∀ s : State, admits s .qbox = true → activeLanes s 64 = [] → ∃ t, exec .qbox s = .next t ∧ Frame {} s t ∧ Completes s t) ∧
  (∀ (s u v w x : State) (r : List (Nat × List BoxEntry)) (bs : List Byte) (l l0 : Loc) (old ts : Nat), admits s .qbox = true →
    mayAccess s 4 → s.curT.answers = [] → activeLanes s 64 ≠ [] →
    let c := readC s s.ir.c.toNat
    let tag (L : Nat) : Nat := (readV v 32 (s.ir.b.toNat + 3) L).toNat % 2 ^ 32
    let es := r.flatMap (fun x => x.2.map (fun e => [x.1, tag x.1, e.1, e.2.1, e.2.2]))
    let cap := numOfBytes bs
    let saved := boxSave v cap es
    translate s s.curC.ctx c (c.off : Nat) 16 bufferNeed = .ok l0 →
    queryLanes (activeLanes s 64) s = .ok (u, r) →
    waveRead u c (c.off + 8 : Nat) 8 { field := 1, rights := rightR } = .ok (v, bs) →
    rangeCheck v c cap = .ok () →
    translate saved s.curC.ctx c (c.off : Nat) 8 bufferNeed = .ok l → isHost l.key = false → dieOfKey l.key = s.curDie →
    atomicAt saved s.curDie saved.curW.pts l.home 8 (fun n => (n + es.length) % 2 ^ 64) = .ok (w, old, ts) →
    storeEntries c old cap 0 es ((raisePts w s.curWk ts).modThread s.cur
      (fun t => { t with answers := tput t.answers (2 ^ 20 - 1) old })) = (x, none) →
    ∃ t, exec .qbox s = .next t ∧ t.mem = x.mem ∧ Issued s t 4 ((activeLanes s 64).map (fun L => laneWrite s.ir.d.toNat L
      ((es.filter (fun e => e.headD 0 == L)).length % 2 ^ 32 +
        (old + (es.filter (fun e => e.headD 0 < L)).length) % 2 ^ 32 * 2 ^ 32))) ∧
      ∀ base a,
        let changed (k : Nat) : Prop :=
          (base + c.off ≤ k ∧ k < base + c.off + 8) ∨ (base + c.off + 16 ≤ k ∧ k < base + c.off + 16 + 16 * cap)
        Flat s c base changed → Flat s (readC s s.ir.a.toNat) a (fun _ => False) → ∀ k, ¬ changed k → t.byte k = s.byte k) ∧
  (∀ (mask : Nat) (es : List BoxEntry) (q : Query) (info : Option InstanceInfo) (b : List Byte),
    (triangleOf b = none → queryTriangle mask es q info b = es) ∧
    ∀ v0 v1 v2, triangleOf b = some (v0, v1, v2) →
      ((∀ i, info = some i → i.mask &&& mask ≠ 0) → MeetsBox q (leastOf v0 v1 v2) (greatestOf v0 v1 v2) →
        queryTriangle mask es q info b = es ++ [(match info with | some i => i.inst | none => 0, field b 0x24 4, field b 0x28 4)]) ∧
      ((∃ i, info = some i ∧ i.mask &&& mask = 0) ∨ ¬ MeetsBox q (leastOf v0 v1 v2) (greatestOf v0 v1 v2) → queryTriangle mask es q info b = es)) ∧
  (∀ (q : Query) (lo hi : V3), queryMeets q lo hi = true ↔ MeetsBox q (pointValue lo) (pointValue hi)) ∧
  (∀ (s u v : State) (L : Nat) (b : List Byte) (rs : List (List Byte)) (lo hi : List Bound) (org : V3),
    let c := readC s s.ir.a.toNat
    let n := s.ir.b.toNat
    let w (k r : Nat) : Nat := fld (readV s 32 r L).toNat (32 * k) 32
    let box := childBox b org 0
    (List.range 3).map (fun a => boundF32 (w 0 (n + a))) = lo.map some → (List.range 3).map (fun a => boundF32 (w 1 (n + a))) = hi.map some →
    (∀ a, a < 3 → (lo.getD a .low).atMost (hi.getD a .low) = true) →
    nodeRead s c (c.off : Nat) { rights := rightR, align := 64 } = .ok (u, b) → nodeOrigin b = some org → OneLeaf b →
    boxEmpty box.1 box.2 = false → MeetsBox ⟨lo, hi⟩ (pointValue box.1) (pointValue box.2) →
    leafRun c b (c.off : Nat) 0 (List.range (childCount b 0)) u = some (v, rs) →
    queryLane s L = .ok (v, rs.foldl (fun es x => queryTriangle (w 1 (n + 3) % 256) es ⟨lo, hi⟩ none x) []))

/-- R312: REFIT rewrites the nodes below its root, children first, as one access. In a node that has bounds below it, ORIGIN is on each axis the greatest
F32 at or below the least bound, the exponent the smallest that reaches the greatest one, or 127, and each child's codes enclose its bound as tightly as they can, a high
one above 255 being 255; a child without a bound has codes 0, and so has the whole node with none. A node whose only child is a leaf gets the bytes of
its triangles' bound in 0x00 to 0x0E and 0x20 to 0x4F and keeps every other. A low code above 255 and the sign of a zero are free: logs 94, 149. -/
def Sys2Proof.Claims.Refits : Prop :=
  (∀ (s u : State) (x : Extent), admits s .refit = true → mayAccess s 4 →
    refitNode (readC s s.ir.a.toNat) 32 ((readC s s.ir.a.toNat).off + (operandB s).toInt) s = .ok (u, x) →
    ∃ t, exec .refit s = .next t ∧ t.mem = u.mem ∧ Issued s t 4 []) ∧
  (∀ (a : Machine.Dyadic) (k : Int), (a.floorOver k : ℚ) * 2 ^ k ≤ dyadicValue a ∧ dyadicValue a ≤ (a.ceilOver k : ℚ) * 2 ^ k ∧
    dyadicValue a < ((a.floorOver k : ℚ) + 1) * 2 ^ k ∧ ((a.ceilOver k : ℚ) - 1) * 2 ^ k < dyadicValue a) ∧
  (∀ (choice : Nat) (xs : List Extent), xs.length = 8 →
    let r := refitBytes choice xs
    r.1.length = 15 ∧ r.2.length = 48 ∧ ((∀ x ∈ xs, x = none) → (∀ y ∈ r.1, y = 0) ∧ ∀ y ∈ r.2, y = 0) ∧
    ∀ (k : Fin 3) (lo hi : ℚ), (∃ x ∈ xs, ∃ y, x = some y ∧ pointValue y.1 k = lo) → (∃ x ∈ xs, ∃ y, x = some y ∧ pointValue y.2 k = hi) →
      (∀ x ∈ xs, ∀ y, x = some y → lo ≤ pointValue y.1 k ∧ pointValue y.2 k ≤ hi) → -((2 : ℚ) ^ 24 - 1) * 2 ^ 104 ≤ lo →
      let origin := rat (decodeF 10 (field r.1 (4 * k) 4))
      let e : Int := sgn 8 (field r.1 (12 + k) 1)
      finite (decodeF 10 (field r.1 (4 * k) 4)) = true ∧ origin ≤ lo ∧
      (∀ c, c < 2 ^ 32 → finite (decodeF 10 c) = true → rat (decodeF 10 c) ≤ lo → rat (decodeF 10 c) ≤ origin) ∧
      (hi - origin ≤ 255 * 2 ^ e ∨ e = 127) ∧ (∀ f : Int, -128 ≤ f → f < e → 255 * (2 : ℚ) ^ f < hi - origin) ∧
      ∀ c, c < 8 → (xs.getD c none = none → ∀ j, j < 6 → field r.2 (6 * c + j) 1 = 0) ∧
        ∀ y, xs.getD c none = some y →
          (let q : ℚ := field r.2 (6 * c + k) 1
           pointValue y.1 k < origin + 256 * 2 ^ e → origin + q * 2 ^ e ≤ pointValue y.1 k ∧ pointValue y.1 k < origin + (q + 1) * 2 ^ e) ∧
          (let q : ℚ := field r.2 (6 * c + 3 + k) 1
           if origin + 255 * (2 : ℚ) ^ e < pointValue y.2 k then q = 255
           else origin ≤ pointValue y.2 k → pointValue y.2 k ≤ origin + q * 2 ^ e ∧ origin + (q - 1) * 2 ^ e < pointValue y.2 k)) ∧
  (∀ (s u v : State) (b : List Byte) (rs : List (List Byte)) (l0 l1 l2 : Loc) (base : Nat),
    let c := readC s s.ir.a.toNat
    let off := c.off + (operandB s).toInt
    let x := rs.foldl (fun x y => joinExtent x (triangleExtent y)) none
    let r := refitBytes v.fresh (x :: List.replicate 7 none)
    let at' (k : Nat) : Prop := (base ≤ k ∧ k < base + 15) ∨ (base + 0x20 ≤ k ∧ k < base + 0x50)
    admits s .refit = true → mayAccess s 4 → nodeRead s c off { rights := rightR + rightW, align := 64 } = .ok (u, b) → OneLeaf b →
    leafRun c b off 0 (List.range (childCount b 0)) u = some (v, rs) → refitPlaces v c off [(0, 15), (0x20, 32), (0x40, 16)] = .ok [l0, l1, l2] →
    l0.leaf = none → l1.leaf = none → l2.leaf = none → isHost base = false → dieOfKey base = s.curDie → dieOfKey (base + 0x50) = s.curDie →
    (∀ j, l0.keyAt j = base + j) → (∀ j, l1.keyAt j = base + 0x20 + j) → (∀ j, l2.keyAt j = base + 0x40 + j) →
    ∃ t, exec .refit s = .next t ∧ Issued s t 4 [] ∧ (∀ j, j < 15 → t.byte (base + j) = r.1.getD j 0) ∧
      (∀ j, j < 48 → t.byte (base + 0x20 + j) = r.2.getD j 0) ∧ ∀ k, ¬ at' k → t.byte k = v.byte k)

/-- R287 to R295: LDLOD, LDLODP and LODQ read the object's header, then serve their lanes. A lane whose page of the wanted level is resident delivers
that level. The readings in it are the model's: logs 91, 92. -/
def Sys2Proof.Claims.LevelsOfDetail : Prop :=
  (∀ (i : Instr) (s : State), i ∈ [Instr.ldlod, .ldlodp, .lodq] → admits s i = true → s.curT.hold = none → activeLanes s 64 = [] →
    ∃ t, exec i s = .next t ∧ Frame {} s t ∧ Completes s t) ∧
  (∀ (i : Instr) (rights : Nat) (lane : LodObject → State → State → Nat → Except (Int × Stop) (State × List RegWrite)),
    lodSpec i = some (rights, lane) → ∀ (s u v : State) (e : Entry) (h : LodObject) (ws : List RegWrite), admits s i = true →
    mayAccess s 3 → activeLanes s 64 ≠ [] →
    objectCheck s s.curC.ctx (readC s s.ir.a.toNat) { rights := rights, kind := 1 } = .ok e →
    readHeader s (readC s s.ir.a.toNat).obj e = .ok (u, h) → lanesRun (lane h s) (activeLanes s 64) u = some (v, ws) →
    ∃ t, exec i s = .next t ∧ t.mem = v.mem ∧ Issued s t 3 ws) ∧
  (∀ (s u v : State) (e : Entry) (h : LodObject) (L : Nat), admits s .lodq = true →
    mayAccess s 3 → activeLanes s 64 = [L] →
    objectCheck s s.curC.ctx (readC s s.ir.a.toNat) { rights := rightL, kind := 1 } = .ok e →
    readHeader s (readC s s.ir.a.toNat).obj e = .ok (u, h) →
    let w := wantedLevel h (levelFromC s h L) (sgn 4 (s.ir.imm.toNat % 16))
    let pages := (footprint h w (lodCoords u L).1 (lodCoords u L).2 (s.ir.mod.getLsbD 1)).map (·.page)
    firstAbsent h w pages u = .ok (v, none) → w < h.tail → ∃ t, exec .lodq s = .next t ∧ t.mem = v.mem ∧
      Issued s t 3 [laneWrite s.ir.d.toNat L (w * 16 + w * 256 + pages.headD 0 % 2 ^ 32 * 2 ^ 32)]) ∧
  (∀ (s u v x : State) (e : Entry) (h : LodObject) (L : Nat) (l : Loc) (g : Got), admits s .ldlod = true →
    mayAccess s 3 → activeLanes s 64 = [L] → s.ir.mod.getLsbD 1 = false →
    objectCheck s s.curC.ctx (readC s s.ir.a.toNat) { rights := rightR + rightL, kind := 1 } = .ok e →
    readHeader s (readC s s.ir.a.toNat).obj e = .ok (u, h) → h.ct = 10 → h.ncl = 2 →
    let w := wantedLevel h (levelFromC s h L) (sgn 4 (s.ir.imm.toNat % 16))
    let i := clampTo (h.width w) ((lodCoords u L).1 * h.width w / 2 ^ 149)
    let j := clampTo (h.height w) ((lodCoords u L).2 * h.height w / 2 ^ 149)
    let page := j / 2 ^ h.th * ((h.width w + 2 ^ h.tw - 1) / 2 ^ h.tw) + i / 2 ^ h.tw
    firstAbsent h w [page] u = .ok (v, none) → w < h.tail →
    translate v s.curC.ctx (readC u s.ir.a.toNat) (h.loff w + 65536 * page + 16 * (j % 2 ^ h.th * 2 ^ h.tw + i % 2 ^ h.tw) : Nat) 16
      { rights := rightR + rightL, kind := 1 } = .ok l →
    loadAt v s.curDie (some s.curC.core) v.curW.pts l 16 = .ok (x, g) → ∃ t, exec .ldlod s = .next t ∧ t.mem = x.mem ∧
      Issued s t 3 [laneWrite s.ir.d.toNat L (field g.bytes 0 8), laneWrite (s.ir.d.toNat + 1) L (field g.bytes 8 8),
        laneWrite (s.ir.d.toNat + 2) L (w * 16 + w * 256)])

/-- R283, R286, R288, R289: footprints lie at their pages and offsets with exact weights; components decode to F32; the base level is the least whose bound
the derivatives do not reach; a weighted sum is exact until one rounding. -/
def Sys2Proof.Claims.Sampling : Prop :=
  (∀ (h : LodObject) (d : Nat) (u v : Int),
    let x : ℚ := u * max 1 (h.w0 / 2 ^ d : Nat) / 2 ^ 149 - 1 / 2
    let y : ℚ := v * max 1 (h.h0 / 2 ^ d : Nat) / 2 ^ 149 - 1 / 2
    let f : ℚ := x - ⌊x⌋
    let g : ℚ := y - ⌊y⌋
    (footprint h d u v false).map (fun t => ((t.page, t.off), rat t.weight)) = [(texelPlace h d ⌊x + 1 / 2⌋ ⌊y + 1 / 2⌋, 1)] ∧
    (footprint h d u v true).map (fun t => ((t.page, t.off), rat t.weight)) =
      [(texelPlace h d ⌊x⌋ ⌊y⌋, (1 - f) * (1 - g)), (texelPlace h d (⌊x⌋ + 1) ⌊y⌋, f * (1 - g)),
       (texelPlace h d ⌊x⌋ (⌊y⌋ + 1), (1 - f) * g), (texelPlace h d (⌊x⌋ + 1) (⌊y⌋ + 1), f * g)]) ∧
  (∀ x : Nat, x < 2 ^ 32 → ((decodeF 10 x).isNan = true → coordinate x = 0) ∧ (∀ neg, decodeF 10 x = .inf neg →
    coordinate x = if neg then -2 ^ 150 else 2 ^ 150) ∧ (finite (decodeF 10 x) = true → (coordinate x : ℚ) = rat (decodeF 10 x) * 2 ^ 149)) ∧
  (∀ (h : LodObject) (b : List Byte) (c : Nat),
    let n := match h.ct with | 4 => 1 | 10 => 4 | _ => 2
    let x := field b (c * n) n
    let y := component h b c
    (2 ^ h.ncl ≤ c → y = if c = 3 then 0x3F800000 else 0) ∧
    (c < 2 ^ h.ncl → (h.ct = 10 → y = x) ∧ (h.ct = 4 → NearestTo 10 ((x : ℚ) / 255) y) ∧
      (h.ct = 8 ∨ h.ct = 9 → (finite (decodeF h.ct x) = true → finite (decodeF 10 y) = true ∧ rat (decodeF 10 y) = rat (decodeF h.ct x)) ∧
        (∀ neg, decodeF h.ct x = .inf neg → decodeF 10 y = .inf neg) ∧ ((decodeF h.ct x).isNan = true → (decodeF 10 y).isNan = true)))) ∧
  (∀ (h : LodObject) (a b c d : Int),
    let len (p q : Int) : ℚ := (p * h.w0 / 2 ^ 149) ^ 2 + (q * h.h0 / 2 ^ 149) ^ 2
    let r := max (len a b) (len c d)
    let n := derivativeLevel h a b c d
    n ≤ 15 ∧ (n < 15 → r < 2 * 4 ^ n) ∧ ∀ m, m < n → 2 * 4 ^ m ≤ r) ∧
  (∀ (t : Nat) (xs : List (FVal × FVal)), t = 9 ∨ t = 10 → (∀ x ∈ xs, ∃ m e, x.1 = .fin false m e) →
    WeightedTo t (xs.map (fun x => (rat x.1, x.2))) (weightedSum t xs))

/-- R289 to R292, R294: the delivered level is the first from the wanted one on whose pages are all resident, or the tail; a lane delivers its sample
and its status, and logs the first page that it missed: once while its filter bit is 1; as a record with the new
WPTR at one time, or in DROP where the ring is full. -/
def Sys2Proof.Claims.MissesAndFeedback : Prop :=
  (∀ (s : State) (h : LodObject) (base : Nat) (u v : Int),
    let bias : Int := sgn 4 (s.ir.imm.toNat % 16)
    let w := wantedLevel h base bias
    let pages (e : Nat) : List Nat := (footprint h e u v (s.ir.mod.getLsbD 1)).map (·.page)
    (w : Int) = min (max (base + bias) 0) h.tail ∧ ((∀ e, w ≤ e → e ≤ h.tail → ∀ p ∈ pages e, Charted s h e p) →
      ∃ (t : State) (d : Nat), w ≤ d ∧ d ≤ h.tail ∧ t.mem = s.mem ∧ (∀ e, w ≤ e → e < d → ∃ p ∈ pages e, ¬ Resident s h e p) ∧
        (d < h.tail → ∀ p ∈ pages d, Resident s h d p) ∧ (d = w → lodChain s h base u v = .ok (t, w, d, none)) ∧
        (w < d → ∃ p, MissedAt s h w (pages w) p ∧ lodChain s h base u v = .ok (t, w, d, some (p, mapBitOf s h w p))))) ∧
  (∀ (s a b z : State) (h : LodObject) (base w d L : Nat) (q : Bool) (miss : Option (Nat × Bool)) (bs : List (List Byte)) (f : Feedback),
    let u := (lodCoords s L).1
    let v := (lodCoords s L).2
    let bil := s.ir.mod.getLsbD 1
    let ts := footprint h d u v bil
    lodChain s h base u v = .ok (a, w, d, miss) → readTexels (readC s s.ir.a.toNat) h.texel (d == h.tail) (ts.map (·.off)) a = .ok (b, bs) →
    (match miss with | none => z = b ∧ f = .none | some (p, mapped) => logMiss b h w p false mapped = .ok (z, f)) →
    ∃ e : Nat → Nat, (∀ k, k < 4 → if bil then
        WeightedTo 10 ((List.range 4).map (fun j => (((ts.map (fun t => rat t.weight)).getD j 0), decodeF 10 (component h (bs.getD j []) k)))) (e k)
        else e k = component h (bs.getD 0 []) k) ∧
      lodLane h base q s L = .ok (z, [laneWrite s.ir.d.toNat L (e 0 + e 1 * 2 ^ 32), laneWrite (s.ir.d.toNat + 1) L (e 2 + e 3 * 2 ^ 32),
        laneWrite (s.ir.d.toNat + 2) L ((d - w) + d * 16 + w * 256 + (if w < d then 2 ^ 16 else 0) + (if f = .logged then 2 ^ 17 else 0) +
          (if f = .dropped then 2 ^ 18 else 0) + if q then 2 ^ 19 else 0)])) ∧
  (∀ (s u v : State) (e : Entry) (h : LodObject) (L w d : Nat) (miss : Option (Nat × Bool)), admits s .lodq = true →
    mayAccess s 3 → activeLanes s 64 = [L] →
    objectCheck s s.curC.ctx (readC s s.ir.a.toNat) { rights := rightL, kind := 1 } = .ok e →
    readHeader s (readC s s.ir.a.toNat).obj e = .ok (u, h) →
    lodChain u h (levelFromC s h L) (lodCoords u L).1 (lodCoords u L).2 = .ok (v, w, d, miss) →
    let first := ((footprint h w (lodCoords u L).1 (lodCoords u L).2 (s.ir.mod.getLsbD 1)).map (·.page)).headD 0
    let page := match miss with | some (p, _) => p | none => first
    ∃ t, exec .lodq s = .next t ∧ t.mem = v.mem ∧ Issued s t 3 [laneWrite s.ir.d.toNat L
      ((d - w) + d * 16 + w * 256 + (if w < d then 2 ^ 16 else 0) + page % 2 ^ 32 * 2 ^ 32)]) ∧
  (∀ (s : State) (h : LodObject) (w p fk wk : Nat) (henc mapped : Bool), FeedbackAt s h w p fk wk →
    let bit := filterOf w p % 8
    let wp := s.num wk 8
    let drop := s.num (wk + 16) 8
    let full := 2 ^ h.log2n ≤ (wp + 2 ^ 64 - s.num (wk + 8) 8) % 2 ^ 64
    ((s.byte fk).getLsbD bit = true → ∃ t, logMiss s h w p henc mapped = .ok (t, .none) ∧ ∀ a, t.byte a = s.byte a) ∧
    ((s.byte fk).getLsbD bit = false → full → ∃ t, logMiss s h w p henc mapped = .ok (t, .dropped) ∧
      t.byte fk = s.byte fk ||| BitVec.ofNat 8 (2 ^ bit) ∧
      t.num (wk + 16) 8 = drop / 2 ^ 33 * 2 ^ 33 + 2 ^ 32 + min (drop % 2 ^ 32 + 1) (2 ^ 32 - 1) ∧
      ∀ a, a ≠ fk → ¬ (wk + 16 ≤ a ∧ a < wk + 24) → t.byte a = s.byte a) ∧
    (∀ rk, (s.byte fk).getLsbD bit = false → ¬ full → ownPlaces s h [h.ring + 16 * (wp % 2 ^ h.log2n)] = .ok [rk] → isHost rk = false →
      (fk < rk ∨ rk + 16 ≤ fk) → (wk + 24 ≤ rk ∨ rk + 16 ≤ wk) →
      ∃ t, logMiss s h w p henc mapped = .ok (t, .logged) ∧ t.byte fk = s.byte fk ||| BitVec.ofNat 8 (2 ^ bit) ∧ t.num wk 8 = (wp + 1) % 2 ^ 64 ∧
        t.num rk 4 = h.obj % 2 ^ 32 ∧ t.num (rk + 4) 1 = w % 2 ^ 8 ∧ t.num (rk + 5) 1 = (if henc then 1 else 0) ∧ t.num (rk + 6) 2 = h.asid % 2 ^ 16 ∧
        t.num (rk + 8) 4 = p % 2 ^ 32 ∧ t.num (rk + 12) 1 = h.die % 2 ^ 8 ∧ t.num (rk + 13) 3 = 0 ∧
        (∃ ts, ∀ k ∈ [fk, rk, wk], (t.stamps (k / 64)).1 = ts) ∧
        ∀ a, a ≠ fk → ¬ (wk ≤ a ∧ a < wk + 8) → ¬ (rk ≤ a ∧ a < rk + 16) → t.byte a = s.byte a))

/-- R318, R319: corners lie about the clamped position, at direct or hashed entries, with exact weights; those of weight 0 take no part. A resident level
gives the weighted sums of its entries' features, rounded once; one with an absent page gives zeros and logs the first; a hot one reads the scratchpad. -/
def Sys2Proof.Claims.EncodedFeatures : Prop :=
  (∀ x : Nat, x < 2 ^ 32 → ((decodeF 10 x).isNan = true → unitCoord x = 0) ∧ (∀ neg, decodeF 10 x = .inf neg → unitCoord x = if neg then 0 else 2 ^ 149) ∧
    (finite (decodeF 10 x) = true → (unitCoord x : ℚ) = min (max (rat (decodeF 10 x)) 0) 1 * 2 ^ 149)) ∧
  (∀ (g : GridLevel) (q : List Nat), 0 < g.n → q.length = 3 → (∀ a ∈ q, a ≤ 2 ^ 149) →
    (cornersOf g q).map (fun c => (c.1, rat c.2)) = ((List.range 8).map (cornerSpec g q)).filter (fun c => decide (c.2 ≠ 0))) ∧
  (∀ (cs : List Corner) (es : List (List Byte)), (∀ c ∈ cs, ∃ m e, c.2 = .fin false m e) → ∃ a b, levelFeatures cs es = .features a b ∧
    (let terms (q : Nat) : List (ℚ × FVal) := cs.zipIdx.map (fun c => (rat c.1.2, decodeF 9 (field (es.getD c.2 []) (2 * q) 2)))
     WeightedTo 9 (terms 0) a ∧ WeightedTo 9 (terms 1) b)) ∧
  (∀ (s : State) (h : LodObject) (l : Nat) (cs : List Corner), (∀ c ∈ cs, Charted s h l (c.1 / 2 ^ 14)) →
    let pages := cs.map (fun c => c.1 / 2 ^ 14)
    ((∀ p ∈ pages, Resident s h l p) → ∃ u : State, u.mem = s.mem ∧ ∀ v es,
      readTexels (readC s s.ir.a.toNat) 4 (l == h.tail) (cs.map (fun c => h.loff l + 4 * c.1)) u = .ok (v, es) →
      coldLevel h l cs s = .ok (v, levelFeatures cs es)) ∧
    (∀ p, MissedAt s h l pages p → ∃ u : State, u.mem = s.mem ∧ ∀ v f, logMiss u h l p true (mapBitOf s h l p) = .ok (v, f) →
      coldLevel h l cs s = .ok (v, .absent f))) ∧
  (∀ (s : State) (g : Grid) (lv : GridLevel) (cs : List Corner),
    let at' (e : Nat) : Nat := (g.wbase + 4 * (lv.woff + e)) % 2 ^ 19
    (∀ c ∈ cs, s.curC.scratchPoisoned (at' c.1) 4 = none) →
    hotLevel s g lv cs = .ok (levelFeatures cs (cs.map (fun c => s.curC.scratchBytes (at' c.1) 4)))) ∧
  (∀ (s u : State) (h : LodObject) (g : Grid) (L : Nat) (rs : List LevelResult),
    encodeLevels h g (lanePos s L) (g.levels.zipIdx.map (fun x => (x.2, x.1))) s = .ok (u, rs) →
    let half (l q : Nat) : Nat := match rs[l]? with | some (.features a b) => if q = 0 then a else b | _ => 0
    let said (l : Nat) (f : Feedback) : Nat := if rs[l]? = some (.absent f) then 1 else 0
    let n := (rs.length + 1) / 2
    hencLane h g s L = .ok (u, (List.range n).map (fun i => laneWrite (s.ir.d.toNat + i) L
        (half (2 * i) 0 + half (2 * i) 1 * 2 ^ 16 + half (2 * i + 1) 0 * 2 ^ 32 + half (2 * i + 1) 1 * 2 ^ 48)) ++
      [laneWrite (s.ir.d.toNat + n) L (((List.range rs.length).map (fun l =>
        2 ^ l * (said l .none + said l .logged + said l .dropped) + 2 ^ (32 + l) * said l .logged + 2 ^ (48 + l) * said l .dropped)).sum)]))

/-- R321, R322: contributions are the products of weights and gradients, by level, corner and feature. `.ORDER` adds each rounded, in order;
`.COMBINE`, by ascending address, the exact sum of an address's contributions, read once. -/
def Sys2Proof.Claims.GradientSums : Prop :=
  (∀ (s : State) (g : Grid) (L : Nat), (laneContributions s g L).map (fun y => (y.1, rat y.2)) = g.levels.zipIdx.flatMap (fun lv =>
    (cornersOf lv.1 (lanePos s L)).flatMap (fun c => (List.range 2).map (fun k =>
      (((lv.1.goff + 8 * c.1 + 4 * k : Nat) : Int),
       rat c.2 * rat (decodeF 10 ((readV s 32 (s.ir.c.toNat + lv.2) L).toNat / 2 ^ (32 * k) % 2 ^ 32))))))) ∧
  (∀ xs : List Contribution, (gradientAdds true xs).map (·.1) = xs.map (·.1) ∧
    ∀ (i : Nat) (x : Contribution) (y : Int × Nat), xs[i]? = some x → (gradientAdds true xs)[i]? = some y → finite x.2 = true → NearestTo 10 (rat x.2) y.2 ∨
      (rat x.2 = 0 ∧ y.2 = 2 ^ 31)) ∧
  (∀ xs : List Contribution, (gradientAdds false xs).Pairwise (fun a b => a.1 < b.1) ∧
    (∀ e, (∃ y ∈ gradientAdds false xs, y.1 = e) ↔ ∃ x ∈ xs, x.1 = e) ∧
    ∀ y ∈ gradientAdds false xs, ∃ st, ExactAdded {} ((xs.filter (fun x => x.1 == y.1)).map (·.2)) st ∧ ExactReads st 0 y.2)

/-- R73, R323, R324: a row is read from the shard that holds it, its header before its codes. A lane pools the rows of its bag by column; a bag of more
than 64 traps ARITH 2. -/
def Sys2Proof.Claims.EmbeddingPools : Prop :=
  (∀ (t : EmbedTable) (q4 : Bool) (col n r k : Nat) (s u v : State) (hd cs : List Byte), k < t.nsh → t.first.getD k 0 ≤ r → r < t.first.getD (k + 1) 0 →
    (∀ j, j < k → ¬ (t.first.getD j 0 ≤ r ∧ r < t.first.getD (j + 1) 0)) →
    let c := t.bufs.getD k {}
    let e := c.off + (r - t.first.getD k 0) * t.rowb
    waveRead s c (e : Nat) 4 { field := 3, rights := rightR } = .ok (u, hd) →
    waveRead u c (e + (4 + if q4 then col / 2 else col) : Nat) (if q4 then n else 2 * n) { field := 3, rights := rightR } = .ok (v, cs) →
    ∃ xs, readRow t q4 col n r s = .ok (v, xs) ∧ xs.length = 2 * n ∧ ∀ j, j < 2 * n →
      let code := if q4 then field cs (j / 2) 1 / 16 ^ (j % 2) % 16 else field cs j 1
      let scale := decodeF 8 (field hd 0 2)
      let offset := decodeF 8 (field hd 2 2)
      ∃ y, xs.getD j (.inf false) = decodeF 10 y ∧ (finite scale = true → finite offset = true → rat offset + rat scale * code ≠ 0 →
        NearestTo 10 (rat offset + rat scale * code) y)) ∧
  (∀ (t : EmbedTable) (s : State) (L : Nat),
    let bag := (readV s 32 s.ir.b.toNat L).toNat
    let imm := s.ir.imm.toNat
    let n := fld imm 2 4 + 1
    (64 < bag / 2 ^ 32 → egathLane t s L = .error (0, .trap 0x30 2)) ∧
    (∀ (v : State) (rows : List (List FVal)), bag / 2 ^ 32 ≤ 64 →
      bagRun t (s.ir.mod == 1) (fld imm 6 12) n (readC s s.ir.c.toNat) (bag % 2 ^ 32) (List.range (bag / 2 ^ 32)) s = some (v, rows) →
      ∃ f : Nat → Nat, (∀ k, k < 2 * n → PoolsTo s.ir (rows.map (fun r => r.getD k (.fin false 0 0))) (f k)) ∧
        egathLane t s L = .ok (v, (List.range n).map (fun j => laneWrite (s.ir.d.toNat + j) L (f (2 * j) + f (2 * j + 1) * 2 ^ 32)))))

/-- R315 to R325: HENC, HGRAD and EGATH read their records before any lane and complete when no lane stops; without a selected lane they do nothing.
The readings in it are the model's: logs 91, 96. -/
def Sys2Proof.Claims.HashEncodings : Prop :=
  (∀ (i : Instr) (s : State), i ∈ [Instr.henc, .hgrad, .egath] → admits s i = true → s.curT.hold = none → activeLanes s 64 = [] →
    ∃ t, exec i s = .next t ∧ Frame {} s t ∧ Completes s t) ∧
  (∀ (s u v x : State) (e : Entry) (h : LodObject) (g : Grid) (ws : List RegWrite), admits s .henc = true → mayAccess s 3 → activeLanes s 64 ≠ [] →
    objectCheck s s.curC.ctx (readC s s.ir.a.toNat) { rights := rightR + rightL, kind := 1 } = .ok e →
    readHeader s (readC s s.ir.a.toNat).obj e = .ok (u, h) → readGrid u (readC s (gridCap s)) (gridOffset s s.ir.c.toNat) = .ok (v, g) →
    h.ct = 9 → h.ncl = 1 → g.levels.length - 1 ≤ h.tail → s.ir.d.toNat + (g.levels.length + 1) / 2 + 1 ≤ s.curC.vallot →
    lanesRun (hencLane h g) (activeLanes s 64) v = some (x, ws) → ∃ t, exec .henc s = .next t ∧ t.mem = x.mem ∧ Issued s t 3 ws) ∧
  (∀ (s u v : State) (e : Entry) (g : Grid), admits s .hgrad = true → mayAccess s 5 → s.curT.answers = [] →
    activeLanes s 64 ≠ [] →
    let c := readC s s.ir.a.toNat
    let need : Need := { rights := rightR + rightW + rightA, align := 4, write := true, atomic := true }
    let lanes := (activeLanes s 64).map (fun L => (L, laneContributions u g L))
    let xs := lanes.flatMap (·.2)
    objectCheck s s.curC.ctx c need = .ok e → readGrid s (readC s (gridCap s)) (gridOffset s s.ir.d.toNat) = .ok (u, g) →
    s.ir.c.toNat + g.levels.length ≤ s.curC.vallot → gradientStop u c lanes = none →
    performAdds c (gradientAdds (s.ir.imm.getLsbD 4) xs) 0
      (u.modThread u.cur (fun t => { t with answers := tput t.answers (2 ^ 20 + 1) 32 })) = (v, none) →
    ∃ t, exec .hgrad s = .next t ∧ t.mem = v.mem ∧ Issued s t 5 [] ∧
      ∀ base r,
        let changed (k : Nat) : Prop := ∃ y ∈ xs, base + y.1.toNat ≤ k ∧ k < base + y.1.toNat + 4
        Flat s c base changed → Flat s (readC s (gridCap s)) r (fun _ => False) → (∀ k, ¬ changed k → t.byte k = s.byte k) ∧
          (base % 4 = 0 → (∀ y ∈ xs, dieOfKey (base + y.1.toNat) = s.curDie) → ∀ y ∈ xs, t.num (base + y.1.toNat) 4 =
            ((gradientAdds (s.ir.imm.getLsbD 4) xs).filter (fun z => z.1 == y.1)).foldl (fun old z => atomSpec 8 10 0 old z.2 0)
              (s.num (base + y.1.toNat) 4))) ∧
  (∀ (s u v : State) (tb : EmbedTable) (ws : List RegWrite), admits s .egath = true → mayAccess s 0 →
    activeLanes s 64 ≠ [] → readTable s (readC s s.ir.a.toNat) = .ok (u, tb) → tb.ok (s.ir.mod == 1) = true →
    fld s.ir.imm.toNat 6 12 % 2 = 0 → fld s.ir.imm.toNat 6 12 + 2 * (fld s.ir.imm.toNat 2 4 + 1) ≤ tb.dim →
    lanesRun (egathLane tb) (activeLanes s 64) u = some (v, ws) → ∃ t, exec .egath s = .next t ∧ t.mem = v.mem ∧ Issued s t 0 ws) ∧
  (∀ (g : GridLevel) (q : List Nat), 0 < g.n → q.length = 3 → (∀ a ∈ q, a ≤ 2 ^ 149) →
    ((cornersOf g q).map (fun c => match c.2 with | .fin _ m _ => m | _ => 0)).sum = 2 ^ 447 ∧
    ∀ c ∈ cornersOf g q, c.1 < 2 ^ g.tlog ∧ ∃ m, c.2 = .fin false m (-447) ∧ 0 < m)

/-- R313, R314: the members that arrive at a REORD wait, each with a release of what its wave has performed, until every member that has not ended has
come. Then the lanes of all members are sorted by key over their positions, each with the named registers, its predicates and its LID, and every
member goes on with the largest time of them all. Members that name different keys or registers trap ARITH 1 or 2, and no lane moves. A register mask beyond
the allotment traps REGBOUND, a member of a set that it is not in ARITH 4. The readings in it are the model's: log 97. -/
def Obligations.Reordering : Prop :=
  (∀ s : State, admits s .reord = true → s.curT.hold = none →
    let m := s.ir.imm.toNat
    let mask := (operandB s).toNat
    let alone := (s.threadsOf s.curWk).length = 1 ∧ s.curT.joins = []
    let member := m / 2 ^ (s.curWk % 64) % 2 = 1 ∧ m < 2 ^ s.curC.nwaves
    (¬ alone → exec .reord s = illegal s 10) ∧
    (alone → ¬ member → exec .reord s = arith s 4) ∧
    (alone → member → 2 ^ s.curC.vallot ≤ mask → exec .reord s = trap s 0x03 2) ∧
    (alone → member → mask < 2 ^ s.curC.vallot →
      (∃ w, w < 32 ∧ m / 2 ^ w % 2 = 1 ∧ w ≠ s.curWk % 64 ∧ thas s.waves (64 * s.curCk + w) = true ∧
        (s.wave (64 * s.curCk + w)).ended = false ∧ ∀ x ∈ s.curC.reord, waveOf x.1 ≠ 64 * s.curCk + w) →
      ∃ t, exec .reord s = .next t ∧ Queues s t ∧ t.curC.reord = s.curC.reord ++ [(s.cur, s.ir.a.toNat, mask, m)] ∧
        (performedAll s s.curWk = true → t.curC.relMark = max s.curC.relMark s.curW.pts))) ∧
  (∀ s : State, admits s .reord = true →
    let m := s.ir.imm.toNat
    let mask := (operandB s).toNat
    let xs := comeTo s mask m
    (s.curT.hold = none → (s.threadsOf s.curWk).length = 1 ∧ s.curT.joins = [] ∧ m / 2 ^ (s.curWk % 64) % 2 = 1 ∧ m < 2 ^ s.curC.nwaves ∧
      mask < 2 ^ s.curC.vallot) → Gathered s mask m →
    ((∀ x ∈ xs, x.2.1 = s.ir.a.toNat ∧ x.2.2.1 = mask) → ∃ (t : State) (σ : Nat × Nat → Nat × Nat), exec .reord s = .next t ∧ t.mem = s.mem ∧
      t.accesses = s.accesses ∧ (t.crew s.curCk).reord = s.curC.reord.filter (fun x => x.2.2.2 != m) ∧ (∀ k, k ≠ s.curCk → t.crew k = s.crew k) ∧
      (∀ k, (∀ x ∈ xs, x.1 ≠ k) → t.thread k = s.thread k) ∧ (∀ k, (∀ x ∈ xs, waveOf x.1 ≠ k) → t.wave k = s.wave k) ∧
      (∀ x ∈ xs,
        let y := s.thread x.1
        let z := t.thread x.1
        z.s = y.s ∧ z.c = y.c ∧ z.mask = y.mask ∧ z.hold = none ∧
        (t.wave (waveOf x.1)).pts = (xs.map (fun x => (s.wave (waveOf x.1)).pts)).foldl max s.curC.relMark ∧
        (y.rep = none → z.pc = y.pc + word (match y.hold with | some h => h.len | none => s.len))) ∧
      (∀ p, Position s xs p → Position s xs (σ p) ∧ Carried s t mask p (σ p)) ∧
      (∀ p q, Position s xs p → Position s xs q → σ p = σ q → p = q) ∧
      (∀ p q, Position s xs p → Position s xs q → Before p q →
        reordKey s (σ p) < reordKey s (σ q) ∨ (reordKey s (σ p) = reordKey s (σ q) ∧ Before (σ p) (σ q))) ∧
      ∀ x ∈ xs, ∀ L, L < 32 → (s.thread x.1).mask.getLsbD L = false → Carried s t 0 (x.1, L) (x.1, L)) ∧
    ((∃ x ∈ xs, x.2.1 ≠ s.ir.a.toNat ∨ x.2.2.1 ≠ mask) →
      (∀ x ∈ xs, canTrap s x.1 ∧ ∀ e ∈ s.accesses, e.2.wave ≠ waveOf x.1) →
      ∃ t, exec .reord s = .next t ∧ t.mem = s.mem ∧ (t.crew s.curCk).reord = s.curC.reord.filter (fun x => x.2.2.2 != m) ∧
        (∀ k, (t.wave k).v = (s.wave k).v ∧ (t.wave k).p = (s.wave k).p ∧ (t.wave k).lid = (s.wave k).lid) ∧
        ∀ x ∈ xs, ((∃ y ∈ xs, y.2.1 ≠ s.ir.a.toNat) → TrapTaken s t x.1 0x30 1 0 0 (s.thread x.1).pc) ∧
          ((∀ y ∈ xs, y.2.1 = s.ir.a.toNat) → TrapTaken s t x.1 0x30 2 0 0 (s.thread x.1).pc)))

/-- R83, R85, R185, R373: the first waiting crew of a die takes the core that R83 names; one that has not started starts every wave in its first state, with CUR of every
versioned object as the table of its ASID has it (R146) and a `PTS` no lower than the flips in the ASID, and one that was taken off goes on as it was
saved, one without a stage to wait for one. The readings in it are the model's: log 136. -/
def Sys2Proof.Claims.CrewPlacement : Prop :=
  ∀ (s : State) (ck core : Nat) (c : Crew),
    let die := s.ev.subject
    tsorted s.crews = true → tfind? s.crews ck = some c →
    FirstBy (fun e => [e.2.prio, e.2.age, e.2.crewid, e.1]) (fun e => waitsOn s die e.1 e.2) s ck c → c.paired = false → c.frameBad = false →
    framePoisoned s ck = false → c.nwaves ≤ 32 →
    core ∈ freeCores s die → (∀ j ∈ freeCores s die, lexLt (coreKey s die j) (coreKey s die core) = false) →
    ∃ t, exec .crewPlacement s = .next t ∧ t.mem = s.mem ∧ (∀ k, k ≠ ck → t.crew k = s.crew k) ∧
      (∀ k, crewOf (waveOf k) ≠ ck → t.thread k = s.thread k) ∧
      (c.started = false → t.crew ck = { c with
          state := .running, core := core, frame := none, stopFor := none, started := true, cur := resolveCur s c.die c.asid } ∧
        FreshWaves s t ck c.entry c.nwaves c.args c.cargs (max c.startPts (tget 0 (s.die die).flips c.asid)) c.scb) ∧
      (c.started = true → (∀ w, crewOf w = ck → traceEn (s.wave w).tracectl = false) →
        t.crew ck = { c with
          state := if c.pipeline.isSome && c.stage.isNone then .held else .running, core := core, frame := none, stopFor := none } ∧ t.threads = s.threads ∧ t.waves = s.waves)

/-- R87, R156, R256, R272, R371, R372, R373: a crew whose waves have ended and whose commands are complete ends. A waiting crew without a free core has the
victim of R256 stopped; once all of the victim's work has completed its state stands in a free context frame of its division and its core is free. A
crew all of whose waves are parked stops in the same way when a frame is free, and gives its core up. The readings in it are the model's: logs 65, 71, 87, 133. -/
def Sys2Proof.Claims.CrewsLeaveTheirCores : Prop :=
  (∀ (s : State) (c : Crew),
    let ck := s.ev.subject
    tfind? s.crews ck = some c → thas s.launches c.launch = true → c.pipeline = none → crewOver s ck = true → c.subs = [] →
    ∃ t, exec .crewEnd s = .next t ∧ t.mem = s.mem ∧ (t.crew ck).state = .ended ∧
      (t.launch c.launch).pts = max (s.launch c.launch).pts (crewTime s ck) ∧ (t.launch c.launch).done = (s.launch c.launch).done ∧
      (∀ k, thas t.threads k = (thas s.threads k && crewOf (waveOf k) != ck)) ∧
      (∀ k, k ≠ ck → t.crew k = if c.pair = some k then { s.crew k with pairEnded := !(s.crew k).pairBroken } else s.crew k)) ∧
  (∀ (s : State) (wk ck : Nat) (w c : Crew),
    let die := s.ev.subject
    (s.die die).preempting = none → (∀ e ∈ s.crews, e.2.stopFor = none) → tsorted s.crews = true → freeCores s die = [] →
    tfind? s.crews wk = some w → FirstBy (fun e => [e.2.prio, e.2.age, e.2.crewid, e.1]) (fun e => waitsOn s die e.1 e.2) s wk w →
    tfind? s.crews ck = some c → FirstBy (fun e => [3 - e.2.prio, 2 ^ 64 - e.2.age, 2 ^ 32 - e.2.crewid, e.1])
      (fun e => e.2.die = die ∧ e.2.state = .running ∧ w.prio < e.2.prio ∧ framesFree s e.1 = true) s ck c →
    c.paired = false → ∃ t, exec .preemption s = .next t ∧ t.mem = s.mem ∧ t.threads = s.threads ∧ t.waves = s.waves ∧
      t.crew ck = { c with state := .stopping, stopFor := some 0 } ∧ (∀ k, k ≠ ck → t.crew k = s.crew k) ∧ (t.die die).preempting = some ck) ∧
  (∀ (s : State) (ck n : Nat) (c : Crew), (s.die s.ev.subject).preempting = some ck → maySave s ck n c →
    ∃ t, exec .preemption s = .next t ∧ (t.die s.ev.subject).preempting = none ∧ SavedInFrame s t ck n c) ∧
  (∀ (s : State) (c : Crew),
    let ck := s.ev.subject
    tfind? s.crews ck = some c → c.state = .running → c.paired = false → allParked s ck = true → framesFree s ck = true →
    ∃ t, exec .crewSpill s = .next t ∧ t.mem = s.mem ∧ t.threads = s.threads ∧ t.waves = s.waves ∧
      t.crew ck = { c with state := .stopping, stopFor := some (c.stopFor.getD 3) } ∧ (∀ k, k ≠ ck → t.crew k = s.crew k)) ∧
  (∀ (s : State) (n : Nat) (c : Crew), maySave s s.ev.subject n c →
    ∃ t, exec .crewSpill s = .next t ∧ SavedInFrame s t s.ev.subject n c)

/-- R178, R228, R407: the refill adds to every crew's kitty the share of its KITTYRATE that the throttle level gives its class, up to 16 times the
KITTYRATE, and PTS_ADVANCE adds 1 to the `PTS` of every wave; nothing else changes. The readings in it are the model's: log 88. -/
def Sys2Proof.Claims.RefillsAndAdvances : Prop :=
  (∀ (s : State) (ck : Nat) (c : Crew), tfind? s.crews ck = some c → c.state ≠ .ended → s.xd.level < 8 → c.prio < 4 →
    ∃ t, exec .kittyRefill s = .next t ∧ t = { s with crews := t.crews, lastRefill := s.clock } ∧
      (let rate := (match c.pipeline with | some p => (s.pipeline p).krate | none => c.krate)
       t.crew ck = { c with
         krate := rate, kitty := min (min (c.kitty + rate * refillShare s.xd.level c.prio / 16) (16 * rate)) (2 ^ 32 - 1) }) ∧
      ∀ k, (s.crew k).state = .ended → t.crew k = s.crew k) ∧
  (∀ s : State, ∃ t, exec .ptsAdvance s = .next t ∧ t = { s with waves := t.waves, lastPts := s.clock } ∧
    ∀ w, t.wave w = if thas s.waves w then { s.wave w with pts := (s.wave w).pts + 1 } else s.wave w)

/-- R260, R261: STAGE_MOVE_EVALUATION marks the lowest-numbered crew of each pipeline's donor stage for a move to its receiver, unmarks every other, and
changes nothing else. CREW_STAGE_LEAVE puts a crew whose waves have ended, or that waits on its core without waves, on the stage of R260 with fresh waves, at
the largest `PTS` that its waves held, or leaves it waiting; it leaves alone a crew that still works. The readings in it are the model's: log 85. -/
def Sys2Proof.Claims.CrewsMoveBetweenStages : Prop :=
  (∀ s : State, tsorted s.crews = true →
    (∀ e ∈ s.crews, ∀ i, e.2.stage = some i → e.2.pipeline = some (s.instance' i).accountable) → ∃ t, exec .stageMoveEvaluation s = .next t ∧ t = { s with crews := t.crews } ∧
    (∀ k, t.crew k = { s.crew k with move := (t.crew k).move }) ∧
    (∀ p, thas s.pipelines p = true → (s.pipeline p).die = s.ev.subject → tsorted s.pipelines = true →
      (∀ j k, (t.crew j).pipeline = some p → (t.crew k).pipeline = some p → (t.crew j).move ≠ none → (t.crew k).move ≠ none → j = k) ∧
      (∀ r d k, 2 ≤ (s.pipeline p).path.length → (s.pipeline p).released = false → Receiver s p r → Donor s p r d → FirstOn s d k →
        (t.crew k).move = some r) ∧
      ((s.pipeline p).path.length < 2 ∨ (s.pipeline p).released = true ∨ (∀ r, ¬ Receiver s p r) ∨ (∃ r, Receiver s p r ∧ ∀ d, ¬ Donor s p r d) →
        ∀ k, (t.crew k).pipeline = some p → (t.crew k).move = none))) ∧
  (∀ (s : State) (c : Crew) (p i : Nat),
    let ck := s.ev.subject
    let u := clearWaves s ck
    tsorted s.crews = true → tfind? s.crews ck = some c → c.pipeline = some p → crewOver s ck = true → mustLeave s ck = false → c.subs = [] →
    queueEnds u = u → (∃ j ∈ stagesOf u p, stageOpen u j = true) → (∃ j, (s.pipeline p).path.getLast? = some j ∧ stageOpen u j = true) →
    nextStage u (u.crew ck) = some i → (s.pipeline p).nwaves ≤ 32 → ∃ t pts, exec .crewStageLeave s = .next t ∧ t.mem = s.mem ∧
      (t.crew ck).state = .running ∧ (t.crew ck).stage = some i ∧ (t.crew ck).core = c.core ∧ (t.crew ck).scratch = c.scratch ∧ (t.crew ck).barPhase = 0 ∧
      c.relMark ≤ pts ∧ (∀ w ∈ s.wavesOf ck, (s.wave w).pts ≤ pts) ∧ (pts = c.relMark ∨ ∃ w ∈ s.wavesOf ck, pts = (s.wave w).pts) ∧
      FreshWaves s t ck (s.instance' i).entry (s.pipeline p).nwaves (s.pipeline p).args (s.pipeline p).cargs pts (s.pipeline p).scb) ∧
  (∀ (s : State) (c : Crew) (p : Nat),
    let ck := s.ev.subject
    tfind? s.crews ck = some c → c.pipeline = some p → c.state = .held → (∃ i ∈ ownStages s p, stageOpen s i = true) →
    (∃ i, (s.pipeline p).path.getLast? = some i ∧ stageOpen s i = true) →
    (∀ i, nextStage s c = some i → (s.pipeline p).nwaves ≤ 32 → ∃ t, exec .crewStageLeave s = .next t ∧
      t.mem = s.mem ∧ (t.crew ck).state = .running ∧ (t.crew ck).stage = some i ∧ (t.crew ck).codeObj = (s.instance' i).codeObj ∧
      (t.crew ck).entry = (s.instance' i).entry ∧ (t.crew ck).vallot = (s.instance' i).vallot ∧ (t.crew ck).core = c.core ∧ (t.crew ck).asid = (s.instance' i).asid ∧
      (t.crew ck).scratch = c.scratch ∧
      FreshWaves s t ck (s.instance' i).entry (s.pipeline p).nwaves (s.pipeline p).args (s.pipeline p).cargs c.startPts (s.pipeline p).scb) ∧
    (nextStage s c = none → ∃ t, exec .crewStageLeave s = .next t ∧ t.mem = s.mem ∧ t.threads = s.threads ∧
      t.crew ck = c)) ∧
  (∀ s : State, (s.crew s.ev.subject).state ≠ .held → mayMove s s.ev.subject = false → mustLeave s s.ev.subject = false → crewOver s s.ev.subject = false →
    exec .crewStageLeave s = .next s)

/-- R250, R252 to R258, R270, R424: the front end of a die reads its next packet. A good packet leaves its queue and starts, one with a reserved value or a
misplaced block is skipped and logged, and a refused access drops the packet with an entry in the fault log. The readings in it are the model's: logs 81, 82, 130. -/
def Sys2Proof.Claims.PacketsStart : Prop :=
  ∀ (i : Instr) (kind : Nat) (start : State → Source → List Byte → Except Stop State), packetStart i = some (kind, start) →
  ∀ (s u v : State) (x : Source) (b : List Byte),
    let die := s.ev.subject
    nextPacket s die = some (.ok (u, x, b)) → pkKind b = kind → consumePacket u x = .ok v → (i = .signalPacket → dueSignal s die = none) →
    (i = .nodePacket → dueNode s die = none) →
    (∀ w, packetGood s die b → start v x b = .ok w → exec i s = .next w) ∧
    (¬ packetGood s die b → exec i s = .next (dieLog v x.die {
      code := 0x30, detail := 6, asid := x.asid, epc := BitVec.ofNat 64 x.index, src := 4, lage := packetAge v x })) ∧
    (∀ code d, packetGood s die b → start v x b = .error (.trap code d) →
      exec i s = .next (dieLog v x.die { code := code, detail := d, asid := x.asid, epc := BitVec.ofNat 64 x.index, src := 4, lage := packetAge v x }))

/-- R252, R254: a GRID packet at the head of a device queue creates a launch and CREWS waiting crews with `CREWID`s from 0; the packet leaves its
queue, and no memory changes. -/
def Sys2Proof.Claims.GridPackets : Prop :=
  ∀ (s : State) (cls : Nat) (p : DevPacket) (rest : List DevPacket),
    let die := s.ev.subject
    let b := p.bytes
    let l := tnext s.launches
    let ck := tnext s.crews
    cls < 4 → (∀ c, c < cls → tget [] (s.die die).devQueues c = []) → tget [] (s.die die).devQueues cls = p :: rest →
    pkKind b = 1 → pkFlag b 0 = false → packetOk b = true → packetAligned b = true →
    ∃ t, exec .gridPacket s = .next t ∧ t.mem = s.mem ∧ t.threads = s.threads ∧ tget [] (t.die die).devQueues cls = rest ∧
      (let x := t.launch l
       x.die = die ∧ x.asid = p.asid ∧ x.kind = 1 ∧ x.age = s.clock ∧ x.prio = pkPrio b ∧ x.parent = some p.parent ∧
       x.completion = p.completion ∧ x.done = false ∧ x.killed = false) ∧
      (∀ n, n < field b 8 4 →
        let c := t.crew (ck + n)
        c.die = die ∧ c.crewid = n ∧ c.launch = l ∧ c.age = s.clock ∧ c.prio = pkPrio b ∧ c.asid = p.asid ∧ c.state = .waiting ∧
        c.codeObj = field b 0x10 4 ∧ c.entry = BitVec.ofNat 64 (field b 0x18 8) ∧ c.nwaves = field b 4 1 ∧ c.vallot = field b 3 1 ∧
        c.scb = pkFlag b 1 ∧ c.args = p.args ∧ c.cargs = p.cargs ∧ c.startPts = p.pts ∧ c.krate = field b 0x0C 4 ∧
        c.kitty = min (16 * field b 0x0C 4) (2 ^ 32 - 1) ∧ c.pair = none ∧ c.started = false) ∧
      (∀ k, (k < ck ∨ ck + field b 8 4 ≤ k) → t.crew k = s.crew k)

/-- R255, R272: SIGNAL_PACKET performs a signal that waited once every earlier packet of its queue has completed: a frame tick, or a store of its
value; then it waits no more. -/
def Sys2Proof.Claims.Signals : Prop :=
  ∀ (s : State) (l obj off v : Nat),
    let die := s.ev.subject
    let x := s.launch l
    dueSignal s die = some l → x.die = die →
    (x.signal = some (obj, off, v, true) → (s.die die).graphs = [] → ∃ t, exec .signalPacket s = .next t ∧ t.mem = s.mem ∧
      t.threads = s.threads ∧ t.crews = s.crews ∧ (t.die die).lastTick = some s.clock ∧ (t.launch l).signal = none) ∧
    (x.signal = some (obj, off, v, false) → ∀ a : Loc, off % 8 = 0 →
      objReach die x.asid obj s (off : Nat) 8 { rights := rightW, align := 8, write := true } = .ok a → a.leaf = none →
      (isHost a.key = true ∨ dieOfKey a.key = die) → storeStop s die a = none → ∃ t, exec .signalPacket s = .next t ∧ t.threads = s.threads ∧
        t.crews = s.crews ∧ (t.launch l).signal = none ∧ t.num a.key 8 = v % 2 ^ 64 ∧ MemoryKept s t none a.key 8)

/-- R252, R253, R270, R272: a launch whose crews have ended and whose launches are complete completes, adding 1 to its completion word where it has
one; a new TAIL of a host queue is taken, and more packets than the ring holds break the queue; at the close of its window a graph's
running crews are marked, and its waiting ones and its nodes that wait for their packet are held. The readings in it are the model's: logs 80, 86, 130. -/
def Sys2Proof.Claims.LaunchesComplete : Prop :=
  (∀ s : State,
    let l := s.ev.subject
    let x := s.launch l
    launchReady s l = true → (x.kind ≠ 1 ∨ x.node = none) →
    (x.completion = none → ∃ t, exec .launchComplete s = .next t ∧ t.mem = s.mem ∧ t.crews = s.crews ∧ t.threads = s.threads ∧
      t.launch l = { x with done := true, pts := releaseTime s l } ∧ ∀ k, k ≠ l → t.launch k = s.launch k) ∧
    (∀ (obj off : Nat) (a : Loc), x.completion = some (obj, off) →
      objReach x.die x.asid obj s (off : Nat) 8 { rights := rightW + rightA, align := 8, write := true, atomic := true } = .ok a →
      a.leaf = none → (isHost a.key = true ∨ dieOfKey a.key = x.die) → storeStop s x.die a = none →
      (if isHost a.key = true then a.fails = false else s.poisoned a.key = false) → ∃ t, exec .launchComplete s = .next t ∧ t.crews = s.crews ∧ t.threads = s.threads ∧
        t.launch l = { x with done := true, pts := releaseTime s l } ∧ t.num a.key 8 = (s.num a.key 8 + 1) % 2 ^ 64 ∧
        MemoryKept s t none a.key 8)) ∧
  (∀ (s u : State) (x : HostQueue) (bs : List Byte) (ts : Nat),
    let die := s.ev.subject
    let q := s.ev.arg1
    tfind? (s.die die).hostQueues q = some x → x.isOpen = true →
    readVia (physReach die x.asid x.ring) s die 0 8 (hostTime s) { rights := rightR } = .ok (u, bs, ts) → ∃ t, exec .hostQueueTail s = .next t ∧
      t.mem = u.mem ∧ t.threads = s.threads ∧ t.crews = s.crews ∧ tfind? (t.die die).hostQueues q = some { x with
        tail := numOfBytes bs, isOpen := decide ((numOfBytes bs + 2 ^ 64 - x.head) % 2 ^ 64 ≤ x.n) }) ∧
  (∀ (s : State) (g : Graph) (e : Nat),
    let die := s.ev.subject
    (s.die die).graphs.find? (fun g => g.asid == s.ev.arg2 && g.obj == s.ev.arg1) = some g → g.closeAt = some e → e ≤ s.clock → tsorted s.launches = true →
    ∃ t ls, exec .budgetWindowClose s = .next t ∧ t.mem = s.mem ∧
      t.threads = s.threads ∧ { g with closeAt := none, closed := true, heldNodes := g.heldNodes ++ ls } ∈ (t.die die).graphs ∧
      (∀ l, l ∈ ls ↔ ∃ x, tfind? s.launches l = some x ∧ x.die = die ∧ x.asid = g.asid ∧ x.starting = true ∧ x.killed = false ∧ x.done = false ∧
        ∃ off, x.node = some (g.obj, off)) ∧
      (∀ l, t.launch l = if l ∈ ls then { s.launch l with starting := false } else s.launch l) ∧
      ∀ (k : Nat) (c : Crew), tfind? s.crews k = some c → t.crew k =
        if ofGraph s die g c = true then
          (match c.state with
           | .running | .stopping => { c with stopFor := some 1 }
           | .waiting => { c with budgetHeld := true }
           | _ => c)
        else c)

/-- R333, R336, R346, R347, R150, R152, R253, R356: a management command with a reserved bit set is malformed, and a reserved CODE too; every other one is answered
once, with STAT 0 and its effect when it is done, with STAT 1 and none when it is refused; an invalidation is answered when its importers have been. A
command from the die's ring is answered in the ring. The readings in it are the model's: logs 1, 109 to 112, 130, 135. -/
def Obligations.ManagementCommands : Prop :=
  (∀ (i : Instr) (s : State), i ∈ managementCommands → commandComes s → (s.ev.cmd.resv1 ≠ 0 ∨ 2 ^ 13 ≤ s.ev.cmd.asidField.toNat) →
    ∃ t, exec i s = .next t ∧ OnlyAnswers s t 2) ∧
  (∀ (i : Instr) (s : State), i ∈ managementCommands → s.ev.arg1 ≠ 1 → (s.die s.ev.subject).mgmtPending ≠ none → exec i s = .next s) ∧
  (∀ (i : Instr) (s u v : State) (b : List Byte) (q : MgmtQueue) (ts : Nat),
    let die := s.ev.subject
    let w := u.modDie die (fun d => { d with mgmtPending := some (2, true) })
    i ∈ managementCommands →
    (i = .capset → heldIn s die s.ev.cmd.asidField.toNat s.ev.cmd.arg0.toNat s.ev.cmd.arg1.toNat 16 = none) → die < 12 →
    (s.die die).mgmtPending = none → s.ev.arg1 = 1 → (s.die die).mgmt = some q → otherRow s die i = false →
    takeCommand s die = .ok (u, some b) → (commandOf b).resv1 ≠ 0 → u.ev = s.ev → (u.die die).mgmtWait = [] → (u.die die).mgmtTelem = none → (u.die die).mgmt = some { q with head := (q.head + 1) % 2 ^ 64 } → q.head < 2 ^ 64 →
    writeVia (physReach die q.asid q.ring) w die ((0x78 + 64 * (q.head % q.n) : Nat) : Int)
      (bytesOf 8 2) (hostTime w) { rights := rightW, write := true } = .ok (v, ts) →
    ∃ t, exec i s = .next t ∧ t.mem = v.mem ∧ (t.die die).mgmtStat = 2 ∧ (t.die die).mgmtCount = (v.die die).mgmtCount + 1 ∧
      (t.die die).mgmtPending = none) ∧
  (∀ (i : Instr) (s : State), goodCommand s → badArguments i s.ev.cmd → ∃ t, exec i s = .next t ∧ OnlyAnswers s t 2) ∧
  (∀ (i : Instr) (s : State), goodCommand s → ¬ badArguments i s.ev.cmd → notAllowed s i → ∃ t, exec i s = .next t ∧ OnlyAnswers s t 1) ∧
  (∀ s : State, goodCommand s →
    let die := s.ev.subject
    let c := s.ev.cmd
    let asid := c.asidField.toNat
    let base := c.arg1.toNat
    base % 32 = 0 → base < 2 ^ 48 → c.arg2.toNat < 2 ^ 16 →
    (∀ e ∈ s.crews, e.2.die = die → e.2.asid = asid → e.2.state = .ended) → ∃ t, exec .asidset s = .next t ∧ t = { s with dies := t.dies } ∧
      Answers s t 0 (fun d => { d with asids := (t.die die).asids, held := (t.die die).held, extents := (t.die die).extents, runs := (t.die die).runs
                                       ats := (t.die die).ats }) ∧
      (∀ o, o < 2 ^ 32 → tfind? (t.die die).held (asid * 2 ^ 32 + o) = none) ∧
      (∀ k, k / 2 ^ 32 ≠ asid → tfind? (t.die die).held k = tfind? (s.die die).held k) ∧
      tfind? (t.die die).asids asid = (if c.arg0 = 0 then none else some { base := base, count := c.arg0.toNat, share := some c.arg2.toNat }) ∧
      ∀ a, a ≠ asid → tfind? (t.die die).asids a = tfind? (s.die die).asids a) ∧
  (∀ s : State, goodCommand s → ∃ t, exec .inval s = .next t ∧ Invalidated s t s.ev.cmd.asidField.toNat s.ev.cmd.arg0.toNat ∧
    (noneWaits s (lockRequest s.ev.subject s.ev.cmd.asidField.toNat s.ev.cmd.arg0.toNat) → t = { s with dies := t.dies, packets := t.packets })) ∧
  (∀ s : State, goodCommand s →
    let die := s.ev.subject
    let a := s.ev.cmd.arg0.toNat
    let k := capOf (bytesOf 16 s.ev.cmd.arg3.toNat) true
    let need := a / 4 % 2 * 128 + a / 2 % 2 * 64 + a % 2 * 16
    let x := (s.die die).exports
    a / 8 % 2 = 0 → a < 2 ^ 16 → k.tag = true → k.rights / 2 % 2 = 1 → k.rights &&& need = need →
    exportable s die s.ev.cmd.asidField.toNat k.obj = true → (∃ i, i < 4096 ∧ (tget (0, 0) x i).1 / 2 ^ 63 % 2 = 0) →
    ∃ t i, exec .exportObject s = .next t ∧ i < 4096 ∧ (tget (0, 0) x i).1 / 2 ^ 63 % 2 = 0 ∧ t = { s with dies := t.dies } ∧
      (let gen := fld (tget (0, 0) x i).2 48 16
       let w0 := 2 ^ 63 + a / 4 % 2 * 2 ^ 62 + a / 2 % 2 * 2 ^ 61 + a % 2 * 2 ^ 60 + fld a 4 12 * 2 ^ 48 + s.ev.cmd.asidField.toNat * 2 ^ 32 + k.obj
       Answers s t (256 * ((gen * 2 ^ 16 + i) * 2 ^ 24)) (fun d => { d with exports := tput x i (w0, gen * 2 ^ 48) }))) ∧
  (∀ s : State, goodCommand s →
    let die := s.ev.subject
    let id := s.ev.cmd.arg0.toNat
    let x := tget (0, 0) (s.die die).exports (id % 4096)
    fld id 12 4 = 0 → fld x.1 63 1 = 1 → x.1 < 2 ^ 64 → tsorted (s.die die).exports = true →
    (fld x.2 48 16 = fld id 16 16 → ∃ t, exec .unexport s = .next t ∧
      Invalidated s t (fld x.1 32 13) (fld x.1 0 32) ∧
      (let y := tget (0, 0) (t.die die).exports (id % 4096)
       y.1 = x.1 - 2 ^ 63 ∧ fld y.2 48 16 = (fld x.2 48 16 + 1) % 2 ^ 16) ∧
      ∀ j, j ≠ id % 4096 → tget (0, 0) (t.die die).exports j = tget (0, 0) (s.die die).exports j)) ∧
  (∀ s : State, goodCommand s → s.ev.cmd.arg0.toNat < 8 → s.ev.cmd.arg1.toNat < 2 ^ 48 → ∃ t, exec .evsched s = .next t ∧
    t = { s with dies := t.dies } ∧ Answers s t 0 (fun d => { d with schedule := (t.die s.ev.subject).schedule }) ∧
    (s.ev.cmd.arg1 = 0 → (t.die s.ev.subject).schedule = none) ∧
    (s.ev.cmd.arg1 ≠ 0 → ∃ x, (t.die s.ev.subject).schedule = some x ∧ x.nph = s.ev.cmd.arg0.toNat ∧
      ∀ k, k < 8 → x.phases[k]? = some (s.num (keyOf s.ev.subject (s.ev.cmd.arg1.toNat + 0x170 + 8 * k)) 8))) ∧
  (∀ s : State, goodCommand s →
    let die := s.ev.subject
    let n := s.ev.cmd.arg0.toNat
    let isOpen (q : Nat) : Prop := ∃ x, tfind? (s.die die).hostQueues q = some x ∧ x.isOpen = true
    (∃ k, 1 ≤ k ∧ k ≤ 16 ∧ n = 2 ^ k) → s.ev.cmd.arg1.toNat < 3 * 2 ^ 48 →
    (∃ q, q < 64 ∧ ¬ isOpen q) → ∃ t q, exec .lqopen s = .next t ∧ q < 64 ∧ ¬ isOpen q ∧ t = { s with dies := t.dies } ∧
      Answers s t (256 * q) (fun d => { d with hostQueues := (t.die die).hostQueues }) ∧
      (∃ x, tfind? (t.die die).hostQueues q = some x ∧ x.ring = s.ev.cmd.arg1.toNat ∧ x.n = n ∧ x.asid = s.ev.cmd.asidField.toNat ∧
        x.isOpen = true ∧ x.head = 0 ∧ x.tail = 0) ∧
      ∀ j, j ≠ q → tfind? (t.die die).hostQueues j = tfind? (s.die die).hostQueues j) ∧
  (∀ s : State, goodCommand s → s.ev.cmd.arg0.toNat < 64 → ∃ t, exec .lqclose s = .next t ∧ t = { s with dies := t.dies } ∧
    Answers s t 0 (fun d => { d with hostQueues := (t.die s.ev.subject).hostQueues }) ∧
    ∀ q, tfind? (t.die s.ev.subject).hostQueues q = (tfind? (s.die s.ev.subject).hostQueues q).map (fun x =>
      if q = s.ev.cmd.arg0.toNat then { x with isOpen := false } else x)) ∧
  (∀ (s : State) (l : Loc),
    let addr := s.ev.cmd.arg1.toNat % 2 ^ 48
    goodCommand s → s.ev.cmd.arg1.toNat / 2 ^ 48 = 2 → addr % 64 = 0 → addr + 256 ≤ 2 ^ 48 →
    (∀ k, k < 4 → (∃ x : Loc, hostLoc s s.ev.subject s.ev.cmd.asidField.toNat (addr + 64 * k) true { key := 0 } = .ok x ∧ x.key = l.key + 64 * k) ∧
      tfind? (s.die s.ev.subject).rdc (lineOf l.key + k) = none) →
    ∃ t, exec .telem s = .next t ∧ t = { s with dies := t.dies, mem := t.mem } ∧ Answers s t 0 (fun d => { d with ats := (t.die s.ev.subject).ats }) ∧
      (∀ a, ¬ (l.key ≤ a ∧ a < l.key + 256) → t.byte a = s.byte a) ∧ t.num (l.key + 8) 8 = clockMHz s.xd.level % 2 ^ 64 ∧
      t.num (l.key + 24) 8 = (s.die s.ev.subject).corrected % 2 ^ 64 ∧
      t.num (l.key + 32) 8 = s.timew s.ev.subject % 2 ^ 64 ∧ t.num (l.key + 40) 8 = (s.die s.ev.subject).incarnation % 2 ^ 64) ∧
  (∀ (s : State) (l : Loc),
    let c := s.ev.cmd
    let k := capOf (bytesOf 16 c.arg3.toNat) true
    goodCommand s → c.arg1.toNat % 16 = 0 → capsetPlace s s.ev.subject c.asidField.toNat c = some l → k.tag = true →
    windowInside s s.ev.subject c.asidField.toNat k = true → storeStop s s.ev.subject l = none → dieOfKey l.key = s.ev.subject →
    isHost l.key = false → l.peer = false → l.key % 16 = 0 →
    ∃ t, exec .capset s = .next t ∧ (t.die s.ev.subject).mgmtStat = 0 ∧ (t.die s.ev.subject).mgmtCount = (s.die s.ev.subject).mgmtCount + 1 ∧
      t.num l.key 16 = c.arg3.toNat % 2 ^ 128 ∧ t.tags.contains (l.key / 16) = true ∧ MemoryKept s t l.leaf l.key 16)

/-- R388, R390, R391, R156: a page request is posted in the next place of its ring and raises vector 2; the answer to a posted request, or the response to
an index, restores the waves that wait for it; where it says failure they trap at their instructions. The readings in it are the model's: logs 113, 129. -/
def Sys2Proof.Claims.PageRequests : Prop :=
  (∀ (s : State) (k : Nat) (r : PageRequest),
    let die := s.ev.subject
    let d := s.die die
    d.prHead - d.prTail ≠ 64 → d.requests.find? (fun e => e.2.number.isNone) = some (k, r) → ∃ t, exec .pageRequestPost s = .next t ∧
      t = { s with dies := t.dies } ∧ (∀ j, j ≠ die → t.die j = s.die j) ∧ (t.die die).prHead = d.prHead + 1 ∧
      tget 0 (t.die die).msix 2 = tget 0 d.msix 2 + 1 ∧ tfind? (t.die die).requests k = some { r with number := some d.prHead, timew := s.timew die } ∧
      tfind? (t.die die).posted (d.prHead % 64) = some { r with number := some d.prHead, timew := s.timew die }) ∧
  (∀ (s : State) (k : Nat) (r : PageRequest) (i : Nat),
    let die := s.ev.subject
    let id := die * 2 ^ 32 + k
    (s.die die).requests.find? (fun e => match e.2.number with | some i => i % 2 ^ 32 == s.ev.arg1 % 2 ^ 32 | none => false) = some (k, r) →
    r.number = some i → tsorted s.threads = true → tsorted s.waves = true →
    (fld s.ev.arg1 32 1 = 0 → ∃ t, exec .pgans s = .next t ∧ t.mem = s.mem ∧ thas (t.die die).requests k = false ∧ Woken s t id ∧
      ∀ k, (t.thread k).trap = (s.thread k).trap) ∧
    (fld s.ev.arg1 32 1 = 1 → ∃ t, exec .pgans s = .next t ∧ t.mem = s.mem ∧ thas (t.die die).requests k = false ∧
      ∀ j a, (s.thread j).park = some (id, a) → isSequencer (waveOf j) = false →
        (t.thread j).trap = some (0x20, r.why, a, (s.thread j).doneLanes, (s.thread j).pc) ∧ (t.thread j).hold = none)) ∧
  (∀ (s : State) (x : PriIndex),
    let die := s.ev.subject
    let k := s.ev.arg1
    let id := 2 ^ 40 + die * 2 ^ 32 + k
    tfind? (s.die die).pri k = some x → tsorted s.threads = true → tsorted s.waves = true →
    (x.crew ≠ frontCrew → (s.crew x.crew).state ≠ .ended → (s.crew x.crew).incarnation = x.incarnation → s.ev.arg2 = 0 → ∃ t, exec .prgResponse s = .next t ∧
      t.mem = s.mem ∧ tfind? (t.die die).pri k = none ∧ (t.die die).priFailed = (s.die die).priFailed ∧ Woken s t id) ∧
    (∀ n, x.crew ≠ frontCrew → (s.crew x.crew).state ≠ .ended → (s.crew x.crew).incarnation = x.incarnation → s.ev.arg2 = n + 1 → ∃ t, exec .prgResponse s = .next t ∧
      t.mem = s.mem ∧ tfind? (t.die die).pri k = none ∧ (t.die die).priFailed = ((s.die die).priFailed || decide (n ≠ 0)) ∧
      ∀ j a, (s.thread j).park = some (id, a) → isSequencer (waveOf j) = false →
        (t.thread j).trap = some (0x21, if n = 0 then 1 else 2, a, (s.thread j).doneLanes, (s.thread j).pc)) ∧
    (x.crew = frontCrew → ∃ t, exec .prgResponse s = .next t ∧ t = { s with dies := t.dies } ∧ tfind? (t.die die).pri k = none ∧
      (s.ev.arg2 = 0 → ∀ a ∈ x.pages, a ∈ (t.die die).priRetried) ∧
      (s.ev.arg2 ≠ 0 → tsorted (s.die die).priStopped = true → ∀ a ∈ x.pages, tfind? (t.die die).priStopped a = some (if s.ev.arg2 = 1 then 1 else 2))) ∧
    (x.crew ≠ frontCrew → (s.crew x.crew).state = .ended ∨ (s.crew x.crew).incarnation ≠ x.incarnation → ∃ t, exec .prgResponse s = .next t ∧
      t = { s with dies := t.dies } ∧ (∀ d, d ≠ die → t.die d = s.die d) ∧ t.die die = { s.die die with pri := terase (s.die die).pri k })) ∧
  (∀ s : State, ∃ t, exec .priEnable s = .next t ∧ t = { s with dies := t.dies } ∧
    t.die s.ev.subject = { s.die s.ev.subject with priFailed := false } ∧ ∀ d, d ≠ s.ev.subject → t.die d = s.die d)

/-- R367, R368, R369, R388, R392, R397: the host's writes to FLTAIL, PRTAIL and the tail of the module's log; KILLREQ with bit 16 kills the launches of the ASID on
the die and ends its crews, but for those of a stage that another pipeline still runs (R282); a held access that has met its page's lock for 4,096 cycles parks its wave. The readings in it are the model's: log 114. -/
def Sys2Proof.Claims.HostRegisters : Prop :=
  (∀ s : State, ∃ t, exec .hostRegisterWrite s = .next t ∧ t = { s with dies := t.dies, xd := t.xd } ∧
    (let v := if s.ev.subject = 0 ∧ s.ev.arg1 = 8 then s.ev.arg2 else s.xd.log.tail
     t.xd = { s.xd with log := { s.xd.log with tail := v } }) ∧
    ∀ d, d < 12 →
      let v := if s.ev.subject = d + 1 ∧ s.ev.arg1 = 8 then s.ev.arg2 else (s.die d).log.tail
      let w := if s.ev.subject = d + 1 ∧ s.ev.arg1 = 0x28 then s.ev.arg2 else (s.die d).prTail
      t.die d = { s.die d with log := { (s.die d).log with tail := v }, prTail := w }) ∧
  (∀ s : State, fld s.ev.arg1 16 1 = 0 → exec .killreq s = .next s) ∧
  (∀ s : State, fld s.ev.arg1 16 1 = 1 → tsorted s.crews = true → tsorted s.launches = true → ∃ t, exec .killreq s = .next t ∧ t.mem = s.mem ∧
    (∀ k c, tfind? s.crews k = some c → c.die = s.ev.subject → c.asid = s.ev.arg1 % 2 ^ 13 →
      (∀ j, c.stage = some j → ∀ e ∈ s.pipelines, j ∈ e.2.path → e.2.released = false → thas s.launches e.2.launch = true ∧
        (s.launch e.2.launch).die = s.ev.subject ∧ (s.launch e.2.launch).asid = s.ev.arg1 % 2 ^ 13) → (t.crew k).state = .ended) ∧
    (∀ k x, tfind? s.launches k = some x → x.die = s.ev.subject → x.asid = s.ev.arg1 % 2 ^ 13 → (t.launch k).killed = true) ∧
    (∀ k c, tfind? s.crews k = some c → c.asid ≠ s.ev.arg1 % 2 ^ 13 → (s.launch c.launch).asid ≠ s.ev.arg1 % 2 ^ 13 → c.state ≠ .ended →
      (t.crew k).state = c.state)) ∧
  (∀ (s : State) (since k : Nat) (h : Hold),
    let j := s.ev.subject
    tsorted s.threads = true → (s.thread j).lock = some (since, k) → since + 4096 ≤ s.clock → (s.thread j).park = none →
    (s.thread j).hold = some h → ∃ t, exec .migrationHoldTimeout s = .next t ∧ t.mem = s.mem ∧ (t.wave (waveOf j)).parked = true ∧
      (t.thread j).park = some (2 ^ 60 + k, 0) ∧ (t.thread j).hold = some h ∧ (t.thread j).lock = none ∧ (t.thread j).s = (s.thread j).s ∧
      (t.thread j).c = (s.thread j).c)

/-- R338 to R340, R343: the requests at a home. One for a busy line waits its turn. A read of a line that no other die owns sends a shared copy with a
lease of 64 and lists the reader; of one that another die owns it is forwarded. A request for ownership without another sharer is
granted above every granted time; with others it first invalidates them. An atomic on a line that no die holds is performed.
The readings in it are the model's: logs 100, 101. -/
def Sys2Proof.Claims.HomeRequests : Prop :=
  (∀ (i : Instr) (pk : PacketKind) (k : Nat), homeRequest i = some (pk, k) → ∀ (s : State) (p : Packet), Arrives s pk p →
    ¬ idleLine s p.line → ∃ t, exec i s = .next t ∧ TakenOff s t p ∧ t.mem = s.mem ∧
      t.dir p.line = { s.dir p.line with waiting := (s.dir p.line).waiting ++ [requestOf p k] }) ∧
  (∀ (s : State) (p : Packet), Arrives s .rd p → idleLine s p.line →
    let e := s.dir p.line
    let foreign := (e.state = .o ∨ e.state = .x) ∧ e.owner ≠ p.src
    (¬ foreign → ∃ t, exec .rd s = .next t ∧ TakenOff s t p ∧ t.mem = s.mem ∧
      t.dir p.line = { e with state := .s, sharers := linsert p.src e.sharers } ∧
      t.stamps p.line = ((s.stamps p.line).1, max (s.stamps p.line).2 ((s.stamps p.line).1 + 63)) ∧
      Sent s t .data p.dst p.src p.line (fun q => q.hasData = true ∧ q.bytes = s.bytes (64 * p.line) 64 ∧ q.wts = (s.stamps p.line).1 ∧
        q.mrts = (s.stamps p.line).1 + 63 ∧ q.poison = s.poison.contains p.line)) ∧
    (foreign → ∃ t, exec .rd s = .next t ∧ TakenOff s t p ∧ t.mem = s.mem ∧
      t.dir p.line = { e with busy := some (requestOf p 0), awaiting := [e.owner], ackRts := 0, since := s.clock } ∧
      Sent s t .forward p.dst e.owner p.line (fun q => q.op = [p.src]))) ∧
  (∀ (i : Instr) (pk : PacketKind) (k : Nat), homeRequest i = some (pk, k) → i = .rdx ∨ i = .upg → ∀ (s : State) (p : Packet), Arrives s pk p →
    idleLine s p.line →
    let e := s.dir p.line
    let others := e.sharers.filter (fun d => d != p.src && !(s.die d).fenced)
    let foreign := (e.state = .o ∨ e.state = .x) ∧ e.owner ≠ p.src
    (others = [] → ¬ foreign → ∃ t, exec i s = .next t ∧ TakenOff s t p ∧ t.mem = s.mem ∧
      (let g := 1 + max (s.stamps p.line).1 (s.stamps p.line).2
       let held := i = .upg ∧ p.src ∈ e.sharers
       (t.dir p.line).state = .x ∧ (t.dir p.line).sharers = [p.src] ∧ (t.dir p.line).owner = p.src ∧ (t.dir p.line).busy = none ∧
       t.stamps p.line = (g, g) ∧
       Sent s t .grant p.dst p.src p.line (fun q => q.wts = g ∧ q.mrts = g ∧ (q.hasData = true ↔ ¬ held) ∧
         (¬ held → q.bytes = s.bytes (64 * p.line) 64)))) ∧
    (others ≠ [] → ¬ foreign → ∃ t, exec i s = .next t ∧ TakenOff s t p ∧ t.mem = s.mem ∧ (t.dir p.line).busy = some (requestOf p k) ∧
      (t.dir p.line).awaiting = others ∧ (t.dir p.line).invalidating = true ∧
      ∀ d ∈ others, Sent s t .inv p.dst d p.line (fun _ => True))) ∧
  (∀ (s : State) (p : Packet), Arrives s .at' p → idleLine s p.line → (s.dir p.line).sharers = [] → (s.dir p.line).state = .i →
    let x (k : Nat) : Nat := p.op.getD k 0
    x 9 = 0 → x 3 ≠ 17 → x 1 / 64 = p.line → isHost (x 1) = false → dieOfKey (x 1) = p.dst → s.poisoned (x 1) = false →
    ∃ t, exec .at s = .next t ∧ TakenOff s t p ∧ t.num (x 1) (x 2) = atomicNew (x 3) (x 4) (x 5) (s.num (x 1) (x 2)) (x 6) (x 7) % 256 ^ x 2 ∧
      MemoryKept s t none (x 1) (x 2) ∧
      Sent s t .atAnswer p.dst p.src p.line (fun q => q.agent = p.agent ∧ ∃ ts, q.op = [x 0, 3 + s.num (x 1) (x 2) + ts * 2 ^ 64]))

/-- R179, R339, R343: the answers at a home. Written-back data is taken with its stamps, and the die shares the line no more. An acknowledgement
that nobody awaits, or that follows its die's write-back, changes nothing of the line; one of several is noted with its time; the last one for a request for ownership lets
the home grant the line above every time that was told. The readings in it are the model's: logs 100, 101. -/
def Sys2Proof.Claims.HomeAnswers : Prop :=
  (∀ (s : State) (p : Packet), Arrives s .wb p → (s.dir p.line).awaiting.contains p.src = false → p.hasData = true → p.bytes.length = 64 →
    let e := s.dir p.line
    let gone := (e.state = .o ∨ e.state = .x) ∧ e.owner = p.src
    let left := e.sharers.filter (· != p.src)
    ∃ t, exec .wb s = .next t ∧ TakenOff s t p ∧ (∀ j, j < 64 → t.byte (64 * p.line + j) = p.bytes.getD j 0) ∧
      MemoryKept s t none (64 * p.line) 64 ∧ t.stamps p.line = (max (s.stamps p.line).1 p.wts, max (s.stamps p.line).2 p.mrts) ∧
      (p.line ∈ t.poison ↔ p.poison = true) ∧ (t.dir p.line).sharers = left ∧
      (gone → (t.dir p.line).state = if left = [] then .i else .s) ∧ (¬ gone → (t.dir p.line).state = e.state)) ∧
  (∀ (s : State) (p : Packet), Arrives s .ack p →
    let e := s.dir p.line
    let stale := p.state = 0 ∧ p.src ∈ e.stale
    (stale → ∃ t, exec .ack s = .next t ∧ TakenOff s t p ∧ t.mem = s.mem ∧ t.dir p.line = { e with stale := e.stale.filter (· != p.src) }) ∧
    (¬ stale → e.awaiting.contains p.src = false → ∃ t, exec .ack s = .next t ∧ TakenOff s t p ∧ t.mem = s.mem ∧ t.directory = s.directory) ∧
    (¬ stale → e.awaiting.contains p.src = true → p.state ≤ 1 → (∃ d ∈ e.awaiting, d ≠ p.src) → ∃ t, exec .ack s = .next t ∧ TakenOff s t p ∧
      t.mem = s.mem ∧ (t.dir p.line).awaiting = e.awaiting.filter (· != p.src) ∧ (t.dir p.line).ackRts = max e.ackRts p.mrts ∧
      (t.dir p.line).busy = e.busy) ∧
    (∀ r, ¬ stale → e.busy = some r → r.kind = 1 → e.awaiting = [p.src] → e.waiting = [] → p.state ≤ 1 → ∃ t, exec .ack s = .next t ∧ TakenOff s t p ∧
      t.mem = s.mem ∧ (t.dir p.line).state = .x ∧ (t.dir p.line).owner = r.die ∧ (t.dir p.line).sharers = [r.die] ∧ (t.dir p.line).busy = none ∧
      Sent s t .grant p.dst r.die p.line (fun q =>
        q.wts = 1 + max (s.stamps p.line).1 (max (s.stamps p.line).2 (max e.ackRts p.mrts)) ∧ q.mrts = q.wts)))

/-- R179, R339, R343: the messages at a remote-data cache. An invalidation or a recall drops the copy and answers with the highest time granted, a recall
with the data; without a copy the answer says so. A forward sends the data to the die that asked, and the owner keeps a dirty line
or drops to a clean one; a line granted in this cycle is stored to first: a recall or forward of it is taken, and answered after the cycle's instructions. A grant makes the die the line's owner, and what waits for the line goes
on in the same cycle. The readings in it are the model's: logs 101, 102. -/
def Sys2Proof.Claims.CacheMessages : Prop :=
  (∀ (i : Instr) (pk : PacketKind), (i = .inv ∧ pk = .inv) ∨ (i = .recall ∧ pk = .recall) → ∀ (s : State) (p : Packet), Arrives s pk p →
    (i = .recall → ¬ justGranted s p) →
    ∃ t, exec i s = .next t ∧ TakenOff s t p ∧ t.mem = s.mem ∧ tfind? (t.die p.dst).rdc p.line = none ∧
      Sent s t .ack p.dst p.src p.line (fun q => q.mrts = granted s p.dst p.line ∧
        match tfind? (s.die p.dst).rdc p.line with
        | none => q.state = 0
        | some r => if i = .inv then q.state = 1 else q.state = 2 ∧ q.hasData = true ∧ q.bytes = r.bytes ∧ q.wts = r.wts ∧ q.poison = r.poison)) ∧
  (∀ (i : Instr) (pk : PacketKind), (i = .recall ∧ pk = .recall) ∨ (i = .forward ∧ pk = .forward) → ∀ (s : State) (p : Packet), Arrives s pk p →
    justGranted s p → ∃ t, exec i s = .next t ∧ TakenOff s t p ∧ t.mem = s.mem ∧ (t.die p.dst).rdc = (s.die p.dst).rdc ∧
      tfind? t.packets s.ev.subject = some { p with here := false, taken := true } ∧ t.after = s.after ++ [(i, { subject := s.ev.subject })]) ∧
  (∀ (s : State) (p : Packet) (r : RdcLine), tfind? s.packets s.ev.subject = some p → p.taken = true → acceptable s p = true →
    tfind? (s.die p.dst).rdc p.line = some r → ∃ t, exec .recall s = .next t ∧ t.mem = s.mem ∧ t.threads = s.threads ∧
      tfind? (t.die p.dst).rdc p.line = none ∧
      Sent s t .ack p.dst p.src p.line (fun q => q.mrts = granted s p.dst p.line ∧ q.state = 2 ∧ q.hasData = true ∧ q.bytes = r.bytes ∧
        q.wts = r.wts ∧ q.poison = r.poison)) ∧
  (∀ (s : State) (p : Packet) (r : RdcLine), Arrives s .forward p → ¬ justGranted s p → tfind? (s.die p.dst).rdc p.line = some r →
    let dirty := r.state = .m ∨ r.state = .o
    ∃ t r', exec .forward s = .next t ∧ TakenOff s t p ∧ t.mem = s.mem ∧ tfind? (t.die p.dst).rdc p.line = some r' ∧
      (dirty → r' = { r with state := .o }) ∧ (¬ dirty → r' = { r with state := .s }) ∧
      Sent s t .data p.dst (p.op.getD 0 0) p.line (fun q => q.hasData = true ∧ q.bytes = r.bytes ∧ q.wts = r.wts ∧ q.poison = r.poison) ∧
      Sent s t .ack p.dst p.src p.line (fun q => q.mrts = r.mrts ∧ (dirty → q.state = 3) ∧ (¬ dirty → q.state = 4))) ∧
  (∀ (s : State) (p : Packet), Arrives s .grant p → ∃ t, exec .exclusiveGrant s = .next t ∧ t.mem = s.mem ∧ t.threads = s.threads ∧
    tget 0 (t.die p.dst).recvSeq p.src = p.seq + 1 ∧
    (∀ k, t.crew k = { s.crew k with channels := (t.crew k).channels, subs := (t.crew k).subs, commands := (t.crew k).commands }) ∧
    (∀ ck c q m rest, (ck, c) ∈ s.crews → tfind? s.crews ck = some c → c.die = p.dst → (q, m :: rest) ∈ c.channels → m.wait.line = some p.line →
      (Instr.copyCommand, ({ subject := ck, arg1 := q } : EventArgs)) ∈ t.agenda) ∧
    (let old := tfind? (s.die p.dst).rdc p.line
     (p.hasData = true ∨ old = none → tfind? (t.die p.dst).rdc p.line =
      some { state := .e, wts := p.wts, mrts := max p.mrts (granted s p.dst p.line), bytes := p.bytes, poison := p.poison, used := s.clock,
             grantedAt := some s.clock, alloc := (s.die p.dst).keeps.contains p.line }) ∧
     (∀ r, p.hasData = false → old = some r → tfind? (t.die p.dst).rdc p.line = some { r with
      state := if r.state = .s then .e else .m, wts := p.wts, mrts := max p.mrts (granted s p.dst p.line), used := s.clock,
      alloc := r.alloc || (s.die p.dst).keeps.contains p.line
      grantedAt := some s.clock })))

/-- R399 to R402: nine CRC failures in a row on a route take its link down; a lost packet is sent again once, over the other route; an owner whose write-back was lost
keeps its copy, and the line's home lists every die; a home that waits 1,500,000 cycles for a die has it fenced. The readings in it are the model's: logs 103, 104, 106. -/
def Sys2Proof.Claims.LinksAndResends : Prop :=
  (∀ s : State,
    let a := s.ev.subject
    let b := s.ev.arg1
    let k := s.ev.arg2 % 2
    let fails (t : State) : Nat := tget 0 (t.die a).crcFails (2 * b + k)
    a < 12 → b < 12 → a ≠ b → routeDown s a b k = false →
    (s.ev.flit = .clean → ∃ t, exec .flitReceive s = .next t ∧ t = { s with dies := t.dies } ∧ fails t = 0 ∧ (t.die a).corrected = (s.die a).corrected) ∧
    (s.ev.flit = .corrected → ∃ t, exec .flitReceive s = .next t ∧ t = { s with dies := t.dies } ∧ fails t = 0 ∧
      (t.die a).corrected = (s.die a).corrected + 1) ∧
    (s.ev.flit = .crcFail → fails s < 8 → ∃ t, exec .flitReceive s = .next t ∧ t = { s with dies := t.dies } ∧ fails t = fails s + 1 ∧
      routeDown t a b k = false) ∧
    (s.ev.flit = .crcFail → 8 ≤ fails s → ∃ t, exec .flitReceive s = .next t ∧ t.mem = s.mem ∧ t.threads = s.threads ∧ routeDown t a b k = true ∧
      routeDown t b a k = true ∧ ModuleLogs s t 0x51 1)) ∧
  (∀ (s : State) (p : Packet), tfind? s.packets s.ev.subject = some p → p.lost = true → p.sentAt + 30000 ≤ s.clock → p.tries = 0 →
    ∃ t q, exec .packetResendTimeout s = .next t ∧ t = { s with packets := t.packets } ∧ tfind? t.packets s.ev.subject = some q ∧
      q = { p with tries := 1, route := 1 - p.route, lost := false, sentAt := s.clock, arriveAt := q.arriveAt } ∧ s.clock < q.arriveAt ∧
      ∀ id, id ≠ s.ev.subject → tfind? t.packets id = tfind? s.packets id) ∧
  (∀ (s : State) (p : Packet), tfind? s.packets s.ev.subject = some p → p.lost = true → p.sentAt + 30000 ≤ s.clock → p.tries ≠ 0 →
    p.kind ∈ [PacketKind.inv, .recall, .forward, .ack, .peerInval, .peerAck] → ∃ t, exec .packetResendTimeout s = .next t ∧ t = { s with packets := t.packets, xd := t.xd } ∧
      tfind? t.packets s.ev.subject = none ∧ ModuleLogs s t 0x51 2) ∧
  (∀ (s : State) (p : Packet), tfind? s.packets s.ev.subject = some p → p.lost = true → p.sentAt + 30000 ≤ s.clock → p.tries ≠ 0 → p.kind = .wb →
    ∃ t r, exec .packetResendTimeout s = .next t ∧ t.mem = s.mem ∧ t.threads = s.threads ∧ tfind? (t.die p.src).rdc p.line = some r ∧
      r.bytes = p.bytes ∧ r.wts = p.wts ∧ r.mrts = p.mrts ∧ r.poison = p.poison ∧
      (Instr.directoryUpdateReport, ({ subject := p.line, arg1 := p.src } : EventArgs)) ∈ t.agenda ∧ ModuleLogs s t 0x51 2) ∧
  (∀ s : State,
    let line := s.ev.subject
    let home := dieOfKey (64 * line)
    ∃ t, exec .directoryUpdateReport s = .next t ∧ t = { s with directory := t.directory } ∧
      (∀ d, d ∈ (t.dir line).sharers ↔ d < 12 ∧ d ≠ home ∧ (s.die d).partition = (s.die home).partition ∧ (s.die d).fenced = false) ∧
      (t.dir line).state = (if (s.dir line).state = .i then .s else (s.dir line).state)) ∧
  (∀ (s : State) (d : Nat) (rest : List Nat), (s.dir s.ev.subject).busy ≠ none → (s.dir s.ev.subject).since + 1500000 ≤ s.clock →
    (s.dir s.ev.subject).awaiting = d :: rest → ∃ t, exec .homeAnswerTimeout s = .next t ∧
      t = { s with agenda := s.agenda ++ [(.dieFence, { subject := d })] })

/-- R331, R345, R351, R352, R403, R405, R406: a fenced die is heard no more, its lines are dropped everywhere, and its reset comes next. A reset of a die ends its crews, advances
its incarnation and leaves its memory zero, and no other die's; a partition that is formed resets its dies into it. Power-up in
standby leaves every die in its first incarnation and keeps host memory. The readings in it are the model's: logs 107, 108. -/
def Sys2Proof.Claims.DiesAreFencedAndReset : Prop :=
  (∀ s : State,
    let die := s.ev.subject
    die < 12 → (s.die die).fenced = false → ∃ t, exec .dieFence s = .next t ∧ (t.die die).fenced = true ∧
      (∀ id q, tfind? t.packets id = some q → q.src ≠ die ∧ q.dst ≠ die) ∧
      (∀ d l, d ≠ die → dieOfKey (64 * l) = die → tfind? (t.die d).rdc l = none) ∧
      (∃ rest, t.agenda = (.dieReset, { subject := die }) :: rest) ∧
      (s.directory = [] → t.mem = s.mem ∧ ModuleLogs s t 0x51 3)) ∧
  (∀ (i : Instr) (s : State) (die : Nat), resets i s die → die < 12 → tsorted s.crews = true → ∃ t, exec i s = .next t ∧
    (t.die die).incarnation = (if (s.die die).incarnation = 255 then 1 else (s.die die).incarnation + 1) ∧
    (t.die die).partition = (s.die die).partition ∧ (t.die die).resetAt = s.clock ∧ (t.die die).fenced = false ∧ (t.die die).asids = [] ∧
    (t.die die).retiredCores = (s.die die).retiredCores ∧ (t.die die).window = (s.die die).window ∧
    (∀ a, dieOfKey a = die → t.byte a = 0 ∧ t.tags.contains (a / 16) = false) ∧
    (s.directory = [] → ∀ a, dieOfKey a ≠ die → t.byte a = s.byte a) ∧
    (∀ k c, tfind? s.crews k = some c → c.die = die → (t.crew k).state = .ended)) ∧
  (∀ s : State,
    let p := s.ev.subject
    let share (e : Nat × Nat × Nat × Nat) : Nat := if e.1 = p then 0 else e.2.2.1
    p < 12 → (s.xd.partitions.map share).sum + s.ev.arg2 ≤ 32768 → ∃ t, exec .partitionForm s = .next t ∧
      tfind? t.xd.partitions p = some (s.ev.arg1 % 2 ^ 12, s.ev.arg2, s.xd.keys) ∧ t.xd.keys = s.xd.keys + 2 ∧
      (∀ d, d < 12 → fld s.ev.arg1 d 1 = 1 → (t.die d).partition = some p ∧
        (t.die d).incarnation = (if (s.die d).incarnation = 255 then 1 else (s.die d).incarnation + 1) ∧
        ∀ a, dieOfKey a = d → t.byte a = 0) ∧
      (∀ d, d < 12 → fld s.ev.arg1 d 1 = 0 → (s.die d).partition = some p → (t.die d).partition = none)) ∧
  (∀ s : State, s.xd.standby = true → ∃ t, exec .modulePowerUp s = .next t ∧ t.xd.standby = false ∧ t.xd.level = 0 ∧ t.crews = [] ∧ t.threads = [] ∧
    t.xd.images = s.xd.images ∧ t.hostPages = s.hostPages ∧ (∀ a, isHost a = false → t.byte a = 0) ∧
    ∀ d, d < 12 → (t.die d).incarnation = 1 ∧ (t.die d).resetAt = s.clock ∧ (t.die d).retiredCores = (s.die d).retiredCores) ∧
  (∀ s : State, s.xd.standby = false → exec .modulePowerUp s = .next s)

/-- R355, R407, R408: while what XD has been told asks for it the throttle level goes up by one at most once in 100 microseconds; when nothing has for 1 ms, with
power 10 % below the budget, it goes down by one; in an emergency it is 7 at once; an emergency of 10 ms ends in standby with every crew lost. A budget
is at most 4,800 W. The readings in it are the model's: log 119. -/
def Sys2Proof.Claims.PowerAndHeat : Prop :=
  (∀ s : State, Strained s.xd → s.xd.level < 7 → Since s s.xd.levelAt 100 → ∃ t, exec .throttleRaise s = .next t ∧
    t = { s with xd := t.xd } ∧ t.xd.level = s.xd.level + 1 ∧ t.xd.levelAt = some s.clock ∧ ModuleLogs s t 0x42 20) ∧
  (∀ s : State, ¬ Strained s.xd ∨ 7 ≤ s.xd.level ∨ (∃ t, s.xd.levelAt = some t ∧ s.clock < t + 100 * clockMHz s.xd.level) →
    exec .throttleRaise s = .next s) ∧
  (∀ (s : State) (c : Nat), s.xd.level ≠ 0 → s.xd.calmSince = some c → Since s s.xd.calmSince 1000 → Since s s.xd.loweredAt 1000 →
    ∃ t, exec .throttleLower s = .next t ∧ t = { s with xd := t.xd } ∧ t.xd.level = s.xd.level - 1 ∧ t.xd.loweredAt = some s.clock ∧
      t.xd.emergencyAt = s.xd.emergencyAt ∧ ModuleLogs s t 0x42 20) ∧
  (∀ s : State, s.xd.level = 0 ∨ s.xd.calmSince = none ∨ (∃ c, (s.xd.calmSince = some c ∨ s.xd.loweredAt = some c) ∧
    s.clock < c + 1000 * clockMHz s.xd.level) → exec .throttleLower s = .next s) ∧
  (∀ s : State, 115000 ≤ s.xd.junction ∨ 50000 < s.xd.inlet → s.xd.emergencyAt = none → ∃ t, exec .thermalEmergency s = .next t ∧
    t = { s with xd := t.xd } ∧ t.xd.level = 7 ∧ t.xd.emergencyAt = some s.clock ∧ (s.xd.level = 7 → ModuleLogs s t 0x42 21)) ∧
  (∀ s : State, (s.xd.junction < 115000 ∧ s.xd.inlet ≤ 50000) ∨ s.xd.emergencyAt ≠ none → exec .thermalEmergency s = .next s) ∧
  (∀ (s : State) (e : Nat), s.xd.standby = false → s.xd.emergencyAt = some e → e + 10000 * clockMHz 7 ≤ s.clock → tsorted s.crews = true →
    ∃ t, exec .emergencyStandby s = .next t ∧ t.mem = s.mem ∧ t.xd = { s.xd with standby := true } ∧
      (∀ k, thas s.crews k = true → (t.crew k).state = .ended) ∧ ∀ k, thas s.launches k = true → (t.launch k).killed = true) ∧
  (∀ s : State, 4800000 < s.ev.subject → exec .powerBudget s = .next s) ∧
  (∀ s : State, s.ev.subject ≤ 4800000 → ∃ t, exec .powerBudget s = .next t ∧ t = { s with xd := t.xd } ∧
    t.xd = { s.xd with budget := s.ev.subject, calmSince := t.xd.calmSince, emergencyAt := t.xd.emergencyAt } ∧
    (t.xd.calmSince = none ↔ Strained t.xd ∨ 9 * t.xd.budget < 10 * t.xd.power) ∧
    (t.xd.emergencyAt = s.xd.emergencyAt ∨ t.xd.emergencyAt = none))

/-- R394 to R396, R409, R410: a core without a crew is retired and recorded, one with a crew takes no further crew; a heat that retires has its crews
taken off. An uncorrectable error poisons what it strikes, ends the wave whose registers it strikes, and is counted where it was
corrected; a patrol scrub changes nothing. The readings in it are the model's: logs 115 to 118. -/
def Sys2Proof.Claims.RetirementAndErrors : Prop :=
  (∀ s : State,
    let die := s.ev.subject
    let k := s.ev.arg1
    die < 12 → k < coresOf die → k ∉ (s.die die).retiredCores → tsorted s.crews = true →
    ((∀ e ∈ s.crews, e.2.die = die → e.2.onCore = true → e.2.core ≠ k) → ∃ t, exec .coreRetire s = .next t ∧ t.mem = s.mem ∧
      t.crews = s.crews ∧ t.threads = s.threads ∧ k ∈ (t.die die).retiredCores ∧ t.xd.retired = s.xd.retired + 1 ∧ t.xd.replace = true ∧
      ModuleLogs s t 0x50 9) ∧
    ((∃ e ∈ s.crews, e.2.die = die ∧ e.2.onCore = true ∧ e.2.core = k) → heatOf k ∉ (s.die die).retiredHeats → ∃ t, exec .coreRetire s = .next t ∧
      t = { s with dies := t.dies } ∧ k ∈ (t.die die).retiring ∧ k ∉ freeCores t die)) ∧
  (∀ s : State,
    let die := s.ev.subject
    let h := s.ev.arg1
    die < 12 → 8 * h < coresOf die → h ∉ (s.die die).retiredHeats → ∃ t, exec .heatRetire s = .next t ∧ t.mem = s.mem ∧ t.threads = s.threads ∧
      h ∈ (t.die die).retiredHeats ∧ t.xd.replace = true ∧ ModuleLogs s t 0x50 10 ∧
      ∀ k c, tfind? s.crews k = some c → t.crew k =
        if c.die = die ∧ (c.state = .running ∨ c.state = .held) ∧ heatOf c.core = h then { c with stopFor := some (c.stopFor.getD 2) } else c) ∧
  (∀ s : State,
    (∀ line, s.ev.site = .dataLine line → s.has (64 * line) = true → isHost (64 * line) = false → ∃ t, exec .uncorrectableError s = .next t ∧
      t = { s with poison := t.poison, dies := t.dies } ∧ ∀ l, l ∈ t.poison ↔ l = line ∨ l ∈ s.poison) ∧
    (∀ line, s.ev.site = .cleanCopy line → ∃ t, exec .uncorrectableError s = .next t ∧ t.mem = s.mem ∧ t.threads = s.threads ∧
      t.crews = s.crews ∧ t.poison = s.poison) ∧
    (∀ wk, s.ev.site = .registers wk → strikable' s wk = true → ∃ t, exec .uncorrectableError s = .next t ∧ t.mem = s.mem ∧
      ((t.wave wk).ended = true ∨ thas t.waves wk = false) ∧ ∀ k, waveOf k = wk → thas t.threads k = false) ∧
    (∀ ck a, s.ev.site = .scratchWord ck a → (s.crew ck).state ≠ .ended → ∃ t, exec .uncorrectableError s = .next t ∧
      t = { s with crews := t.crews } ∧ (∀ k, k ≠ ck → t.crew k = s.crew k) ∧ t.crew ck = { s.crew ck with scratchPoison := (t.crew ck).scratchPoison } ∧
      ∀ w, w ∈ (t.crew ck).scratchPoison ↔ w = a % 2 ^ 19 / 8 ∨ w ∈ (s.crew ck).scratchPoison) ∧
    (∀ ck k, s.ev.site = .tile ck k → (s.crew ck).state ≠ .ended → (s.crew ck).commands = [] → k < 8 → ∃ t, exec .uncorrectableError s = .next t ∧
      t = { s with crews := t.crews } ∧ (tget {} (t.crew ck).tileStatus k).pois = true) ∧
    (∀ d, s.ev.site = .corrected d → ∃ t, exec .uncorrectableError s = .next t ∧ t = { s with dies := t.dies } ∧
      t.die d = { s.die d with corrected := (s.die d).corrected + 1 })) ∧
  (∀ s : State, exec .patrolScrub s = .next s)

/-- R353, R354: an image runs only when its signature verifies. Function 0 answers SPDM 1.2 and 1.3, selects EdDSA over Ed448 and SHA3-512 where they are
offered, and answers with the digest and the bytes of its certificate chain, its measurements, and a signature over the exchange. The codes and
the places of the algorithm bits are the model's (log 40). -/
def Sys2Proof.Claims.FirmwareAndAttestation : Prop :=
  (∀ s : State, ∃ t, exec .firmwareImageVerify s = .next t ∧ t = { s with xd := t.xd } ∧
    t.xd = { s.xd with images := if Config.signatureValid s.ev.arg1 s.ev.arg2 then tput s.xd.images s.ev.subject s.ev.arg1 else s.xd.images }) ∧
  (∀ s : State, ∃ t, exec .getVersion s = .next t ∧ SpdmAnswers s t [0x12, 0x13] ∧ t.xd.spdmReady = false) ∧
  (∀ s : State, ∃ t a, exec .getCapabilities s = .next t ∧ SpdmAnswers s t a ∧
    ((s.ev.subject = 0x12 ∨ s.ev.subject = 0x13) → a.length = 1 ∧ t.xd.spdmVersion = s.ev.subject) ∧
    (¬ (s.ev.subject = 0x12 ∨ s.ev.subject = 0x13) → a = [] ∧ t.xd.spdmVersion = s.xd.spdmVersion)) ∧
  (∀ s : State, ∃ t, exec .negotiateAlgorithms s = .next t ∧ SpdmAnswers s t [fld s.ev.subject 11 1 * 2 ^ 11, fld s.ev.arg1 5 1 * 2 ^ 5] ∧
    (t.xd.spdmReady = true ↔ fld s.ev.subject 11 1 = 1 ∧ fld s.ev.arg1 5 1 = 1)) ∧
  (∀ s : State, ∃ t, exec .getDigests s = .next t ∧ SpdmAnswers s t [(Config.digest certificateNumber).toNat]) ∧
  (∀ s : State, ∃ t a, exec .getCertificate s = .next t ∧ SpdmAnswers s t a ∧
    a.length = min s.ev.arg1 (Config.certificateLength - s.ev.subject) ∧
    ∀ k, k < a.length → a.getD k 0 = (Config.certificateByte (s.ev.subject + k)).toNat) ∧
  (∀ s : State, ∃ t a, exec .getMeasurements s = .next t ∧ SpdmAnswers s t a ∧
    (let block (k : Nat) : Nat := (Config.digest (measured s k s.ev.arg1)).toNat
     (s.ev.subject = 0 → a = [5]) ∧ (s.ev.subject = 255 → a = [block 1, block 2, block 3, block 4, block 5]) ∧
     (1 ≤ s.ev.subject ∧ s.ev.subject ≤ 5 → a = [block s.ev.subject]))) ∧
  (∀ s : State, ∃ t n, exec .challenge s = .next t ∧ SpdmAnswers s t [(Config.digest certificateNumber).toNat, Config.sign n] ∧ t.xd.transcript = n)

/-- R350, R332: a network PUT writes its bytes into the exported object of the remote die before 1 is added to the local completion word; a GET brings the
bytes of an exported object; both clear tags. The request leaves its ring when it starts, and one that names no connection ends without effect. The
readings in it are the model's: logs 121, 130, 135. -/
def Sys2Proof.Claims.NetworkTransfers : Prop :=
  (∀ (i : Instr) (s x u v z : State) (put : Bool) (q : NetRequest) (d m obj asid p p1 p2 : Nat) (bs : List Byte),
    let die := s.ev.subject
    let work : NetWork := { put := put, request := q, pts := p }
    let begun := x.modDie die (fun d => { d with netWork := d.netWork ++ [work] })
    i = .networkPut ∨ i = .networkGet → die < 12 → requestStarts i s x put q p → (∀ w ∈ (x.die die).netWork, w.request.conn ≠ q.conn) →
    q.coff % 8 = 0 → q.len ≤ 2 ^ 32 → tfind? x.xd.connections q.conn = some (0, d, m) →
    exportedObject x d m q.rexp.toNat (if put = true then 61 else 62) = some (asid, obj) →
    (if put = true then transportRead begun die q.asid q.lobj q.loff q.len p = .ok (u, bs, p1) ∧ transportWrite u d asid obj q.roff bs p1 = .ok (v, p2)
     else transportRead begun d asid obj q.roff q.len p = .ok (u, bs, p1) ∧ transportWrite u die q.asid q.lobj q.loff bs p1 = .ok (v, p2)) →
    countCompletion v die q p2 = .ok z → ∃ t, exec i s = .next t ∧
      t = z.modDie die (fun y => { y with netWork := y.netWork.eraseIdx (y.netWork.findIdx (· == work)) })) ∧
  (∀ (s u : State) (die asid obj off p ts : Nat) (bs : List Byte) (l : Loc), transportWrite s die asid obj off bs p = .ok (u, ts) → bs.length ≤ 64 →
    off % 64 = 0 → bs ≠ [] → objReach die asid obj s (off : Nat) bs.length { rights := rightW, write := true } = .ok l → l.leaf = none →
    isHost l.key = true ∨ dieOfKey l.key = die →
    (∀ j, j < bs.length → u.byte (l.key + j) = bs.getD j 0) ∧ MemoryKept s u none l.key bs.length ∧ u.threads = s.threads ∧
      (isHost l.key = false → ∀ g, 16 * g < l.key + bs.length → l.key < 16 * g + 16 → g ∉ u.tags)) ∧
  (∀ (i : Instr) (s x : State) (put : Bool) (q : NetRequest) (p : Nat), i = .networkPut ∨ i = .networkGet → s.ev.subject < 12 →
    requestStarts i s x put q p → (∀ w ∈ (x.die s.ev.subject).netWork, w.request.conn ≠ q.conn) → tfind? x.xd.connections q.conn = none →
    ∃ t, exec i s = .next t ∧ t = { x with dies := t.dies } ∧ ∀ d, t.die d = x.die d)

/-- R362, R363, R395: a word that no instruction has traps ILLEGAL with its sub-cause, and a fetch that fails its checks traps with the address of the
fetch in FADDR; nothing else of the instruction happens. The readings in it are the model's: log 13. -/
def Sys2Proof.Claims.FetchTraps : Prop :=
  (∀ s : State, thas s.threads s.cur = true → canTrap s s.cur → ∃ t, exec .reservedEncoding s = .next t ∧
    TrapTaken s t s.cur 0x01 s.ev.subject 0 0 s.curT.pc ∧ ∀ a, t.byte a = s.byte a) ∧
  (∀ s : State, thas s.threads s.cur = true → canTrap s s.cur → ∃ t, exec .instructionFetchFault s = .next t ∧
    TrapTaken s t s.cur s.ev.subject s.ev.arg1 (faddrOf 0 0 (fetchOffset s)) 0 s.curT.pc ∧ ∀ a, t.byte a = s.byte a) ∧
  (∀ (i : Instr) (s : State), i = .reservedEncoding ∨ i = .instructionFetchFault → thas s.threads s.cur = false → exec i s = .fault .noAgent)

/-- R95, R22, R362: when the module has nothing else to do and the scheduler chooses a fragment, a step executes the instruction whose bytes
stand at its `pc`, with its fields and its length; bytes that are no instruction raise the trap for reserved encodings. A fused sequence
(R139) is executed as one, and an iteration of a REP (R116) with its stepped fields, unless it waits for what an earlier one wrote (R40); a REP issues together with
its first iteration (R38). The readings in it are the model's: logs 1, 41, 44. -/
def Obligations.StepRunsDecoded : Prop :=
  ∀ (s : State) (k : Nat) (bs : List Byte), s.inputs = [] → s.agenda = [] → nextPoll (begun s) = none → nextIssue (begun s) = some k →
    (let u := { begun s with issued := issuerOf k :: s.issued, cur := k }
     fetch u u.curC (fetchOffset u) = .ok bs) →
    (∀ i x rest, decode bs = .ok ((i, x), rest) →
      let alone : Prop := (s.thread k).rep = none ∧ fusedAt (running s k s.ir s.len) k (i, x, bs.length) = none
      (alone → i ≠ .rep → i ≠ .repLit → step s = exec i (running s k x bs.length)) ∧
      (alone → i = .rep ∨ i = .repLit → ∀ u, exec i (running s k x bs.length) = .next u →
        ((u.thread k).rep = none → step s = .next u) ∧
        (∀ r cs j y more, (u.thread k).rep = some r → fetch u u.curC (fetchOffset u) = .ok cs → decode cs = .ok ((j, y), more) →
          waitsForOwn u (regUses j (steppedFields j y r.i r.ds r.ss)) = false →
          step s = exec j { u with ir := steppedFields j y r.i r.ds r.ss, len := r.prefixLen + cs.length })) ∧
      (∀ r, (s.thread k).rep = some r →
        let f := steppedFields i x r.i r.ds r.ss
        (waitsForOwn (running s k s.ir s.len) (regUses i f) = false → step s = exec i (running s k f (r.prefixLen + bs.length))) ∧
        (waitsForOwn (running s k s.ir s.len) (regUses i f) = true → step s = .next (stallIssue (running s k s.ir s.len)))) ∧
      (∀ ds, (s.thread k).rep = none → fusedAt (running s k s.ir s.len) k (i, x, bs.length) = some ds →
        step s = runFused (running s k s.ir s.len) ds)) ∧
    (∀ e, decode bs = .error e → step s = exec .reservedEncoding { running s k s.ir s.len with ev := { subject := decodeErrorDetail e } })

/-- R22 to R28: words written out from the encoding tables decode to the instructions that they stand for, with their operands. -/
def Obligations.DecodeWords : Prop :=
  readWord (storedWords [0x14108440]) = some (.sst, { b := 5, a := 1, d := 2 }) ∧
  readWord (storedWords [0x00314201, 3, 0]) = some (.sshlLit, { a := 3, d := 5, lit := some 3 }) ∧
  (readWord (storedWords [0x02300E22, 0x205003C1, 0])).map (·.1) = some .ldlod ∧
  (readWord (storedWords [0x05100E02, 0x00500048, 0])).map (·.1) = some .trace ∧
  (readWord (storedWords [0x03380E42, 0x004803C8, 1])).map (·.1) = some .henc ∧
  (readWord (storedWords [0x00003D42, 0, 1])).map (·.1) = some .waitc ∧
  (readWord (storedWords [0x00107D42, 0, 0x00020003])).map (·.1) = some .sema ∧
  (readWord (storedWords [0x00002D82, 0x80000000, 0x00018820])).map (·.1) = some .gang

/-- R331, R352, R176: at power-up every byte of memory reads 0 in its canonical form, with no tag and no poison, no crew, fragment or access
exists, and every die is at incarnation 1. That a line's timestamps are 0 and that nothing lies in a cache are the model's own (logs 2, 10). -/
def Obligations.ResetState : Prop :=
  Memory.wf State.reset.mem = true ∧ (∀ a, State.reset.byte a = 0) ∧ State.reset.tags = [] ∧ State.reset.poison = [] ∧
  State.reset.crews = [] ∧ State.reset.waves = [] ∧ State.reset.threads = [] ∧ State.reset.accesses = [] ∧ State.reset.packets = [] ∧
  (∀ d, (State.reset.die d).incarnation = 1 ∧ (State.reset.die d).asids = [] ∧ (State.reset.die d).schedule = none ∧
    (State.reset.die d).fenced = false ∧ (State.reset.die d).copies = [] ∧ (State.reset.die d).rdc = []) ∧
  State.reset.clock = 0 ∧ State.reset.xd.level = 0

/-- R22 to R29: decoding the encoding of a well-formed instruction gives it back with all its operands and the bytes behind it; and bytes
that decode are the encoding of the well-formed instruction that they decode to. The readings in it are the model's: logs 16, 17. -/
def Obligations.DecodeEncode : Prop :=
  (∀ (i : Instr) (x : Fields) (rest : List Byte), wellFormed i x = true → decode (encodeBytes i x ++ rest) = .ok ((i, x), rest)) ∧
  (∀ (i : Instr) (x : Fields) (bs rest : List Byte), decode bs = .ok ((i, x), rest) →
    wellFormed i x = true ∧ bs = encodeBytes i x ++ rest)

/-- R3, R145: every step keeps memory in its canonical form: keys rise strictly and no byte that reads 0 anyway is listed. The form is the
model's own (log 2). -/
def Obligations.MemoryFormKept : Prop :=
  ∀ s t : State, Memory.wf s.mem = true → Sys2Proof.Machine.step s = .next t → Memory.wf t.mem = true

/-- R122: the position is IMM[5:0] and the width min(IMM[14:8], w - pos), the same for every element, and B and C are reserved. VBFX gives each
selected element the field of A, sign-extended for an I type and else zero-extended; VBFI puts A's low bits into the field and keeps the
other bits. -/
def Obligations.BitFields : Prop :=
  (∀ (bs rest : List Byte) (i : Instr) (x : Fields), i = .vbfx ∨ i = .vbfi → decode bs = .ok ((i, x), rest) → x.b = 0 ∧ x.c = 0) ∧
  (∀ (i : Instr) (s : State), i = .vbfx ∨ i = .vbfi → admits s i = true → s.ir.t.toNat < 8 →
    let w := widthOf s.ir.t.toNat
    let pos := s.ir.imm.toNat % 64
    let wf := min (s.ir.imm.toNat / 256 % 128) (w - pos)
    ∃ t, exec i s = .next t ∧ Frame { v := [s.ir.d.toNat] } s t ∧ Completes s t ∧
      ∀ L k j, L < 32 → k < 64 / w → j < w →
        (elem w k (t.curW.vreg s.ir.d.toNat L)).testBit j =
          if selected s L k then
            if i = .vbfx then
              decide (wf ≠ 0) && (if j < wf then (elemA s L k).testBit (pos + j)
                else decide (s.ir.t.toNat < 4) && (elemA s L k).testBit (pos + wf - 1))
            else if pos ≤ j ∧ j < pos + wf then (elemA s L k).testBit (j - pos)
            else (elem w k (readV s w s.ir.d.toNat L)).testBit j
          else (elem w k (s.curW.vreg s.ir.d.toNat L)).testBit j)

/-- R138: VRNG gives each selected 32-bit element the word that R138 computes from its counter and its lane's key, or for F32 the number
(x >> 8) / 2^24; only N32 and F32, without RM, SAT and N, are accepted; it keeps no state. -/
def Obligations.RandomNumbers : Prop :=
  (∀ (bs rest : List Byte) (x : Fields), decode bs = .ok ((.vrng, x), rest) →
    (x.t.toNat = 6 ∨ x.t.toNat = 10) ∧ x.rm = 0 ∧ x.sat = false ∧ x.na = false ∧ x.nb = false) ∧
  (∀ s : State, admits s .vrng = true → s.ir.t.toNat = 6 ∨ s.ir.t.toNat = 10 →
    ∃ t, exec .vrng s = .next t ∧ Frame { v := [s.ir.d.toNat] } s t ∧ Completes s t ∧
      ∀ L k, L < 32 → k < 2 →
        let new := elem 32 k (t.curW.vreg s.ir.d.toNat L)
        let x := (randomWord (BitVec.ofNat 32 (elem 32 k (Machine.vecA s 32 L))) (Machine.vecB s 64 L)).toNat
        if selected s L k then
          if s.ir.t.toNat = 6 then new = x
          else new < 2 ^ 31 ∧ finite (decodeF 10 new) = true ∧ rat (decodeF 10 new) = ((x / 2 ^ 8 : Nat) : ℚ) / 2 ^ 24
        else new = elem 32 k (s.curW.vreg s.ir.d.toNat L)) ∧
  (∀ (i : BitVec 32) (key : Word), i = 0 ∧ key = 0x100000000 → randomWord i key = 0x91E19C46)

/-- R67: the sign of an exact zero sum, of a sum of two zeros of one sign, and of every product; rounded into a float type a zero keeps its
sign. -/
def Obligations.SignsOfZero : Prop :=
  ∀ (na nb : Bool) (ma mb rm : Nat) (ea eb : Int), rm < 4 →
    let x : FVal := .fin na ma ea
    let y : FVal := .fin nb mb eb
    (na ≠ nb → rat x + rat y = 0 → zeroWith (rm == 2) (addF rm x y)) ∧
    (na = nb → ma = 0 → mb = 0 → zeroWith na (addF rm x y)) ∧
    (∃ m e, mulF x y = .fin (na != nb) m e) ∧
    (∀ t sat neg e, 8 ≤ t → t ≤ 13 → roundF t rm sat (.fin neg 0 e) = if neg then 2 ^ (widthOf t - 1) else 0)

/-- R197: EVPH advances the die's eviction phase by one, wrapping after the last, or with SET = 1 sets it to IMM[2:0] mod (NPH + 1). Each of
two EVPHs one after the other takes effect. Without a schedule it does nothing, and it neither waits for an access nor orders one. -/
def Obligations.EvictionPhases : Prop :=
  ∀ s : State, admits s .evph = true → ∃ t, exec .evph s = .next t ∧ Quiet {} s t ∧ t.crews = s.crews ∧ t.curW.pts = s.curW.pts ∧
    (∀ d, d ≠ s.curDie → t.die d = s.die d) ∧
    ((s.die s.curDie).schedule = none → t.die s.curDie = s.die s.curDie) ∧
    (∀ e, (s.die s.curDie).schedule = some e →
      t.die s.curDie = { s.die s.curDie with schedule := (t.die s.curDie).schedule } ∧
      ∃ e', (t.die s.curDie).schedule = some e' ∧ e' = { e with phase := e'.phase } ∧
        (s.ir.imm.getLsbD 3 = true → e'.phase = s.ir.imm.toNat % 8 % (e.nph + 1)) ∧
        (s.ir.imm.getLsbD 3 = false → e.phase < e.nph → e'.phase = e.phase + 1) ∧
        (s.ir.imm.getLsbD 3 = false → e.phase = e.nph → e'.phase = 0))

/-! ### The statements that say several of these at once -/

/-- Divisions and remainders, and the trap of a zero divisor: ScalarDivision, DivisionByZeroTraps, each said above. -/
def Obligations.Divisions : Prop :=
  Claims.ScalarDivision ∧ Claims.DivisionByZeroTraps

/-- Predicate operations and counts in the fragment's lanes; capability operations: fields, tags, containment of windows:
PredicateLogic, PredicateCounts, CapabilityOperations, each said above. -/
def Obligations.PredicatesAndCapabilities : Prop :=
  Claims.PredicateLogic ∧ Claims.PredicateCounts ∧ Claims.CapabilityOperations

/-- Misaligned accesses, accesses without a right and accesses without a tag trap and touch nothing: MisalignedAccessTraps,
RightlessAccessTraps, UntaggedAccessTraps, each said above. -/
def Obligations.AccessTraps : Prop :=
  Claims.MisalignedAccessTraps ∧ Claims.RightlessAccessTraps ∧ Claims.UntaggedAccessTraps

/-- TRAP, BKPT, the traps of a fetch, and SRET: TrapInstructions, ReturnFromTrap, FetchTraps, each said above. -/
def Obligations.TrapsAndReturns : Prop :=
  Claims.TrapInstructions ∧ Claims.ReturnFromTrap ∧ Claims.FetchTraps

/-- Branches, calls, returns and loops: Branches, CallsAndLoops, each said above. -/
def Obligations.ControlTransfers : Prop :=
  Claims.Branches ∧ Claims.CallsAndLoops

/-- SPLIT divides a fragment and JOIN parks and merges fragments: SplitDivides, JoinMerges, each said above. -/
def Obligations.Divergence : Prop :=
  Claims.SplitDivides ∧ Claims.JoinMerges

/-- The prefixes REP and GRP: RepeatPrefix, GroupCommits, each said above. -/
def Obligations.Prefixes : Prop :=
  Claims.RepeatPrefix ∧ Claims.GroupCommits

/-- Completion of accesses, delivery of asynchronous traps, and kills: AccessesComplete, AsyncEventsAndKills, each said above. -/
def Obligations.AccessesAndKills : Prop :=
  Claims.AccessesComplete ∧ Claims.AsyncEventsAndKills

/-- Floating vector operations rounded once; the values of the special functions: VectorFloats, SpecialValues, each said above. -/
def Obligations.VectorFloats : Prop :=
  Claims.VectorFloats ∧ Claims.SpecialValues

/-- Vector comparisons into predicates, and conversions between formats: VectorCompares, VectorConversions, each said above. -/
def Obligations.VectorComparesAndConversions : Prop :=
  Claims.VectorCompares ∧ Claims.VectorConversions

/-- Permutations, reductions, scans and moves of single elements: CrossLaneElements, ElementMoves, each said above. -/
def Obligations.CrossLane : Prop :=
  Claims.CrossLaneElements ∧ Claims.ElementMoves

/-- The checks of an access, in order, and the walk of the extent tree: AccessChecks, ExtentWalk, each said above. -/
def Obligations.Translation : Prop :=
  Claims.AccessChecks ∧ Claims.ExtentWalk

/-- Where the elements of a vector access lie; empty accesses and prefetches: LaneAddresses, EmptyAccessesAndPrefetch, each said above.
-/
def Obligations.LanesOfAccesses : Prop :=
  Claims.LaneAddresses ∧ Claims.EmptyAccessesAndPrefetch

/-- The crew barrier and barrier objects: CrewBarrier, BarrierObjects, each said above. -/
def Obligations.Barriers : Prop :=
  Claims.CrewBarrier ∧ Claims.BarrierObjects

/-- WAITC, the fences, and publishing a versioned object: WaitsAndFences, Publishing, each said above. -/
def Obligations.WaitsAndPublishing : Prop :=
  Claims.WaitsAndFences ∧ Claims.Publishing

/-- The monitor and the semaphores: Monitor, Semaphores, each said above. -/
def Obligations.MonitorAndSemaphores : Prop :=
  Claims.Monitor ∧ Claims.Semaphores

/-- Sequencers, patterns and templates, and copies: SequencersDealAndMeld, PatternsAndTemplates, CopiesAreQueued, EngineAccesses,
CopyStep, each said above. -/
def Obligations.SequencersAndCopies : Prop :=
  Claims.SequencersDealAndMeld ∧ Claims.PatternsAndTemplates ∧ Claims.CopiesAreQueued ∧ Claims.EngineAccesses ∧ Claims.CopyStep

/-- Subscriptions to copies, and collectives between dies: Subscriptions, Collectives, each said above. -/
def Obligations.SubscriptionsAndCollectives : Prop :=
  Claims.Subscriptions ∧ Claims.Collectives

/-- Matrix commands: issue, order and stores: MatrixIssue, MatrixStores, each said above. -/
def Obligations.MatrixCommands : Prop :=
  Claims.MatrixIssue ∧ Claims.MatrixStores

/-- Reservations, task graphs and gangs: ReservationsAndGraphs, Gangs, each said above. -/
def Obligations.ReservationsAndGangs : Prop :=
  Claims.ReservationsAndGraphs ∧ Claims.Gangs

/-- Matrix products and the other work of the matrix engine: PairedProducts, MatrixWork, MatrixMoves, each said above. -/
def Obligations.MatrixProducts : Prop :=
  Claims.PairedProducts ∧ Claims.MatrixWork ∧ Claims.MatrixMoves

/-- Stage queues and device launches: QueueInstructions, Launches, each said above. -/
def Obligations.QueuesAndLaunches : Prop :=
  Claims.QueueInstructions ∧ Claims.Launches

/-- Ray queries, box queries and refits: RayQueries, BoxQueries, Refits, each said above. -/
def Obligations.RaysAndBoxes : Prop :=
  Claims.RayQueries ∧ Claims.BoxQueries ∧ Claims.Refits

/-- Level-of-detail loads: levels, samples, misses and feedback: LevelsOfDetail, Sampling, MissesAndFeedback, each said above. -/
def Obligations.LevelOfDetailLoads : Prop :=
  Claims.LevelsOfDetail ∧ Claims.Sampling ∧ Claims.MissesAndFeedback

/-- Hash encodings, their gradients, and embedding gathers: HashEncodings, EncodedFeatures, GradientSums, EmbeddingPools, each said
above. -/
def Obligations.HashAndEmbedding : Prop :=
  Claims.HashEncodings ∧ Claims.EncodedFeatures ∧ Claims.GradientSums ∧ Claims.EmbeddingPools

/-- Crews: placement, leaving, refills and moves between stages: CrewPlacement, CrewsLeaveTheirCores, RefillsAndAdvances,
CrewsMoveBetweenStages, each said above. -/
def Obligations.CrewLife : Prop :=
  Claims.CrewPlacement ∧ Claims.CrewsLeaveTheirCores ∧ Claims.RefillsAndAdvances ∧ Claims.CrewsMoveBetweenStages

/-- The front end starts packets and grids: PacketsStart, GridPackets, each said above. -/
def Obligations.PacketsAndGrids : Prop :=
  Claims.PacketsStart ∧ Claims.GridPackets

/-- Signal packets and the completion of launches: Signals, LaunchesComplete, each said above. -/
def Obligations.SignalsAndCompletion : Prop :=
  Claims.Signals ∧ Claims.LaunchesComplete

/-- Page requests and the host's registers: PageRequests, HostRegisters, each said above. -/
def Obligations.HostSide : Prop :=
  Claims.PageRequests ∧ Claims.HostRegisters

/-- The home directory's requests and answers: HomeRequests, HomeAnswers, each said above. -/
def Obligations.HomeTraffic : Prop :=
  Claims.HomeRequests ∧ Claims.HomeAnswers

/-- Messages to remote-data caches, and the links: CacheMessages, LinksAndResends, each said above. -/
def Obligations.CachesAndLinks : Prop :=
  Claims.CacheMessages ∧ Claims.LinksAndResends

/-- Fencing, reset, power, heat and retirement: DiesAreFencedAndReset, PowerAndHeat, RetirementAndErrors, each said above. -/
def Obligations.FailureAndPower : Prop :=
  Claims.DiesAreFencedAndReset ∧ Claims.PowerAndHeat ∧ Claims.RetirementAndErrors

/-- Firmware, attestation and the network: FirmwareAndAttestation, NetworkTransfers, each said above. -/
def Obligations.FirmwareAndNetwork : Prop :=
  Claims.FirmwareAndAttestation ∧ Claims.NetworkTransfers
end

