-- ==== Sys2Proof/Laws/Table.lean ====
section
/-! SUPPORT. The laws of tables: what a read answers after a write, and that writes keep keys rising and sparse tables canonical. -/

namespace Sys2Proof.Machine

variable {α : Type}

@[simp] theorem tget_nil (d : α) (k : Nat) : tget d [] k = d := rfl
@[simp] theorem thas_nil (k : Nat) : thas ([] : Table α) k = false := rfl
@[simp] theorem tfind_nil (k : Nat) : tfind? ([] : Table α) k = none := rfl
@[simp] theorem terase_nil (k : Nat) : terase ([] : Table α) k = [] := rfl

theorem tget_terase_same (d : α) (t : Table α) (k : Nat) : tget d (terase t k) k = d := by
  induction t with
  | nil => rfl
  | cons e t ih =>
    obtain ⟨j, a⟩ := e
    by_cases h : j = k
    · simp [terase, h, ih]
    · simp [terase, h, tget, ih]

theorem tget_terase_other (d : α) (t : Table α) {k j : Nat} (h : j ≠ k) : tget d (terase t k) j = tget d t j := by
  induction t with
  | nil => rfl
  | cons e t ih =>
    obtain ⟨i, a⟩ := e
    by_cases h1 : i = k
    · subst h1; simp [terase, tget, ih, Ne.symm h]
    · by_cases h2 : i = j
      · subst h2; simp [terase, h, tget]
      · simp [terase, h1, tget, h2, ih]

theorem tget_tinsert_same (d : α) (t : Table α) (k : Nat) (a : α) (h : thas t k = false) : tget d (tinsert k a t) k = a := by
  induction t with
  | nil => simp [tinsert, tget]
  | cons e t ih =>
    obtain ⟨j, b⟩ := e
    simp only [thas, Bool.or_eq_false_iff, beq_eq_false_iff_ne] at h
    unfold tinsert
    split
    · simp [tget]
    · simp [tget, h.1, ih h.2]

theorem tget_tinsert_other (d : α) (t : Table α) {k j : Nat} (a : α) (h : j ≠ k) : tget d (tinsert k a t) j = tget d t j := by
  induction t with
  | nil => simp [tinsert, tget, Ne.symm h]
  | cons e t ih =>
    obtain ⟨i, b⟩ := e
    unfold tinsert
    split
    · simp [tget, Ne.symm h]
    · simp [tget, ih]

theorem thas_terase (t : Table α) (k : Nat) : thas (terase t k) k = false := by
  induction t with
  | nil => rfl
  | cons e t ih =>
    obtain ⟨j, a⟩ := e
    by_cases h : j = k
    · simp [terase, h, ih]
    · simp [terase, h, thas, ih]

theorem thas_terase_other (t : Table α) {k j : Nat} (h : j ≠ k) : thas (terase t k) j = thas t j := by
  induction t with
  | nil => rfl
  | cons e t ih =>
    obtain ⟨i, a⟩ := e
    by_cases h1 : i = k
    · subst h1; simp [terase, thas, ih, Ne.symm h]
    · simp [terase, h1, thas, ih]

theorem thas_tinsert (t : Table α) (k j : Nat) (a : α) : thas (tinsert k a t) j = (k == j || thas t j) := by
  induction t with
  | nil => simp [tinsert, thas]
  | cons e t ih =>
    obtain ⟨i, b⟩ := e
    unfold tinsert
    split
    · simp [thas]
    · simp only [thas, ih]
      cases (i == j) <;> cases (k == j) <;> simp

/-- A read of the key written answers the value written. -/
@[simp] theorem tget_tput_same (d : α) (t : Table α) (k : Nat) (a : α) : tget d (tput t k a) k = a :=
  tget_tinsert_same d _ k a (thas_terase t k)

/-- A read of another key answers as before. -/
theorem tget_tput_other (d : α) (t : Table α) {k j : Nat} (a : α) (h : j ≠ k) : tget d (tput t k a) j = tget d t j := by
  rw [tput, tget_tinsert_other _ _ _ h, tget_terase_other _ _ h]

@[simp] theorem tget_tput (d : α) (t : Table α) (k j : Nat) (a : α) : tget d (tput t k a) j = if j = k then a else tget d t j := by
  split
  · subst j; simp
  · next h => exact tget_tput_other d t a h

@[simp] theorem thas_tput (t : Table α) (k j : Nat) (a : α) : thas (tput t k a) j = (k == j || thas t j) := by
  rw [tput, thas_tinsert]
  by_cases h : j = k
  · subst h; simp
  · rw [thas_terase_other _ h]

/-- A read of a sparse table after a write. -/
@[simp] theorem tget_sput [DecidableEq α] (d : α) (t : Table α) (k j : Nat) (a : α) :
    tget d (sput d t k a) j = if j = k then a else tget d t j := by
  unfold sput
  split
  · next h =>
    subst h
    split
    · next h => subst h; exact tget_terase_same _ t _
    · next h => exact tget_terase_other _ t h
  · exact tget_tput d t k j a

theorem terase_absent (t : Table α) (k : Nat) (h : thas t k = false) : terase t k = t := by
  induction t with
  | nil => rfl
  | cons e t ih =>
    obtain ⟨j, a⟩ := e
    simp only [thas, Bool.or_eq_false_iff, beq_eq_false_iff_ne] at h
    simp [terase, h.1, ih h.2]

theorem terase_tinsert (t : Table α) (k : Nat) (a : α) (h : thas t k = false) : terase (tinsert k a t) k = t := by
  induction t with
  | nil => simp [tinsert, terase]
  | cons e t ih =>
    obtain ⟨j, b⟩ := e
    have h' := h
    simp only [thas, Bool.or_eq_false_iff, beq_eq_false_iff_ne] at h
    unfold tinsert
    split
    · have := terase_absent ((j, b) :: t) k h'
      simpa [terase] using this
    · simp [terase, h.1, ih h.2]

/-- The second of two writes of a key stands alone. -/
@[simp] theorem tput_tput (t : Table α) (k : Nat) (a b : α) : tput (tput t k a) k b = tput t k b := by
  unfold tput
  rw [terase_tinsert _ _ _ (thas_terase t k)]

/-! ### Keys rise -/

/-- Every key of the table is above `k`. -/
def above (k : Nat) (t : Table α) : Prop := ∀ e ∈ t, k < e.1

theorem tsorted_cons {k : Nat} {a : α} {t : Table α} : tsorted ((k, a) :: t) = true ↔ above k t ∧ tsorted t = true := by
  induction t generalizing k a with
  | nil => simp [tsorted, above]
  | cons e t ih =>
    obtain ⟨j, b⟩ := e
    have hd : tsorted ((k, a) :: (j, b) :: t) = (decide (k < j) && tsorted ((j, b) :: t)) := rfl
    rw [hd, Bool.and_eq_true, decide_eq_true_eq]
    constructor
    · rintro ⟨h1, h2⟩
      refine ⟨?_, h2⟩
      have h3 : above j t := (ih.mp h2).1
      intro e he
      rcases List.mem_cons.mp he with h | h
      · rw [h]; exact h1
      · exact Nat.lt_trans h1 (h3 e h)
    · rintro ⟨h1, h2⟩
      exact ⟨h1 (j, b) (List.mem_cons_self ..), h2⟩

theorem mem_terase {t : Table α} {k : Nat} {e : Nat × α} (h : e ∈ terase t k) : e ∈ t ∧ e.1 ≠ k := by
  induction t with
  | nil => simp at h
  | cons x t ih =>
    obtain ⟨j, a⟩ := x
    by_cases h1 : j = k
    · simp only [terase, h1, if_true] at h
      exact ⟨List.mem_cons_of_mem _ (ih h).1, (ih h).2⟩
    · simp only [terase, h1, if_false, List.mem_cons] at h
      rcases h with h | h
      · subst h; exact ⟨List.mem_cons_self .., h1⟩
      · exact ⟨List.mem_cons_of_mem _ (ih h).1, (ih h).2⟩

theorem mem_tinsert {t : Table α} {k : Nat} {a : α} {e : Nat × α} (h : e ∈ tinsert k a t) : e = (k, a) ∨ e ∈ t := by
  induction t with
  | nil => simpa [tinsert] using h
  | cons x t ih =>
    obtain ⟨j, b⟩ := x
    unfold tinsert at h
    split at h
    · simpa using h
    · rcases List.mem_cons.mp h with h | h
      · subst h; exact .inr (List.mem_cons_self ..)
      · exact (ih h).imp id (List.mem_cons_of_mem _)

theorem tsorted_terase {t : Table α} (k : Nat) (h : tsorted t = true) : tsorted (terase t k) = true := by
  induction t with
  | nil => rfl
  | cons e t ih =>
    obtain ⟨j, a⟩ := e
    have h' := tsorted_cons.mp h
    by_cases h1 : j = k
    · simpa [terase, h1] using ih h'.2
    · simp only [terase, h1, if_false]
      exact tsorted_cons.mpr ⟨fun e he => h'.1 e (mem_terase he).1, ih h'.2⟩

theorem tsorted_tinsert {t : Table α} (k : Nat) (a : α) (h : tsorted t = true) (hk : thas t k = false) :
    tsorted (tinsert k a t) = true := by
  induction t with
  | nil => rfl
  | cons e t ih =>
    obtain ⟨j, b⟩ := e
    have h' := tsorted_cons.mp h
    simp only [thas, Bool.or_eq_false_iff, beq_eq_false_iff_ne] at hk
    unfold tinsert
    split
    · next hlt =>
      refine tsorted_cons.mpr ⟨fun e he => ?_, h⟩
      rcases List.mem_cons.mp he with h1 | h1
      · rw [h1]; exact hlt
      · exact Nat.lt_trans hlt (h'.1 e h1)
    · next hge =>
      refine tsorted_cons.mpr ⟨fun e he => ?_, ih h'.2 hk.2⟩
      rcases mem_tinsert he with h1 | h1
      · rw [h1]; simp only; omega
      · exact h'.1 e h1

/-- A write keeps the keys rising. -/
theorem tsorted_tput {t : Table α} (k : Nat) (a : α) (h : tsorted t = true) : tsorted (tput t k a) = true :=
  tsorted_tinsert k a (tsorted_terase k h) (thas_terase t k)

/-- A filter keeps the keys rising. -/
theorem tsorted_filter {t : Table α} (p : Nat × α → Bool) (h : tsorted t = true) : tsorted (t.filter p) = true := by
  induction t with
  | nil => rfl
  | cons e t ih =>
    obtain ⟨j, a⟩ := e
    have h' := tsorted_cons.mp h
    by_cases hp : p (j, a) = true
    · rw [List.filter_cons_of_pos hp]
      exact tsorted_cons.mpr ⟨fun e he => h'.1 e (List.mem_of_mem_filter he), ih h'.2⟩
    · rw [List.filter_cons_of_neg hp]; exact ih h'.2

/-- A write to a sparse table keeps its canonical form. -/
theorem swf_sput [DecidableEq α] {d : α} {t : Table α} (k : Nat) (a : α) (h : swf d t = true) : swf d (sput d t k a) = true := by
  simp only [swf, Bool.and_eq_true, List.all_eq_true, decide_eq_true_eq] at h ⊢
  unfold sput
  split
  · exact ⟨tsorted_terase k h.1, fun e he => h.2 e (mem_terase he).1⟩
  · next hne =>
    refine ⟨tsorted_tput k a h.1, fun e he => ?_⟩
    rcases mem_tinsert he with h1 | h1
    · rw [h1]; exact hne
    · exact h.2 e (mem_terase h1).1

/-- A filter keeps the canonical form. -/
theorem swf_filter [DecidableEq α] {d : α} {t : Table α} (p : Nat × α → Bool) (h : swf d t = true) : swf d (t.filter p) = true := by
  simp only [swf, Bool.and_eq_true, List.all_eq_true, decide_eq_true_eq] at h ⊢
  exact ⟨tsorted_filter p h.1, fun e he => h.2 e (List.mem_of_mem_filter he)⟩

theorem tsorted_append {t u : Table α} (ht : tsorted t = true) (hu : tsorted u = true) (h : ∀ a ∈ t, ∀ b ∈ u, a.1 < b.1) :
    tsorted (t ++ u) = true := by
  induction t with
  | nil => exact hu
  | cons e t ih =>
    obtain ⟨k, a⟩ := e
    rw [tsorted_cons] at ht
    rw [List.cons_append, tsorted_cons]
    refine ⟨fun e he => ?_, ih ht.2 (fun a ha => h a (List.mem_cons_of_mem _ ha))⟩
    rcases List.mem_append.1 he with he | he
    · exact ht.1 e he
    · exact h _ List.mem_cons_self e he

/-- Two tables, the keys of one below those of the other. -/
theorem swf_append [DecidableEq α] {d : α} {t u : Table α} (ht : swf d t = true) (hu : swf d u = true)
    (h : ∀ a ∈ t, ∀ b ∈ u, a.1 < b.1) : swf d (t ++ u) = true := by
  simp only [swf, Bool.and_eq_true] at ht hu ⊢
  exact ⟨tsorted_append ht.1 hu.1 h, by rw [List.all_append, ht.2, hu.2]; rfl⟩

/-- A table with every key moved up by the same number. -/
theorem swf_shift [DecidableEq α] {d : α} {t : Table α} (n : Nat) (h : swf d t = true) : swf d (t.map (fun e => (n + e.1, e.2))) = true := by
  simp only [swf, Bool.and_eq_true] at h ⊢
  refine ⟨?_, by rw [List.all_map]; exact h.2⟩
  have hs := h.1
  clear h
  induction t with
  | nil => rfl
  | cons e t ih =>
    obtain ⟨k, a⟩ := e
    rw [tsorted_cons] at hs
    rw [List.map_cons, tsorted_cons]
    refine ⟨fun e he => ?_, ih hs.2⟩
    obtain ⟨x, hx, rfl⟩ := List.mem_map.1 he
    have := hs.1 x hx
    dsimp only at this ⊢; omega

end Sys2Proof.Machine
end

