-- ==== Sys2Proof/Laws/State.lean ====
section
/-! SUPPORT. The updates of the state, field by field: each update changes its own table and leaves every other field, and a record
reads back as it was put. -/

namespace Sys2Proof.Machine

/-! ### putThread and modThread -/

@[simp] theorem State.putThread_clock (s : State) (k : Nat) (x : Thread) : (s.putThread k x).clock = s.clock := rfl
@[simp] theorem State.modThread_clock (s : State) (k : Nat) (h : Thread → Thread) : (s.modThread k h).clock = s.clock := rfl
@[simp] theorem State.putThread_fresh (s : State) (k : Nat) (x : Thread) : (s.putThread k x).fresh = s.fresh := rfl
@[simp] theorem State.modThread_fresh (s : State) (k : Nat) (h : Thread → Thread) : (s.modThread k h).fresh = s.fresh := rfl
@[simp] theorem State.putThread_mem (s : State) (k : Nat) (x : Thread) : (s.putThread k x).mem = s.mem := rfl
@[simp] theorem State.modThread_mem (s : State) (k : Nat) (h : Thread → Thread) : (s.modThread k h).mem = s.mem := rfl
@[simp] theorem State.putThread_tags (s : State) (k : Nat) (x : Thread) : (s.putThread k x).tags = s.tags := rfl
@[simp] theorem State.modThread_tags (s : State) (k : Nat) (h : Thread → Thread) : (s.modThread k h).tags = s.tags := rfl
@[simp] theorem State.putThread_poison (s : State) (k : Nat) (x : Thread) : (s.putThread k x).poison = s.poison := rfl
@[simp] theorem State.modThread_poison (s : State) (k : Nat) (h : Thread → Thread) : (s.modThread k h).poison = s.poison := rfl
@[simp] theorem State.putThread_lines (s : State) (k : Nat) (x : Thread) : (s.putThread k x).lines = s.lines := rfl
@[simp] theorem State.modThread_lines (s : State) (k : Nat) (h : Thread → Thread) : (s.modThread k h).lines = s.lines := rfl
@[simp] theorem State.putThread_directory (s : State) (k : Nat) (x : Thread) : (s.putThread k x).directory = s.directory := rfl
@[simp] theorem State.modThread_directory (s : State) (k : Nat) (h : Thread → Thread) : (s.modThread k h).directory = s.directory := rfl
@[simp] theorem State.putThread_dies (s : State) (k : Nat) (x : Thread) : (s.putThread k x).dies = s.dies := rfl
@[simp] theorem State.modThread_dies (s : State) (k : Nat) (h : Thread → Thread) : (s.modThread k h).dies = s.dies := rfl
@[simp] theorem State.putThread_crews (s : State) (k : Nat) (x : Thread) : (s.putThread k x).crews = s.crews := rfl
@[simp] theorem State.modThread_crews (s : State) (k : Nat) (h : Thread → Thread) : (s.modThread k h).crews = s.crews := rfl
@[simp] theorem State.putThread_waves (s : State) (k : Nat) (x : Thread) : (s.putThread k x).waves = s.waves := rfl
@[simp] theorem State.modThread_waves (s : State) (k : Nat) (h : Thread → Thread) : (s.modThread k h).waves = s.waves := rfl
@[simp] theorem State.putThread_threads (s : State) (k : Nat) (x : Thread) : (s.putThread k x).threads = tput s.threads k x := rfl
@[simp] theorem State.modThread_threads (s : State) (k : Nat) (h : Thread → Thread) : (s.modThread k h).threads = tput s.threads k (h (s.thread k)) := rfl
@[simp] theorem State.putThread_accesses (s : State) (k : Nat) (x : Thread) : (s.putThread k x).accesses = s.accesses := rfl
@[simp] theorem State.modThread_accesses (s : State) (k : Nat) (h : Thread → Thread) : (s.modThread k h).accesses = s.accesses := rfl
@[simp] theorem State.putThread_launches (s : State) (k : Nat) (x : Thread) : (s.putThread k x).launches = s.launches := rfl
@[simp] theorem State.modThread_launches (s : State) (k : Nat) (h : Thread → Thread) : (s.modThread k h).launches = s.launches := rfl
@[simp] theorem State.putThread_instances (s : State) (k : Nat) (x : Thread) : (s.putThread k x).instances = s.instances := rfl
@[simp] theorem State.modThread_instances (s : State) (k : Nat) (h : Thread → Thread) : (s.modThread k h).instances = s.instances := rfl
@[simp] theorem State.putThread_pipelines (s : State) (k : Nat) (x : Thread) : (s.putThread k x).pipelines = s.pipelines := rfl
@[simp] theorem State.modThread_pipelines (s : State) (k : Nat) (h : Thread → Thread) : (s.modThread k h).pipelines = s.pipelines := rfl
@[simp] theorem State.putThread_packets (s : State) (k : Nat) (x : Thread) : (s.putThread k x).packets = s.packets := rfl
@[simp] theorem State.modThread_packets (s : State) (k : Nat) (h : Thread → Thread) : (s.modThread k h).packets = s.packets := rfl
@[simp] theorem State.putThread_hostPages (s : State) (k : Nat) (x : Thread) : (s.putThread k x).hostPages = s.hostPages := rfl
@[simp] theorem State.modThread_hostPages (s : State) (k : Nat) (h : Thread → Thread) : (s.modThread k h).hostPages = s.hostPages := rfl
@[simp] theorem State.putThread_xd (s : State) (k : Nat) (x : Thread) : (s.putThread k x).xd = s.xd := rfl
@[simp] theorem State.modThread_xd (s : State) (k : Nat) (h : Thread → Thread) : (s.modThread k h).xd = s.xd := rfl
@[simp] theorem State.putThread_inputs (s : State) (k : Nat) (x : Thread) : (s.putThread k x).inputs = s.inputs := rfl
@[simp] theorem State.modThread_inputs (s : State) (k : Nat) (h : Thread → Thread) : (s.modThread k h).inputs = s.inputs := rfl
@[simp] theorem State.putThread_cur (s : State) (k : Nat) (x : Thread) : (s.putThread k x).cur = s.cur := rfl
@[simp] theorem State.modThread_cur (s : State) (k : Nat) (h : Thread → Thread) : (s.modThread k h).cur = s.cur := rfl
@[simp] theorem State.putThread_ir (s : State) (k : Nat) (x : Thread) : (s.putThread k x).ir = s.ir := rfl
@[simp] theorem State.modThread_ir (s : State) (k : Nat) (h : Thread → Thread) : (s.modThread k h).ir = s.ir := rfl
@[simp] theorem State.putThread_len (s : State) (k : Nat) (x : Thread) : (s.putThread k x).len = s.len := rfl
@[simp] theorem State.modThread_len (s : State) (k : Nat) (h : Thread → Thread) : (s.modThread k h).len = s.len := rfl
@[simp] theorem State.putThread_ev (s : State) (k : Nat) (x : Thread) : (s.putThread k x).ev = s.ev := rfl
@[simp] theorem State.modThread_ev (s : State) (k : Nat) (h : Thread → Thread) : (s.modThread k h).ev = s.ev := rfl
@[simp] theorem State.putThread_agenda (s : State) (k : Nat) (x : Thread) : (s.putThread k x).agenda = s.agenda := rfl
@[simp] theorem State.modThread_agenda (s : State) (k : Nat) (h : Thread → Thread) : (s.modThread k h).agenda = s.agenda := rfl
@[simp] theorem State.putThread_lastPts (s : State) (k : Nat) (x : Thread) : (s.putThread k x).lastPts = s.lastPts := rfl
@[simp] theorem State.modThread_lastPts (s : State) (k : Nat) (h : Thread → Thread) : (s.modThread k h).lastPts = s.lastPts := rfl
@[simp] theorem State.putThread_lastRefill (s : State) (k : Nat) (x : Thread) : (s.putThread k x).lastRefill = s.lastRefill := rfl
@[simp] theorem State.modThread_lastRefill (s : State) (k : Nat) (h : Thread → Thread) : (s.modThread k h).lastRefill = s.lastRefill := rfl
@[simp] theorem State.putThread_issued (s : State) (k : Nat) (x : Thread) : (s.putThread k x).issued = s.issued := rfl
@[simp] theorem State.modThread_issued (s : State) (k : Nat) (h : Thread → Thread) : (s.modThread k h).issued = s.issued := rfl
@[simp] theorem State.putThread_polled (s : State) (k : Nat) (x : Thread) : (s.putThread k x).polled = s.polled := rfl
@[simp] theorem State.putThread_passed (s : State) (k : Nat) (x : Thread) : (s.putThread k x).passed = s.passed := rfl
@[simp] theorem State.putThread_after (s : State) (k : Nat) (x : Thread) : (s.putThread k x).after = s.after := rfl
@[simp] theorem State.putThread_owners (s : State) (k : Nat) (x : Thread) : (s.putThread k x).owners = s.owners := rfl
@[simp] theorem State.putThread_dram (s : State) (k : Nat) (x : Thread) : (s.putThread k x).dram = s.dram := rfl
@[simp] theorem State.modThread_polled (s : State) (k : Nat) (h : Thread → Thread) : (s.modThread k h).polled = s.polled := rfl
@[simp] theorem State.modThread_passed (s : State) (k : Nat) (h : Thread → Thread) : (s.modThread k h).passed = s.passed := rfl
@[simp] theorem State.modThread_after (s : State) (k : Nat) (h : Thread → Thread) : (s.modThread k h).after = s.after := rfl
@[simp] theorem State.modThread_owners (s : State) (k : Nat) (h : Thread → Thread) : (s.modThread k h).owners = s.owners := rfl
@[simp] theorem State.modThread_dram (s : State) (k : Nat) (h : Thread → Thread) : (s.modThread k h).dram = s.dram := rfl

theorem State.putThread_get (s : State) (k j : Nat) (x : Thread) : (s.putThread k x).thread j = if j = k then x else s.thread j := by
  simp [State.putThread, State.thread]
theorem State.modThread_get (s : State) (k j : Nat) (h : Thread → Thread) :
    (s.modThread k h).thread j = if j = k then h (s.thread k) else s.thread j := State.putThread_get ..
@[simp] theorem State.putThread_wave (s : State) (k j : Nat) (x : Thread) : (s.putThread k x).wave j = s.wave j := rfl
@[simp] theorem State.modThread_wave (s : State) (k j : Nat) (h : Thread → Thread) : (s.modThread k h).wave j = s.wave j := rfl
@[simp] theorem State.putThread_crew (s : State) (k j : Nat) (x : Thread) : (s.putThread k x).crew j = s.crew j := rfl
@[simp] theorem State.modThread_crew (s : State) (k j : Nat) (h : Thread → Thread) : (s.modThread k h).crew j = s.crew j := rfl
@[simp] theorem State.putThread_die (s : State) (k j : Nat) (x : Thread) : (s.putThread k x).die j = s.die j := rfl
@[simp] theorem State.modThread_die (s : State) (k j : Nat) (h : Thread → Thread) : (s.modThread k h).die j = s.die j := rfl
@[simp] theorem State.putThread_launch (s : State) (k j : Nat) (x : Thread) : (s.putThread k x).launch j = s.launch j := rfl
@[simp] theorem State.modThread_launch (s : State) (k j : Nat) (h : Thread → Thread) : (s.modThread k h).launch j = s.launch j := rfl
@[simp] theorem State.putThread_instanceOf (s : State) (k j : Nat) (x : Thread) : (s.putThread k x).instance' j = s.instance' j := rfl
@[simp] theorem State.modThread_instanceOf (s : State) (k j : Nat) (h : Thread → Thread) : (s.modThread k h).instance' j = s.instance' j := rfl
@[simp] theorem State.putThread_pipeline (s : State) (k j : Nat) (x : Thread) : (s.putThread k x).pipeline j = s.pipeline j := rfl
@[simp] theorem State.modThread_pipeline (s : State) (k j : Nat) (h : Thread → Thread) : (s.modThread k h).pipeline j = s.pipeline j := rfl

/-! ### putWave and modWave -/

@[simp] theorem State.putWave_clock (s : State) (k : Nat) (x : Wave) : (s.putWave k x).clock = s.clock := rfl
@[simp] theorem State.modWave_clock (s : State) (k : Nat) (h : Wave → Wave) : (s.modWave k h).clock = s.clock := rfl
@[simp] theorem State.putWave_fresh (s : State) (k : Nat) (x : Wave) : (s.putWave k x).fresh = s.fresh := rfl
@[simp] theorem State.modWave_fresh (s : State) (k : Nat) (h : Wave → Wave) : (s.modWave k h).fresh = s.fresh := rfl
@[simp] theorem State.putWave_mem (s : State) (k : Nat) (x : Wave) : (s.putWave k x).mem = s.mem := rfl
@[simp] theorem State.modWave_mem (s : State) (k : Nat) (h : Wave → Wave) : (s.modWave k h).mem = s.mem := rfl
@[simp] theorem State.putWave_tags (s : State) (k : Nat) (x : Wave) : (s.putWave k x).tags = s.tags := rfl
@[simp] theorem State.modWave_tags (s : State) (k : Nat) (h : Wave → Wave) : (s.modWave k h).tags = s.tags := rfl
@[simp] theorem State.putWave_poison (s : State) (k : Nat) (x : Wave) : (s.putWave k x).poison = s.poison := rfl
@[simp] theorem State.modWave_poison (s : State) (k : Nat) (h : Wave → Wave) : (s.modWave k h).poison = s.poison := rfl
@[simp] theorem State.putWave_lines (s : State) (k : Nat) (x : Wave) : (s.putWave k x).lines = s.lines := rfl
@[simp] theorem State.modWave_lines (s : State) (k : Nat) (h : Wave → Wave) : (s.modWave k h).lines = s.lines := rfl
@[simp] theorem State.putWave_directory (s : State) (k : Nat) (x : Wave) : (s.putWave k x).directory = s.directory := rfl
@[simp] theorem State.modWave_directory (s : State) (k : Nat) (h : Wave → Wave) : (s.modWave k h).directory = s.directory := rfl
@[simp] theorem State.putWave_dies (s : State) (k : Nat) (x : Wave) : (s.putWave k x).dies = s.dies := rfl
@[simp] theorem State.modWave_dies (s : State) (k : Nat) (h : Wave → Wave) : (s.modWave k h).dies = s.dies := rfl
@[simp] theorem State.putWave_crews (s : State) (k : Nat) (x : Wave) : (s.putWave k x).crews = s.crews := rfl
@[simp] theorem State.modWave_crews (s : State) (k : Nat) (h : Wave → Wave) : (s.modWave k h).crews = s.crews := rfl
@[simp] theorem State.putWave_waves (s : State) (k : Nat) (x : Wave) : (s.putWave k x).waves = tput s.waves k x := rfl
@[simp] theorem State.modWave_waves (s : State) (k : Nat) (h : Wave → Wave) : (s.modWave k h).waves = tput s.waves k (h (s.wave k)) := rfl
@[simp] theorem State.putWave_threads (s : State) (k : Nat) (x : Wave) : (s.putWave k x).threads = s.threads := rfl
@[simp] theorem State.modWave_threads (s : State) (k : Nat) (h : Wave → Wave) : (s.modWave k h).threads = s.threads := rfl
@[simp] theorem State.putWave_accesses (s : State) (k : Nat) (x : Wave) : (s.putWave k x).accesses = s.accesses := rfl
@[simp] theorem State.modWave_accesses (s : State) (k : Nat) (h : Wave → Wave) : (s.modWave k h).accesses = s.accesses := rfl
@[simp] theorem State.putWave_launches (s : State) (k : Nat) (x : Wave) : (s.putWave k x).launches = s.launches := rfl
@[simp] theorem State.modWave_launches (s : State) (k : Nat) (h : Wave → Wave) : (s.modWave k h).launches = s.launches := rfl
@[simp] theorem State.putWave_instances (s : State) (k : Nat) (x : Wave) : (s.putWave k x).instances = s.instances := rfl
@[simp] theorem State.modWave_instances (s : State) (k : Nat) (h : Wave → Wave) : (s.modWave k h).instances = s.instances := rfl
@[simp] theorem State.putWave_pipelines (s : State) (k : Nat) (x : Wave) : (s.putWave k x).pipelines = s.pipelines := rfl
@[simp] theorem State.modWave_pipelines (s : State) (k : Nat) (h : Wave → Wave) : (s.modWave k h).pipelines = s.pipelines := rfl
@[simp] theorem State.putWave_packets (s : State) (k : Nat) (x : Wave) : (s.putWave k x).packets = s.packets := rfl
@[simp] theorem State.modWave_packets (s : State) (k : Nat) (h : Wave → Wave) : (s.modWave k h).packets = s.packets := rfl
@[simp] theorem State.putWave_hostPages (s : State) (k : Nat) (x : Wave) : (s.putWave k x).hostPages = s.hostPages := rfl
@[simp] theorem State.modWave_hostPages (s : State) (k : Nat) (h : Wave → Wave) : (s.modWave k h).hostPages = s.hostPages := rfl
@[simp] theorem State.putWave_xd (s : State) (k : Nat) (x : Wave) : (s.putWave k x).xd = s.xd := rfl
@[simp] theorem State.modWave_xd (s : State) (k : Nat) (h : Wave → Wave) : (s.modWave k h).xd = s.xd := rfl
@[simp] theorem State.putWave_inputs (s : State) (k : Nat) (x : Wave) : (s.putWave k x).inputs = s.inputs := rfl
@[simp] theorem State.modWave_inputs (s : State) (k : Nat) (h : Wave → Wave) : (s.modWave k h).inputs = s.inputs := rfl
@[simp] theorem State.putWave_cur (s : State) (k : Nat) (x : Wave) : (s.putWave k x).cur = s.cur := rfl
@[simp] theorem State.modWave_cur (s : State) (k : Nat) (h : Wave → Wave) : (s.modWave k h).cur = s.cur := rfl
@[simp] theorem State.putWave_ir (s : State) (k : Nat) (x : Wave) : (s.putWave k x).ir = s.ir := rfl
@[simp] theorem State.modWave_ir (s : State) (k : Nat) (h : Wave → Wave) : (s.modWave k h).ir = s.ir := rfl
@[simp] theorem State.putWave_len (s : State) (k : Nat) (x : Wave) : (s.putWave k x).len = s.len := rfl
@[simp] theorem State.modWave_len (s : State) (k : Nat) (h : Wave → Wave) : (s.modWave k h).len = s.len := rfl
@[simp] theorem State.putWave_ev (s : State) (k : Nat) (x : Wave) : (s.putWave k x).ev = s.ev := rfl
@[simp] theorem State.modWave_ev (s : State) (k : Nat) (h : Wave → Wave) : (s.modWave k h).ev = s.ev := rfl
@[simp] theorem State.putWave_agenda (s : State) (k : Nat) (x : Wave) : (s.putWave k x).agenda = s.agenda := rfl
@[simp] theorem State.modWave_agenda (s : State) (k : Nat) (h : Wave → Wave) : (s.modWave k h).agenda = s.agenda := rfl
@[simp] theorem State.putWave_lastPts (s : State) (k : Nat) (x : Wave) : (s.putWave k x).lastPts = s.lastPts := rfl
@[simp] theorem State.modWave_lastPts (s : State) (k : Nat) (h : Wave → Wave) : (s.modWave k h).lastPts = s.lastPts := rfl
@[simp] theorem State.putWave_lastRefill (s : State) (k : Nat) (x : Wave) : (s.putWave k x).lastRefill = s.lastRefill := rfl
@[simp] theorem State.modWave_lastRefill (s : State) (k : Nat) (h : Wave → Wave) : (s.modWave k h).lastRefill = s.lastRefill := rfl
@[simp] theorem State.putWave_issued (s : State) (k : Nat) (x : Wave) : (s.putWave k x).issued = s.issued := rfl
@[simp] theorem State.modWave_issued (s : State) (k : Nat) (h : Wave → Wave) : (s.modWave k h).issued = s.issued := rfl
@[simp] theorem State.putWave_polled (s : State) (k : Nat) (x : Wave) : (s.putWave k x).polled = s.polled := rfl
@[simp] theorem State.putWave_passed (s : State) (k : Nat) (x : Wave) : (s.putWave k x).passed = s.passed := rfl
@[simp] theorem State.putWave_after (s : State) (k : Nat) (x : Wave) : (s.putWave k x).after = s.after := rfl
@[simp] theorem State.putWave_owners (s : State) (k : Nat) (x : Wave) : (s.putWave k x).owners = s.owners := rfl
@[simp] theorem State.putWave_dram (s : State) (k : Nat) (x : Wave) : (s.putWave k x).dram = s.dram := rfl
@[simp] theorem State.modWave_polled (s : State) (k : Nat) (h : Wave → Wave) : (s.modWave k h).polled = s.polled := rfl
@[simp] theorem State.modWave_passed (s : State) (k : Nat) (h : Wave → Wave) : (s.modWave k h).passed = s.passed := rfl
@[simp] theorem State.modWave_after (s : State) (k : Nat) (h : Wave → Wave) : (s.modWave k h).after = s.after := rfl
@[simp] theorem State.modWave_owners (s : State) (k : Nat) (h : Wave → Wave) : (s.modWave k h).owners = s.owners := rfl
@[simp] theorem State.modWave_dram (s : State) (k : Nat) (h : Wave → Wave) : (s.modWave k h).dram = s.dram := rfl

theorem State.putWave_get (s : State) (k j : Nat) (x : Wave) : (s.putWave k x).wave j = if j = k then x else s.wave j := by
  simp [State.putWave, State.wave]
theorem State.modWave_get (s : State) (k j : Nat) (h : Wave → Wave) :
    (s.modWave k h).wave j = if j = k then h (s.wave k) else s.wave j := State.putWave_get ..
@[simp] theorem State.putWave_thread (s : State) (k j : Nat) (x : Wave) : (s.putWave k x).thread j = s.thread j := rfl
@[simp] theorem State.modWave_thread (s : State) (k j : Nat) (h : Wave → Wave) : (s.modWave k h).thread j = s.thread j := rfl
@[simp] theorem State.putWave_crew (s : State) (k j : Nat) (x : Wave) : (s.putWave k x).crew j = s.crew j := rfl
@[simp] theorem State.modWave_crew (s : State) (k j : Nat) (h : Wave → Wave) : (s.modWave k h).crew j = s.crew j := rfl
@[simp] theorem State.putWave_die (s : State) (k j : Nat) (x : Wave) : (s.putWave k x).die j = s.die j := rfl
@[simp] theorem State.modWave_die (s : State) (k j : Nat) (h : Wave → Wave) : (s.modWave k h).die j = s.die j := rfl
@[simp] theorem State.putWave_launch (s : State) (k j : Nat) (x : Wave) : (s.putWave k x).launch j = s.launch j := rfl
@[simp] theorem State.modWave_launch (s : State) (k j : Nat) (h : Wave → Wave) : (s.modWave k h).launch j = s.launch j := rfl
@[simp] theorem State.putWave_instanceOf (s : State) (k j : Nat) (x : Wave) : (s.putWave k x).instance' j = s.instance' j := rfl
@[simp] theorem State.modWave_instanceOf (s : State) (k j : Nat) (h : Wave → Wave) : (s.modWave k h).instance' j = s.instance' j := rfl
@[simp] theorem State.putWave_pipeline (s : State) (k j : Nat) (x : Wave) : (s.putWave k x).pipeline j = s.pipeline j := rfl
@[simp] theorem State.modWave_pipeline (s : State) (k j : Nat) (h : Wave → Wave) : (s.modWave k h).pipeline j = s.pipeline j := rfl

/-! ### putCrew and modCrew -/

@[simp] theorem State.putCrew_clock (s : State) (k : Nat) (x : Crew) : (s.putCrew k x).clock = s.clock := rfl
@[simp] theorem State.modCrew_clock (s : State) (k : Nat) (h : Crew → Crew) : (s.modCrew k h).clock = s.clock := rfl
@[simp] theorem State.putCrew_fresh (s : State) (k : Nat) (x : Crew) : (s.putCrew k x).fresh = s.fresh := rfl
@[simp] theorem State.modCrew_fresh (s : State) (k : Nat) (h : Crew → Crew) : (s.modCrew k h).fresh = s.fresh := rfl
@[simp] theorem State.putCrew_mem (s : State) (k : Nat) (x : Crew) : (s.putCrew k x).mem = s.mem := rfl
@[simp] theorem State.modCrew_mem (s : State) (k : Nat) (h : Crew → Crew) : (s.modCrew k h).mem = s.mem := rfl
@[simp] theorem State.putCrew_tags (s : State) (k : Nat) (x : Crew) : (s.putCrew k x).tags = s.tags := rfl
@[simp] theorem State.modCrew_tags (s : State) (k : Nat) (h : Crew → Crew) : (s.modCrew k h).tags = s.tags := rfl
@[simp] theorem State.putCrew_poison (s : State) (k : Nat) (x : Crew) : (s.putCrew k x).poison = s.poison := rfl
@[simp] theorem State.modCrew_poison (s : State) (k : Nat) (h : Crew → Crew) : (s.modCrew k h).poison = s.poison := rfl
@[simp] theorem State.putCrew_lines (s : State) (k : Nat) (x : Crew) : (s.putCrew k x).lines = s.lines := rfl
@[simp] theorem State.modCrew_lines (s : State) (k : Nat) (h : Crew → Crew) : (s.modCrew k h).lines = s.lines := rfl
@[simp] theorem State.putCrew_directory (s : State) (k : Nat) (x : Crew) : (s.putCrew k x).directory = s.directory := rfl
@[simp] theorem State.modCrew_directory (s : State) (k : Nat) (h : Crew → Crew) : (s.modCrew k h).directory = s.directory := rfl
@[simp] theorem State.putCrew_dies (s : State) (k : Nat) (x : Crew) : (s.putCrew k x).dies = s.dies := rfl
@[simp] theorem State.modCrew_dies (s : State) (k : Nat) (h : Crew → Crew) : (s.modCrew k h).dies = s.dies := rfl
@[simp] theorem State.putCrew_crews (s : State) (k : Nat) (x : Crew) : (s.putCrew k x).crews = tput s.crews k x := rfl
@[simp] theorem State.modCrew_crews (s : State) (k : Nat) (h : Crew → Crew) : (s.modCrew k h).crews = tput s.crews k (h (s.crew k)) := rfl
@[simp] theorem State.putCrew_waves (s : State) (k : Nat) (x : Crew) : (s.putCrew k x).waves = s.waves := rfl
@[simp] theorem State.modCrew_waves (s : State) (k : Nat) (h : Crew → Crew) : (s.modCrew k h).waves = s.waves := rfl
@[simp] theorem State.putCrew_threads (s : State) (k : Nat) (x : Crew) : (s.putCrew k x).threads = s.threads := rfl
@[simp] theorem State.modCrew_threads (s : State) (k : Nat) (h : Crew → Crew) : (s.modCrew k h).threads = s.threads := rfl
@[simp] theorem State.putCrew_accesses (s : State) (k : Nat) (x : Crew) : (s.putCrew k x).accesses = s.accesses := rfl
@[simp] theorem State.modCrew_accesses (s : State) (k : Nat) (h : Crew → Crew) : (s.modCrew k h).accesses = s.accesses := rfl
@[simp] theorem State.putCrew_launches (s : State) (k : Nat) (x : Crew) : (s.putCrew k x).launches = s.launches := rfl
@[simp] theorem State.modCrew_launches (s : State) (k : Nat) (h : Crew → Crew) : (s.modCrew k h).launches = s.launches := rfl
@[simp] theorem State.putCrew_instances (s : State) (k : Nat) (x : Crew) : (s.putCrew k x).instances = s.instances := rfl
@[simp] theorem State.modCrew_instances (s : State) (k : Nat) (h : Crew → Crew) : (s.modCrew k h).instances = s.instances := rfl
@[simp] theorem State.putCrew_pipelines (s : State) (k : Nat) (x : Crew) : (s.putCrew k x).pipelines = s.pipelines := rfl
@[simp] theorem State.modCrew_pipelines (s : State) (k : Nat) (h : Crew → Crew) : (s.modCrew k h).pipelines = s.pipelines := rfl
@[simp] theorem State.putCrew_packets (s : State) (k : Nat) (x : Crew) : (s.putCrew k x).packets = s.packets := rfl
@[simp] theorem State.modCrew_packets (s : State) (k : Nat) (h : Crew → Crew) : (s.modCrew k h).packets = s.packets := rfl
@[simp] theorem State.putCrew_hostPages (s : State) (k : Nat) (x : Crew) : (s.putCrew k x).hostPages = s.hostPages := rfl
@[simp] theorem State.modCrew_hostPages (s : State) (k : Nat) (h : Crew → Crew) : (s.modCrew k h).hostPages = s.hostPages := rfl
@[simp] theorem State.putCrew_xd (s : State) (k : Nat) (x : Crew) : (s.putCrew k x).xd = s.xd := rfl
@[simp] theorem State.modCrew_xd (s : State) (k : Nat) (h : Crew → Crew) : (s.modCrew k h).xd = s.xd := rfl
@[simp] theorem State.putCrew_inputs (s : State) (k : Nat) (x : Crew) : (s.putCrew k x).inputs = s.inputs := rfl
@[simp] theorem State.modCrew_inputs (s : State) (k : Nat) (h : Crew → Crew) : (s.modCrew k h).inputs = s.inputs := rfl
@[simp] theorem State.putCrew_cur (s : State) (k : Nat) (x : Crew) : (s.putCrew k x).cur = s.cur := rfl
@[simp] theorem State.modCrew_cur (s : State) (k : Nat) (h : Crew → Crew) : (s.modCrew k h).cur = s.cur := rfl
@[simp] theorem State.putCrew_ir (s : State) (k : Nat) (x : Crew) : (s.putCrew k x).ir = s.ir := rfl
@[simp] theorem State.modCrew_ir (s : State) (k : Nat) (h : Crew → Crew) : (s.modCrew k h).ir = s.ir := rfl
@[simp] theorem State.putCrew_len (s : State) (k : Nat) (x : Crew) : (s.putCrew k x).len = s.len := rfl
@[simp] theorem State.modCrew_len (s : State) (k : Nat) (h : Crew → Crew) : (s.modCrew k h).len = s.len := rfl
@[simp] theorem State.putCrew_ev (s : State) (k : Nat) (x : Crew) : (s.putCrew k x).ev = s.ev := rfl
@[simp] theorem State.modCrew_ev (s : State) (k : Nat) (h : Crew → Crew) : (s.modCrew k h).ev = s.ev := rfl
@[simp] theorem State.putCrew_agenda (s : State) (k : Nat) (x : Crew) : (s.putCrew k x).agenda = s.agenda := rfl
@[simp] theorem State.modCrew_agenda (s : State) (k : Nat) (h : Crew → Crew) : (s.modCrew k h).agenda = s.agenda := rfl
@[simp] theorem State.putCrew_lastPts (s : State) (k : Nat) (x : Crew) : (s.putCrew k x).lastPts = s.lastPts := rfl
@[simp] theorem State.modCrew_lastPts (s : State) (k : Nat) (h : Crew → Crew) : (s.modCrew k h).lastPts = s.lastPts := rfl
@[simp] theorem State.putCrew_lastRefill (s : State) (k : Nat) (x : Crew) : (s.putCrew k x).lastRefill = s.lastRefill := rfl
@[simp] theorem State.modCrew_lastRefill (s : State) (k : Nat) (h : Crew → Crew) : (s.modCrew k h).lastRefill = s.lastRefill := rfl
@[simp] theorem State.putCrew_issued (s : State) (k : Nat) (x : Crew) : (s.putCrew k x).issued = s.issued := rfl
@[simp] theorem State.modCrew_issued (s : State) (k : Nat) (h : Crew → Crew) : (s.modCrew k h).issued = s.issued := rfl
@[simp] theorem State.putCrew_polled (s : State) (k : Nat) (x : Crew) : (s.putCrew k x).polled = s.polled := rfl
@[simp] theorem State.putCrew_passed (s : State) (k : Nat) (x : Crew) : (s.putCrew k x).passed = s.passed := rfl
@[simp] theorem State.putCrew_after (s : State) (k : Nat) (x : Crew) : (s.putCrew k x).after = s.after := rfl
@[simp] theorem State.putCrew_owners (s : State) (k : Nat) (x : Crew) : (s.putCrew k x).owners = s.owners := rfl
@[simp] theorem State.putCrew_dram (s : State) (k : Nat) (x : Crew) : (s.putCrew k x).dram = s.dram := rfl
@[simp] theorem State.modCrew_polled (s : State) (k : Nat) (h : Crew → Crew) : (s.modCrew k h).polled = s.polled := rfl
@[simp] theorem State.modCrew_passed (s : State) (k : Nat) (h : Crew → Crew) : (s.modCrew k h).passed = s.passed := rfl
@[simp] theorem State.modCrew_after (s : State) (k : Nat) (h : Crew → Crew) : (s.modCrew k h).after = s.after := rfl
@[simp] theorem State.modCrew_owners (s : State) (k : Nat) (h : Crew → Crew) : (s.modCrew k h).owners = s.owners := rfl
@[simp] theorem State.modCrew_dram (s : State) (k : Nat) (h : Crew → Crew) : (s.modCrew k h).dram = s.dram := rfl

theorem State.putCrew_get (s : State) (k j : Nat) (x : Crew) : (s.putCrew k x).crew j = if j = k then x else s.crew j := by
  simp [State.putCrew, State.crew]
theorem State.modCrew_get (s : State) (k j : Nat) (h : Crew → Crew) :
    (s.modCrew k h).crew j = if j = k then h (s.crew k) else s.crew j := State.putCrew_get ..
@[simp] theorem State.putCrew_thread (s : State) (k j : Nat) (x : Crew) : (s.putCrew k x).thread j = s.thread j := rfl
@[simp] theorem State.modCrew_thread (s : State) (k j : Nat) (h : Crew → Crew) : (s.modCrew k h).thread j = s.thread j := rfl
@[simp] theorem State.putCrew_wave (s : State) (k j : Nat) (x : Crew) : (s.putCrew k x).wave j = s.wave j := rfl
@[simp] theorem State.modCrew_wave (s : State) (k j : Nat) (h : Crew → Crew) : (s.modCrew k h).wave j = s.wave j := rfl
@[simp] theorem State.putCrew_die (s : State) (k j : Nat) (x : Crew) : (s.putCrew k x).die j = s.die j := rfl
@[simp] theorem State.modCrew_die (s : State) (k j : Nat) (h : Crew → Crew) : (s.modCrew k h).die j = s.die j := rfl
@[simp] theorem State.putCrew_launch (s : State) (k j : Nat) (x : Crew) : (s.putCrew k x).launch j = s.launch j := rfl
@[simp] theorem State.modCrew_launch (s : State) (k j : Nat) (h : Crew → Crew) : (s.modCrew k h).launch j = s.launch j := rfl
@[simp] theorem State.putCrew_instanceOf (s : State) (k j : Nat) (x : Crew) : (s.putCrew k x).instance' j = s.instance' j := rfl
@[simp] theorem State.modCrew_instanceOf (s : State) (k j : Nat) (h : Crew → Crew) : (s.modCrew k h).instance' j = s.instance' j := rfl
@[simp] theorem State.putCrew_pipeline (s : State) (k j : Nat) (x : Crew) : (s.putCrew k x).pipeline j = s.pipeline j := rfl
@[simp] theorem State.modCrew_pipeline (s : State) (k j : Nat) (h : Crew → Crew) : (s.modCrew k h).pipeline j = s.pipeline j := rfl

/-! ### putDie and modDie -/

@[simp] theorem State.putDie_clock (s : State) (k : Nat) (x : Die) : (s.putDie k x).clock = s.clock := rfl
@[simp] theorem State.modDie_clock (s : State) (k : Nat) (h : Die → Die) : (s.modDie k h).clock = s.clock := rfl
@[simp] theorem State.putDie_fresh (s : State) (k : Nat) (x : Die) : (s.putDie k x).fresh = s.fresh := rfl
@[simp] theorem State.modDie_fresh (s : State) (k : Nat) (h : Die → Die) : (s.modDie k h).fresh = s.fresh := rfl
@[simp] theorem State.putDie_mem (s : State) (k : Nat) (x : Die) : (s.putDie k x).mem = s.mem := rfl
@[simp] theorem State.modDie_mem (s : State) (k : Nat) (h : Die → Die) : (s.modDie k h).mem = s.mem := rfl
@[simp] theorem State.putDie_tags (s : State) (k : Nat) (x : Die) : (s.putDie k x).tags = s.tags := rfl
@[simp] theorem State.modDie_tags (s : State) (k : Nat) (h : Die → Die) : (s.modDie k h).tags = s.tags := rfl
@[simp] theorem State.putDie_poison (s : State) (k : Nat) (x : Die) : (s.putDie k x).poison = s.poison := rfl
@[simp] theorem State.modDie_poison (s : State) (k : Nat) (h : Die → Die) : (s.modDie k h).poison = s.poison := rfl
@[simp] theorem State.putDie_lines (s : State) (k : Nat) (x : Die) : (s.putDie k x).lines = s.lines := rfl
@[simp] theorem State.modDie_lines (s : State) (k : Nat) (h : Die → Die) : (s.modDie k h).lines = s.lines := rfl
@[simp] theorem State.putDie_directory (s : State) (k : Nat) (x : Die) : (s.putDie k x).directory = s.directory := rfl
@[simp] theorem State.modDie_directory (s : State) (k : Nat) (h : Die → Die) : (s.modDie k h).directory = s.directory := rfl
@[simp] theorem State.putDie_dies (s : State) (k : Nat) (x : Die) : (s.putDie k x).dies = tput s.dies k x := rfl
@[simp] theorem State.modDie_dies (s : State) (k : Nat) (h : Die → Die) : (s.modDie k h).dies = tput s.dies k (h (s.die k)) := rfl
@[simp] theorem State.putDie_crews (s : State) (k : Nat) (x : Die) : (s.putDie k x).crews = s.crews := rfl
@[simp] theorem State.modDie_crews (s : State) (k : Nat) (h : Die → Die) : (s.modDie k h).crews = s.crews := rfl
@[simp] theorem State.putDie_waves (s : State) (k : Nat) (x : Die) : (s.putDie k x).waves = s.waves := rfl
@[simp] theorem State.modDie_waves (s : State) (k : Nat) (h : Die → Die) : (s.modDie k h).waves = s.waves := rfl
@[simp] theorem State.putDie_threads (s : State) (k : Nat) (x : Die) : (s.putDie k x).threads = s.threads := rfl
@[simp] theorem State.modDie_threads (s : State) (k : Nat) (h : Die → Die) : (s.modDie k h).threads = s.threads := rfl
@[simp] theorem State.putDie_accesses (s : State) (k : Nat) (x : Die) : (s.putDie k x).accesses = s.accesses := rfl
@[simp] theorem State.modDie_accesses (s : State) (k : Nat) (h : Die → Die) : (s.modDie k h).accesses = s.accesses := rfl
@[simp] theorem State.putDie_launches (s : State) (k : Nat) (x : Die) : (s.putDie k x).launches = s.launches := rfl
@[simp] theorem State.modDie_launches (s : State) (k : Nat) (h : Die → Die) : (s.modDie k h).launches = s.launches := rfl
@[simp] theorem State.putDie_instances (s : State) (k : Nat) (x : Die) : (s.putDie k x).instances = s.instances := rfl
@[simp] theorem State.modDie_instances (s : State) (k : Nat) (h : Die → Die) : (s.modDie k h).instances = s.instances := rfl
@[simp] theorem State.putDie_pipelines (s : State) (k : Nat) (x : Die) : (s.putDie k x).pipelines = s.pipelines := rfl
@[simp] theorem State.modDie_pipelines (s : State) (k : Nat) (h : Die → Die) : (s.modDie k h).pipelines = s.pipelines := rfl
@[simp] theorem State.putDie_packets (s : State) (k : Nat) (x : Die) : (s.putDie k x).packets = s.packets := rfl
@[simp] theorem State.modDie_packets (s : State) (k : Nat) (h : Die → Die) : (s.modDie k h).packets = s.packets := rfl
@[simp] theorem State.putDie_hostPages (s : State) (k : Nat) (x : Die) : (s.putDie k x).hostPages = s.hostPages := rfl
@[simp] theorem State.modDie_hostPages (s : State) (k : Nat) (h : Die → Die) : (s.modDie k h).hostPages = s.hostPages := rfl
@[simp] theorem State.putDie_xd (s : State) (k : Nat) (x : Die) : (s.putDie k x).xd = s.xd := rfl
@[simp] theorem State.modDie_xd (s : State) (k : Nat) (h : Die → Die) : (s.modDie k h).xd = s.xd := rfl
@[simp] theorem State.putDie_inputs (s : State) (k : Nat) (x : Die) : (s.putDie k x).inputs = s.inputs := rfl
@[simp] theorem State.modDie_inputs (s : State) (k : Nat) (h : Die → Die) : (s.modDie k h).inputs = s.inputs := rfl
@[simp] theorem State.putDie_cur (s : State) (k : Nat) (x : Die) : (s.putDie k x).cur = s.cur := rfl
@[simp] theorem State.modDie_cur (s : State) (k : Nat) (h : Die → Die) : (s.modDie k h).cur = s.cur := rfl
@[simp] theorem State.putDie_ir (s : State) (k : Nat) (x : Die) : (s.putDie k x).ir = s.ir := rfl
@[simp] theorem State.modDie_ir (s : State) (k : Nat) (h : Die → Die) : (s.modDie k h).ir = s.ir := rfl
@[simp] theorem State.putDie_len (s : State) (k : Nat) (x : Die) : (s.putDie k x).len = s.len := rfl
@[simp] theorem State.modDie_len (s : State) (k : Nat) (h : Die → Die) : (s.modDie k h).len = s.len := rfl
@[simp] theorem State.putDie_ev (s : State) (k : Nat) (x : Die) : (s.putDie k x).ev = s.ev := rfl
@[simp] theorem State.modDie_ev (s : State) (k : Nat) (h : Die → Die) : (s.modDie k h).ev = s.ev := rfl
@[simp] theorem State.putDie_agenda (s : State) (k : Nat) (x : Die) : (s.putDie k x).agenda = s.agenda := rfl
@[simp] theorem State.modDie_agenda (s : State) (k : Nat) (h : Die → Die) : (s.modDie k h).agenda = s.agenda := rfl
@[simp] theorem State.putDie_lastPts (s : State) (k : Nat) (x : Die) : (s.putDie k x).lastPts = s.lastPts := rfl
@[simp] theorem State.modDie_lastPts (s : State) (k : Nat) (h : Die → Die) : (s.modDie k h).lastPts = s.lastPts := rfl
@[simp] theorem State.putDie_lastRefill (s : State) (k : Nat) (x : Die) : (s.putDie k x).lastRefill = s.lastRefill := rfl
@[simp] theorem State.modDie_lastRefill (s : State) (k : Nat) (h : Die → Die) : (s.modDie k h).lastRefill = s.lastRefill := rfl
@[simp] theorem State.putDie_issued (s : State) (k : Nat) (x : Die) : (s.putDie k x).issued = s.issued := rfl
@[simp] theorem State.modDie_issued (s : State) (k : Nat) (h : Die → Die) : (s.modDie k h).issued = s.issued := rfl
@[simp] theorem State.putDie_polled (s : State) (k : Nat) (x : Die) : (s.putDie k x).polled = s.polled := rfl
@[simp] theorem State.putDie_passed (s : State) (k : Nat) (x : Die) : (s.putDie k x).passed = s.passed := rfl
@[simp] theorem State.putDie_after (s : State) (k : Nat) (x : Die) : (s.putDie k x).after = s.after := rfl
@[simp] theorem State.putDie_owners (s : State) (k : Nat) (x : Die) : (s.putDie k x).owners = s.owners := rfl
@[simp] theorem State.putDie_dram (s : State) (k : Nat) (x : Die) : (s.putDie k x).dram = s.dram := rfl
@[simp] theorem State.modDie_polled (s : State) (k : Nat) (h : Die → Die) : (s.modDie k h).polled = s.polled := rfl
@[simp] theorem State.modDie_passed (s : State) (k : Nat) (h : Die → Die) : (s.modDie k h).passed = s.passed := rfl
@[simp] theorem State.modDie_after (s : State) (k : Nat) (h : Die → Die) : (s.modDie k h).after = s.after := rfl
@[simp] theorem State.modDie_owners (s : State) (k : Nat) (h : Die → Die) : (s.modDie k h).owners = s.owners := rfl
@[simp] theorem State.modDie_dram (s : State) (k : Nat) (h : Die → Die) : (s.modDie k h).dram = s.dram := rfl

theorem State.putDie_get (s : State) (k j : Nat) (x : Die) : (s.putDie k x).die j = if j = k then x else s.die j := by
  simp [State.putDie, State.die]
theorem State.modDie_get (s : State) (k j : Nat) (h : Die → Die) :
    (s.modDie k h).die j = if j = k then h (s.die k) else s.die j := State.putDie_get ..
@[simp] theorem State.putDie_thread (s : State) (k j : Nat) (x : Die) : (s.putDie k x).thread j = s.thread j := rfl
@[simp] theorem State.modDie_thread (s : State) (k j : Nat) (h : Die → Die) : (s.modDie k h).thread j = s.thread j := rfl
@[simp] theorem State.putDie_wave (s : State) (k j : Nat) (x : Die) : (s.putDie k x).wave j = s.wave j := rfl
@[simp] theorem State.modDie_wave (s : State) (k j : Nat) (h : Die → Die) : (s.modDie k h).wave j = s.wave j := rfl
@[simp] theorem State.putDie_crew (s : State) (k j : Nat) (x : Die) : (s.putDie k x).crew j = s.crew j := rfl
@[simp] theorem State.modDie_crew (s : State) (k j : Nat) (h : Die → Die) : (s.modDie k h).crew j = s.crew j := rfl
@[simp] theorem State.putDie_launch (s : State) (k j : Nat) (x : Die) : (s.putDie k x).launch j = s.launch j := rfl
@[simp] theorem State.modDie_launch (s : State) (k j : Nat) (h : Die → Die) : (s.modDie k h).launch j = s.launch j := rfl
@[simp] theorem State.putDie_instanceOf (s : State) (k j : Nat) (x : Die) : (s.putDie k x).instance' j = s.instance' j := rfl
@[simp] theorem State.modDie_instanceOf (s : State) (k j : Nat) (h : Die → Die) : (s.modDie k h).instance' j = s.instance' j := rfl
@[simp] theorem State.putDie_pipeline (s : State) (k j : Nat) (x : Die) : (s.putDie k x).pipeline j = s.pipeline j := rfl
@[simp] theorem State.modDie_pipeline (s : State) (k j : Nat) (h : Die → Die) : (s.modDie k h).pipeline j = s.pipeline j := rfl

/-! ### putLaunch and modLaunch -/

@[simp] theorem State.putLaunch_clock (s : State) (k : Nat) (x : Launch) : (s.putLaunch k x).clock = s.clock := rfl
@[simp] theorem State.modLaunch_clock (s : State) (k : Nat) (h : Launch → Launch) : (s.modLaunch k h).clock = s.clock := rfl
@[simp] theorem State.putLaunch_fresh (s : State) (k : Nat) (x : Launch) : (s.putLaunch k x).fresh = s.fresh := rfl
@[simp] theorem State.modLaunch_fresh (s : State) (k : Nat) (h : Launch → Launch) : (s.modLaunch k h).fresh = s.fresh := rfl
@[simp] theorem State.putLaunch_mem (s : State) (k : Nat) (x : Launch) : (s.putLaunch k x).mem = s.mem := rfl
@[simp] theorem State.modLaunch_mem (s : State) (k : Nat) (h : Launch → Launch) : (s.modLaunch k h).mem = s.mem := rfl
@[simp] theorem State.putLaunch_tags (s : State) (k : Nat) (x : Launch) : (s.putLaunch k x).tags = s.tags := rfl
@[simp] theorem State.modLaunch_tags (s : State) (k : Nat) (h : Launch → Launch) : (s.modLaunch k h).tags = s.tags := rfl
@[simp] theorem State.putLaunch_poison (s : State) (k : Nat) (x : Launch) : (s.putLaunch k x).poison = s.poison := rfl
@[simp] theorem State.modLaunch_poison (s : State) (k : Nat) (h : Launch → Launch) : (s.modLaunch k h).poison = s.poison := rfl
@[simp] theorem State.putLaunch_lines (s : State) (k : Nat) (x : Launch) : (s.putLaunch k x).lines = s.lines := rfl
@[simp] theorem State.modLaunch_lines (s : State) (k : Nat) (h : Launch → Launch) : (s.modLaunch k h).lines = s.lines := rfl
@[simp] theorem State.putLaunch_directory (s : State) (k : Nat) (x : Launch) : (s.putLaunch k x).directory = s.directory := rfl
@[simp] theorem State.modLaunch_directory (s : State) (k : Nat) (h : Launch → Launch) : (s.modLaunch k h).directory = s.directory := rfl
@[simp] theorem State.putLaunch_dies (s : State) (k : Nat) (x : Launch) : (s.putLaunch k x).dies = s.dies := rfl
@[simp] theorem State.modLaunch_dies (s : State) (k : Nat) (h : Launch → Launch) : (s.modLaunch k h).dies = s.dies := rfl
@[simp] theorem State.putLaunch_crews (s : State) (k : Nat) (x : Launch) : (s.putLaunch k x).crews = s.crews := rfl
@[simp] theorem State.modLaunch_crews (s : State) (k : Nat) (h : Launch → Launch) : (s.modLaunch k h).crews = s.crews := rfl
@[simp] theorem State.putLaunch_waves (s : State) (k : Nat) (x : Launch) : (s.putLaunch k x).waves = s.waves := rfl
@[simp] theorem State.modLaunch_waves (s : State) (k : Nat) (h : Launch → Launch) : (s.modLaunch k h).waves = s.waves := rfl
@[simp] theorem State.putLaunch_threads (s : State) (k : Nat) (x : Launch) : (s.putLaunch k x).threads = s.threads := rfl
@[simp] theorem State.modLaunch_threads (s : State) (k : Nat) (h : Launch → Launch) : (s.modLaunch k h).threads = s.threads := rfl
@[simp] theorem State.putLaunch_accesses (s : State) (k : Nat) (x : Launch) : (s.putLaunch k x).accesses = s.accesses := rfl
@[simp] theorem State.modLaunch_accesses (s : State) (k : Nat) (h : Launch → Launch) : (s.modLaunch k h).accesses = s.accesses := rfl
@[simp] theorem State.putLaunch_launches (s : State) (k : Nat) (x : Launch) : (s.putLaunch k x).launches = tput s.launches k x := rfl
@[simp] theorem State.modLaunch_launches (s : State) (k : Nat) (h : Launch → Launch) : (s.modLaunch k h).launches = tput s.launches k (h (s.launch k)) := rfl
@[simp] theorem State.putLaunch_instances (s : State) (k : Nat) (x : Launch) : (s.putLaunch k x).instances = s.instances := rfl
@[simp] theorem State.modLaunch_instances (s : State) (k : Nat) (h : Launch → Launch) : (s.modLaunch k h).instances = s.instances := rfl
@[simp] theorem State.putLaunch_pipelines (s : State) (k : Nat) (x : Launch) : (s.putLaunch k x).pipelines = s.pipelines := rfl
@[simp] theorem State.modLaunch_pipelines (s : State) (k : Nat) (h : Launch → Launch) : (s.modLaunch k h).pipelines = s.pipelines := rfl
@[simp] theorem State.putLaunch_packets (s : State) (k : Nat) (x : Launch) : (s.putLaunch k x).packets = s.packets := rfl
@[simp] theorem State.modLaunch_packets (s : State) (k : Nat) (h : Launch → Launch) : (s.modLaunch k h).packets = s.packets := rfl
@[simp] theorem State.putLaunch_hostPages (s : State) (k : Nat) (x : Launch) : (s.putLaunch k x).hostPages = s.hostPages := rfl
@[simp] theorem State.modLaunch_hostPages (s : State) (k : Nat) (h : Launch → Launch) : (s.modLaunch k h).hostPages = s.hostPages := rfl
@[simp] theorem State.putLaunch_xd (s : State) (k : Nat) (x : Launch) : (s.putLaunch k x).xd = s.xd := rfl
@[simp] theorem State.modLaunch_xd (s : State) (k : Nat) (h : Launch → Launch) : (s.modLaunch k h).xd = s.xd := rfl
@[simp] theorem State.putLaunch_inputs (s : State) (k : Nat) (x : Launch) : (s.putLaunch k x).inputs = s.inputs := rfl
@[simp] theorem State.modLaunch_inputs (s : State) (k : Nat) (h : Launch → Launch) : (s.modLaunch k h).inputs = s.inputs := rfl
@[simp] theorem State.putLaunch_cur (s : State) (k : Nat) (x : Launch) : (s.putLaunch k x).cur = s.cur := rfl
@[simp] theorem State.modLaunch_cur (s : State) (k : Nat) (h : Launch → Launch) : (s.modLaunch k h).cur = s.cur := rfl
@[simp] theorem State.putLaunch_ir (s : State) (k : Nat) (x : Launch) : (s.putLaunch k x).ir = s.ir := rfl
@[simp] theorem State.modLaunch_ir (s : State) (k : Nat) (h : Launch → Launch) : (s.modLaunch k h).ir = s.ir := rfl
@[simp] theorem State.putLaunch_len (s : State) (k : Nat) (x : Launch) : (s.putLaunch k x).len = s.len := rfl
@[simp] theorem State.modLaunch_len (s : State) (k : Nat) (h : Launch → Launch) : (s.modLaunch k h).len = s.len := rfl
@[simp] theorem State.putLaunch_ev (s : State) (k : Nat) (x : Launch) : (s.putLaunch k x).ev = s.ev := rfl
@[simp] theorem State.modLaunch_ev (s : State) (k : Nat) (h : Launch → Launch) : (s.modLaunch k h).ev = s.ev := rfl
@[simp] theorem State.putLaunch_agenda (s : State) (k : Nat) (x : Launch) : (s.putLaunch k x).agenda = s.agenda := rfl
@[simp] theorem State.modLaunch_agenda (s : State) (k : Nat) (h : Launch → Launch) : (s.modLaunch k h).agenda = s.agenda := rfl
@[simp] theorem State.putLaunch_lastPts (s : State) (k : Nat) (x : Launch) : (s.putLaunch k x).lastPts = s.lastPts := rfl
@[simp] theorem State.modLaunch_lastPts (s : State) (k : Nat) (h : Launch → Launch) : (s.modLaunch k h).lastPts = s.lastPts := rfl
@[simp] theorem State.putLaunch_lastRefill (s : State) (k : Nat) (x : Launch) : (s.putLaunch k x).lastRefill = s.lastRefill := rfl
@[simp] theorem State.modLaunch_lastRefill (s : State) (k : Nat) (h : Launch → Launch) : (s.modLaunch k h).lastRefill = s.lastRefill := rfl
@[simp] theorem State.putLaunch_issued (s : State) (k : Nat) (x : Launch) : (s.putLaunch k x).issued = s.issued := rfl
@[simp] theorem State.modLaunch_issued (s : State) (k : Nat) (h : Launch → Launch) : (s.modLaunch k h).issued = s.issued := rfl
@[simp] theorem State.putLaunch_polled (s : State) (k : Nat) (x : Launch) : (s.putLaunch k x).polled = s.polled := rfl
@[simp] theorem State.putLaunch_passed (s : State) (k : Nat) (x : Launch) : (s.putLaunch k x).passed = s.passed := rfl
@[simp] theorem State.putLaunch_after (s : State) (k : Nat) (x : Launch) : (s.putLaunch k x).after = s.after := rfl
@[simp] theorem State.putLaunch_owners (s : State) (k : Nat) (x : Launch) : (s.putLaunch k x).owners = s.owners := rfl
@[simp] theorem State.putLaunch_dram (s : State) (k : Nat) (x : Launch) : (s.putLaunch k x).dram = s.dram := rfl
@[simp] theorem State.modLaunch_polled (s : State) (k : Nat) (h : Launch → Launch) : (s.modLaunch k h).polled = s.polled := rfl
@[simp] theorem State.modLaunch_passed (s : State) (k : Nat) (h : Launch → Launch) : (s.modLaunch k h).passed = s.passed := rfl
@[simp] theorem State.modLaunch_after (s : State) (k : Nat) (h : Launch → Launch) : (s.modLaunch k h).after = s.after := rfl
@[simp] theorem State.modLaunch_owners (s : State) (k : Nat) (h : Launch → Launch) : (s.modLaunch k h).owners = s.owners := rfl
@[simp] theorem State.modLaunch_dram (s : State) (k : Nat) (h : Launch → Launch) : (s.modLaunch k h).dram = s.dram := rfl

theorem State.putLaunch_get (s : State) (k j : Nat) (x : Launch) : (s.putLaunch k x).launch j = if j = k then x else s.launch j := by
  simp [State.putLaunch, State.launch]
theorem State.modLaunch_get (s : State) (k j : Nat) (h : Launch → Launch) :
    (s.modLaunch k h).launch j = if j = k then h (s.launch k) else s.launch j := State.putLaunch_get ..
@[simp] theorem State.putLaunch_thread (s : State) (k j : Nat) (x : Launch) : (s.putLaunch k x).thread j = s.thread j := rfl
@[simp] theorem State.modLaunch_thread (s : State) (k j : Nat) (h : Launch → Launch) : (s.modLaunch k h).thread j = s.thread j := rfl
@[simp] theorem State.putLaunch_wave (s : State) (k j : Nat) (x : Launch) : (s.putLaunch k x).wave j = s.wave j := rfl
@[simp] theorem State.modLaunch_wave (s : State) (k j : Nat) (h : Launch → Launch) : (s.modLaunch k h).wave j = s.wave j := rfl
@[simp] theorem State.putLaunch_crew (s : State) (k j : Nat) (x : Launch) : (s.putLaunch k x).crew j = s.crew j := rfl
@[simp] theorem State.modLaunch_crew (s : State) (k j : Nat) (h : Launch → Launch) : (s.modLaunch k h).crew j = s.crew j := rfl
@[simp] theorem State.putLaunch_die (s : State) (k j : Nat) (x : Launch) : (s.putLaunch k x).die j = s.die j := rfl
@[simp] theorem State.modLaunch_die (s : State) (k j : Nat) (h : Launch → Launch) : (s.modLaunch k h).die j = s.die j := rfl
@[simp] theorem State.putLaunch_instanceOf (s : State) (k j : Nat) (x : Launch) : (s.putLaunch k x).instance' j = s.instance' j := rfl
@[simp] theorem State.modLaunch_instanceOf (s : State) (k j : Nat) (h : Launch → Launch) : (s.modLaunch k h).instance' j = s.instance' j := rfl
@[simp] theorem State.putLaunch_pipeline (s : State) (k j : Nat) (x : Launch) : (s.putLaunch k x).pipeline j = s.pipeline j := rfl
@[simp] theorem State.modLaunch_pipeline (s : State) (k j : Nat) (h : Launch → Launch) : (s.modLaunch k h).pipeline j = s.pipeline j := rfl

/-! ### putInstance and modInstance -/

@[simp] theorem State.putInstance_clock (s : State) (k : Nat) (x : Instance) : (s.putInstance k x).clock = s.clock := rfl
@[simp] theorem State.modInstance_clock (s : State) (k : Nat) (h : Instance → Instance) : (s.modInstance k h).clock = s.clock := rfl
@[simp] theorem State.putInstance_fresh (s : State) (k : Nat) (x : Instance) : (s.putInstance k x).fresh = s.fresh := rfl
@[simp] theorem State.modInstance_fresh (s : State) (k : Nat) (h : Instance → Instance) : (s.modInstance k h).fresh = s.fresh := rfl
@[simp] theorem State.putInstance_mem (s : State) (k : Nat) (x : Instance) : (s.putInstance k x).mem = s.mem := rfl
@[simp] theorem State.modInstance_mem (s : State) (k : Nat) (h : Instance → Instance) : (s.modInstance k h).mem = s.mem := rfl
@[simp] theorem State.putInstance_tags (s : State) (k : Nat) (x : Instance) : (s.putInstance k x).tags = s.tags := rfl
@[simp] theorem State.modInstance_tags (s : State) (k : Nat) (h : Instance → Instance) : (s.modInstance k h).tags = s.tags := rfl
@[simp] theorem State.putInstance_poison (s : State) (k : Nat) (x : Instance) : (s.putInstance k x).poison = s.poison := rfl
@[simp] theorem State.modInstance_poison (s : State) (k : Nat) (h : Instance → Instance) : (s.modInstance k h).poison = s.poison := rfl
@[simp] theorem State.putInstance_lines (s : State) (k : Nat) (x : Instance) : (s.putInstance k x).lines = s.lines := rfl
@[simp] theorem State.modInstance_lines (s : State) (k : Nat) (h : Instance → Instance) : (s.modInstance k h).lines = s.lines := rfl
@[simp] theorem State.putInstance_directory (s : State) (k : Nat) (x : Instance) : (s.putInstance k x).directory = s.directory := rfl
@[simp] theorem State.modInstance_directory (s : State) (k : Nat) (h : Instance → Instance) : (s.modInstance k h).directory = s.directory := rfl
@[simp] theorem State.putInstance_dies (s : State) (k : Nat) (x : Instance) : (s.putInstance k x).dies = s.dies := rfl
@[simp] theorem State.modInstance_dies (s : State) (k : Nat) (h : Instance → Instance) : (s.modInstance k h).dies = s.dies := rfl
@[simp] theorem State.putInstance_crews (s : State) (k : Nat) (x : Instance) : (s.putInstance k x).crews = s.crews := rfl
@[simp] theorem State.modInstance_crews (s : State) (k : Nat) (h : Instance → Instance) : (s.modInstance k h).crews = s.crews := rfl
@[simp] theorem State.putInstance_waves (s : State) (k : Nat) (x : Instance) : (s.putInstance k x).waves = s.waves := rfl
@[simp] theorem State.modInstance_waves (s : State) (k : Nat) (h : Instance → Instance) : (s.modInstance k h).waves = s.waves := rfl
@[simp] theorem State.putInstance_threads (s : State) (k : Nat) (x : Instance) : (s.putInstance k x).threads = s.threads := rfl
@[simp] theorem State.modInstance_threads (s : State) (k : Nat) (h : Instance → Instance) : (s.modInstance k h).threads = s.threads := rfl
@[simp] theorem State.putInstance_accesses (s : State) (k : Nat) (x : Instance) : (s.putInstance k x).accesses = s.accesses := rfl
@[simp] theorem State.modInstance_accesses (s : State) (k : Nat) (h : Instance → Instance) : (s.modInstance k h).accesses = s.accesses := rfl
@[simp] theorem State.putInstance_launches (s : State) (k : Nat) (x : Instance) : (s.putInstance k x).launches = s.launches := rfl
@[simp] theorem State.modInstance_launches (s : State) (k : Nat) (h : Instance → Instance) : (s.modInstance k h).launches = s.launches := rfl
@[simp] theorem State.putInstance_instances (s : State) (k : Nat) (x : Instance) : (s.putInstance k x).instances = tput s.instances k x := rfl
@[simp] theorem State.modInstance_instances (s : State) (k : Nat) (h : Instance → Instance) : (s.modInstance k h).instances = tput s.instances k (h (s.instance' k)) := rfl
@[simp] theorem State.putInstance_pipelines (s : State) (k : Nat) (x : Instance) : (s.putInstance k x).pipelines = s.pipelines := rfl
@[simp] theorem State.modInstance_pipelines (s : State) (k : Nat) (h : Instance → Instance) : (s.modInstance k h).pipelines = s.pipelines := rfl
@[simp] theorem State.putInstance_packets (s : State) (k : Nat) (x : Instance) : (s.putInstance k x).packets = s.packets := rfl
@[simp] theorem State.modInstance_packets (s : State) (k : Nat) (h : Instance → Instance) : (s.modInstance k h).packets = s.packets := rfl
@[simp] theorem State.putInstance_hostPages (s : State) (k : Nat) (x : Instance) : (s.putInstance k x).hostPages = s.hostPages := rfl
@[simp] theorem State.modInstance_hostPages (s : State) (k : Nat) (h : Instance → Instance) : (s.modInstance k h).hostPages = s.hostPages := rfl
@[simp] theorem State.putInstance_xd (s : State) (k : Nat) (x : Instance) : (s.putInstance k x).xd = s.xd := rfl
@[simp] theorem State.modInstance_xd (s : State) (k : Nat) (h : Instance → Instance) : (s.modInstance k h).xd = s.xd := rfl
@[simp] theorem State.putInstance_inputs (s : State) (k : Nat) (x : Instance) : (s.putInstance k x).inputs = s.inputs := rfl
@[simp] theorem State.modInstance_inputs (s : State) (k : Nat) (h : Instance → Instance) : (s.modInstance k h).inputs = s.inputs := rfl
@[simp] theorem State.putInstance_cur (s : State) (k : Nat) (x : Instance) : (s.putInstance k x).cur = s.cur := rfl
@[simp] theorem State.modInstance_cur (s : State) (k : Nat) (h : Instance → Instance) : (s.modInstance k h).cur = s.cur := rfl
@[simp] theorem State.putInstance_ir (s : State) (k : Nat) (x : Instance) : (s.putInstance k x).ir = s.ir := rfl
@[simp] theorem State.modInstance_ir (s : State) (k : Nat) (h : Instance → Instance) : (s.modInstance k h).ir = s.ir := rfl
@[simp] theorem State.putInstance_len (s : State) (k : Nat) (x : Instance) : (s.putInstance k x).len = s.len := rfl
@[simp] theorem State.modInstance_len (s : State) (k : Nat) (h : Instance → Instance) : (s.modInstance k h).len = s.len := rfl
@[simp] theorem State.putInstance_ev (s : State) (k : Nat) (x : Instance) : (s.putInstance k x).ev = s.ev := rfl
@[simp] theorem State.modInstance_ev (s : State) (k : Nat) (h : Instance → Instance) : (s.modInstance k h).ev = s.ev := rfl
@[simp] theorem State.putInstance_agenda (s : State) (k : Nat) (x : Instance) : (s.putInstance k x).agenda = s.agenda := rfl
@[simp] theorem State.modInstance_agenda (s : State) (k : Nat) (h : Instance → Instance) : (s.modInstance k h).agenda = s.agenda := rfl
@[simp] theorem State.putInstance_lastPts (s : State) (k : Nat) (x : Instance) : (s.putInstance k x).lastPts = s.lastPts := rfl
@[simp] theorem State.modInstance_lastPts (s : State) (k : Nat) (h : Instance → Instance) : (s.modInstance k h).lastPts = s.lastPts := rfl
@[simp] theorem State.putInstance_lastRefill (s : State) (k : Nat) (x : Instance) : (s.putInstance k x).lastRefill = s.lastRefill := rfl
@[simp] theorem State.modInstance_lastRefill (s : State) (k : Nat) (h : Instance → Instance) : (s.modInstance k h).lastRefill = s.lastRefill := rfl
@[simp] theorem State.putInstance_issued (s : State) (k : Nat) (x : Instance) : (s.putInstance k x).issued = s.issued := rfl
@[simp] theorem State.modInstance_issued (s : State) (k : Nat) (h : Instance → Instance) : (s.modInstance k h).issued = s.issued := rfl
@[simp] theorem State.putInstance_polled (s : State) (k : Nat) (x : Instance) : (s.putInstance k x).polled = s.polled := rfl
@[simp] theorem State.putInstance_passed (s : State) (k : Nat) (x : Instance) : (s.putInstance k x).passed = s.passed := rfl
@[simp] theorem State.putInstance_after (s : State) (k : Nat) (x : Instance) : (s.putInstance k x).after = s.after := rfl
@[simp] theorem State.putInstance_owners (s : State) (k : Nat) (x : Instance) : (s.putInstance k x).owners = s.owners := rfl
@[simp] theorem State.putInstance_dram (s : State) (k : Nat) (x : Instance) : (s.putInstance k x).dram = s.dram := rfl
@[simp] theorem State.modInstance_polled (s : State) (k : Nat) (h : Instance → Instance) : (s.modInstance k h).polled = s.polled := rfl
@[simp] theorem State.modInstance_passed (s : State) (k : Nat) (h : Instance → Instance) : (s.modInstance k h).passed = s.passed := rfl
@[simp] theorem State.modInstance_after (s : State) (k : Nat) (h : Instance → Instance) : (s.modInstance k h).after = s.after := rfl
@[simp] theorem State.modInstance_owners (s : State) (k : Nat) (h : Instance → Instance) : (s.modInstance k h).owners = s.owners := rfl
@[simp] theorem State.modInstance_dram (s : State) (k : Nat) (h : Instance → Instance) : (s.modInstance k h).dram = s.dram := rfl

theorem State.putInstance_get (s : State) (k j : Nat) (x : Instance) : (s.putInstance k x).instance' j = if j = k then x else s.instance' j := by
  simp [State.putInstance, State.instance']
theorem State.modInstance_get (s : State) (k j : Nat) (h : Instance → Instance) :
    (s.modInstance k h).instance' j = if j = k then h (s.instance' k) else s.instance' j := State.putInstance_get ..
@[simp] theorem State.putInstance_thread (s : State) (k j : Nat) (x : Instance) : (s.putInstance k x).thread j = s.thread j := rfl
@[simp] theorem State.modInstance_thread (s : State) (k j : Nat) (h : Instance → Instance) : (s.modInstance k h).thread j = s.thread j := rfl
@[simp] theorem State.putInstance_wave (s : State) (k j : Nat) (x : Instance) : (s.putInstance k x).wave j = s.wave j := rfl
@[simp] theorem State.modInstance_wave (s : State) (k j : Nat) (h : Instance → Instance) : (s.modInstance k h).wave j = s.wave j := rfl
@[simp] theorem State.putInstance_crew (s : State) (k j : Nat) (x : Instance) : (s.putInstance k x).crew j = s.crew j := rfl
@[simp] theorem State.modInstance_crew (s : State) (k j : Nat) (h : Instance → Instance) : (s.modInstance k h).crew j = s.crew j := rfl
@[simp] theorem State.putInstance_die (s : State) (k j : Nat) (x : Instance) : (s.putInstance k x).die j = s.die j := rfl
@[simp] theorem State.modInstance_die (s : State) (k j : Nat) (h : Instance → Instance) : (s.modInstance k h).die j = s.die j := rfl
@[simp] theorem State.putInstance_launch (s : State) (k j : Nat) (x : Instance) : (s.putInstance k x).launch j = s.launch j := rfl
@[simp] theorem State.modInstance_launch (s : State) (k j : Nat) (h : Instance → Instance) : (s.modInstance k h).launch j = s.launch j := rfl
@[simp] theorem State.putInstance_pipeline (s : State) (k j : Nat) (x : Instance) : (s.putInstance k x).pipeline j = s.pipeline j := rfl
@[simp] theorem State.modInstance_pipeline (s : State) (k j : Nat) (h : Instance → Instance) : (s.modInstance k h).pipeline j = s.pipeline j := rfl

/-! ### putPipeline and modPipeline -/

@[simp] theorem State.putPipeline_clock (s : State) (k : Nat) (x : Pipeline) : (s.putPipeline k x).clock = s.clock := rfl
@[simp] theorem State.putPipeline_fresh (s : State) (k : Nat) (x : Pipeline) : (s.putPipeline k x).fresh = s.fresh := rfl
@[simp] theorem State.putPipeline_mem (s : State) (k : Nat) (x : Pipeline) : (s.putPipeline k x).mem = s.mem := rfl
@[simp] theorem State.putPipeline_tags (s : State) (k : Nat) (x : Pipeline) : (s.putPipeline k x).tags = s.tags := rfl
@[simp] theorem State.putPipeline_poison (s : State) (k : Nat) (x : Pipeline) : (s.putPipeline k x).poison = s.poison := rfl
@[simp] theorem State.putPipeline_lines (s : State) (k : Nat) (x : Pipeline) : (s.putPipeline k x).lines = s.lines := rfl
@[simp] theorem State.putPipeline_directory (s : State) (k : Nat) (x : Pipeline) : (s.putPipeline k x).directory = s.directory := rfl
@[simp] theorem State.putPipeline_dies (s : State) (k : Nat) (x : Pipeline) : (s.putPipeline k x).dies = s.dies := rfl
@[simp] theorem State.putPipeline_crews (s : State) (k : Nat) (x : Pipeline) : (s.putPipeline k x).crews = s.crews := rfl
@[simp] theorem State.putPipeline_waves (s : State) (k : Nat) (x : Pipeline) : (s.putPipeline k x).waves = s.waves := rfl
@[simp] theorem State.putPipeline_threads (s : State) (k : Nat) (x : Pipeline) : (s.putPipeline k x).threads = s.threads := rfl
@[simp] theorem State.putPipeline_accesses (s : State) (k : Nat) (x : Pipeline) : (s.putPipeline k x).accesses = s.accesses := rfl
@[simp] theorem State.putPipeline_launches (s : State) (k : Nat) (x : Pipeline) : (s.putPipeline k x).launches = s.launches := rfl
@[simp] theorem State.putPipeline_instances (s : State) (k : Nat) (x : Pipeline) : (s.putPipeline k x).instances = s.instances := rfl
@[simp] theorem State.putPipeline_pipelines (s : State) (k : Nat) (x : Pipeline) : (s.putPipeline k x).pipelines = tput s.pipelines k x := rfl
@[simp] theorem State.putPipeline_packets (s : State) (k : Nat) (x : Pipeline) : (s.putPipeline k x).packets = s.packets := rfl
@[simp] theorem State.putPipeline_hostPages (s : State) (k : Nat) (x : Pipeline) : (s.putPipeline k x).hostPages = s.hostPages := rfl
@[simp] theorem State.putPipeline_xd (s : State) (k : Nat) (x : Pipeline) : (s.putPipeline k x).xd = s.xd := rfl
@[simp] theorem State.putPipeline_inputs (s : State) (k : Nat) (x : Pipeline) : (s.putPipeline k x).inputs = s.inputs := rfl
@[simp] theorem State.putPipeline_cur (s : State) (k : Nat) (x : Pipeline) : (s.putPipeline k x).cur = s.cur := rfl
@[simp] theorem State.putPipeline_ir (s : State) (k : Nat) (x : Pipeline) : (s.putPipeline k x).ir = s.ir := rfl
@[simp] theorem State.putPipeline_len (s : State) (k : Nat) (x : Pipeline) : (s.putPipeline k x).len = s.len := rfl
@[simp] theorem State.putPipeline_ev (s : State) (k : Nat) (x : Pipeline) : (s.putPipeline k x).ev = s.ev := rfl
@[simp] theorem State.putPipeline_agenda (s : State) (k : Nat) (x : Pipeline) : (s.putPipeline k x).agenda = s.agenda := rfl
@[simp] theorem State.putPipeline_lastPts (s : State) (k : Nat) (x : Pipeline) : (s.putPipeline k x).lastPts = s.lastPts := rfl
@[simp] theorem State.putPipeline_lastRefill (s : State) (k : Nat) (x : Pipeline) : (s.putPipeline k x).lastRefill = s.lastRefill := rfl
@[simp] theorem State.putPipeline_issued (s : State) (k : Nat) (x : Pipeline) : (s.putPipeline k x).issued = s.issued := rfl
@[simp] theorem State.putPipeline_polled (s : State) (k : Nat) (x : Pipeline) : (s.putPipeline k x).polled = s.polled := rfl
@[simp] theorem State.putPipeline_passed (s : State) (k : Nat) (x : Pipeline) : (s.putPipeline k x).passed = s.passed := rfl
@[simp] theorem State.putPipeline_after (s : State) (k : Nat) (x : Pipeline) : (s.putPipeline k x).after = s.after := rfl
@[simp] theorem State.putPipeline_owners (s : State) (k : Nat) (x : Pipeline) : (s.putPipeline k x).owners = s.owners := rfl
@[simp] theorem State.putPipeline_dram (s : State) (k : Nat) (x : Pipeline) : (s.putPipeline k x).dram = s.dram := rfl

theorem State.putPipeline_get (s : State) (k j : Nat) (x : Pipeline) : (s.putPipeline k x).pipeline j = if j = k then x else s.pipeline j := by
  simp [State.putPipeline, State.pipeline]
@[simp] theorem State.putPipeline_thread (s : State) (k j : Nat) (x : Pipeline) : (s.putPipeline k x).thread j = s.thread j := rfl
@[simp] theorem State.putPipeline_wave (s : State) (k j : Nat) (x : Pipeline) : (s.putPipeline k x).wave j = s.wave j := rfl
@[simp] theorem State.putPipeline_crew (s : State) (k j : Nat) (x : Pipeline) : (s.putPipeline k x).crew j = s.crew j := rfl
@[simp] theorem State.putPipeline_die (s : State) (k j : Nat) (x : Pipeline) : (s.putPipeline k x).die j = s.die j := rfl
@[simp] theorem State.putPipeline_launch (s : State) (k j : Nat) (x : Pipeline) : (s.putPipeline k x).launch j = s.launch j := rfl
@[simp] theorem State.putPipeline_instanceOf (s : State) (k j : Nat) (x : Pipeline) : (s.putPipeline k x).instance' j = s.instance' j := rfl

end Sys2Proof.Machine
end

