-- ==== Sys2Proof/Laws/Ops.lean ====
section
/-! SUPPORT. What the shared operations on registers and on the issuing fragment can change: one lemma each. -/

namespace Sys2Proof.Machine

theorem curT_modThread (s : State) (f : Thread → Thread) : (s.modThread s.cur f).curT = f s.curT := by
  simp [State.curT, State.modThread_get]
theorem curW_modThread (s : State) (k : Nat) (f : Thread → Thread) : (s.modThread k f).curW = s.curW := rfl
theorem curW_modWave (s : State) (f : Wave → Wave) : (s.modWave s.curWk f).curW = f s.curW := by
  simp [State.curW, State.curWk, State.modWave_get]
theorem curT_modWave (s : State) (k : Nat) (f : Wave → Wave) : (s.modWave k f).curT = s.curT := rfl

/-- Every frame holds of no change at all. -/
theorem Frame.refl (x : Change) (s : State) : Frame x s s := by
  refine ⟨?_, ?_, ?_, ?_, ?_, ?_, ?_, ?_, rfl, rfl, rfl, rfl, ?_, rfl⟩
  · cases x.traced <;> rfl
  · intros; rfl
  · intros; rfl
  · intros; rfl
  · intros; rfl
  · intros; rfl
  · intros; rfl
  · intros; rfl
  · cases x.traced <;> cases s.curT.rep.isSome <;> rfl

/-- Changes one after the other, while the `REP` of the fragment stands. -/
theorem Frame.trans {x : Change} {s t u : State} (h : Frame x s t) (g : Frame x t u) (hr : t.curT.rep.isSome = s.curT.rep.isSome) :
    Frame x s u := by
  obtain ⟨e, a1, a2, a3, a4, a5, a6, a7, a8, a9, a10, a11, a12, a13⟩ := h
  obtain ⟨e', b1, b2, b3, b4, b5, b6, b7, b8, b9, b10, b11, b12, b13⟩ := g
  have hc : t.cur = s.cur := by rw [e]
  have hk : t.curWk = s.curWk := by simp only [State.curWk, hc]
  have hck : t.curCk = s.curCk := by simp only [State.curCk, hk]
  refine ⟨?_, ?_, ?_, ?_, ?_, ?_, ?_, ?_, b8.trans a8, b9.trans a9, b10.trans a10, b11.trans a11, ?_, ?_⟩
  · rw [e', e]; cases x.traced <;> rfl
  · intro k hk'; rw [b1 k (by rwa [hc]), a1 k hk']
  · intro k hk'; rw [b2 k (by rwa [hk]), a2 k hk']
  · intro k hk'; rw [b3 k (by rwa [hck]), a3 k hk']
  · intro r hr'; rw [b4 r hr', a4 r hr']
  · intro r hr'; rw [b5 r hr', a5 r hr']
  · intro r L hr' hL; rw [b6 r L hr' hL, a6 r L hr' hL]
  · intro r hr'; rw [b7 r hr', a7 r hr']
  · rw [b12, a12, hr]
    cases x.traced <;> cases s.curT.rep.isSome <;> rfl
  · rw [b13, a13]

/-- A frame for fewer registers gives the frame for more. -/
theorem Frame.mono {x y : Change} {s t : State} (h : Frame x s t) (hs : ∀ r ∈ x.s, r ∈ y.s) (hc : ∀ r ∈ x.c, r ∈ y.c)
    (hv : ∀ r ∈ x.v, r ∈ y.v) (hp : ∀ r ∈ x.p, r ∈ y.p) (ht : x.traced = y.traced) : Frame y s t := by
  obtain ⟨e, a1, a2, a3, a4, a5, a6, a7, a8⟩ := h
  refine ⟨by rwa [← ht], a1, a2, a3, fun r hr => a4 r fun h => hr (hs r h), fun r hr => a5 r fun h => hr (hc r h),
    fun r L hr => a6 r L fun h => hr (hv r h), fun r hr => a7 r fun h => hr (hp r h), by rwa [← ht]⟩

/-- An update of the current fragment that keeps its registers, mask, joins, age and state. -/
theorem frame_modThread {x : Change} {s : State} {f : Thread → Thread} (hs : ∀ r, r ∉ x.s → (f s.curT).sreg r = s.curT.sreg r)
    (hc : ∀ r, r ∉ x.c → (f s.curT).creg r = s.curT.creg r)
    (h : (f s.curT).mask = s.curT.mask ∧ (f s.curT).joins = s.curT.joins ∧ (f s.curT).age = s.curT.age ∧
      (f s.curT).state = s.curT.state) : Frame x s (s.modThread s.cur f) := by
  refine ⟨?_, ?_, ?_, ?_, ?_, ?_, ?_, ?_, ?_, ?_, ?_, ?_, ?_, rfl⟩
  · cases x.traced <;> rfl
  · intro k hk; simp [State.modThread_get, hk]
  · intros; rfl
  · intros; rfl
  · intro r hr; rw [curT_modThread]; exact hs r hr
  · intro r hr; rw [curT_modThread]; exact hc r hr
  · intros; rfl
  · intros; rfl
  · rw [curT_modThread]; exact h.1
  · rw [curT_modThread]; exact h.2.1
  · rw [curT_modThread]; exact h.2.2.1
  · rw [curT_modThread]; exact h.2.2.2
  · rw [curW_modThread]; cases x.traced <;> cases s.curT.rep.isSome <;> rfl

/-- An update of the current wave that keeps all but registers, late writes and, in a `REP`, `REPIDX`. -/
theorem frame_modWave {x : Change} {s : State} {f : Wave → Wave} (hv : ∀ r L, r ∉ x.v → L < 32 → (f s.curW).vreg r L = s.curW.vreg r L)
    (hp : ∀ r, r ∉ x.p → (f s.curW).preg r = s.curW.preg r)
    (h : f s.curW = { s.curW with
      v := (f s.curW).v, p := (f s.curW).p, late := (f s.curW).late
      repidx := if s.curT.rep.isSome then (f s.curW).repidx else s.curW.repidx }) :
    Frame x s (s.modWave s.curWk f) := by
  refine ⟨?_, ?_, ?_, ?_, ?_, ?_, ?_, ?_, rfl, rfl, rfl, rfl, ?_, rfl⟩
  · cases x.traced <;> rfl
  · intros; rfl
  · intro k hk; simp [State.modWave_get, hk]
  · intros; rfl
  · intros; rfl
  · intros; rfl
  · intro r L hr hL; rw [curW_modWave]; exact hv r L hr hL
  · intro r hr; rw [curW_modWave]; exact hp r hr
  · rw [curW_modWave, h]
    cases x.traced <;> cases s.curT.rep.isSome <;> rfl

/-- An update of the current fragment and then of its wave. -/
theorem frame_both {x : Change} {s : State} {f : Thread → Thread} {g : Wave → Wave}
    (hs : ∀ r, r ∉ x.s → (f s.curT).sreg r = s.curT.sreg r) (hc : ∀ r, r ∉ x.c → (f s.curT).creg r = s.curT.creg r)
    (hv : ∀ r L, r ∉ x.v → L < 32 → (g s.curW).vreg r L = s.curW.vreg r L) (hp : ∀ r, r ∉ x.p → (g s.curW).preg r = s.curW.preg r)
    (h : (f s.curT).mask = s.curT.mask ∧ (f s.curT).joins = s.curT.joins ∧ (f s.curT).age = s.curT.age ∧
      (f s.curT).state = s.curT.state)
    (hw : g s.curW = { s.curW with
      v := (g s.curW).v, p := (g s.curW).p, late := (g s.curW).late
      repidx := if s.curT.rep.isSome then (g s.curW).repidx else s.curW.repidx }) :
    Frame x s ((s.modThread s.cur f).modWave s.curWk g) := by
  have ht : ((s.modThread s.cur f).modWave s.curWk g).curT = f s.curT := curT_modThread ..
  have hg : ((s.modThread s.cur f).modWave s.curWk g).curW = g s.curW := curW_modWave (s.modThread s.cur f) g
  refine ⟨?_, ?_, ?_, ?_, ?_, ?_, ?_, ?_, ?_, ?_, ?_, ?_, ?_, rfl⟩
  · cases x.traced <;> rfl
  · intro k hk; simp [State.modThread_get, hk]
  · intro k hk; simp [State.modWave_get, hk]
  · intros; rfl
  · intro r hr; rw [ht]; exact hs r hr
  · intro r hr; rw [ht]; exact hc r hr
  · intro r L hr hL; rw [hg]; exact hv r L hr hL
  · intro r hr; rw [hg]; exact hp r hr
  · rw [ht]; exact h.1
  · rw [ht]; exact h.2.1
  · rw [ht]; exact h.2.2.1
  · rw [ht]; exact h.2.2.2
  · rw [hg, hw]; cases x.traced <;> cases s.curT.rep.isSome <;> rfl

/-- Completing an instruction changes nothing but where and when the fragment goes on, and ends a `REP` after its last iteration. -/
theorem finish_spec (s : State) (x : Change) : Frame x s (finish s) ∧ Completes s (finish s) ∧
    (∀ r, (finish s).curT.sreg r = s.curT.sreg r) ∧ (∀ r, (finish s).curT.creg r = s.curT.creg r) ∧
    (finish s).curW.v = s.curW.v ∧ (finish s).curW.p = s.curW.p := by
  unfold finish
  split
  · next h =>
    have ht : (jumpTo s (nextPc s)).curT = s.curT.issuedAt s.clock s.ir.stall.toNat (nextPc s) := curT_modThread ..
    exact ⟨frame_modThread (fun _ _ => rfl) (fun _ _ => rfl) ⟨rfl, rfl, rfl, rfl⟩, fun _ => by rw [ht]; rfl,
      fun r => by rw [ht]; rfl, fun r => by rw [ht]; rfl, rfl, rfl⟩
  · next rep h =>
    split
    · refine ⟨frame_modThread (fun _ _ => rfl) (fun _ _ => rfl) ⟨rfl, rfl, rfl, rfl⟩, fun h' => by simp [h] at h', ?_, ?_, rfl, rfl⟩
      · intro r; rw [curT_modThread]; rfl
      · intro r; rw [curT_modThread]; rfl
    · let f : Thread → Thread := fun t => { t.issuedAt s.clock s.ir.stall.toNat (nextPc s) with rep := none }
      let g : Wave → Wave := fun w => { w with repidx := 0 }
      have e : (((jumpTo s (nextPc s)).modThread (jumpTo s (nextPc s)).cur (fun t => { t with rep := none })).modWave
          (jumpTo s (nextPc s)).curWk g) = (s.modThread s.cur f).modWave s.curWk g := by
        simp [jumpTo, State.modThread, State.putThread, State.thread, State.curWk, f]
      have ht : ((s.modThread s.cur f).modWave s.curWk g).curT = f s.curT := curT_modThread ..
      have hw : ((s.modThread s.cur f).modWave s.curWk g).curW = g s.curW := curW_modWave (s.modThread s.cur f) g
      show Frame x s (((jumpTo s (nextPc s)).modThread (jumpTo s (nextPc s)).cur (fun t => { t with rep := none })).modWave
          (jumpTo s (nextPc s)).curWk g) ∧ _
      refine ⟨?_, fun h' => by simp [h] at h', fun r => ?_, fun r => ?_, ?_, ?_⟩
      · rw [e]
        exact frame_both (fun _ _ => rfl) (fun _ _ => rfl) (fun _ _ _ _ => rfl) (fun _ _ => rfl) ⟨rfl, rfl, rfl, rfl⟩ (by simp [h, g])
      · exact (congrArg (fun u => u.curT.sreg r) e).trans (by simp only [ht]; rfl)
      · exact (congrArg (fun u => u.curT.creg r) e).trans (by simp only [ht]; rfl)
      · exact (congrArg (fun u => u.curW.v) e).trans (by simp only [hw]; rfl)
      · exact (congrArg (fun u => u.curW.p) e).trans (by simp only [hw]; rfl)

/-- Noting a late write changes nothing but the late writes of the wave. -/
theorem noteLate_frame (s : State) (lt file key mask old : Nat) (x : Change) : Frame x s (noteLate s lt file key mask old) ∧
    (noteLate s lt file key mask old).curT = s.curT ∧ (noteLate s lt file key mask old).cur = s.cur ∧
    (noteLate s lt file key mask old).curW.v = s.curW.v ∧ (noteLate s lt file key mask old).curW.p = s.curW.p := by
  unfold noteLate
  simp only
  refine ⟨frame_modWave (fun _ _ _ _ => rfl) (fun _ _ => rfl) (by cases s.curT.rep.isSome <;> rfl), rfl, rfl, ?_, ?_⟩
  · rw [curW_modWave]
  · rw [curW_modWave]

theorem Thread.sreg_setS (t : Thread) (r j : Nat) (v : Word) :
    (t.setS r v).sreg j = if j = r ∧ r ≠ 0 then v else t.sreg j := by
  by_cases h0 : r = 0
  · subst h0; simp [Thread.setS]
  · by_cases hj : j = 0
    · subst hj; simp [Thread.sreg, Ne.symm h0]
    · simp [Thread.setS, h0, Thread.sreg, hj]

theorem Thread.creg_setC (t : Thread) (r j : Nat) (v : Cap) : (t.setC r v).creg j = if j = r then v else t.creg j := by
  simp [Thread.setC, Thread.creg]

theorem Thread.setS_others (t : Thread) (r : Nat) (v : Word) : (t.setS r v).c = t.c ∧ (t.setS r v).mask = t.mask ∧
    (t.setS r v).joins = t.joins ∧ (t.setS r v).age = t.age ∧ (t.setS r v).state = t.state ∧ (t.setS r v).rep = t.rep ∧
    (t.setS r v).pc = t.pc ∧ (t.setS r v).hold = t.hold := by
  unfold Thread.setS; split <;> exact ⟨rfl, rfl, rfl, rfl, rfl, rfl, rfl, rfl⟩

/-- Writing s[r]: the register reads the value, s0 reads 0, and nothing else changes (R32). -/
theorem writeS_spec (s : State) (lt r : Nat) (v : Word) : Frame { s := [r] } s (writeS s lt r v) ∧
    (writeS s lt r v).curT.sreg r = (if r = 0 then 0 else v) ∧ (writeS s lt r v).curT.rep = s.curT.rep ∧
    (writeS s lt r v).curT.pc = s.curT.pc ∧ (writeS s lt r v).cur = s.cur := by
  unfold writeS
  split
  · next h => subst h; exact ⟨Frame.refl _ s, rfl, rfl, rfl, rfl⟩
  · next h =>
    obtain ⟨f, ht, hc, -, -⟩ := noteLate_frame s lt 0 r (2 ^ 64 - 1) (s.curT.sreg r).toNat { s := [r] }
    generalize noteLate s lt 0 r (2 ^ 64 - 1) (s.curT.sreg r).toNat = u at f ht hc
    rw [← hc]
    have hT := curT_modThread u (fun t => t.setS r v)
    obtain ⟨o1, o2, o3, o4, o5, o6, o7, -⟩ := Thread.setS_others u.curT r v
    refine ⟨f.trans (frame_modThread (fun j hj => ?_) (fun j _ => ?_) ⟨o2, o3, o4, o5⟩) (by rw [ht]), ?_, ?_, ?_, rfl⟩
    · rw [Thread.sreg_setS, if_neg]; rintro ⟨rfl, -⟩; simp at hj
    · simp only [Thread.creg, o1]
    · rw [hT, Thread.sreg_setS]; simp [h]
    · rw [hT, o6, ht]
    · rw [hT, o7, ht]

/-- Writing c[r]: the register reads the value, and nothing else changes. -/
theorem writeC_spec (s : State) (lt r : Nat) (v : Cap) : Frame { c := [r] } s (writeC s lt r v) ∧
    (writeC s lt r v).curT.creg r = v ∧ (writeC s lt r v).curT.rep = s.curT.rep ∧
    (writeC s lt r v).curT.pc = s.curT.pc ∧ (writeC s lt r v).cur = s.cur := by
  unfold writeC
  obtain ⟨f, ht, hc, -, -⟩ := noteLate_frame s lt 3 r (2 ^ 129 - 1) ((s.curT.creg r).raw.toNat + if (s.curT.creg r).tag then 2 ^ 128 else 0) { c := [r] }
  simp only
  generalize noteLate s lt 3 r (2 ^ 129 - 1) _ = u at f ht hc
  rw [← hc]
  have hT := curT_modThread u (fun t => t.setC r v)
  refine ⟨f.trans (frame_modThread (fun j _ => rfl) (fun j hj => ?_) ⟨rfl, rfl, rfl, rfl⟩) (by rw [ht]), ?_, ?_, ?_, rfl⟩
  · rw [Thread.creg_setC, if_neg]; rintro rfl; simp at hj
  · rw [hT, Thread.creg_setC]; simp
  · rw [hT, ← ht]; rfl
  · rw [hT, ← ht]; rfl

theorem Wave.preg_setP (w : Wave) (r j : Nat) (m v : LaneMask) :
    (w.setP r m v).preg j = if j = r ∧ r ≠ 0 then (v &&& m) ||| (w.preg r &&& ~~~m) else w.preg j := by
  by_cases h0 : r = 0
  · subst h0; simp [Wave.setP]
  · by_cases hj : j = 0
    · subst hj; simp [Wave.preg, Ne.symm h0]
    · by_cases h : j = r <;> simp [Wave.setP, h0, Wave.preg, hj, h]

/-- Writing p[r] in the lanes of a mask: they read the value, the others stand, p0 reads 1 in every lane (R32). -/
theorem writeP_spec (s : State) (lt r : Nat) (m v : LaneMask) : Frame { p := [r] } s (writeP s lt r m v) ∧
    (writeP s lt r m v).curW.preg r = (if r = 0 then BitVec.allOnes 32 else (v &&& m) ||| (s.curW.preg r &&& ~~~m)) ∧
    (writeP s lt r m v).curT = s.curT ∧ (writeP s lt r m v).cur = s.cur := by
  unfold writeP
  split
  · next h => subst h; exact ⟨Frame.refl _ s, rfl, rfl, rfl⟩
  · next h =>
    obtain ⟨f, ht, hc, hv, hp⟩ := noteLate_frame s lt 2 r m.toNat (s.curW.preg r).toNat { p := [r] }
    have hk : (noteLate s lt 2 r m.toNat (s.curW.preg r).toNat).curWk = s.curWk := rfl
    generalize noteLate s lt 2 r m.toNat (s.curW.preg r).toNat = u at f ht hc hv hp hk
    rw [← hk]
    have hW := curW_modWave u (fun w => w.setP r m v)
    refine ⟨f.trans (frame_modWave (fun j L _ _ => ?_) (fun j hj => ?_) ?_) (by rw [ht]), ?_, ht, hc⟩
    · unfold Wave.setP; split <;> rfl
    · rw [Wave.preg_setP, if_neg]; rintro ⟨rfl, -⟩; simp at hj
    · unfold Wave.setP; split <;> cases u.curT.rep.isSome <;> rfl
    · rw [hW, Wave.preg_setP]; simp [h, Wave.preg, hp]

theorem Wave.vreg_setV (w : Wave) (r L j M : Nat) (v : Word) (hL : L < 32) (hM : M < 32) :
    (w.setV r L v).vreg j M = if j = r ∧ M = L then v else w.vreg j M := by
  simp only [Wave.setV, Wave.vreg, tget_sput]
  by_cases h : j = r ∧ M = L
  · rw [if_pos (by omega), if_pos h]
  · rw [if_neg (by omega), if_neg h]

theorem merge_none (v o : Word) : merge 0 v o = o := by
  unfold merge
  rw [show v &&& (0 : Word) = 0 from BitVec.and_zero, show (0 : Word) ||| (o &&& ~~~(0 : Word)) = o &&& ~~~(0 : Word) from BitVec.zero_or]
  exact BitVec.and_allOnes

/-- Writing bits of v[r] in a lane. -/
theorem writeV_spec (s : State) (lt r L : Nat) (m v : Word) (hL : L < 32) : Frame { v := [r] } s (writeV s lt r L m v) ∧
    (∀ M, M < 32 → (writeV s lt r L m v).curW.vreg r M = if M = L then merge m v (s.curW.vreg r L) else s.curW.vreg r M) ∧
    (writeV s lt r L m v).curW.p = s.curW.p ∧
    (writeV s lt r L m v).curT = s.curT ∧ (writeV s lt r L m v).cur = s.cur := by
  unfold writeV
  simp only
  split
  · next h => subst h; exact ⟨Frame.refl _ s, fun M _ => by rw [merge_none]; split <;> simp_all, rfl, rfl, rfl⟩
  · next h =>
    obtain ⟨f, ht, hc, hv, hp⟩ := noteLate_frame s lt 1 (32 * r + L) m.toNat (s.curW.vreg r L).toNat { v := [r] }
    have hk : (noteLate s lt 1 (32 * r + L) m.toNat (s.curW.vreg r L).toNat).curWk = s.curWk := rfl
    generalize noteLate s lt 1 (32 * r + L) m.toNat (s.curW.vreg r L).toNat = u at f ht hc hv hp hk
    rw [← hk]
    have hW := curW_modWave u (fun w => w.setV r L (merge m v (w.vreg r L)))
    have hreg : ∀ j M, u.curW.vreg j M = s.curW.vreg j M := fun j M => by simp [Wave.vreg, hv]
    refine ⟨f.trans (frame_modWave (fun j M hj hM => ?_) (fun _ _ => rfl) (by cases u.curT.rep.isSome <;> rfl)) (by rw [ht]), ?_, ?_, ht, hc⟩
    · rw [Wave.vreg_setV _ _ _ _ _ _ hL hM, if_neg]; rintro ⟨rfl, -⟩; simp at hj
    · intro M hM; rw [hW, Wave.vreg_setV _ _ _ _ _ _ hL hM]; simp [hreg]
    · rw [hW]; exact hp

end Sys2Proof.Machine
end

