-- ==== Sys2Proof/Laws/Vector.lean ====
section
/-! SUPPORT. The element loop: what it writes into v[D], and that it changes nothing else. -/

namespace Sys2Proof.Machine

/-- Writing a word under a mask in each lane of a list without repeats. -/
theorem writeVs_spec (s : State) (lt r : Nat) (m f : Nat → Word) (ls : List Nat) (hn : ls.Nodup) (hl : ∀ L ∈ ls, L < 32) :
    Frame { v := [r] } s (ls.foldl (fun u L => writeV u lt r L (m L) (f L)) s) ∧
    (∀ M, M < 32 → (ls.foldl (fun u L => writeV u lt r L (m L) (f L)) s).curW.vreg r M =
      if M ∈ ls then merge (m M) (f M) (s.curW.vreg r M) else s.curW.vreg r M) ∧
    (ls.foldl (fun u L => writeV u lt r L (m L) (f L)) s).curW.p = s.curW.p ∧
    (ls.foldl (fun u L => writeV u lt r L (m L) (f L)) s).curT = s.curT ∧
    (ls.foldl (fun u L => writeV u lt r L (m L) (f L)) s).cur = s.cur := by
  induction ls generalizing s with
  | nil => exact ⟨Frame.refl _ s, fun _ _ => by simp, rfl, rfl, rfl⟩
  | cons L t ih =>
    obtain ⟨hn1, hn2⟩ := List.nodup_cons.mp hn
    obtain ⟨f1, v1, p1, t1, c1⟩ := writeV_spec s lt r L (m L) (f L) (hl L (by simp))
    obtain ⟨f2, v2, p2, t2, c2⟩ := ih (writeV s lt r L (m L) (f L)) hn2 (fun M hM => hl M (by simp [hM]))
    rw [List.foldl_cons]
    refine ⟨f1.trans f2 (by rw [t1]), fun M hM => ?_, p2.trans p1, t2.trans t1, c2.trans c1⟩
    rw [v2 M hM, v1 M hM]
    by_cases h : M = L
    · subst h; simp [hn1]
    · simp [h]

theorem activeLanes_lt (s : State) (w L : Nat) (h : L ∈ activeLanes s w) : L < 32 := by
  simp only [activeLanes, lanesOf, upTo, List.mem_filter, List.mem_range] at h; omega

theorem activeLanes_nodup (s : State) (w : Nat) : (activeLanes s w).Nodup := by
  unfold activeLanes lanesOf upTo
  exact (List.nodup_range.filter _).filter _

/-- The element loop writes into each active lane of v[D] the selected elements of its word, and leaves everything else. -/
theorem writeLanes_spec (s : State) (lt w : Nat) (f : Nat → Word) :
    Frame { v := [s.ir.d.toNat] } s (writeLanes s lt w f) ∧
    (∀ M, M < 32 → (writeLanes s lt w f).curW.vreg s.ir.d.toNat M =
      if M ∈ activeLanes s w then merge (pickMask s.ir (readPreds s w) w M) (f M) (s.curW.vreg s.ir.d.toNat M)
      else s.curW.vreg s.ir.d.toNat M) ∧
    (writeLanes s lt w f).curW.p = s.curW.p ∧ (writeLanes s lt w f).curT = s.curT ∧ (writeLanes s lt w f).cur = s.cur :=
  writeVs_spec s lt s.ir.d.toNat (pickMask s.ir (readPreds s w) w) f _ (activeLanes_nodup s w) (fun _ h => activeLanes_lt s w _ h)

end Sys2Proof.Machine
end

