-- ==== Sys2Proof/Laws/Elements.lean ====
section
/-! SUPPORT. Elements of a word, bit by bit: what a replaced element, a built word and a masked write hold. -/

namespace Sys2Proof.Machine

theorem elem_testBit (w k : Nat) (x : Word) (j : Nat) : (elem w k x).testBit j = (decide (j < w) && x.getLsbD (w * k + j)) := by
  rw [elem, bits, Nat.testBit_mod_two_pow, Nat.testBit_div_two_pow, Nat.add_comm, BitVec.getLsbD]

theorem elem_lt (w k : Nat) (x : Word) : elem w k x < 2 ^ w := Nat.mod_lt _ (by positivity)

/-- The bits of a number with `w` of them at `p` replaced. -/
theorem replaced_testBit (n v p w i : Nat) : (n - bits n p w * 2 ^ p + v % 2 ^ w * 2 ^ p).testBit i =
    if p ≤ i ∧ i < p + w then v.testBit (i - p) else n.testBit i := by
  have hs : n = 2 ^ (p + w) * (n / 2 ^ (p + w)) + (2 ^ p * bits n p w + n % 2 ^ p) := by
    have h1 := Nat.div_add_mod n (2 ^ p)
    have h2 := Nat.div_add_mod (n / 2 ^ p) (2 ^ w)
    rw [Nat.div_div_eq_div_mul, ← Nat.pow_add] at h2
    rw [bits, Nat.pow_add]
    calc n = 2 ^ p * (n / 2 ^ p) + n % 2 ^ p := h1.symm
      _ = 2 ^ p * (2 ^ w * (n / 2 ^ (p + w)) + n / 2 ^ p % 2 ^ w) + n % 2 ^ p := by rw [h2]
      _ = _ := by rw [Nat.pow_add]; ring
  have hb : bits n p w < 2 ^ w := Nat.mod_lt _ (by positivity)
  have hl : n % 2 ^ p < 2 ^ p := Nat.mod_lt _ (by positivity)
  have hv : v % 2 ^ w < 2 ^ w := Nat.mod_lt _ (by positivity)
  have lt (e : Nat) (he : e < 2 ^ w) : 2 ^ p * e + n % 2 ^ p < 2 ^ (p + w) := by
    rw [Nat.pow_add]
    calc 2 ^ p * e + n % 2 ^ p < 2 ^ p * e + 2 ^ p := by omega
      _ = 2 ^ p * (e + 1) := by ring
      _ ≤ 2 ^ p * 2 ^ w := Nat.mul_le_mul_left _ he
  have hr : n - bits n p w * 2 ^ p + v % 2 ^ w * 2 ^ p = 2 ^ (p + w) * (n / 2 ^ (p + w)) + (2 ^ p * (v % 2 ^ w) + n % 2 ^ p) := by
    have h1 : bits n p w * 2 ^ p = 2 ^ p * bits n p w := Nat.mul_comm _ _
    have h2 : v % 2 ^ w * 2 ^ p = 2 ^ p * (v % 2 ^ w) := Nat.mul_comm _ _
    omega
  rw [hr]
  conv_rhs => rw [hs]
  simp only [Nat.testBit_two_pow_mul_add _ (lt _ hv), Nat.testBit_two_pow_mul_add _ (lt _ hb), Nat.testBit_two_pow_mul_add _ hl,
    Nat.testBit_mod_two_pow, Nat.testBit_div_two_pow]
  by_cases h2 : i < p
  · simp [h2, show i < p + w by omega, show ¬ p ≤ i by omega]
  · by_cases h1 : i < p + w
    · simp [h1, h2, show p ≤ i by omega, show i - p < w by omega]
    · simp [h1]

theorem setElem_getLsbD (w k : Nat) (x : Word) (v i : Nat) (hi : i < 64) : (setElem w k x v).getLsbD i =
    if w * k ≤ i ∧ i < w * k + w then v.testBit (i - w * k) else x.getLsbD i := by
  rw [setElem, word, BitVec.getLsbD_ofNat, replaced_testBit]; simp [hi, BitVec.getLsbD]

theorem elemMask_getLsbD (w k i : Nat) (hi : i < 64) : (elemMask w k).getLsbD i = decide (w * k ≤ i ∧ i < w * k + w) := by
  rw [elemMask, word, BitVec.getLsbD_ofNat, Nat.testBit_mul_two_pow, Nat.testBit_two_pow_sub_one]
  by_cases h1 : w * k ≤ i <;> simp [h1, hi]; omega

/-- A bit that lies in element `k` lies in no other. -/
theorem element_unique {w i j k : Nat} (h1 : w * k ≤ i ∧ i < w * k + w) (h2 : w * j ≤ i ∧ i < w * j + w) : j = k := by
  have at' (m : Nat) (h : w * m ≤ i ∧ i < w * m + w) : i / w = m := by
    rw [Nat.div_eq_iff (by omega), Nat.mul_comm m w]; omega
  rw [← at' k h1, ← at' j h2]

theorem setElems_getLsbD (w : Nat) (f : Nat → Nat) (n i : Nat) (hi : i < 64) (hw : 0 < w) (x : Word) :
    ((List.range n).foldl (fun r k => setElem w k r (f k)) x).getLsbD i =
    if i / w < n then (f (i / w)).testBit (i % w) else x.getLsbD i := by
  induction n with
  | zero => simp
  | succ n ih =>
    rw [List.range_succ, List.foldl_append, List.foldl_cons, List.foldl_nil, setElem_getLsbD _ _ _ _ _ hi, ih]
    have hd := Nat.div_add_mod i w
    have hm := Nat.mod_lt i hw
    by_cases h : w * n ≤ i ∧ i < w * n + w
    · have e : i / w = n := element_unique h ⟨by omega, by omega⟩
      rw [if_pos h, if_pos (by omega), e]
      congr 1
      rw [e] at hd; omega
    · have e : i / w ≠ n := by rintro e; rw [e] at hd; omega
      rw [if_neg h]
      by_cases h2 : i / w < n
      · rw [if_pos h2, if_pos (by omega)]
      · rw [if_neg h2, if_neg (by omega)]

theorem pickMask_getLsbD (x : Fields) (ps : List LaneMask) (w L i : Nat) (hi : i < 64) (hw : 0 < w) :
    (pickMask x ps w L).getLsbD i = (decide (i / w < 64 / w) && picks x ps (i / w) L) := by
  unfold pickMask upTo
  generalize 64 / w = n
  induction n with
  | zero => simp
  | succ n ih =>
    rw [List.range_succ, List.foldl_append, List.foldl_cons, List.foldl_nil]
    have hd := Nat.div_add_mod i w
    have hm := Nat.mod_lt i hw
    by_cases hp : picks x ps n L = true
    · rw [if_pos hp, BitVec.getLsbD_or, ih, elemMask_getLsbD _ _ _ hi]
      by_cases h : w * n ≤ i ∧ i < w * n + w
      · have e : i / w = n := element_unique h ⟨by omega, by omega⟩
        simp [h, e, hp]
      · have e : i / w ≠ n := by rintro e; rw [e] at hd; omega
        simp only [h, decide_false, Bool.or_false]
        congr 1
        simp; omega
    · rw [if_neg hp, ih]
      by_cases e : i / w = n
      · simp [e, hp]
      · congr 1
        simp; omega

/-- After a masked write of a built word, each selected element holds its new value and each other one what it held. -/
theorem elem_merge (x : Fields) (ps : List LaneMask) (w L k : Nat) (f : Nat → Nat) (old : Word) (hw : 0 < w) (hk : k < 64 / w) :
    elem w k (merge (pickMask x ps w L) (ofElems w f) old) = if picks x ps k L then f k % 2 ^ w else elem w k old := by
  have h64 : w * (64 / w) ≤ 64 := Nat.mul_div_le 64 w
  have hle : w * k + w ≤ 64 := by nlinarith
  apply Nat.eq_of_testBit_eq
  intro j
  rw [elem_testBit]
  by_cases hj : j < w
  · have hi : w * k + j < 64 := by omega
    have e1 : (w * k + j) / w = k := by rw [Nat.mul_add_div hw, Nat.div_eq_of_lt hj]; rfl
    have e2 : (w * k + j) % w = j := by rw [Nat.mul_add_mod, Nat.mod_eq_of_lt hj]
    simp only [merge, BitVec.getLsbD_or, BitVec.getLsbD_and, BitVec.getLsbD_not, pickMask_getLsbD _ _ _ _ _ hi hw, ofElems, upTo,
      setElems_getLsbD _ _ _ _ hi hw, e1, e2, hk, hi, hj, if_true, decide_true, Bool.true_and]
    by_cases hp : picks x ps k L = true
    · simp [hp, Nat.testBit_mod_two_pow, hj]
    · simp [hp, elem_testBit, hj]
  · simp only [hj, decide_false, Bool.false_and]
    symm
    apply Nat.testBit_eq_false_of_lt
    split
    · exact lt_of_lt_of_le (Nat.mod_lt _ (by positivity)) (Nat.pow_le_pow_right (by omega) (by omega))
    · exact lt_of_lt_of_le (elem_lt w k old) (Nat.pow_le_pow_right (by omega) (by omega))

end Sys2Proof.Machine
end

