-- ==== Sys2Proof/Laws/Memory.lean ====
section
/-! SUPPORT. Memory: what a byte reads after a write, and that every operation that writes memory keeps its canonical form. -/

namespace Sys2Proof.Machine

/-! ### Writes of a list of bytes -/

theorem Memory.wf_swf (m : Table Byte) : Memory.wf m = swf 0 m := by
  simp [Memory.wf, swf, bne, beq_eq_decide]

/-- A byte after a write of a list of bytes: the byte of the list within its range, and what it was elsewhere. -/
theorem tget_memPut (m : Table Byte) (key : Nat) (bs : List Byte) (a : Nat) :
    tget 0 (memPut m key bs) a = if key ≤ a ∧ a < key + bs.length then bs.getD (a - key) 0 else tget 0 m a := by
  induction bs generalizing m key with
  | nil => simp only [memPut, List.length_nil]; split <;> first | omega | rfl
  | cons b t ih =>
    rw [memPut, ih]
    simp only [tget_sput, List.length_cons]
    by_cases h : a = key
    · subst h
      rw [if_neg (by omega), if_pos rfl, if_pos (by omega), Nat.sub_self]; rfl
    · by_cases h1 : key + 1 ≤ a ∧ a < key + 1 + t.length
      · rw [if_pos h1, if_pos (by omega), show a - key = a - (key + 1) + 1 by omega]; rfl
      · rw [if_neg h1, if_neg h, if_neg (by omega)]

/-- A write of bytes keeps the canonical form. -/
theorem memPut_wf {m : Table Byte} (key : Nat) (bs : List Byte) (h : Memory.wf m = true) : Memory.wf (memPut m key bs) = true := by
  induction bs generalizing m key with
  | nil => exact h
  | cons b t ih => exact ih _ (by rw [Memory.wf_swf] at h ⊢; exact swf_sput _ _ h)

/-- What is left of memory keeps the canonical form. -/
theorem filter_wf {m : Table Byte} (p : Nat × Byte → Bool) (h : Memory.wf m = true) : Memory.wf (m.filter p) = true := by
  rw [Memory.wf_swf] at h ⊢; exact swf_filter p h

/-- Memory after power-up has the canonical form. -/
theorem reset_wf : Memory.wf State.reset.mem = true := rfl

/-! ### The writes of the model -/

@[simp] theorem State.write_mem (s : State) (key : Nat) (bs : List Byte) : (s.write key bs).mem = memPut s.mem key bs := rfl

@[simp] theorem State.writeTagged_mem (s : State) (key : Nat) (bs : List Byte) (tag : Bool) :
    (s.writeTagged key bs tag).mem = memPut s.mem key bs := by
  unfold State.writeTagged; dsimp only; split <;> rfl

@[simp] theorem State.cleanse_mem (s : State) (key n : Nat) : (s.cleanse key n).mem = s.mem := rfl

@[simp] theorem State.trigger_mem (s : State) (line ts : Nat) : (s.trigger line ts).mem = s.mem := by
  unfold State.trigger; split <;> rfl

/-- A byte after a write. -/
theorem State.write_byte (s : State) (key : Nat) (bs : List Byte) (a : Nat) :
    (s.write key bs).byte a = if key ≤ a ∧ a < key + bs.length then bs.getD (a - key) 0 else s.byte a := tget_memPut s.mem key bs a

theorem State.write_wf {s : State} (key : Nat) (bs : List Byte) (h : Memory.wf s.mem = true) : Memory.wf (s.write key bs).mem = true :=
  memPut_wf key bs h

theorem State.writeTagged_wf {s : State} (key : Nat) (bs : List Byte) (tag : Bool) (h : Memory.wf s.mem = true) :
    Memory.wf (s.writeTagged key bs tag).mem = true := by
  rw [State.writeTagged_mem]; exact memPut_wf key bs h

/-- A write changes memory and tags only. -/
theorem State.write_shape (s : State) (key : Nat) (bs : List Byte) :
    s.write key bs = { s with mem := (s.write key bs).mem, tags := (s.write key bs).tags } := rfl

theorem bytesOf_length (n v : Nat) : (bytesOf n v).length = n := by
  induction n generalizing v with
  | zero => rfl
  | succ n ih => simp [bytesOf, ih]

/-- The number that bytes written from a number hold. -/
theorem numOfBytes_bytesOf (n x : Nat) : numOfBytes (bytesOf n x) = x % 256 ^ n := by
  induction n generalizing x with
  | zero => simp [bytesOf, numOfBytes, Nat.mod_one]
  | succ n ih =>
    simp only [bytesOf, numOfBytes, ih, BitVec.toNat_ofNat]
    rw [show (256 : Nat) ^ (n + 1) = 256 * 256 ^ n by ring, Nat.mod_mul]

/-- An exact state is what its record of R80 holds: nothing of it is lost where it stands in a context frame (R372). -/
theorem exactOfRecord_record (x : ExactState) (hq : x.q < 2 ^ 320) (hn : x.n < 2 ^ 48) : exactOfRecord x.record = x := by
  have e : (bytesOf 40 x.q).length = 40 := bytesOf_length ..
  have e6 : (bytesOf 6 x.n).length = 6 := bytesOf_length ..
  have hq' : x.q % 256 ^ 40 = x.q := Nat.mod_eq_of_lt (by rwa [show (256 : Nat) ^ 40 = 2 ^ 320 by rw [show (256 : Nat) = 2 ^ 8 from rfl, ← pow_mul]])
  have hn' : x.n % 256 ^ 6 = x.n := Nat.mod_eq_of_lt (by simpa using hn)
  have h1 : x.record.take 40 = bytesOf 40 x.q := by
    simp [ExactState.record, e]
  have h2 : (x.record.drop 40).take 6 = bytesOf 6 x.n := by
    simp [ExactState.record, e, e6]
  have h3 : (x.record.drop 46).take 1 =
      [BitVec.ofNat 8 (boolWord x.nan + 2 * boolWord x.pinf + 4 * boolWord x.ninf + 8 * boolWord x.ovf)] := by
    simp [ExactState.record, bytesOf]
  obtain ⟨q, n, a, b, c, d⟩ := x
  simp only [exactOfRecord, h1, h2, h3, numOfBytes_bytesOf, hq', hn', ExactState.mk.injEq]
  refine ⟨trivial, trivial, ?_⟩
  cases a <;> cases b <;> cases c <;> cases d <;> decide

/-- An access keeps its translation in its die and marks its leaf: it changes no byte outside that leaf. -/
theorem touchLeaf_spec (s : State) (l : Loc) (write : Bool) :
    (touchLeaf s l write = { s with
      mem := (touchLeaf s l write).mem, tags := (touchLeaf s l write).tags, dies := (touchLeaf s l write).dies }) ∧
    (Memory.wf s.mem = true → Memory.wf (touchLeaf s l write).mem = true) ∧
    (∀ a, (∀ q, l.leaf = some q → ¬ (q ≤ a ∧ a < q + 8)) → (touchLeaf s l write).byte a = s.byte a) := by
  have key : ∀ u : State, u = { s with dies := u.dies } →
      ∀ v, v = (match l.leaf with
        | none => u
        | some k =>
          let v := u.num k 8
          let v' := v ||| 2 ^ 60 ||| (if write then 2 ^ 61 else 0)
          if v = v' || !bitAt v 63 then u else u.write k (bytesOf 8 v')) →
      v = { s with mem := v.mem, tags := v.tags, dies := v.dies } ∧ (Memory.wf s.mem = true → Memory.wf v.mem = true) ∧
      (∀ a, (∀ q, l.leaf = some q → ¬ (q ≤ a ∧ a < q + 8)) → v.byte a = s.byte a) := by
    intro u hu v hv
    have hm : u.mem = s.mem := by rw [hu]
    have ht : u.tags = s.tags := by rw [hu]
    have hb (a : Nat) : u.byte a = s.byte a := by unfold State.byte; rw [hm]
    have hu' : u = { s with mem := u.mem, tags := u.tags, dies := u.dies } := by rw [hm, ht]; exact hu
    cases hk : l.leaf with
    | none =>
      rw [hk] at hv; dsimp only at hv; subst hv
      exact ⟨hu', fun h => by rw [hm]; exact h, fun a _ => hb a⟩
    | some k =>
      rw [hk] at hv; dsimp only at hv
      generalize (u.num k 8 ||| 2 ^ 60 ||| if write = true then 2 ^ 61 else 0) = v' at hv
      split at hv
      · subst hv; exact ⟨hu', fun h => by rw [hm]; exact h, fun a _ => hb a⟩
      · subst hv
        generalize hc : bytesOf 8 v' = b
        have hl : b.length = 8 := by rw [← hc]; exact bytesOf_length 8 v'
        refine ⟨?_, fun h => State.write_wf _ _ (by rw [hm]; exact h), fun a ha => ?_⟩
        · clear hu' hm ht hb
          generalize u.dies = d at hu
          subst hu
          exact State.write_shape _ _ _
        · rw [State.write_byte, if_neg (by rw [hl]; exact ha k rfl)]; exact hb a
  unfold touchLeaf
  refine key _ ?_ _ rfl
  unfold keepAts
  split <;> split <;> rfl

@[simp] theorem mscFill_mem (s : State) (die line range : Nat) (dirty : Bool) : (mscFill s die line range dirty).mem = s.mem := by
  unfold mscFill; dsimp only
  repeat' split
  all_goals rfl

@[simp] theorem keepDram_mem (s : State) (line : Nat) : (keepDram s line).mem = s.mem := by unfold keepDram; split <;> rfl

@[simp] theorem writeBack_mem (s : State) (die line : Nat) : (writeBack s die line).mem = s.mem := rfl

@[simp] theorem cachePut_mem (s : State) (die cache line : Nat) (x : CacheLine) : (cachePut s die cache line x).mem = s.mem := by
  unfold cachePut; dsimp only
  repeat' split
  all_goals first | rfl | exact mscFill_mem _ _ _ _ _

@[simp] theorem evictLine_mem (s : State) (die line : Nat) (r : RdcLine) : (evictLine s die line r).mem = s.mem := by
  unfold evictLine; dsimp only; split <;> rfl

@[simp] theorem makeRoom_mem (s : State) (die line : Nat) : (makeRoom s die line).mem = s.mem := by
  unfold makeRoom; dsimp only
  repeat' split
  all_goals first | rfl | exact evictLine_mem _ _ _ _

/-- A line of the remote-data cache that serves an access changes no byte of memory. -/
@[simp] theorem rdcServe_mem (s : State) (die line : Nat) (r : RdcLine) (pol : Nat) : (rdcServe s die line r pol).mem = s.mem := by
  unfold rdcServe
  show (if !r.alloc ∧ pol ≤ 2 then makeRoom s die line else s).mem = s.mem
  split
  · exact makeRoom_mem _ _ _
  · rfl

/-- Where a store leaves its line changes no byte but those of the store. -/
theorem placeStore_mem (s : State) (die : Nat) (core : Option Nat) (line : Nat) (l : Loc) (ts : Nat) (write : State → State)
    (hw : ∀ u v : State, u.mem = v.mem → (write u).mem = (write v).mem) : (placeStore s die core line l ts write).mem = (write s).mem := by
  unfold placeStore
  split
  · rfl
  · dsimp only
    have h := hw (keepDram s line) s (keepDram_mem s line)
    split
    · split
      · rw [cachePut_mem]; exact h
      · rw [mscFill_mem]; exact h
    · rw [mscFill_mem]; exact h

@[simp] theorem State.stamp_mem (s : State) (line w m : Nat) : (s.stamp line w m).mem = s.mem := rfl

theorem writeHome_mem (s : State) (die ts key : Nat) (bs : List Byte) : (writeHome s die ts key bs).mem = memPut s.mem key bs := by
  unfold writeHome
  split
  · rfl
  · rw [State.trigger_mem, State.stamp_mem, placeStore_mem _ _ _ _ _ _ _ (fun u v h => by rw [State.write_mem, State.write_mem, h])]; rfl

/-- What a store writes in one line: its bytes, in host memory or at home; elsewhere it changes the remote-data cache. -/
theorem storeOne_mem (s : State) (die ts : Nat) (l : Loc) (bs : List Byte) (tag : Bool) :
    (storeOne s die ts l bs tag).mem = if isHost l.key = true ∨ dieOfKey l.key = die then memPut s.mem l.key bs
      else s.mem := by
  unfold storeOne
  dsimp only
  split
  · next h => rw [if_pos (Or.inl h)]
  · next h =>
    split
    · next hd =>
      rw [if_pos (Or.inr hd), State.trigger_mem, State.stamp_mem, placeStore_mem]
      · split
        · exact State.writeTagged_mem _ _ _ _
        · rfl
      · intro u v huv
        split
        · rw [State.writeTagged_mem, State.writeTagged_mem, huv]
        · rw [State.write_mem, State.write_mem, huv]
    · next hd =>
      rw [if_neg (by rintro (h' | h') <;> contradiction)]
      split
      · rfl
      · rw [State.trigger_mem, rdcServe_mem]

theorem storeOne_wf {s : State} (die ts : Nat) (l : Loc) (bs : List Byte) (tag : Bool) (h : Memory.wf s.mem = true) :
    Memory.wf (storeOne s die ts l bs tag).mem = true := by
  rw [storeOne_mem]
  split
  · exact memPut_wf _ _ h
  · exact h

@[simp] theorem useLine_mem (s : State) (die line : Nat) : (useLine s die line).mem = s.mem := by unfold useLine; split <;> rfl

theorem storeAs_wf {s : State} (die ts : Nat) (l : Loc) (bs : List Byte) (tag : Bool) (h : Memory.wf s.mem = true) :
    Memory.wf (storeAs s die ts l bs tag).mem = true := by
  have h' := (touchLeaf_spec s l true).2.1 h
  unfold storeAs
  dsimp only
  split
  · exact storeOne_wf _ _ _ _ _ h'
  · exact storeOne_wf _ _ _ _ _ (storeOne_wf _ _ _ _ _ (by rw [useLine_mem]; exact h'))

theorem storeAt_wf {s : State} (die p : Nat) (l : Loc) (bs : List Byte) (tag : Bool) (h : Memory.wf s.mem = true) :
    Memory.wf (storeAt s die p l bs tag).1.mem = true := storeAs_wf _ _ _ _ _ h

theorem takeData_wf {s : State} (p : Packet) (h : Memory.wf s.mem = true) : Memory.wf (takeData s p).mem = true := by
  unfold takeData
  dsimp only
  split
  · exact h
  · refine memPut_wf _ _ ?_
    rw [mscFill_mem]
    show Memory.wf (keepDram _ _).mem = true
    rw [keepDram_mem]; exact h

/-- The bytes that a part of a frame replaces: memory keeps its canonical form. -/
theorem memReplace_wf {m : Table Byte} (lo n : Nat) (bs : List (Nat × Byte)) (h : Memory.wf m = true) :
    Memory.wf (memReplace m lo n bs) = true := by
  rw [Memory.wf_swf] at h ⊢
  unfold memReplace
  have hmid : ∀ bs : List (Nat × Byte),
      swf 0 (bs.foldr (fun e acc => if e.1 < n then sput 0 acc e.1 e.2 else acc) ([] : Table Byte)) = true ∧
      ∀ e ∈ bs.foldr (fun e acc => if e.1 < n then sput 0 acc e.1 e.2 else acc) ([] : Table Byte), e.1 < n := by
    intro bs
    induction bs with
    | nil => exact ⟨rfl, fun _ h => by cases h⟩
    | cons b t ih =>
      simp only [List.foldr_cons]
      split
      · next hb =>
        refine ⟨swf_sput _ _ ih.1, fun e he => ?_⟩
        unfold sput at he
        split at he
        · exact ih.2 e (mem_terase he).1
        · rcases mem_tinsert he with rfl | he
          · exact hb
          · exact ih.2 e (mem_terase he).1
      · exact ih
  refine swf_append (swf_append (swf_filter _ h) (swf_shift lo (hmid bs).1) ?_) (swf_filter _ h) ?_
  · intro a ha b hb
    simp only [List.mem_filter, decide_eq_true_eq] at ha
    obtain ⟨x, _, rfl⟩ := List.mem_map.1 hb
    dsimp only; omega
  · intro a ha b hb
    simp only [List.mem_filter, decide_eq_true_eq] at hb
    rcases List.mem_append.1 ha with ha | ha
    · simp only [List.mem_filter, decide_eq_true_eq] at ha; omega
    · obtain ⟨x, hx, rfl⟩ := List.mem_map.1 ha
      have := (hmid bs).2 x hx
      dsimp only; omega

/-- A fold whose every step keeps a property of what it has so far keeps it. -/
theorem foldl_keeps {α β : Type} (P : α → Prop) (f : α → β → α) (hf : ∀ a b, P a → P (f a b)) (l : List β) (a : α) (h : P a) :
    P (l.foldl f a) := by
  induction l generalizing a with
  | nil => exact h
  | cons b t ih => exact ih _ (hf a b h)

/-- What the host or the driver stores keeps the canonical form. -/
theorem driverStore_wf {s : State} (key : Nat) (bs : List Byte) (h : Memory.wf s.mem = true) :
    Memory.wf (driverStore s key bs).mem = true := by
  unfold driverStore
  refine foldl_keeps (fun acc : State × List Byte => Memory.wf acc.1.mem = true) _ (fun a p ha => ?_) _ _ h
  dsimp only
  split
  · exact ha
  · rw [State.cleanse_mem, writeHome_mem]; exact memPut_wf _ _ ha

/-- What a migration moves keeps the canonical form. -/
theorem migrateLines_wf {s : State} (src dst lines : Nat) (h : Memory.wf s.mem = true) :
    Memory.wf (migrateLines s src dst lines).mem = true := by
  unfold migrateLines
  split
  · refine foldl_keeps (fun u : State => Memory.wf u.mem = true) _ (fun u k hu => ?_) _ _ h
    show Memory.wf (writeHome _ _ _ _ _).mem = true
    rw [writeHome_mem]; exact memPut_wf _ _ hu
  · exact h

/-- Power-up keeps the canonical form. -/
theorem poweredUp_wf {s : State} (h : Memory.wf s.mem = true) : Memory.wf (poweredUp s).mem = true := filter_wf _ h

end Sys2Proof.Machine
end

