-- ==== Sys2Proof/Laws/PerInstr.lean ====
section
/-! SUPPORT. For each instruction: the opcode tables of the decoder, read at the instruction's own codes, give that instruction. -/

namespace Sys2Proof.Laws

/-- The decoder's tables give the instruction at its own OPC, or at its own class and FN for all fields that select its form (R43). -/
def Opcodes.Statement (i : Instr) : Prop :=
  match i.baseCode with
  | some (opc, lit) => (if lit then baseLitOp opc else baseOp opc) = some i
  | none =>
    match i.extCode with
    | some (cls, fn) => ∀ x : Fields, formOk i x = true → extOp cls (x.fn cls fn) x = some i
    | none => True

theorem Opcodes.nop : Opcodes.Statement .nop := rfl
theorem Opcodes.rep : Opcodes.Statement .rep := rfl
theorem Opcodes.repLit : Opcodes.Statement .repLit := rfl
theorem Opcodes.grp : Opcodes.Statement .grp := rfl
theorem Opcodes.smov : Opcodes.Statement .smov := rfl
theorem Opcodes.smovLit : Opcodes.Statement .smovLit := rfl
theorem Opcodes.sadd : Opcodes.Statement .sadd := rfl
theorem Opcodes.saddLit : Opcodes.Statement .saddLit := rfl
theorem Opcodes.ssub : Opcodes.Statement .ssub := rfl
theorem Opcodes.ssubLit : Opcodes.Statement .ssubLit := rfl
theorem Opcodes.smul : Opcodes.Statement .smul := rfl
theorem Opcodes.smulLit : Opcodes.Statement .smulLit := rfl
theorem Opcodes.smulhi : Opcodes.Statement .smulhi := rfl
theorem Opcodes.smulhiLit : Opcodes.Statement .smulhiLit := rfl
theorem Opcodes.smulhn : Opcodes.Statement .smulhn := rfl
theorem Opcodes.smulhnLit : Opcodes.Statement .smulhnLit := rfl
theorem Opcodes.sdiv : Opcodes.Statement .sdiv := rfl
theorem Opcodes.sdivLit : Opcodes.Statement .sdivLit := rfl
theorem Opcodes.sdivn : Opcodes.Statement .sdivn := rfl
theorem Opcodes.sdivnLit : Opcodes.Statement .sdivnLit := rfl
theorem Opcodes.srem : Opcodes.Statement .srem := rfl
theorem Opcodes.sremLit : Opcodes.Statement .sremLit := rfl
theorem Opcodes.sremn : Opcodes.Statement .sremn := rfl
theorem Opcodes.sremnLit : Opcodes.Statement .sremnLit := rfl
theorem Opcodes.sand : Opcodes.Statement .sand := rfl
theorem Opcodes.sandLit : Opcodes.Statement .sandLit := rfl
theorem Opcodes.sor : Opcodes.Statement .sor := rfl
theorem Opcodes.sorLit : Opcodes.Statement .sorLit := rfl
theorem Opcodes.sxor : Opcodes.Statement .sxor := rfl
theorem Opcodes.sxorLit : Opcodes.Statement .sxorLit := rfl
theorem Opcodes.sshl : Opcodes.Statement .sshl := rfl
theorem Opcodes.sshlLit : Opcodes.Statement .sshlLit := rfl
theorem Opcodes.sshr : Opcodes.Statement .sshr := rfl
theorem Opcodes.sshrLit : Opcodes.Statement .sshrLit := rfl
theorem Opcodes.ssar : Opcodes.Statement .ssar := rfl
theorem Opcodes.ssarLit : Opcodes.Statement .ssarLit := rfl
theorem Opcodes.srol : Opcodes.Statement .srol := rfl
theorem Opcodes.srolLit : Opcodes.Statement .srolLit := rfl
theorem Opcodes.smin : Opcodes.Statement .smin := rfl
theorem Opcodes.sminLit : Opcodes.Statement .sminLit := rfl
theorem Opcodes.smax : Opcodes.Statement .smax := rfl
theorem Opcodes.smaxLit : Opcodes.Statement .smaxLit := rfl
theorem Opcodes.sminn : Opcodes.Statement .sminn := rfl
theorem Opcodes.sminnLit : Opcodes.Statement .sminnLit := rfl
theorem Opcodes.smaxn : Opcodes.Statement .smaxn := rfl
theorem Opcodes.smaxnLit : Opcodes.Statement .smaxnLit := rfl
theorem Opcodes.sclz : Opcodes.Statement .sclz := rfl
theorem Opcodes.spop : Opcodes.Statement .spop := rfl
theorem Opcodes.sbfx : Opcodes.Statement .sbfx := rfl
theorem Opcodes.sbfxLit : Opcodes.Statement .sbfxLit := rfl
theorem Opcodes.sbfi : Opcodes.Statement .sbfi := rfl
theorem Opcodes.sbfiLit : Opcodes.Statement .sbfiLit := rfl
theorem Opcodes.sseq : Opcodes.Statement .sseq := rfl
theorem Opcodes.sseqLit : Opcodes.Statement .sseqLit := rfl
theorem Opcodes.sslt : Opcodes.Statement .sslt := rfl
theorem Opcodes.ssltLit : Opcodes.Statement .ssltLit := rfl
theorem Opcodes.ssltn : Opcodes.Statement .ssltn := rfl
theorem Opcodes.ssltnLit : Opcodes.Statement .ssltnLit := rfl
theorem Opcodes.ssel : Opcodes.Statement .ssel := rfl
theorem Opcodes.sselLit : Opcodes.Statement .sselLit := rfl
theorem Opcodes.sld : Opcodes.Statement .sld := rfl
theorem Opcodes.sldLit : Opcodes.Statement .sldLit := rfl
theorem Opcodes.sldw : Opcodes.Statement .sldw := rfl
theorem Opcodes.sldwLit : Opcodes.Statement .sldwLit := rfl
theorem Opcodes.sst : Opcodes.Statement .sst := rfl
theorem Opcodes.sstLit : Opcodes.Statement .sstLit := rfl
theorem Opcodes.sstw : Opcodes.Statement .sstw := rfl
theorem Opcodes.sstwLit : Opcodes.Statement .sstwLit := rfl
theorem Opcodes.cmov : Opcodes.Statement .cmov := rfl
theorem Opcodes.cadd : Opcodes.Statement .cadd := rfl
theorem Opcodes.caddLit : Opcodes.Statement .caddLit := rfl
theorem Opcodes.cwin : Opcodes.Statement .cwin := rfl
theorem Opcodes.cwinLit : Opcodes.Statement .cwinLit := rfl
theorem Opcodes.cred : Opcodes.Statement .cred := rfl
theorem Opcodes.credLit : Opcodes.Statement .credLit := rfl
theorem Opcodes.cget : Opcodes.Statement .cget := rfl
theorem Opcodes.csetoff : Opcodes.Statement .csetoff := rfl
theorem Opcodes.csetoffLit : Opcodes.Statement .csetoffLit := rfl
theorem Opcodes.cld : Opcodes.Statement .cld := rfl
theorem Opcodes.cldLit : Opcodes.Statement .cldLit := rfl
theorem Opcodes.cst : Opcodes.Statement .cst := rfl
theorem Opcodes.cstLit : Opcodes.Statement .cstLit := rfl
theorem Opcodes.br : Opcodes.Statement .br := rfl
theorem Opcodes.brLit : Opcodes.Statement .brLit := rfl
theorem Opcodes.brz : Opcodes.Statement .brz := rfl
theorem Opcodes.brzLit : Opcodes.Statement .brzLit := rfl
theorem Opcodes.brnz : Opcodes.Statement .brnz := rfl
theorem Opcodes.brnzLit : Opcodes.Statement .brnzLit := rfl
theorem Opcodes.brany : Opcodes.Statement .brany := rfl
theorem Opcodes.branyLit : Opcodes.Statement .branyLit := rfl
theorem Opcodes.brall : Opcodes.Statement .brall := rfl
theorem Opcodes.brallLit : Opcodes.Statement .brallLit := rfl
theorem Opcodes.brnone : Opcodes.Statement .brnone := rfl
theorem Opcodes.brnoneLit : Opcodes.Statement .brnoneLit := rfl
theorem Opcodes.call : Opcodes.Statement .call := rfl
theorem Opcodes.callLit : Opcodes.Statement .callLit := rfl
theorem Opcodes.ret : Opcodes.Statement .ret := rfl
theorem Opcodes.loop : Opcodes.Statement .loop := rfl
theorem Opcodes.loopLit : Opcodes.Statement .loopLit := rfl
theorem Opcodes.split : Opcodes.Statement .split := rfl
theorem Opcodes.splitLit : Opcodes.Statement .splitLit := rfl
theorem Opcodes.join : Opcodes.Statement .join := rfl
theorem Opcodes.exit : Opcodes.Statement .exit := rfl
theorem Opcodes.yield : Opcodes.Statement .yield := rfl
theorem Opcodes.sleep : Opcodes.Statement .sleep := rfl
theorem Opcodes.sleepLit : Opcodes.Statement .sleepLit := rfl
theorem Opcodes.sleepExpiry : Opcodes.Statement .sleepExpiry := trivial
theorem Opcodes.trap : Opcodes.Statement .trap := rfl
theorem Opcodes.trapLit : Opcodes.Statement .trapLit := rfl
theorem Opcodes.sret : Opcodes.Statement .sret := rfl
theorem Opcodes.csrr : Opcodes.Statement .csrr := rfl
theorem Opcodes.csrw : Opcodes.Statement .csrw := rfl
theorem Opcodes.csrwLit : Opcodes.Statement .csrwLit := rfl
theorem Opcodes.trc : Opcodes.Statement .trc := rfl
theorem Opcodes.trcLit : Opcodes.Statement .trcLit := rfl
theorem Opcodes.bkpt : Opcodes.Statement .bkpt := rfl
theorem Opcodes.pand : Opcodes.Statement .pand := rfl
theorem Opcodes.por : Opcodes.Statement .por := rfl
theorem Opcodes.pxor : Opcodes.Statement .pxor := rfl
theorem Opcodes.pandn : Opcodes.Statement .pandn := rfl
theorem Opcodes.pnot : Opcodes.Statement .pnot := rfl
theorem Opcodes.pmov : Opcodes.Statement .pmov := rfl
theorem Opcodes.pset : Opcodes.Statement .pset := rfl
theorem Opcodes.psetLit : Opcodes.Statement .psetLit := rfl
theorem Opcodes.pget : Opcodes.Statement .pget := rfl
theorem Opcodes.pcnt : Opcodes.Statement .pcnt := rfl
theorem Opcodes.pfirst : Opcodes.Statement .pfirst := rfl
theorem Opcodes.vadd : Opcodes.Statement .vadd := fun _ _ => rfl
theorem Opcodes.vsub : Opcodes.Statement .vsub := fun _ _ => rfl
theorem Opcodes.vmul : Opcodes.Statement .vmul := fun _ _ => rfl
theorem Opcodes.vmulh : Opcodes.Statement .vmulh := fun _ _ => rfl
theorem Opcodes.vmad : Opcodes.Statement .vmad := fun _ _ => rfl
theorem Opcodes.vmin : Opcodes.Statement .vmin := fun _ _ => rfl
theorem Opcodes.vmax : Opcodes.Statement .vmax := fun _ _ => rfl
theorem Opcodes.vabs : Opcodes.Statement .vabs := fun _ _ => rfl
theorem Opcodes.vneg : Opcodes.Statement .vneg := fun _ _ => rfl
theorem Opcodes.vand : Opcodes.Statement .vand := fun _ _ => rfl
theorem Opcodes.vor : Opcodes.Statement .vor := fun _ _ => rfl
theorem Opcodes.vxor : Opcodes.Statement .vxor := fun _ _ => rfl
theorem Opcodes.vandn : Opcodes.Statement .vandn := fun _ _ => rfl
theorem Opcodes.vshl : Opcodes.Statement .vshl := fun _ _ => rfl
theorem Opcodes.vshr : Opcodes.Statement .vshr := fun _ _ => rfl
theorem Opcodes.vsar : Opcodes.Statement .vsar := fun _ _ => rfl
theorem Opcodes.vrot : Opcodes.Statement .vrot := fun _ _ => rfl
theorem Opcodes.vclz : Opcodes.Statement .vclz := fun _ _ => rfl
theorem Opcodes.vpop : Opcodes.Statement .vpop := fun _ _ => rfl
theorem Opcodes.vbfx : Opcodes.Statement .vbfx := fun _ _ => rfl
theorem Opcodes.vbfi : Opcodes.Statement .vbfi := fun _ _ => rfl
theorem Opcodes.vsel : Opcodes.Statement .vsel := fun _ _ => rfl
theorem Opcodes.vmov : Opcodes.Statement .vmov := fun _ _ => rfl
theorem Opcodes.vfadd : Opcodes.Statement .vfadd := fun _ _ => rfl
theorem Opcodes.vfsub : Opcodes.Statement .vfsub := fun _ _ => rfl
theorem Opcodes.vfmul : Opcodes.Statement .vfmul := fun _ _ => rfl
theorem Opcodes.vfma : Opcodes.Statement .vfma := fun _ _ => rfl
theorem Opcodes.vfms : Opcodes.Statement .vfms := fun _ _ => rfl
theorem Opcodes.vfmin : Opcodes.Statement .vfmin := fun _ _ => rfl
theorem Opcodes.vfmax : Opcodes.Statement .vfmax := fun _ _ => rfl
theorem Opcodes.vfabs : Opcodes.Statement .vfabs := fun _ _ => rfl
theorem Opcodes.vfneg : Opcodes.Statement .vfneg := fun _ _ => rfl
theorem Opcodes.vfrnd : Opcodes.Statement .vfrnd := fun _ _ => rfl
theorem Opcodes.vfcls : Opcodes.Statement .vfcls := fun _ _ => rfl
theorem Opcodes.vfsqt : Opcodes.Statement .vfsqt := fun _ _ => rfl
theorem Opcodes.vfdot : Opcodes.Statement .vfdot := fun _ _ => rfl
theorem Opcodes.vfscl : Opcodes.Statement .vfscl := fun _ _ => rfl
theorem Opcodes.vcmp : Opcodes.Statement .vcmp := fun x _ => by have := x.cc.isLt; simp [extOp, Fields.fn]; omega
theorem Opcodes.vcmpm : Opcodes.Statement .vcmpm := fun x _ => by have := x.cc.isLt; simp [extOp, Fields.fn]; omega
theorem Opcodes.vcvt : Opcodes.Statement .vcvt := fun _ _ => rfl
theorem Opcodes.vpack : Opcodes.Statement .vpack := fun _ _ => rfl
theorem Opcodes.vunpk : Opcodes.Statement .vunpk := fun _ _ => rfl
theorem Opcodes.vsxp : Opcodes.Statement .vsxp := fun _ _ => rfl
theorem Opcodes.vsxu : Opcodes.Statement .vsxu := fun _ _ => rfl
theorem Opcodes.vmxp : Opcodes.Statement .vmxp := fun _ _ => rfl
theorem Opcodes.vmxu : Opcodes.Statement .vmxu := fun _ _ => rfl
theorem Opcodes.vqdec : Opcodes.Statement .vqdec := fun _ _ => rfl
theorem Opcodes.vex2 : Opcodes.Statement .vex2 := fun _ _ => rfl
theorem Opcodes.vlg2 : Opcodes.Statement .vlg2 := fun _ _ => rfl
theorem Opcodes.vrcp : Opcodes.Statement .vrcp := fun _ _ => rfl
theorem Opcodes.vrsq : Opcodes.Statement .vrsq := fun _ _ => rfl
theorem Opcodes.vsin : Opcodes.Statement .vsin := fun _ _ => rfl
theorem Opcodes.vcos : Opcodes.Statement .vcos := fun _ _ => rfl
theorem Opcodes.vtanh : Opcodes.Statement .vtanh := fun _ _ => rfl
theorem Opcodes.vshfl : Opcodes.Statement .vshfl := fun _ _ => rfl
theorem Opcodes.vbcast : Opcodes.Statement .vbcast := fun _ _ => rfl
theorem Opcodes.vrdx : Opcodes.Statement .vrdx := fun _ _ => rfl
theorem Opcodes.vscan : Opcodes.Statement .vscan := fun _ _ => rfl
theorem Opcodes.vread : Opcodes.Statement .vread := fun _ _ => rfl
theorem Opcodes.vwrite : Opcodes.Statement .vwrite := fun _ _ => rfl
theorem Opcodes.vddx : Opcodes.Statement .vddx := fun _ _ => rfl
theorem Opcodes.vddy : Opcodes.Statement .vddy := fun _ _ => rfl
theorem Opcodes.vrotl : Opcodes.Statement .vrotl := fun _ _ => rfl
theorem Opcodes.vbsi : Opcodes.Statement .vbsi := fun _ _ => rfl
theorem Opcodes.vbsr : Opcodes.Statement .vbsr := fun _ _ => rfl
theorem Opcodes.vbsp : Opcodes.Statement .vbsp := fun _ _ => rfl
theorem Opcodes.vbsc : Opcodes.Statement .vbsc := fun _ _ => rfl
theorem Opcodes.vrng : Opcodes.Statement .vrng := fun _ _ => rfl
theorem Opcodes.vld : Opcodes.Statement .vld := fun _ _ => rfl
theorem Opcodes.vst : Opcodes.Statement .vst := fun _ _ => rfl
theorem Opcodes.vldb : Opcodes.Statement .vldb := fun _ _ => rfl
theorem Opcodes.vstb : Opcodes.Statement .vstb := fun _ _ => rfl
theorem Opcodes.spld : Opcodes.Statement .spld := fun _ _ => rfl
theorem Opcodes.spst : Opcodes.Statement .spst := fun _ _ => rfl
theorem Opcodes.spldb : Opcodes.Statement .spldb := fun _ _ => rfl
theorem Opcodes.spstb : Opcodes.Statement .spstb := fun _ _ => rfl
theorem Opcodes.vpref : Opcodes.Statement .vpref := fun _ _ => rfl
theorem Opcodes.vatom : Opcodes.Statement .vatom := fun _ _ => rfl
theorem Opcodes.satom : Opcodes.Statement .satom := fun _ _ => rfl
theorem Opcodes.spatom : Opcodes.Statement .spatom := fun _ _ => rfl
theorem Opcodes.bar : Opcodes.Statement .bar := fun _ _ => rfl
theorem Opcodes.arrv : Opcodes.Statement .arrv := fun _ _ => rfl
theorem Opcodes.waitb : Opcodes.Statement .waitb := fun _ _ => rfl
theorem Opcodes.waitc : Opcodes.Statement .waitc := fun _ _ => rfl
theorem Opcodes.fence : Opcodes.Statement .fence := fun x h => by simp_all [formOk, extOp, extOp6A, Fields.fn]
theorem Opcodes.fenceEvict : Opcodes.Statement .fenceEvict := fun x h => by simp_all [formOk, extOp, extOp6A, Fields.fn]
theorem Opcodes.mon : Opcodes.Statement .mon := fun _ _ => rfl
theorem Opcodes.mwait : Opcodes.Statement .mwait := fun _ _ => rfl
theorem Opcodes.mwaitTimeout : Opcodes.Statement .mwaitTimeout := trivial
theorem Opcodes.sema : Opcodes.Statement .sema := fun _ _ => rfl
theorem Opcodes.semr : Opcodes.Statement .semr := fun _ _ => rfl
theorem Opcodes.semt : Opcodes.Statement .semt := fun _ _ => rfl
theorem Opcodes.evph : Opcodes.Statement .evph := fun _ _ => rfl
theorem Opcodes.fencev : Opcodes.Statement .fencev := fun _ _ => rfl
theorem Opcodes.strm : Opcodes.Statement .strm := fun _ _ => rfl
theorem Opcodes.subs : Opcodes.Statement .subs := fun _ _ => rfl
theorem Opcodes.unsub : Opcodes.Statement .unsub := fun _ _ => rfl
theorem Opcodes.tmpl : Opcodes.Statement .tmpl := fun _ _ => rfl
theorem Opcodes.xgo : Opcodes.Statement .xgo := fun _ _ => rfl
theorem Opcodes.deal : Opcodes.Statement .deal := fun _ _ => rfl
theorem Opcodes.meld : Opcodes.Statement .meld := fun _ _ => rfl
theorem Opcodes.gang : Opcodes.Statement .gang := fun _ _ => rfl
theorem Opcodes.mres : Opcodes.Statement .mres := fun _ _ => rfl
theorem Opcodes.mrel : Opcodes.Statement .mrel := fun _ _ => rfl
theorem Opcodes.mldaSp : Opcodes.Statement .mldaSp := fun x h => by simp_all [formOk, extOp, extOp6D, Fields.fn]
theorem Opcodes.mldaReg : Opcodes.Statement .mldaReg := fun x h => by simp_all [formOk, extOp, extOp6D, Fields.fn]
theorem Opcodes.mldbSp : Opcodes.Statement .mldbSp := fun x h => by simp_all [formOk, extOp, extOp6D, Fields.fn]
theorem Opcodes.mldbReg : Opcodes.Statement .mldbReg := fun x h => by simp_all [formOk, extOp, extOp6D, Fields.fn]
theorem Opcodes.mma : Opcodes.Statement .mma := fun _ _ => rfl
theorem Opcodes.mmap : Opcodes.Statement .mmap := fun _ _ => rfl
theorem Opcodes.mzero : Opcodes.Statement .mzero := fun _ _ => rfl
theorem Opcodes.mrda : Opcodes.Statement .mrda := fun x h => by simp_all [formOk, extOp, extOp6D, Fields.fn]
theorem Opcodes.mrdaSt : Opcodes.Statement .mrdaSt := fun x h => by simp_all [formOk, extOp, extOp6D, Fields.fn]
theorem Opcodes.mwra : Opcodes.Statement .mwra := fun _ _ => rfl
theorem Opcodes.msta : Opcodes.Statement .msta := fun _ _ => rfl
theorem Opcodes.mbar : Opcodes.Statement .mbar := fun _ _ => rfl
theorem Opcodes.mcmd : Opcodes.Statement .mcmd := fun x h => by simp_all [formOk, extOp, extOp6D, Fields.fn]
theorem Opcodes.mcmdEnd : Opcodes.Statement .mcmdEnd := fun x h => by simp_all [formOk, extOp, extOp6D, Fields.fn]
theorem Opcodes.qput : Opcodes.Statement .qput := fun _ _ => rfl
theorem Opcodes.qtake : Opcodes.Statement .qtake := fun _ _ => rfl
theorem Opcodes.qdone : Opcodes.Statement .qdone := fun _ _ => rfl
theorem Opcodes.qeos : Opcodes.Statement .qeos := fun _ _ => rfl
theorem Opcodes.launch : Opcodes.Statement .launch := fun _ _ => rfl
theorem Opcodes.ared : Opcodes.Statement .ared := fun _ _ => rfl
theorem Opcodes.agath : Opcodes.Statement .agath := fun _ _ => rfl
theorem Opcodes.trace : Opcodes.Statement .trace := fun _ _ => rfl
theorem Opcodes.qbox : Opcodes.Statement .qbox := fun _ _ => rfl
theorem Opcodes.refit : Opcodes.Statement .refit := fun _ _ => rfl
theorem Opcodes.reord : Opcodes.Statement .reord := fun _ _ => rfl
theorem Opcodes.ldlod : Opcodes.Statement .ldlod := fun _ _ => rfl
theorem Opcodes.ldlodp : Opcodes.Statement .ldlodp := fun _ _ => rfl
theorem Opcodes.lodq : Opcodes.Statement .lodq := fun _ _ => rfl
theorem Opcodes.henc : Opcodes.Statement .henc := fun _ _ => rfl
theorem Opcodes.hgrad : Opcodes.Statement .hgrad := fun _ _ => rfl
theorem Opcodes.egath : Opcodes.Statement .egath := fun _ _ => rfl
theorem Opcodes.trapEntry : Opcodes.Statement .trapEntry := trivial
theorem Opcodes.asyncTrapDelivery : Opcodes.Statement .asyncTrapDelivery := trivial
theorem Opcodes.kill : Opcodes.Statement .kill := trivial
theorem Opcodes.crewPlacement : Opcodes.Statement .crewPlacement := trivial
theorem Opcodes.crewEnd : Opcodes.Statement .crewEnd := trivial
theorem Opcodes.preemption : Opcodes.Statement .preemption := trivial
theorem Opcodes.crewSpill : Opcodes.Statement .crewSpill := trivial
theorem Opcodes.kittyRefill : Opcodes.Statement .kittyRefill := trivial
theorem Opcodes.ptsAdvance : Opcodes.Statement .ptsAdvance := trivial
theorem Opcodes.stageMoveEvaluation : Opcodes.Statement .stageMoveEvaluation := trivial
theorem Opcodes.crewStageLeave : Opcodes.Statement .crewStageLeave := trivial
theorem Opcodes.copyCommand : Opcodes.Statement .copyCommand := trivial
theorem Opcodes.subscriptionTile : Opcodes.Statement .subscriptionTile := trivial
theorem Opcodes.collective : Opcodes.Statement .collective := trivial
theorem Opcodes.matrixCommand : Opcodes.Statement .matrixCommand := trivial
theorem Opcodes.gangAccept : Opcodes.Statement .gangAccept := trivial
theorem Opcodes.mmapPairStart : Opcodes.Statement .mmapPairStart := trivial
theorem Opcodes.gridPacket : Opcodes.Statement .gridPacket := trivial
theorem Opcodes.bindPacket : Opcodes.Statement .bindPacket := trivial
theorem Opcodes.nodePacket : Opcodes.Statement .nodePacket := trivial
theorem Opcodes.signalPacket : Opcodes.Statement .signalPacket := trivial
theorem Opcodes.hostQueueTail : Opcodes.Statement .hostQueueTail := trivial
theorem Opcodes.launchComplete : Opcodes.Statement .launchComplete := trivial
theorem Opcodes.budgetWindowClose : Opcodes.Statement .budgetWindowClose := trivial
theorem Opcodes.asidset : Opcodes.Statement .asidset := trivial
theorem Opcodes.inval : Opcodes.Statement .inval := trivial
theorem Opcodes.exportObject : Opcodes.Statement .exportObject := trivial
theorem Opcodes.unexport : Opcodes.Statement .unexport := trivial
theorem Opcodes.evsched : Opcodes.Statement .evsched := trivial
theorem Opcodes.lqopen : Opcodes.Statement .lqopen := trivial
theorem Opcodes.lqclose : Opcodes.Statement .lqclose := trivial
theorem Opcodes.telem : Opcodes.Statement .telem := trivial
theorem Opcodes.capset : Opcodes.Statement .capset := trivial
theorem Opcodes.killreq : Opcodes.Statement .killreq := trivial
theorem Opcodes.pgans : Opcodes.Statement .pgans := trivial
theorem Opcodes.pageRequestPost : Opcodes.Statement .pageRequestPost := trivial
theorem Opcodes.prgResponse : Opcodes.Statement .prgResponse := trivial
theorem Opcodes.hostRegisterWrite : Opcodes.Statement .hostRegisterWrite := trivial
theorem Opcodes.migrationHoldTimeout : Opcodes.Statement .migrationHoldTimeout := trivial
theorem Opcodes.rd : Opcodes.Statement .rd := trivial
theorem Opcodes.rdx : Opcodes.Statement .rdx := trivial
theorem Opcodes.upg : Opcodes.Statement .upg := trivial
theorem Opcodes.wb : Opcodes.Statement .wb := trivial
theorem Opcodes.at : Opcodes.Statement .at := trivial
theorem Opcodes.inv : Opcodes.Statement .inv := trivial
theorem Opcodes.recall : Opcodes.Statement .recall := trivial
theorem Opcodes.forward : Opcodes.Statement .forward := trivial
theorem Opcodes.ack : Opcodes.Statement .ack := trivial
theorem Opcodes.exclusiveGrant : Opcodes.Statement .exclusiveGrant := trivial
theorem Opcodes.flitReceive : Opcodes.Statement .flitReceive := trivial
theorem Opcodes.packetResendTimeout : Opcodes.Statement .packetResendTimeout := trivial
theorem Opcodes.directoryUpdateReport : Opcodes.Statement .directoryUpdateReport := trivial
theorem Opcodes.homeAnswerTimeout : Opcodes.Statement .homeAnswerTimeout := trivial
theorem Opcodes.dieFence : Opcodes.Statement .dieFence := trivial
theorem Opcodes.dieReset : Opcodes.Statement .dieReset := trivial
theorem Opcodes.functionReset : Opcodes.Statement .functionReset := trivial
theorem Opcodes.networkPut : Opcodes.Statement .networkPut := trivial
theorem Opcodes.networkGet : Opcodes.Statement .networkGet := trivial
theorem Opcodes.getVersion : Opcodes.Statement .getVersion := trivial
theorem Opcodes.getCapabilities : Opcodes.Statement .getCapabilities := trivial
theorem Opcodes.negotiateAlgorithms : Opcodes.Statement .negotiateAlgorithms := trivial
theorem Opcodes.getDigests : Opcodes.Statement .getDigests := trivial
theorem Opcodes.getCertificate : Opcodes.Statement .getCertificate := trivial
theorem Opcodes.challenge : Opcodes.Statement .challenge := trivial
theorem Opcodes.getMeasurements : Opcodes.Statement .getMeasurements := trivial
theorem Opcodes.firmwareImageVerify : Opcodes.Statement .firmwareImageVerify := trivial
theorem Opcodes.partitionForm : Opcodes.Statement .partitionForm := trivial
theorem Opcodes.throttleRaise : Opcodes.Statement .throttleRaise := trivial
theorem Opcodes.throttleLower : Opcodes.Statement .throttleLower := trivial
theorem Opcodes.thermalEmergency : Opcodes.Statement .thermalEmergency := trivial
theorem Opcodes.emergencyStandby : Opcodes.Statement .emergencyStandby := trivial
theorem Opcodes.uncorrectableError : Opcodes.Statement .uncorrectableError := trivial
theorem Opcodes.patrolScrub : Opcodes.Statement .patrolScrub := trivial
theorem Opcodes.coreRetire : Opcodes.Statement .coreRetire := trivial
theorem Opcodes.heatRetire : Opcodes.Statement .heatRetire := trivial
theorem Opcodes.accessCompletion : Opcodes.Statement .accessCompletion := trivial
theorem Opcodes.reservedEncoding : Opcodes.Statement .reservedEncoding := trivial
theorem Opcodes.instructionFetchFault : Opcodes.Statement .instructionFetchFault := trivial
theorem Opcodes.mwaitSpuriousWake : Opcodes.Statement .mwaitSpuriousWake := trivial
theorem Opcodes.reservedCommand : Opcodes.Statement .reservedCommand := trivial
theorem Opcodes.priEnable : Opcodes.Statement .priEnable := trivial
theorem Opcodes.modulePowerUp : Opcodes.Statement .modulePowerUp := trivial
theorem Opcodes.powerBudget : Opcodes.Statement .powerBudget := trivial

end Sys2Proof.Laws
end

