-- ==== Sys2Proof/Laws/Translate.lean ====
section
/-! SUPPORT. Where the accesses of a contiguous object go. -/

namespace Sys2Proof.Machine

/-- The object check answers the entry by which the die translates (R143, R150). -/
theorem objectCheck_ok {s : State} {x : Ctx} {c : Cap} {need : Need} {t : Entry} (h : objectCheck s x c need = .ok t) :
    entryOf s x.die x.asid c.obj = some t := by
  unfold objectCheck at h
  split at h
  · cases h
  · split at h
    · cases h
    · split at h
      · cases h
      · next t' he =>
        repeat' split at h
        all_goals try cases h
        exact he

/-- An access of a capability passes its checks, and goes where its object's entry says. -/
theorem translate_span {s : State} {x : Ctx} {c : Cap} {e : Int} {n : Nat} {need : Need} {l : Loc} (h : translate s x c e n need = .ok l) :
    ∃ t, entryOf s x.die x.asid c.obj = some t ∧ (0 ≤ e ∧ (e : Int) + n ≤ t.bound) ∧ resolveSpan s x c.obj t e.toNat n need = .ok l := by
  unfold translate at h
  cases ho : objectCheck s x c need with
  | error st => rw [ho] at h; cases h
  | ok t =>
    rw [ho] at h
    dsimp only at h
    split at h
    · cases h
    · split at h
      · cases h
      · next hc =>
        split at h
        · cases h
        · next hb =>
          split at h
          · cases h
          · next l' hr =>
            split at h
            · cases h
            · cases h
              refine ⟨t, objectCheck_ok ho, ⟨?_, by omega⟩, hr⟩
              have hc : c.covers e n = true := by simpa using hc
              simp [Cap.covers] at hc
              exact hc.2

/-- An offset of a contiguous object that lies in the die's own DRAM is reached at the object's base plus it, through no leaf. -/
theorem resolve_contiguous {s : State} {x : Ctx} {obj e : Nat} {need : Need} {l : Loc} {t : Entry}
    (h : resolve s x obj t e need = .ok l) (hk : t.kind = 1) (hb : t.w1 + e < 2 ^ 48) :
    l.leaf = none ∧ l.second = none ∧ l.key = keyOf x.die t.w1 + e := by
  have hp (w at' : Bool) (l : Loc) : physLoc s x.die x.asid (t.w1 + e) w l at' =
      if s.has (keyOf x.die (t.w1 + e)) then .ok { l with key := keyOf x.die (t.w1 + e) }
      else .error (.hole (keyOf x.die (t.w1 + e))) := by
    unfold physLoc
    rw [if_neg (by omega)]
  simp only [resolve, hk, entryLoc, hp] at h
  norm_num at h
  split at h
  · next hl =>
    split at hl
    · cases hl
      injection h with h
      have hkey := congrArg Loc.key h
      have hleaf := congrArg Loc.leaf h
      have hsecond := congrArg Loc.second h
      refine ⟨hleaf.symm, hsecond.symm, hkey.symm.trans ?_⟩
      simp only [keyOf]
      rw [if_neg (by omega), if_neg (by omega)]
      omega
    · cases hl
  · cases h

/-- An access of a contiguous object that lies in the die's own DRAM goes to the object's base plus its offset, byte after byte, through no leaf. -/
theorem translate_contiguous {s : State} {x : Ctx} {c : Cap} {e : Int} {n : Nat} {need : Need} {l : Loc} {t : Entry}
    (h : translate s x c e n need = .ok l) (ht : entryOf s x.die x.asid c.obj = some t) (hk : t.kind = 1) (hb : t.w1 + t.size < 2 ^ 48) :
    l.leaf = none ∧ l.key = keyOf x.die t.w1 + e.toNat ∧ ∀ j, j < n → l.keyAt j = keyOf x.die t.w1 + e.toNat + j := by
  obtain ⟨t', hc, he, hr⟩ := translate_span h
  obtain ⟨rfl⟩ : t = t' := by rw [ht] at hc; exact Option.some.inj hc
  have h0 := he.1
  have hs : (e : Int) + n ≤ t.size := by
    have := he.2
    simp only [Entry.bound, hk] at this
    norm_num at this
    exact this
  unfold resolveSpan at hr
  split at hr
  · cases hr
  · next l0 hl0 =>
    obtain ⟨hl, h2, hkey⟩ := resolve_contiguous hl0 hk (by omega)
    dsimp only at hr
    simp only [if_neg (show ¬ (t.kind = 5 ∧ e.toNat < t.size) by omega)] at hr
    split at hr
    · cases hr
      refine ⟨hl, hkey, fun j _ => ?_⟩
      simp [Loc.keyAt, h2, hkey]
    · next hn =>
      split at hr
      · cases hr
      · next m hm =>
        cases hr
        obtain ⟨_, _, hkm⟩ := resolve_contiguous hm hk (by omega)
        refine ⟨hl, hkey, fun j _ => ?_⟩
        simp only [Loc.keyAt]
        split <;> omega

end Sys2Proof.Machine
end

