-- ==== Sys2Proof/Tests/States.lean ====
section
/-! SUPPORT. Small states for the tests: one crew of one wave with one fragment on core 0 of die 8, with an object in memory where a test
needs one. -/

namespace Sys2Proof.Tests

open Sys2Proof Sys2Proof.Machine Sys2Proof.Claims

/-- A fragment that stands at an instruction of four bytes with every lane. -/
def fragment : Thread := { state := .live, pc := 0x100, mask := BitVec.allOnes 32 }

/-- A crew on core 0 of die 8. -/
def crew : Crew := { die := 8, asid := 1, launch := 0, state := .running, started := true, vallot := 64 }

/-- The fragment about to execute an instruction with some fields. -/
def one (x : Fields) (t : Thread := fragment) (w : Wave := {}) (c : Crew := crew) : State :=
  { State.reset with crews := [(0, c)], waves := [(0, w)], threads := [(0, t)], launches := [(0, { die := 8, asid := 1 })], ir := x, len := 4 }

/-- The fragment with scalar registers. -/
def withS (s : Table Word) : Thread := { fragment with s := s }

/-- A tagged capability with all rights but S to the first 4 KiB of object 0. -/
def whole : Cap := ⟨BitVec.ofNat 128 (0xFE * 2 ^ 120 + 4096 * 2 ^ 78), true⟩

/-- The fragment with that capability in c1. -/
def withC (s : Table Word := []) : Thread := { fragment with s := s, c := [(1, whole)] }

/-- The state `one` with a contiguous object 0 of 4 KiB at address 0x2000 of die 8, which holds some bytes. -/
def mapped (x : Fields) (t : Thread := withC) (w : Wave := {}) (c : Crew := crew) (bs : List Byte := []) : State :=
  let s := { one x t w c with dies := [(8, { asids := [(1, { base := 0x1000, count := 1 })] })] }
  (s.write (keyOf 8 0x1000) (bytesOf 8 (2 ^ 63 + 2 ^ 60 + 4096) ++ bytesOf 8 0x2000)).write (keyOf 8 0x2000) bs

/-- The state after an instruction, where it has one. -/
def after (i : Instr) (s : State) : State :=
  match exec i s with
  | .next t => t
  | _ => s

/-- The value of a computation that has one. -/
def got {ε α : Type} (d : α) : Except ε α → α
  | .ok a => a
  | .error _ => d

/-- The computation has a value. -/
def good {ε α : Type} : Except ε α → Bool
  | .ok _ => true
  | .error _ => false

theorem ok_got {ε α : Type} {d : α} {e : Except ε α} (h : good e = true) : e = .ok (got d e) := by
  cases e with
  | ok a => rfl
  | error _ => cases h

end Sys2Proof.Tests
end

