-- ==== Sys2Proof/Tests/MetFront.lean ====
section
/-! SUPPORT. States that meet the hypotheses of the statements about crews, packets, launches and the host's commands, clause by clause. -/

-- One declaration after the other: elaborated at once, the many closed checks would start more threads than there is memory for.
set_option Elab.async false

namespace Sys2Proof.Tests

open Sys2Proof Sys2Proof.Machine Sys2Proof.Claims

/-! ### Crews -/

/-- Die 8 with its first heat alone in use, and object 0 in ASID 1. -/
def small : Die := { retiredHeats := (List.range 24).drop 1, asids := [(1, { base := 0x1000, count := 1 })] }
/-- Die 8 with its core 0 alone in use. -/
def tiny : Die := { small with retiredCores := (List.range 8).drop 1 }
/-- Nothing but a die 8, with crews, and an event of that die. -/
def crewed (d : Die) (cs : Table Crew) : State := { State.reset with crews := cs, dies := [(8, d)], launches := [(0, { die := 8, asid := 1 })], ev := { subject := 8 } }
/-- A crew of die 8 that waits. -/
def waiting (n : Nat) : Crew := { die := 8, asid := 1, launch := 0, crewid := n, vallot := 8 }

/-- Of two waiting crews the one of the lower CREWID is the first, and core 0 the one that R83 names. -/
theorem met_CrewPlacement :
    let s := crewed small [(0, waiting 1), (1, waiting 0)]
    tsorted s.crews = true ∧ tfind? s.crews 1 = some (waiting 0) ∧
    FirstBy (fun e => [e.2.prio, e.2.age, e.2.crewid, e.1]) (fun e => waitsOn s 8 e.1 e.2) s 1 (waiting 0) ∧ (waiting 0).paired = false ∧
    (waiting 0).frameBad = false ∧ framePoisoned s 1 = false ∧ (waiting 0).nwaves ≤ 32 ∧ 0 ∈ freeCores s 8 ∧
    (∀ j ∈ freeCores s 8, lexLt (coreKey s 8 j) (coreKey s 8 0) = false) ∧ (waiting 0).started = false := by
  simp only [FirstBy, waitsOn]
  decide +kernel
/-- A crew that was taken off waits for the same core. -/
theorem met_CrewPlacement_started :
    let c := { waiting 0 with started := true }
    let s := { crewed small [(0, c)] with waves := [(0, {})], threads := [(0, fragment)] }
    FirstBy (fun e => [e.2.prio, e.2.age, e.2.crewid, e.1]) (fun e => waitsOn s 8 e.1 e.2) s 0 c ∧ 0 ∈ freeCores s 8 ∧
    (∀ j ∈ freeCores s 8, lexLt (coreKey s 8 j) (coreKey s 8 0) = false) ∧ (∀ w < 64, traceEn (s.wave w).tracectl = false) := by
  simp only [FirstBy, waitsOn]
  decide +kernel
/-- A crew of a pipeline's pool that was taken off waits for its core without a stage. -/
theorem met_CrewPlacement_held :
    let c := { waiting 0 with started := true, pipeline := some 0 }
    let s := crewed small [(0, c)]
    FirstBy (fun e => [e.2.prio, e.2.age, e.2.crewid, e.1]) (fun e => waitsOn s 8 e.1 e.2) s 0 c ∧ c.pipeline.isSome = true ∧ c.stage.isNone = true ∧
    framePoisoned s 0 = false ∧ 0 ∈ freeCores s 8 ∧ (∀ w < 64, traceEn (s.wave w).tracectl = false) := by
  simp only [FirstBy, waitsOn]
  decide +kernel
/-- A crew whose one wave has ended. -/
theorem met_CrewsLeaveTheirCores_end :
    let c := { waiting 0 with state := .running, started := true }
    let s := { crewed small [(0, c)] with waves := [(0, { ended := true })], ev := {} }
    tfind? s.crews 0 = some c ∧ thas s.launches c.launch = true ∧ c.pipeline = none ∧ crewOver s 0 = true ∧ c.subs = [] := by decide +kernel
/-- A crew of class 0 that waits, and one of class 2 that runs on the only core. -/
theorem met_CrewsLeaveTheirCores_victim :
    let c := { waiting 1 with state := .running, started := true, prio := 2 }
    let s := crewed tiny [(0, c), (1, waiting 0)]
    (s.die 8).preempting = none ∧ (∀ e ∈ s.crews, e.2.stopFor = none) ∧ tsorted s.crews = true ∧ freeCores s 8 = [] ∧
    tfind? s.crews 1 = some (waiting 0) ∧ FirstBy (fun e => [e.2.prio, e.2.age, e.2.crewid, e.1]) (fun e => waitsOn s 8 e.1 e.2) s 1 (waiting 0) ∧
    tfind? s.crews 0 = some c ∧ FirstBy (fun e => [3 - e.2.prio, 2 ^ 64 - e.2.age, 2 ^ 32 - e.2.crewid, e.1])
      (fun e => e.2.die = 8 ∧ e.2.state = .running ∧ (waiting 0).prio < e.2.prio ∧ framesFree s e.1 = true) s 0 c ∧
    c.paired = false := by
  simp only [FirstBy, waitsOn]
  decide +kernel
/-- A stopping crew that has drained, and a running one all of whose waves are parked. -/
theorem met_CrewsLeaveTheirCores_off :
    (let c := { waiting 0 with state := .stopping, stopFor := some 0 }
     let s := { crewed { small with preempting := some 0 } [(0, c)] with
       waves := [(0, {}), (1, {})], threads := [(0, fragment), (32, { fragment with rep := some ⟨1, 2, 0, 0, 4, false⟩ })] }
     (s.die 8).preempting = some 0 ∧ maySave s 0 0 c ∧ (∀ k ∈ s.threadsOf 0, (s.thread k).rep = none) ∧ s.threadsOf 1 = [32]) ∧
    (let c := { waiting 0 with state := .running, started := true }
     let s := { crewed small [(0, c)] with waves := [(0, { parked := true, pages := [5] })], ev := {} }
     tfind? s.crews 0 = some c ∧ c.state = .running ∧ c.paired = false ∧ allParked s 0 = true ∧ framesFree s 0 = true) := by
  unfold maySave
  decide +kernel
theorem met_RefillsAndAdvances :
    let s := { crewed small [(0, crew)] with xd := { level := 7 } }
    tfind? s.crews 0 = some crew ∧ crew.state ≠ .ended ∧ s.xd.level < 8 ∧ crew.prio < 4 := by decide +kernel

/-! ### Stages -/

/-- A pipeline of one stage, with a crew of its pool on its core without waves, and other crews on the stage. -/
def piped (c : Crew) (others : Table Crew := []) : State :=
  { crewed small ((0, { c with pipeline := some 0 }) :: others) with
    instances := [(0, { die := 8, asid := 1, first := true, last := true })], pipelines := [(0, { die := 8, asid := 1, path := [0], launch := 0 })]
    ev := {} }
theorem met_CrewsMoveBetweenStages :
    let s := piped (waiting 0)
    tsorted s.crews = true ∧ (∀ e ∈ s.crews, ∀ i, e.2.stage = some i → e.2.pipeline = some (s.instance' i).accountable) ∧
    thas s.pipelines 0 = true ∧ (s.pipeline 0).die = 8 ∧ tsorted s.pipelines = true := by
  refine ⟨by decide +kernel, ?_, by decide +kernel, by decide +kernel, by decide +kernel⟩
  intro e he i hi
  simp only [piped, crewed, List.mem_singleton] at he
  rw [he] at hi
  cases hi
theorem met_CrewsMoveBetweenStages_held :
    (let s := piped { waiting 0 with state := .held }
     let c := s.crew 0
     tfind? s.crews 0 = some c ∧ c.pipeline = some 0 ∧ c.state = .held ∧ (∃ i ∈ ownStages s 0, stageOpen s i = true) ∧
     (s.pipeline 0).path.getLast? = some 0 ∧ stageOpen s 0 = true ∧ nextStage s c = some 0 ∧ (s.pipeline 0).nwaves ≤ 32) ∧
    (let s := piped { waiting 0 with state := .held } [(1, { waiting 1 with state := .running, pipeline := some 0, stage := some 0 })]
     nextStage s (s.crew 0) = none) ∧
    (let s := piped (waiting 0)
     (s.crew s.ev.subject).state ≠ .held ∧ mayMove s s.ev.subject = false ∧ mustLeave s s.ev.subject = false ∧ crewOver s s.ev.subject = false) := by decide +kernel

/-- A pipeline of two stages: the queue between them is full, and its one crew is on the first, which needs none. -/
def uneven : State :=
  { crewed small [(0, { waiting 0 with state := .running, started := true, pipeline := some 0, stage := some 0 })] with
    instances := [(0, { die := 8, asid := 1, first := true, qcap := 4, qsize := 8, nextSeq := 4, cursors := [(1, {})] }),
      (1, { die := 8, asid := 1, last := true, upstream := some 0 })]
    pipelines := [(0, { die := 8, asid := 1, path := [0, 1], launch := 0 })] }
theorem stages_uneven : stagesOf uneven 0 = [0, 1] := by decide +kernel
theorem receives_uneven : ¬ mayReceive uneven 0 ∧ mayReceive uneven 1 := by unfold mayReceive; decide +kernel
/-- The second stage receives, the first gives, and its crew is the one that moves. -/
theorem met_CrewsMoveBetweenStages_move : tsorted uneven.crews = true ∧ tsorted uneven.pipelines = true ∧ 2 ≤ (uneven.pipeline 0).path.length ∧
    (uneven.pipeline 0).released = false ∧ Receiver uneven 0 1 ∧ Donor uneven 0 1 0 ∧ FirstOn uneven 0 0 := by
  refine ⟨by decide +kernel, by decide +kernel, by decide +kernel, by decide +kernel, ⟨1, by decide +kernel, receives_uneven.2, fun b j hb hj => ?_⟩,
    ⟨0, by decide +kernel, ⟨by decide, by decide +kernel⟩, fun b j hb hj => ?_⟩, ⟨_, rfl, rfl, by decide, fun e he _ _ => ?_⟩⟩
  · rw [stages_uneven] at hb
    match b, hb with
    | 0, hb => cases hb; exact absurd hj receives_uneven.1
    | 1, hb => cases hb; exact .inr ⟨rfl, le_refl 1⟩
  · rw [stages_uneven] at hb
    match b, hb with
    | 0, hb => cases hb; exact .inr ⟨rfl, le_refl 0⟩
    | 1, hb => cases hb; exact absurd rfl hj.1
  · cases List.mem_singleton.mp he
    exact .inr ⟨rfl, le_refl 0⟩
/-- A crew whose one wave has ended, with a stage to take it. -/
theorem met_CrewsMoveBetweenStages_leave :
    let c := { waiting 0 with state := .running, started := true, pipeline := some 0, stage := some 0, nwaves := 1 }
    let s := { piped c with waves := [(0, { ended := true, pts := 5 })] }
    let u := clearWaves s 0
    tfind? s.crews 0 = some { c with pipeline := some 0 } ∧ crewOver s 0 = true ∧ mustLeave s 0 = false ∧ c.subs = [] ∧ queueEnds u = u ∧
    (∃ j ∈ stagesOf u 0, stageOpen u j = true) ∧ (s.pipeline 0).path.getLast? = some 0 ∧ stageOpen u 0 = true ∧ nextStage u (u.crew 0) = some 0 ∧
    (s.pipeline 0).nwaves ≤ 32 ∧ 0 ∈ s.wavesOf 0 := by decide +kernel

/-! ### Packets -/

/-- A packet in a device queue of die 8, whose object 0 holds some bytes. -/
def packet (b : List Byte) : DevPacket := { bytes := b, asid := 1, args := [], cargs := [], completion := none, parent := 0, pts := 0 }
def fronted (b : List Byte) (data : List Byte := []) (cls : Nat := 0) : State :=
  { mapped {} fragment {} crew data with
    threads := [], waves := [], crews := [], dies := [(8, { small with devQueues := [(cls, [packet b])] })], ev := { subject := 8 } }
/-- A GRID of one crew of one wave with eight vector registers. -/
def gridPack : List Byte := bytesOf 64 (1 + 8 * 2 ^ 24 + 2 ^ 32 + 2 ^ 64 + 256 * 2 ^ 96)
/-- A BIND of a pool of one crew, and a descriptor of one stage for at most one crew. -/
def bindBytes : List Byte := bytesOf 64 (2 + 2 ^ 32 + 2 ^ 64 + 256 * 2 ^ 96)
def descBytes : List Byte := bytesOf 64 1 ++ bytesOf 24 0 ++ bytesOf 40 (1 + 2 ^ 16 + 8 * 2 ^ 40)
/-- A NODE without predecessors whose node is skipped, and a SIGNAL of the value 0 at offset 0. -/
def nodeBytes : List Byte := bytesOf 64 3
def signalBytes : List Byte := bytesOf 64 4
/-- The next packet of die 8 is one of a kind; how it starts. -/
def starting (i : Instr) (s : State) : Option (Bool × Option Bool) :=
  match packetStart i, nextPacket s 8 with
  | some (kind, start), some (.ok (u, x, b)) =>
    match consumePacket u x with
    | .ok v =>
      if pkKind b = kind ∧ (dueSignal s 8).isNone = true ∧ (dueNode s 8).isNone = true then
        some (packetOk b && packetAligned b && (kind != 1 || pairLeft s 8), match start v x b with | .ok _ => some true | .error (.trap _ _) => some false | _ => none)
      else none
    | .error _ => none
  | _, _ => none
/-- A good packet of each kind, bad ones, and packets whose access is refused. -/
theorem met_PacketsStart : starting .gridPacket (fronted gridPack) = some (true, some true) ∧
    starting .bindPacket (fronted bindBytes descBytes) = some (true, some true) ∧
    starting .nodePacket (fronted nodeBytes) = some (true, some true) ∧ starting .signalPacket (fronted signalBytes) = some (true, some true) ∧
    (starting .gridPacket (fronted (bytesOf 64 1))).map (·.1) = some false ∧
    starting .nodePacket (fronted (bytesOf 64 (3 + 5 * 2 ^ 128))) = some (true, some false) ∧
    starting .signalPacket (fronted (bytesOf 64 (4 + 5 * 2 ^ 128))) = some (true, some false) := by decide +kernel
theorem met_GridPackets :
    (let s := fronted gridPack
     (0 : Nat) < 4 ∧ tget [] (s.die 8).devQueues 0 = [packet gridPack] ∧ pkKind gridPack = 1 ∧ pkFlag gridPack 0 = false ∧
     packetOk gridPack = true ∧ packetAligned gridPack = true) ∧
    (let s := fronted gridPack [] 3
     (∀ c < 3, tget [] (s.die 8).devQueues c = []) ∧ tget [] (s.die 8).devQueues 3 = [packet gridPack]) := by decide +kernel
/-- The die without packets, with a launch. -/
def launched (x : Launch) (d : Die := small) : State :=
  { mapped {} fragment {} crew with threads := [], waves := [], crews := [], dies := [(8, d)], launches := [(0, x)], ev := { subject := 8 } }
/-- The first eight bytes of object 0, as an access that needs something finds them. -/
def slot (s : State) (need : Need) : Loc := got { key := 0 } (objReach 8 1 0 s 0 8 need)
theorem met_Signals :
    (let s := launched { die := 8, asid := 1, kind := 4, signal := some (0, 0, 7, true) }
     dueSignal s 8 = some 0 ∧ (s.launch 0).die = 8 ∧ (s.die 8).graphs = []) ∧
    (let s := launched { die := 8, asid := 1, kind := 4, signal := some (0, 0, 7, false) }
     dueSignal s 8 = some 0 ∧ (s.launch 0).die = 8 ∧
     (let need : Need := { rights := rightW, align := 8, write := true }
      good (objReach 8 1 0 s 0 8 need) = true ∧ (slot s need).leaf = none ∧ dieOfKey (slot s need).key = 8 ∧
      storeStop s 8 (slot s need) = none)) := by decide +kernel
theorem met_LaunchesComplete :
    (let s := { launched { die := 8, asid := 1, kind := 1 } with ev := {} }
     launchReady s 0 = true ∧ (s.launch 0).node = none ∧ (s.launch 0).completion = none) ∧
    (let s := { launched { die := 8, asid := 1, kind := 1, completion := some (0, 0) } with ev := {} }
     launchReady s 0 = true ∧ (s.launch 0).node = none ∧
     (let need : Need := { rights := rightW + rightA, align := 8, write := true, atomic := true }
      good (objReach 8 1 0 s 0 8 need) = true ∧ (slot s need).leaf = none ∧ dieOfKey (slot s need).key = 8 ∧
      storeStop s 8 (slot s need) = none ∧ s.poisoned (slot s need).key = false)) ∧
    (let x : HostQueue := { ring := 0x2000, n := 2, asid := 1 }
     let s := launched {} { small with hostQueues := [(0, x)] }
     tfind? (s.die 8).hostQueues 0 = some x ∧ x.isOpen = true ∧
     good (readVia (physReach 8 x.asid x.ring) s 8 0 8 (hostTime s) { rights := rightR }) = true) ∧
    (let g : Graph := { asid := 1, obj := 0, closeAt := some 0 }
     let s := { launched { die := 8, asid := 1, kind := 3, node := some (0, 64), starting := true } { small with graphs := [g] } with
       ev := { subject := 8, arg1 := 0, arg2 := 1 } }
     (s.die 8).graphs.find? (fun g => g.asid == s.ev.arg2 && g.obj == s.ev.arg1) = some g ∧ g.closeAt = some 0 ∧ 0 ≤ s.clock ∧
     tsorted s.launches = true ∧ (s.launch 0).starting = true) := by decide +kernel

/-! ### The host's commands -/

/-- A command to die 8 in ASID 1. -/
def command (a0 a1 : Nat) (a3 : Nat := 0) (resv : Nat := 0) : EventArgs :=
  { subject := 8, cmd := ⟨BitVec.ofNat 8 resv, 1, BitVec.ofNat 32 a0, BitVec.ofNat 64 a1, 0, BitVec.ofNat 256 a3⟩ }
def commanded (e : EventArgs) (d : Die := small) (cs : Table Crew := []) : State := { launched {} d with crews := cs, ev := e }
theorem met_ManagementCommands :
    (let s := commanded (command 0 0 0 1)
     commandComes s ∧ s.ev.cmd.resv1 ≠ 0) ∧
    ((commanded (command 0 0) { small with mgmtPending := some (0, false) }).die 8).mgmtPending ≠ none ∧ goodCommand (commanded (command 0 0)) ∧
    (let s := commanded (command 1 0x1000) small [(0, { crew with state := .ended })]
     goodCommand s ∧ s.ev.cmd.arg1.toNat % 32 = 0 ∧ s.ev.cmd.arg1.toNat < 2 ^ 48 ∧ s.ev.cmd.arg2.toNat < 2 ^ 16 ∧
     ∀ e ∈ s.crews, e.2.die = 8 → e.2.asid = 1 → e.2.state = .ended) ∧
    (let s := commanded (command 1 0x1000) small [(0, crew)]
     ∃ e ∈ s.crews, e.2.die = 8 ∧ e.2.asid = 1 ∧ e.2.state ≠ .ended) ∧
    noneWaits (commanded (command 0 0)) (lockRequest 8 1 0) := by
  refine ⟨?_, by decide +kernel, ?_, ?_, by decide +kernel, ?_⟩
  · unfold commandComes; decide +kernel
  · unfold goodCommand commandComes; decide +kernel
  · unfold goodCommand commandComes; decide +kernel
  · exact ⟨(fun e he => by cases he), (fun e he => by cases he)⟩
/-- A malformed command at the head of die 8's ring of 16 at the object's bytes, with TAIL 1. -/
def ringed : State :=
  let s := { commanded { command 0 0 0 1 with arg1 := 1 } { small with mgmt := some { ring := 0x2000, n := 16, asid := 1 } } with launches := [] }
  s.write (keyOf 8 0x2000) (bytesOf 64 1 ++ bytesOf 8 (1 + 2 ^ 8))
theorem met_ManagementCommands_ring :
    let s := ringed
    let r := got (s, none) (takeCommand s 8)
    let u := r.1
    let w := u.modDie 8 (fun d => { d with mgmtPending := some (2, true) })
    Instr.asidset ∈ managementCommands ∧ (s.die 8).mgmtPending = none ∧ s.ev.arg1 = 1 ∧ otherRow s 8 .asidset = false ∧ good (takeCommand s 8) = true ∧
    (r.2.map (fun b => decide ((commandOf b).resv1 ≠ 0))) = some true ∧ u.ev = s.ev ∧ (u.die 8).mgmtWait = [] ∧ (u.die 8).mgmtTelem = none ∧ (u.die 8).mgmt = some { ring := 0x2000, n := 16, asid := 1, head := 1 } ∧
    heldIn s 8 s.ev.cmd.asidField.toNat 0 0 16 = none ∧
    good (writeVia (physReach 8 1 0x2000) w 8 ((0x78 + 64 * (0 % 16) : Nat) : Int) (bytesOf 8 2) (hostTime w) { rights := rightW, write := true }) =
      true := by decide +kernel
/-- An object that an export names to die 9 has an importer, and one that none names has none. -/
theorem met_ManagementCommands_importers :
    importersOf (commanded (command 0 0) { small with exports := [(0, (2 ^ 63 + 2 ^ 57 + 2 ^ 32, 0))] }) 8 1 0 = [9] ∧
    importersOf (commanded (command 0 0)) 8 1 0 = [] := by decide +kernel
/-- Each command with an argument out of its form. -/
theorem met_ManagementCommands_bad : ∀ e ∈ [(Instr.asidset, 1, 1), (.exportObject, 8, 0), (.unexport, 4096, 0), (.evsched, 8, 0), (.lqopen, 3, 0),
    (.lqclose, 64, 0), (.telem, 0, 0), (.capset, 0, 8), (.reservedCommand, 0, 0)],
    goodCommand (commanded (command e.2.1 e.2.2)) ∧ badArguments e.1 (command e.2.1 e.2.2).cmd := by
  intro e he
  refine ⟨by unfold goodCommand commandComes; revert e; decide +kernel, ?_⟩
  simp only [List.mem_cons, List.not_mem_nil, or_false] at he
  rcases he with rfl | rfl | rfl | rfl | rfl | rfl | rfl | rfl | rfl
  · exact .inl ⟨rfl, .inl (by decide +kernel)⟩
  · exact .inr (.inl ⟨rfl, .inl (by decide +kernel)⟩)
  · exact .inr (.inr (.inl ⟨rfl, by decide +kernel⟩))
  · exact .inr (.inr (.inr (.inl ⟨rfl, .inl (by decide +kernel)⟩)))
  · refine .inr (.inr (.inr (.inr (.inl ⟨rfl, .inl ?_⟩))))
    rintro ⟨k, h1, _, h⟩
    obtain ⟨n, rfl⟩ := Nat.exists_eq_add_of_le h1
    have h3 : (command 3 0).cmd.arg0.toNat = 3 := by decide +kernel
    have : 2 ^ (1 + n) % 2 = 0 := by rw [pow_add, pow_one, Nat.mul_mod_right]
    have hh : 3 = 2 ^ (1 + n) := h3.symm.trans h
    omega
  · exact .inr (.inr (.inr (.inr (.inr (.inl ⟨rfl, by decide +kernel⟩)))))
  · exact .inr (.inr (.inr (.inr (.inr (.inr (.inl ⟨rfl, by decide +kernel⟩))))))
  · exact .inr (.inr (.inr (.inr (.inr (.inr (.inr (.inl ⟨rfl, by decide +kernel⟩)))))))
  · exact .inr (.inr (.inr (.inr (.inr (.inr (.inr (.inr rfl)))))))
/-- Each command that asks for what the die's state does not allow: a crew that runs, no right E, an id that names no export, no free queue, no object. -/
theorem met_ManagementCommands_refused :
    notAllowed (commanded (command 1 0x1000) small [(0, crew)]) .asidset ∧ notAllowed (commanded (command 0 0)) .exportObject ∧
    notAllowed (commanded (command 0 0)) .unexport ∧
    notAllowed (commanded (command 2 0x2000) { small with hostQueues := (List.range 64).map (fun q => (q, { ring := 0x2000, n := 2, asid := 1 })) }) .lqopen ∧
    notAllowed (commanded (command 5 0)) .capset := by
  refine ⟨.inl ⟨rfl, by decide +kernel⟩, .inr (.inl ⟨rfl, .inl (by decide +kernel)⟩), .inr (.inr (.inl ⟨rfl, .inl (by decide +kernel)⟩)),
    .inr (.inr (.inr (.inl ⟨rfl, fun q hq => ⟨{ ring := 0x2000, n := 2, asid := 1 }, ?_, rfl⟩⟩))), .inr (.inr (.inr (.inr ⟨rfl, .inl (by decide +kernel)⟩)))⟩
  revert q; decide +kernel
/-- An export of object 0 for atomics; object 0 of a die that exports it already. -/
theorem met_ManagementCommands_exports :
    (let s := commanded (command 1 0 (whole.raw.toNat + 2 ^ 128))
     let k := capOf (bytesOf 16 s.ev.cmd.arg3.toNat) true
     1 / 8 % 2 = 0 ∧ k.tag = true ∧ k.rights / 2 % 2 = 1 ∧ k.rights &&& (1 / 4 % 2 * 128 + 1 / 2 % 2 * 64 + 1 % 2 * 16) = 16 ∧ exportable s 8 1 k.obj = true ∧
     (tget (0, 0) (s.die 8).exports 0).1 / 2 ^ 63 % 2 = 0) ∧
    (let s := commanded (command 0 0) { small with exports := [(0, (2 ^ 63 + 2 ^ 62 + 2 ^ 32, 0))] }
     let x := tget (0, 0) (s.die 8).exports 0
     tsorted (s.die 8).exports = true ∧ fld 0 12 4 = 0 ∧ fld x.1 63 1 = 1 ∧ x.1 < 2 ^ 64 ∧ fld x.2 48 16 = fld 0 16 16) := by decide +kernel
theorem met_ManagementCommands_queues :
    (let s := commanded (command 7 0x2000)
     goodCommand s ∧ s.ev.cmd.arg0.toNat < 8 ∧ s.ev.cmd.arg1.toNat < 2 ^ 48 ∧ s.ev.cmd.arg1 ≠ 0) ∧
    (let s := commanded (command 65536 0x2000)
     goodCommand s ∧ 65536 = 2 ^ 16 ∧ s.ev.cmd.arg1.toNat < 3 * 2 ^ 48 ∧ tfind? (s.die 8).hostQueues 63 = none) ∧
    (let x : HostQueue := { ring := 0x2000, n := 2, asid := 1 }
     let s := commanded (command 2 0x2000) { small with hostQueues := (List.range 64).map (fun q => (q, x)) }
     ∀ q < 64, tfind? (s.die 8).hostQueues q = some x) ∧
    goodCommand (commanded (command 63 0)) := by
  unfold goodCommand commandComes
  decide +kernel
/-- TELEM into a host page that is mapped, and CAPSET of a capability to object 0 into its first granule. -/
theorem met_ManagementCommands_telem :
    let s := { commanded (command 0 (2 * 2 ^ 48 + 0x3000)) with hostPages := [((8 * 8192 + 1) * 2 ^ 36 + 3, ⟨5, true, true, false⟩)] }
    goodCommand s ∧ s.ev.cmd.arg1.toNat / 2 ^ 48 = 2 ∧ 0x3000 % 64 = 0 ∧
    ((List.range 4).map (fun k => (got { key := 0 } (hostLoc s 8 1 (0x3000 + 64 * k) true { key := 0 })).key)) =
      (List.range 4).map (fun k => (got { key := 0 } (hostLoc s 8 1 0x3000 true { key := 0 })).key + 64 * k) ∧
    0x3000 + 256 ≤ 2 ^ 48 ∧ ∀ k < 4, good (hostLoc s 8 1 (0x3000 + 64 * k) true { key := 0 }) = true ∧
      tfind? (s.die 8).rdc (lineOf (got { key := 0 } (hostLoc s 8 1 0x3000 true { key := 0 })).key + k) = none := by
  unfold goodCommand commandComes
  decide +kernel
theorem met_ManagementCommands_capset :
    let s := commanded (command 0 0 (whole.raw.toNat + 2 ^ 128))
    let k := capOf (bytesOf 16 s.ev.cmd.arg3.toNat) true
    goodCommand s ∧ s.ev.cmd.arg1.toNat % 16 = 0 ∧ (capsetPlace s 8 1 s.ev.cmd).map (·.key) = some (keyOf 8 0x2000) ∧ k.tag = true ∧
    windowInside s 8 1 k = true ∧ ((capsetPlace s 8 1 s.ev.cmd).bind (storeStop s 8)) = none ∧ isHost (keyOf 8 0x2000) = false ∧
    (capsetPlace s 8 1 s.ev.cmd).map (·.peer) = some false ∧ keyOf 8 0x2000 % 16 = 0 := by
  unfold goodCommand commandComes
  decide +kernel

/-- A request of die 8 for page 3 of object 0, not posted and posted, and a page-request group index. -/
def request (n : Option Nat) : PageRequest := { asid := 1, obj := 0, page := 3, kind := 0, why := 1, number := n }
def requested (n : Option Nat) (answer : Nat) : State :=
  { launched {} { small with requests := [(0, request n)], pri := [(0, ⟨1, 0, 0, [3], 0⟩), (1, ⟨1, frontCrew, 0, [4], 0⟩)] } with
    crews := [(0, crew)], waves := [(0, { parked := true, pages := [8 * 2 ^ 32] })], threads := [(0, { fragment with park := some (8 * 2 ^ 32, 0) })]
    ev := { subject := 8, arg1 := answer } }
theorem met_PageRequests :
    (let s := requested none 0
     (s.die 8).prHead - (s.die 8).prTail ≠ 64 ∧ (s.die 8).requests.find? (fun e => e.2.number.isNone) = some (0, request none)) ∧
    (∀ a ∈ [0, 2 ^ 32],
      let s := requested (some 0) a
      (s.die 8).requests.find? (fun e => match e.2.number with | some i => i % 2 ^ 32 == s.ev.arg1 % 2 ^ 32 | none => false) =
        some (0, request (some 0)) ∧ tsorted s.threads = true ∧ tsorted s.waves = true ∧ fld a 32 1 = a / 2 ^ 32 ∧
      (s.thread 0).park = some (8 * 2 ^ 32, 0) ∧ isSequencer (waveOf 0) = false) ∧
    (let s := requested none 0
     (tfind? (s.die 8).pri 0).isSome = true ∧ (0 : Nat) ≠ frontCrew ∧ ((tfind? (s.die 8).pri 1).map (·.crew)) = some frontCrew ∧ (s.crew 0).state ≠ .ended ∧ (s.crew 0).incarnation = 0 ∧
     ({ s with crews := [(0, { crew with state := .ended })] }.crew 0).state = .ended) := by decide +kernel
/-- A held load that has met its page's lock for 4,096 cycles. -/
theorem met_HostRegisters :
    fld 0 16 1 = 0 ∧ fld (2 ^ 16) 16 1 = 1 ∧
    (let s := { launched {} with
      clock := 4096, threads := [(0, { fragment with lock := some (0, 5), hold := some { op := .sld, since := 0 } })], waves := [(0, {})], ev := {} }
     tsorted s.threads = true ∧ (s.thread 0).lock = some (0, 5) ∧ 0 + 4096 ≤ s.clock ∧ (s.thread 0).park = none ∧
     (s.thread 0).hold = some { op := .sld, since := 0 }) ∧
    (let s := commanded { subject := 8, arg1 := 2 ^ 16 + 1 } small [(0, crew), (1, { crew with asid := 2, launch := 1 })]
     tsorted s.crews = true ∧ tsorted s.launches = true ∧ (tfind? s.crews 0).map (·.asid) = some (s.ev.arg1 % 2 ^ 13) ∧
     (s.crew 0).stage = none ∧
     (s.crew 1).asid ≠ s.ev.arg1 % 2 ^ 13 ∧ (s.launch 1).asid ≠ s.ev.arg1 % 2 ^ 13) := by decide +kernel

end Sys2Proof.Tests
end

