-- ==== Sys2Proof/Tests/MetScalar.lean ====
section
/-! SUPPORT. States that meet the hypotheses of the statements about scalar instructions, traps, control transfers, prefixes and kills, clause by
clause. -/

-- One declaration after the other: elaborated at once, the many closed checks would start more threads than there is memory for.
set_option Elab.async false

namespace Sys2Proof.Tests

open Sys2Proof Sys2Proof.Machine Sys2Proof.Claims

/-- A handler at 0x400 in c15. -/
def handler : Cap := ⟨BitVec.ofNat 128 (0xFE * 2 ^ 120 + 0x400 * 2 ^ 2), true⟩

/-- A fragment with a handler and some scalar registers. -/
def ready (s : Table Word := []) : Thread := { fragment with s := s, c := [(15, handler)] }

/-- The state can enter a trap. -/
theorem met_canTrap : canTrap (one {} (ready)) 0 := by unfold canTrap; decide +kernel

theorem met_ScalarArithmetic : (scalarSpec .sadd).isSome = true ∧ admits (one { a := 1, b := 2, d := 3 }) .sadd = true := by decide +kernel
/-- The discarded form: s0 is the destination. -/
theorem met_ScalarArithmetic_s0 : (scalarSpec .sseqLit).isSome = true ∧ admits (one { a := 1, d := 0, lit := some 5 }) .sseqLit = true := by
  decide +kernel
theorem met_ScalarDivision : (divisionSpec .sdiv).isSome = true ∧ admits (one { a := 1, b := 2 } (withS [(2, 3)])) .sdiv = true ∧
    operandB (one { a := 1, b := 2 } (withS [(2, 3)])) ≠ 0 := by decide +kernel
theorem met_DivisionByZeroTraps : (divisionSpec .sremn).isSome = true ∧ admits (one { a := 1, b := 2 } (ready)) .sremn = true ∧
    operandB (one { a := 1, b := 2 } (ready)) = 0 ∧ canTrap (one { a := 1, b := 2 } (ready)) 0 := by unfold canTrap; decide +kernel
theorem met_PredicateLogic : (predicateSpec .pandn).isSome = true ∧ admits (one { a := 1, b := 2, d := 31 }) .pandn = true := by decide +kernel
theorem met_PredicateCounts : (predicateCount .pfirst).isSome = true ∧ admits (one { a := 31, d := 63 }) .pfirst = true := by decide +kernel

/-- CWIN with a B in range and one beyond it; CGET. -/
theorem met_CapabilityOperations : (∃ f, capabilitySpec .cwin = some f ∧ (f whole 8).isSome = true ∧ f whole (2 ^ 42) = none) ∧
    admits (one { a := 1, b := 2, d := 3 } (withC [(2, 8)])) .cwin = true ∧ admits (one { a := 15, d := 3, x := 3 }) .cget = true :=
  ⟨⟨_, rfl, by decide +kernel, by decide +kernel⟩, by decide +kernel, by decide +kernel⟩

/-- SLD from offset 8 of the object. -/
def load : State := mapped { a := 1, b := 2, d := 3 } (withC [(2, 8)])
def loadPlace : Loc := got { key := 0 } (translate load load.curC.ctx (readC load 1) (scalarOffset load) 8 { rights := rightR, align := 8 })
theorem met_ScalarLoads : (∃ w, loadSpec .sld = some (8, w)) ∧ admits load .sld = true ∧ load.curT.hold = none ∧
    earlierOpen load = false ∧ load.curW.counter 0 < 63 ∧
    (∃ l u g, translate load load.curC.ctx (readC load load.ir.a.toNat) (scalarOffset load) 8 { rights := rightR, align := 8 } = .ok l ∧
      loadAt load load.curDie (some load.curC.core) load.curW.pts l 8 = .ok (u, g)) :=
  ⟨⟨_, rfl⟩, by decide +kernel, rfl, by decide +kernel, by decide +kernel, loadPlace,
    (got (State.reset, { bytes := [], tag := false, ts := 0 }) (loadAt load load.curDie (some load.curC.core) load.curW.pts loadPlace 8)).1, (got (State.reset, { bytes := [], tag := false, ts := 0 }) (loadAt load load.curDie (some load.curC.core) load.curW.pts loadPlace 8)).2,
    ok_got (by decide +kernel), ok_got (d := (State.reset, { bytes := [], tag := false, ts := 0 })) (by decide +kernel)⟩

def storePlace : Loc := got { key := 0 } (translate load load.curC.ctx (readC load 1) (scalarOffset load) 8
  { rights := rightW, align := 8, write := true })
/-- SST to offset 8 of the object, at home. -/
theorem met_ScalarStores : (∃ v tag, storeSpec .sst = some (8, v, tag)) ∧ admits load .sst = true ∧ load.curT.hold = none ∧ earlierOpen load = false ∧
    load.curW.counter 1 < 63 ∧ translate load load.curC.ctx (readC load load.ir.a.toNat) (scalarOffset load) 8
      { rights := rightW, align := 8, write := true } = .ok storePlace ∧ storeStop load load.curDie storePlace = none ∧
    storePlace.second = none ∧ dieOfKey storePlace.key = load.curDie ∧ isHost storePlace.key = false :=
  ⟨⟨_, _, rfl⟩, by decide +kernel, rfl, by decide +kernel, by decide +kernel, ok_got (by decide +kernel), by decide +kernel, by decide +kernel,
    by decide +kernel, by decide +kernel⟩
/-- Its bytes lie apart, in one place. -/
theorem met_ScalarStores_apart : ((List.range 8).all fun j => (List.range j).all fun i => storePlace.keyAt i != storePlace.keyAt j) = true := by
  decide +kernel

/-- A line of die 0 that die 8 owns in its remote-data cache, stored to through a peer window. -/
def remote : State := { one {} with dies := [(8, { rdc := [(0x80, { state := .m, wts := 0, mrts := 0, bytes := List.replicate 64 0 })] })] }
theorem met_ScalarStores_remote : storeStop remote 8 { key := keyOf 0 0x2008 } = none ∧ isHost (keyOf 0 0x2008) = false ∧
    dieOfKey (keyOf 0 0x2008) ≠ remote.curDie := by decide +kernel

/-- SLD at offset 4 through c1, with a handler. -/
def misaligned : State := mapped { a := 1, b := 2, d := 3 } { ready [(2, 4)] with c := [(1, whole), (15, handler)] }
theorem met_MisalignedAccessTraps : accessSpec .sld = some (8, 128) ∧ admits misaligned .sld = true ∧ misaligned.curT.hold = none ∧
    earlierOpen misaligned = false ∧
    misaligned.curW.counter 0 < 63 ∧ (readC misaligned misaligned.ir.a.toNat).tag = true ∧
    good (objectCheck misaligned misaligned.curC.ctx (readC misaligned misaligned.ir.a.toNat) { rights := 128 }) = true ∧
    scalarOffset misaligned % 8 ≠ 0 ∧ misaligned.curT.doneLanes = 0 ∧ canTrap misaligned misaligned.cur := by unfold canTrap; decide +kernel

/-- SST at offset 8 through a capability without right W. -/
def rightless : State :=
  mapped { a := 1, b := 2, d := 3 } { ready [(2, 8)] with c := [(1, ⟨BitVec.ofNat 128 (0xBE * 2 ^ 120 + 4096 * 2 ^ 78), true⟩), (15, handler)] }
theorem met_RightlessAccessTraps : accessSpec .sst = some (8, 64) ∧ admits rightless .sst = true ∧ rightless.curT.hold = none ∧
    earlierOpen rightless = false ∧ rightless.curW.counter 1 < 63 ∧ (readC rightless 1).tag = true ∧
    entryPoisoned rightless rightless.curDie rightless.curC.asid (readC rightless 1).obj = false ∧
    ((entryOf rightless rightless.curDie rightless.curC.asid (readC rightless 1).obj).map fun o => (o.valid, o.kind)) = some (true, 1) ∧
    (readC rightless 1).rights &&& 64 = 0 ∧ rightless.curT.doneLanes = 0 ∧ canTrap rightless rightless.cur := by unfold canTrap; decide +kernel

theorem met_TrapEntrySaves : thas (one {} (ready)).threads 0 = true ∧ canTrap (one {} (ready)) 0 := by unfold canTrap; decide +kernel
theorem met_TrapInstructions : admits (one { b := 2 } (ready)) .trap = true ∧ admits (one {} (ready)) .bkpt = true ∧
    canTrap (one {} (ready)) (one {} (ready)).cur ∧
    ((one {} { ready with trap := some (1, 2, 3, 4, 5) }).thread (one {}).ev.subject).trap = some (1, 2, 3, 4, 5) ∧
    canTrap (one {} { ready with trap := some (1, 2, 3, 4, 5) }) 0 := by unfold canTrap; decide +kernel
/-- SRET inside and outside a handler. -/
theorem met_ReturnFromTrap : admits (one {} fragment { hm := true, handler := some 0 }) .sret = true ∧
    (one {} fragment { hm := true, handler := some 0 }).curW.hm = true ∧ admits (one {}) .sret = true ∧ (one {}).curW.hm = false := by decide +kernel
theorem met_FetchTraps : thas (one {} (ready)).threads (one {}).cur = true ∧ canTrap (one {} (ready)) 0 ∧
    thas State.reset.threads State.reset.cur = false := by unfold canTrap; decide +kernel

/-- A taken and a misaligned branch. -/
theorem met_Branches : (branchSpec .brany).isSome = true ∧ admits (one { a := 1, b := 2 } (withS [(2, 0x40)])) .brany = true ∧
    (goal (one { a := 1, b := 2 } (withS [(2, 0x40)]))).toNat % 4 = 0 ∧ (one { a := 1, b := 2 } (withS [(2, 0x40)])).curT.rep = none ∧
    (goal (one { a := 1, b := 2 } (withS [(2, 2)]))).toNat % 4 ≠ 0 := by decide +kernel
theorem met_CallsAndLoops : admits (one { b := 2, d := 1 } (withS [(2, 0x40)])) .call = true ∧
    (goal (one { b := 2, d := 1 } (withS [(2, 0x40)]))).toNat % 4 = 0 ∧ admits (one { a := 2 } (withS [(2, 0x40)])) .ret = true ∧
    (readS (one { a := 2 } (withS [(2, 0x40)])) 2).toNat % 4 = 0 ∧ admits (one { b := 2, d := 1 } (withS [(2, 0x40)])) .loop = true := by
  decide +kernel

/-- A SPLIT that divides, with p1 in the low lanes, and one on p0, which holds in all. -/
theorem met_SplitDivides :
    let s := one { a := 1, b := 2, d := 7 } (withS [(2, 0x40)]) { p := [(1, 0xFF)] }
    admits s .split = true ∧ s.curT.rep = none ∧ (goal s).toNat % 4 = 0 ∧ readP s 1 &&& s.mask ≠ 0 ∧ readP s 1 &&& s.mask ≠ s.mask ∧
    s.curT.joins.length < 16 ∧ thas s.threads (32 * s.curWk + 1) = false ∧
    (let u := one { a := 0, b := 2, d := 7 } (withS [(2, 0x40)])
     admits u .split = true ∧ readP u 0 &&& u.mask = u.mask) := by decide +kernel
/-- A SPLIT that divides under 16 join records, with a handler. -/
theorem met_SplitDivides_deep :
    let s := one { a := 1, b := 2, d := 7 } { ready [(2, 0x40)] with joins := List.range 16 } { p := [(1, 0xFF)] }
    admits s .split = true ∧ s.curT.rep = none ∧ (goal s).toNat % 4 = 0 ∧ readP s 1 &&& s.mask ≠ 0 ∧ readP s 1 &&& s.mask ≠ s.mask ∧
    16 ≤ s.curT.joins.length ∧ canTrap s s.cur := by unfold canTrap; decide +kernel
/-- Two fragments of a divided wave: the current one in the low half of the lanes, the other in the high half. -/
def halves (other : ThreadState) : State :=
  { one { d := 7 } { fragment with mask := 0xFFFF, joins := [3] } { joins := [(3, { token := 7, expect := BitVec.allOnes 32, stay := 0xFFFF })] } with
    threads := [(0, { fragment with mask := 0xFFFF, joins := [3] }), (1, { fragment with mask := 0xFFFF0000, joins := [3], state := other })] }
/-- A JOIN without a record, one with another token, and one under a record. -/
theorem met_JoinMerges : admits (one { d := 7 }) .join = true ∧ (one { d := 7 }).curT.joins = [] ∧
    (∀ x ∈ [ThreadState.live, .joined], let s := halves x
     admits s .join = true ∧ s.curT.rep = none ∧ s.curT.joins = [3] ∧ (tget {} s.curW.joins 3).token = s.ir.d.toNat ∧ s.curT.state = .live ∧
     s.curW.ended = false ∧ isSequencer s.curWk = false ∧ s.mask ≠ 0 ∧ thas s.waves s.curWk = true ∧
     (∀ k ∈ s.threadsOf s.curWk, (s.thread k).state ≠ .deferred)) ∧
    (1 ∈ (halves .live).threadsOf 0 ∧ ((halves .live).thread 1).state = .live) := by decide +kernel
theorem parkedAt_halves (k : Nat) (h : ParkedAt (halves .joined) 3 k) : k = 1 := by
  have e : (halves .joined).threadsOf (halves .joined).curWk = [0, 1] := by decide +kernel
  obtain ⟨a, b, -⟩ := h
  rw [e] at a
  simp only [List.mem_cons, List.not_mem_nil, or_false] at a
  exact a.resolve_left b
/-- While the other fragment is live, lanes of the record are missing. -/
theorem met_JoinMerges_parks : ¬ AllCome (halves .live) 3 := by
  intro h
  have e : (halves .live).threadsOf (halves .live).curWk = [0, 1] := by decide +kernel
  rcases (h 16 (by decide)).1 (by decide +kernel) with x | ⟨k, ⟨a, b, c, -⟩, -⟩
  · revert x; decide +kernel
  · rw [e] at a
    simp only [List.mem_cons, List.not_mem_nil, or_false] at a
    rw [a.resolve_left b] at c
    revert c; decide +kernel
/-- When it is parked at the record, every lane has come. -/
theorem met_JoinMerges_merges : AllCome (halves .joined) 3 := by
  have key : ∀ L, L < 32 → (((tget {} (halves .joined).curW.joins 3).expect &&& (halves .joined).lanesLeft (halves .joined).curWk).getLsbD L = true ↔
      ((halves .joined).mask.getLsbD L = true ∨ ((halves .joined).thread 1).mask.getLsbD L = true)) := by decide +kernel
  have p : ParkedAt (halves .joined) 3 1 := by unfold ParkedAt; decide +kernel
  intro L hL
  refine (key L hL).trans (or_congr_right ⟨fun h => ⟨1, p, h⟩, fun ⟨k, a, b⟩ => ?_⟩)
  rwa [parkedAt_halves k a] at b
theorem met_NopAndExit : admits (one {}) .nop = true ∧ admits (one {}) .exit = true ∧ isSequencer (one {}).curWk = false ∧
    (let s := { one {} with threads := [(32 * 32, { fragment with dealer := 0 })], waves := [(0, {}), (32, {})], cur := 32 * 32 }
     admits s .exit = true ∧ isSequencer s.curWk = true) := by decide +kernel
/-- EXIT beside another fragment, and EXIT of a wave's last fragment. -/
theorem met_Exit_others : (let s := { one {} with threads := [(0, fragment), (1, fragment)] }
     admits s .exit = true ∧ isSequencer s.curWk = false ∧ s.curW.joins = [] ∧ s.curW.records = [] ∧
     (1 : Nat) ≠ s.cur ∧ waveOf 1 = s.curWk ∧ thas s.threads 1 = true ∧ (s.thread 1).state = .live ∧
     ∀ k ∈ s.threadsOf s.curWk, (s.thread k).state ≠ .deferred) ∧
    (one {}).curC.gangs = [] ∧ (one {}).threadsOf (one {}).curWk = [(one {}).cur] := by decide +kernel
/-- YIELD beside a fragment that is ready. -/
theorem met_Yield_ready : (let s := { one {} with threads := [(0, fragment), (1, fragment)] }
     admits s .yield = true ∧ s.curT.hold = none ∧ thas s.threads 1 = true ∧ (1 : Nat) ≠ s.cur ∧ isSequencer (waveOf 1) = false ∧
     crewOf (waveOf 1) = s.curCk ∧ widOf (waveOf 1) % 4 = widOf s.curWk % 4 ∧ s.ready 1 = true ∧ s.passed.contains 1 = false) := by decide +kernel
/-- YIELD alone and after its peers; SLEEP for 5 cycles and for none, and its end. -/
theorem met_YieldAndSleep : admits (one {}) .yield = true ∧ (one {}).curT.hold = none ∧
    (∀ e ∈ (one {}).threads, e.1 ≠ (one {}).cur → (one {}).ready e.1 = false) ∧
    (let h : Hold := { op := .yield, f := {}, len := 4, since := 3, peers := [0] }
     let s := one {} { fragment with hold := some h, last := 4 }
     admits s .yield = true ∧ s.curT.hold = some h ∧ ∀ k ∈ h.peers, h.since < (s.thread k).last) ∧
    admits (one { b := 2 } (withS [(2, 5)])) .sleep = true ∧ operandB (one { b := 2 } (withS [(2, 5)])) ≠ 0 ∧ operandB (one { b := 2 }) = 0 ∧
    (let h : Hold := { op := .sleep, f := {}, len := 4, since := 0, arg := 0 }
     let s := one {} { fragment with hold := some h }
     (s.thread s.ev.subject).hold = some h ∧ h.arg ≤ s.clock ∧ (s.thread s.ev.subject).rep = none) := by decide +kernel
/-- CSRR of `PTS`; CSRW of EPC; TRC. -/
theorem met_ControlRegisters : admits (one { a := 0x18, d := 3 }) .csrr = true ∧ csrSpec (one { a := 0x18, d := 3 }) 0x18 = some 0 ∧
    (csrSpec (one { a := 0x10 }) 0x10).isSome = true ∧ (csrSpec (one {}) 0x7F).isSome = true ∧
    admits (one { b := 2, d := 2 }) .csrw = true ∧ (one { b := 2, d := 2 }).ir.d.toNat ≠ 0x1B ∧ admits (one { b := 2 }) .trc = true := by decide +kernel
/-- CSRW of TRACECTL: a ring of 4 KiB at 0, which is empty, with EN and without. -/
theorem met_ControlRegisters_trace : (let s := one { b := 2, d := 0x1B } (withS [(2, 0x800000001)])
     let v := operandB s &&& 0xFFFF000F07FFFFFB
     admits s .csrw = true ∧ s.curT.rep = none ∧ s.ir.d.toNat = 0x1B ∧ v.getLsbD 0 = true ∧ v.toNat / 2 ^ 32 % 16 < 12 ∧ tracing s = false ∧
     v.getLsbD 3 = false ∧ isSequencer s.curWk = false ∧ s.threadsOf s.curWk = [s.cur] ∧ s.curT.state = .live ∧ s.curC.scratchNum 0 8 + 16 < 2 ^ 64 ∧
     s.curC.scratchNum 8 8 ≤ s.curC.scratchNum 0 8 ∧ 24 + (s.curC.scratchNum 0 8 - s.curC.scratchNum 8 8) ≤ 2 ^ (v.toNat / 2 ^ 32 % 16 + 4)) ∧
    (operandB (one { b := 2, d := 0x1B } (withS [(2, 0x800000000)]))).getLsbD 0 = false := by decide +kernel

/-- A REP of two iterations before VADD, in memory at offset 0x100 of the code object. -/
def repeated (count : Word) : State :=
  let s := mapped { a := 2, b := 2, d := 1 } { withC [(2, count)] with pc := 0x100 }
  s.write (keyOf 8 0x2104) (storedWords [0x010C0C02, 0x00300002, 0])
def prefixed : Option (Instr × Fields × Nat) :=
  match instrAt (repeated 2) (repeated 2).curC (nextPc (repeated 2)).toNat with
  | .ok (.ok r) => some r
  | _ => none
theorem met_RepeatPrefix : admits (repeated 2) .rep = true ∧ prefixed = some (.vadd, { a := 1, d := 3, t := 6, b := 2 }, 12) ∧
    Instr.vadd.extCode.isSome = true ∧ repTrap (repeated 2) = none ∧ (repOperands (repeated 2)).1 = 2 ∧
    (repeated 2).curW.repidx.toNat < 2 ∧ repBeyond (repeated 2).curC.vallot (repeated 2).curW.repidx.toNat 2 ((repeated 2).ir.d.toNat % 8)
      (repOperands (repeated 2)).2 (regUses .vadd { a := 1, d := 3, t := 6, b := 2 }) = none ∧
    admits (repeated 0) .rep = true ∧ (repOperands (repeated 0)).1 = 0 ∧ repTrap (repeated 0) = none := by decide +kernel

/-- A GRP of one member, SST s3 to offset 0 through c1. -/
def grouped : State :=
  let s := mapped { a := 1, d := 5 } { withC [(3, 7)] with pc := 0x100 }
  s.write (keyOf 8 0x2104) (storedWords [0x0010C440])
def groupRun : Option (GroupRun × Word) :=
  let s := writeS grouped 0 grouped.ir.d.toNat 0
  let k := 1 + s.ir.stall.toNat
  match runMembers (s.ir.a.toNat % 16) (nextPc s)
    { u := ({ s with clock := s.clock + k }).modThread s.cur (fun t => { t with position := t.position + k, hold := none }) } with
  | .ok r => some r
  | .error _ => none
theorem met_GroupCommits : admits grouped .grp = true ∧ grouped.curT.hold = none ∧
    earlierOpen grouped = false ∧ grouped.curT.rep = none ∧ grouped.curW.counter 5 < 63 ∧
    groupRun.isSome = true := by decide +kernel

/-- An access of several writes, of scalar, vector and predicate registers, completes. -/
theorem met_AccessesComplete : ∃ (s : State) (a : Access), tfind? s.accesses s.ev.subject = some a ∧
    a.writes = [.s 0 5 9, .v 3 2 0xFF 0x12, .v 3 2 0xF0 0x34, .p 4 1 1] ∧ thas s.threads 0 = true :=
  ⟨{ one {} with accesses := [(0, { wave := 0, path := 0, writes := [.s 0 5 9, .v 3 2 0xFF 0x12, .v 3 2 0xF0 0x34, .p 4 1 1], doneAt := 1 })] },
    _, rfl, rfl, rfl⟩
/-- The events of codes 0x43 and 0x42, the latter of a copy channel, strike a fragment with a handler. -/
theorem met_AsyncEventsAndKills : ∀ e ∈ [(⟨0x43, 0, 0⟩ : AsyncEvent), ⟨0x42, 2, 5⟩],
    let s := one {} (ready) { pending := [e] }
    let v := s.modWave s.ev.subject (fun w => { w with pending := [] })
    let u := leaveQueues (if e.code = 0x42 ∧ e.detail < 8 then v.modCrew 0 (fun c => { c with chanFault := c.chanFault.filter (· != e.detail) }) else v) 0
    (s.wave s.ev.subject).pending = e :: [] ∧ asyncFragment s s.ev.subject = some 0 ∧ (s.wave s.ev.subject).hm = false ∧
    (s.wave s.ev.subject).parked = false ∧ (∀ j ∈ s.threadsOf s.ev.subject, (s.thread j).trap = none) ∧ strikable (s.thread 0) = true ∧
    canTrap u 0 ∧ waveOf 0 = s.ev.subject ∧ thas s.threads 0 = true := by unfold canTrap; decide +kernel
/-- A kill of a launch with a crew. -/
theorem met_Kills : (0 : Nat) ∈ (one {}).family ((one {}).rootLaunch ((one {}).crew (one {}).ev.subject).launch) ∧
    tfind? (one {}).crews 0 = some crew ∧ crew.launch = 0 ∧ crew.stage = none := by decide +kernel

end Sys2Proof.Tests
end

