-- ==== Sys2Proof/Tests/MetMemory.lean ====
section
/-! SUPPORT. States that meet the hypotheses of the statements about memory, clause by clause. -/

-- One declaration after the other: elaborated at once, the many closed checks would start more threads than there is memory for.
set_option Elab.async false

namespace Sys2Proof.Tests

open Sys2Proof Sys2Proof.Machine Sys2Proof.Claims

/-- The value of an option that has one. -/
theorem some_get {α : Type} {o : Option α} (h : o.isSome = true) : ∃ a, o = some a := Option.isSome_iff_exists.mp h

/-! ### Checks -/

/-- What an access through a capability at an offset answers, in the state with one object. -/
def checked (c : Cap) (e : Int) (need : Need) (w0 : Nat := 2 ^ 63 + 2 ^ 60 + 4096) : Except Stop Loc :=
  let s := (mapped {}).write (keyOf 8 0x1000) (bytesOf 8 w0)
  translate s s.curC.ctx c e 8 need

/-- Each outcome of the checks, in their order: no tag, an entry in a poisoned line, no entry, an invalid entry, a reserved kind, the wrong kind, a missing right, a
misaligned offset, beyond the window, beyond the object, and a place. -/
theorem met_AccessChecks :
    (match checked { whole with tag := false } 0 { rights := 0 } with | .error st => st | .ok _ => .hole 0) = .trap 0x10 0 ∧
    (let s := { mapped {} with poison := [lineOf (keyOf 8 0x1000)] }
     (match translate s s.curC.ctx whole 0 8 { rights := 0 } with | .error st => st | .ok _ => .hole 0) = .trap 0x50 2) ∧
    (match checked ⟨BitVec.ofNat 128 (0xFE * 2 ^ 120 + 2 ^ 46), true⟩ 0 { rights := 0 } with | .error st => st | .ok _ => .hole 0) = .trap 0x22 1 ∧
    (match checked whole 0 { rights := 0 } 0 with | .error st => st | .ok _ => .hole 0) = .trap 0x22 2 ∧
    (match checked whole 0 { rights := 0 } (2 ^ 63 + 7 * 2 ^ 60) with | .error st => st | .ok _ => .hole 0) = .trap 0x22 3 ∧
    (match checked whole 0 { rights := 0, kind := 1 } with | .error st => st | .ok _ => .hole 0) = .trap 0x22 4 ∧
    (match checked ⟨BitVec.ofNat 128 (0x40 * 2 ^ 120 + 4096 * 2 ^ 78), true⟩ 0 { rights := rightR } with | .error st => st | .ok _ => .hole 0) =
      .trap 0x12 rightR ∧
    (match checked whole 4 { rights := 0, align := 8 } with | .error st => st | .ok _ => .hole 0) = .trap 0x11 2 ∧
    (match checked whole 4096 { rights := 0, align := 8 } with | .error st => st | .ok _ => .hole 0) = .trap 0x11 0 ∧
    (match checked whole 4088 { rights := 0, align := 8 } (2 ^ 63 + 2 ^ 60 + 4080) with | .error st => st | .ok _ => .hole 0) = .trap 0x11 1 ∧
    good (checked whole 4088 { rights := 0, align := 8 }) = true := by decide +kernel

/-- An object whose base is the context region of quarter 0: its bytes exist, and a write to it traps. -/
theorem met_AccessChecks_frame : (let q := quarterBytes 8 - 2 ^ 30
    let s := (mapped {}).write (keyOf 8 0x1008) (bytesOf 8 q)
    inFrames (keyOf 8 q) = true ∧ s.has (keyOf 8 q) = true ∧ q / 2 ^ 48 = 0 ∧
    (match translate s s.curC.ctx whole 0 1 { rights := 0, write := true } with | .error st => st | .ok _ => .hole 0) = .trap 0x12 rightW) ∧
    inFrames (keyOf 8 0x2008) = false := by decide +kernel

/-- An extent tree at 0x10000, 0x20000 and 0x30000 of die 0, with its leaves at 0x40000, and a resident page of index 0. -/
def tree : State :=
  let node (a : Nat) : List Byte := bytesOf 8 (2 ^ 63 + a)
  (((State.reset.write (keyOf 0 0x10000) (node 0x20000)).write (keyOf 0 0x20000) (node 0x30000)).write (keyOf 0 0x30000) (node 0x40000)).write
    (keyOf 0 0x40000) (bytesOf 8 (2 ^ 63 + 2 ^ 62 + 0x50000))
theorem met_ExtentWalk : (∀ a, a ∈ [0x10000, 0x20000, 0x30000] → tree.num (keyOf 0 a) 8 / 2 ^ 63 % 2 = 1 ∧ tree.num (keyOf 0 a) 8 / 2 ^ 52 % 2 = 0 ∧
      tree.num (keyOf 0 a) 8 / 2 ^ 48 % 16 ≤ 2) ∧ tree.num (keyOf 0 0x40000) 8 / 2 ^ 63 % 2 = 1 ∧
    tree.num (keyOf 0 0x40000) 8 / 2 ^ 52 % 2 = 0 ∧ tree.num (keyOf 0 0x40000) 8 / 2 ^ 53 % 16 < 4 ∧ tree.num (keyOf 0 0x40000) 8 / 2 ^ 48 % 16 < 3 ∧
    tree.num (keyOf 0 0x40000) 8 / 2 ^ 62 % 2 = 1 ∧
    tree.num (keyOf 0 0x40000) 8 / 2 ^ 57 % 4 ≠ 3 ∧ good (walkTree tree 0 0x10000 5) = true := by decide +kernel

/-! ### Loads and stores -/

/-- A store of 8 bytes at home, and a load of them by the same core. -/
def stored : State × Nat := storeAt (mapped {}) 8 0 { key := keyOf 8 0x2008 } (bytesOf 8 5) false
theorem met_OwnStoresAreSeen : dieOfKey (keyOf 8 0x2008) = 8 ∧ isHost (keyOf 8 0x2008) = false ∧ (bytesOf 8 5).length = 8 ∧
    keyOf 8 0x2008 % 64 + 8 ≤ 64 ∧ ((mapped {}).die 8).copies = [] ∧
    good (loadAt stored.1 8 (some 0) stored.2 { key := keyOf 8 0x2008 } 8) = true := by decide +kernel

/-- One lane that accesses 32-bit elements at offset 8 and on through c1. -/
def lane (x : Fields) : State := mapped x { withC [(2, 8)] with mask := 1 }
/-- Mode 2, one register. -/
def linear : Fields := { a := 1, b := 2, d := 8, t := 6, imm := 0x02000000 }
theorem met_VectorLoads : admits (lane linear) .vld = true ∧ (lane linear).curT.hold = none ∧
    earlierOpen (lane linear) = false ∧ (lane linear).curW.counter 0 < 63 ∧
    lanesFor (lane linear) false ≠ [] ∧ (loadRuns (lane linear) false (lanesFor (lane linear) false) (lane linear)).isSome = true := by decide +kernel
theorem met_VectorLoads_block : let s := lane { linear with t := 0 }
    admits s .vldb = true ∧ lanesFor s true ≠ [] ∧ (loadRuns s true (lanesFor s true) s).isSome = true := by decide +kernel
theorem met_VectorStores : admits (lane linear) .vst = true ∧ (lane linear).curW.counter 1 < 63 ∧
    tget 0 (lane linear).curT.answers piecesKey = 0 ∧
    (storeRuns (lane linear) false (lanesFor (lane linear) false) (lane linear)).isSome = true := by decide +kernel
theorem met_VectorStores_block : let s := lane { linear with t := 0 }
    admits s .vstb = true ∧ (storeRuns s true (lanesFor s true) s).isSome = true := by decide +kernel
theorem met_ScratchpadAccesses : let s := lane { linear with a := 3 }
    admits s .spld = true ∧ admits s .spst = true ∧ s.curW.counter 2 < 63 ∧ lanesFor s false ≠ [] ∧
    (∀ L ∈ lanesFor s false, ∀ p ∈ piecesOf s false false L, s.curC.scratchPoisoned (spad p.off) p.n = none) ∧
    (let u := lane { linear with a := 3, t := 0 }
     admits u .spldb = true ∧ admits u .spstb = true ∧ lanesFor u true ≠ []) := by decide +kernel
theorem met_EmptyAccessesAndPrefetch : let s := lane { linear with pn := true }
    Instr.vld ∈ [Instr.vld, .vst, .spld, .spst] ∧ activeLanes s (wd s) = [] ∧ activeLanes s 64 = [] ∧ admits s .vld = true ∧
    s.curT.hold = none ∧ earlierOpen s = false ∧ admits (lane { linear with d := 0 }) .vpref = true := by decide +kernel
/-- The same lane through c3, which has no tag, with a handler in c15. -/
def untagged : State := mapped { linear with a := 3 } { ready with mask := 1 }
theorem met_UntaggedAccessTraps : admits untagged .vld = true ∧ untagged.curT.hold = none ∧
    earlierOpen untagged = false ∧ untagged.curW.counter 0 < 63 ∧
    lanesFor untagged false = [0] ∧ (readC untagged untagged.ir.a.toNat).tag = false ∧ untagged.curT.doneLanes = 0 ∧
    canTrap untagged untagged.cur := by unfold canTrap; decide +kernel

/-! ### Atomics -/

/-- SATOM.ADD.I32 with RET of s4 at offset 8. -/
def atomic : State := mapped { a := 1, b := 2, c := 4, d := 5, t := 6, mod := 1 } (withC [(2, 8), (4, 3)])
def atomPlace : Loc := got { key := 0 } (translate atomic atomic.curC.ctx (readC atomic 1) 8 4
  { rights := rightA + rightW + rightR, align := 4, write := true, atomic := true })
theorem met_Atomics_satom : admits atomic .satom = true ∧ atomic.curT.hold = none ∧
    earlierOpen atomic = false ∧ atomic.curW.counter 5 < 63 ∧ 8 ≤ wd atomic ∧ wd atomic ≤ 64 ∧
    translate atomic atomic.curC.ctx (readC atomic 1) ((readC atomic atomic.ir.a.toNat).off + 0 + (operandB atomic).toInt) 4
      { rights := rightA + rightW + (if atomic.ir.mod.getLsbD 0 then rightR else 0), align := 4, write := true, atomic := true } = .ok atomPlace ∧
    placementOk atomic.ir atomPlace = true ∧ (dieOfKey atomPlace.key = atomic.curDie ∧ atomPlace.second = none) ∧ storeStop atomic atomic.curDie atomPlace = none ∧
    atomic.poisoned atomPlace.key = false :=
  ⟨by decide +kernel, rfl, by decide +kernel, by decide +kernel, by decide +kernel, by decide +kernel, ok_got (by decide +kernel), by decide +kernel,
    by decide +kernel, by decide +kernel, by decide +kernel⟩
/-- The operations at the ends of their ranges: ADD of I32, and the last, of F64. -/
theorem met_Atomics_new : (0 : Nat) ≤ 10 ∧ (2 ^ 32 - 1 : Nat) < 2 ^ widthOf 2 ∧ (2 : Nat) ∈ [2, 3, 6, 7] ∧ (2 ^ 64 - 1 : Nat) < 2 ^ widthOf 11 ∧ (6 : Nat) ≤ 7 ∧ (10 : Nat) ∈ [10, 11] := by decide
theorem met_Atomics_vatom : let s := lane { linear with c := 4, mod := 1 }
    admits s .vatom = true ∧ activeLanes s (wd s) ≠ [] ∧ (match atomRuns s (activeLanes s (wd s)) s with
      | some (_, os, ps) => os.length == 2 && ps.length == 2 && ps.all (fun q => dieOfKey q.2.key == s.curDie && q.2.second == none && q.2.leaf == none)
      | none => false) = true := by decide +kernel
theorem met_Atomics_spatom : let s := lane { linear with a := 3, c := 4, mod := 1 }
    admits s .spatom = true ∧ activeLanes s (wd s) ≠ [] ∧ ∀ L ∈ activeLanes s (wd s), ∀ p ∈ atomPieces s false L,
      spad p.off % (wd s / 8) = 0 ∧ s.curC.scratchPoisoned (spad p.off) (wd s / 8) = none := by decide +kernel

end Sys2Proof.Tests
end

