-- ==== Sys2Proof/Tests/MetGraphics.lean ====
section
/-! SUPPORT. States that meet the hypotheses of the statements about rays, levels of detail, hash encodings and reordering, clause by clause. -/

-- One declaration after the other: elaborated at once, the many closed checks would start more threads than there is memory for.
set_option Elab.async false

namespace Sys2Proof.Tests

open Sys2Proof Sys2Proof.Machine Sys2Proof.Claims

/-! ### Rays -/

/-- TRACE in lane 0 of the ray of zeros, which has no meaning: its direction is 0. -/
def badTrace : State := mapped { a := 1, b := 8, c := 12, d := 16, t := 10 } { withC with mask := 1 }
theorem met_RayQueries : admits badTrace .trace = true ∧ badTrace.curT.hold = none ∧ earlierOpen badTrace = false ∧ badTrace.curW.counter 4 < 63 ∧
    activeLanes badTrace 64 = [0] ∧ (lanesRun traceLane [0] badTrace).isSome = true ∧ badRay badTrace 0 = true ∧
    activeLanes (mapped { a := 1, b := 8, c := 12, d := 16, t := 10, pn := true }) 64 = [] := by decide +kernel
/-- TRACE in lane 0 of a ray along x, into a node without children. -/
def goodTrace : State :=
  mapped { a := 1, b := 8, c := 12, d := 16, t := 10 } { withC with mask := 1 } { v := [(256, 0), (288, 0x7F80000000000000), (384, 0x3F800000)] }
theorem met_RayQueries_good : badRay goodTrace 0 = false ∧ (lanesRun traceLane [0] goodTrace).isSome = true := by decide +kernel

/-- The object's table entry. -/
theorem whole_entry : entryOf badTrace 8 1 0 = some ⟨2 ^ 63 + 2 ^ 60 + 4096, 0x2000, 0, 0⟩ := by decide +kernel
/-- The places that c1 reaches are those of the object at 0x2000, as long as the entry stands. -/
theorem met_Flat (changed : Nat → Prop) (h : ∀ k, changed k → keyOf 8 0x2000 ≤ k) : Flat badTrace whole (keyOf 8 0x2000) changed := by
  intro v hv ha held e n need l hl
  have hb (k : Nat) (hk : k + 8 ≤ keyOf 8 0x2000) : v.num k 8 = badTrace.num k 8 := by
    have : v.bytes k 8 = badTrace.bytes k 8 := by
      unfold State.bytes upTo
      refine List.map_congr_left fun j hj => hv _ fun hc => ?_
      have := h _ hc
      have := List.mem_range.mp hj
      omega
    rw [State.num, State.num, this]
  have hs : storedEntry v 8 1 0 = some ⟨2 ^ 63 + 2 ^ 60 + 4096, 0x2000, 0, 0⟩ := by
    have h0 : storedEntry badTrace 8 1 0 = some ⟨2 ^ 63 + 2 ^ 60 + 4096, 0x2000, 0, 0⟩ := by decide +kernel
    rw [← h0]
    have hk : entryKey v 8 1 0 = entryKey badTrace 8 1 0 := by rw [entryKey, entryKey, ha]
    have hk' : entryKey badTrace 8 1 0 = keyOf 8 0x1000 := by decide +kernel
    unfold storedEntry
    rw [hk, ha, hk']
    simp only [hb (keyOf 8 0x1000) (by decide), hb (keyOf 8 0x1000 + 8) (by decide), hb (keyOf 8 0x1000 + 16) (by decide),
      hb (keyOf 8 0x1000 + 24) (by decide)]
  have he : entryOf v 8 1 0 = some ⟨2 ^ 63 + 2 ^ 60 + 4096, 0x2000, 0, 0⟩ := by
    unfold entryOf
    rw [hs]
    cases hw : tfind? (v.die 8).held (heldKey 1 0) with
    | none => rfl
    | some w => exact (held w hw).symm.trans whole_entry
  have := translate_contiguous hl (t := ⟨2 ^ 63 + 2 ^ 60 + 4096, 0x2000, 0, 0⟩) he rfl (by decide)
  exact this
/-- The triangle (0, 0, 0), (1, 0, 0), (0, 1, 0), and a ray along z that meets it at its corner: the candidate changes the walk. -/
def corner : List Byte := bytesOf 12 0 ++ bytesOf 12 0x3F800000 ++ bytesOf 12 (0x3F800000 * 2 ^ 32) ++ bytesOf 28 0
theorem met_RayQueries_triangle : (triangleOf corner).isSome = true ∧
    rayTriangle ⟨0, 2 ^ 40, 0, 1, none⟩ ⟨⟨⟨0, 0⟩, ⟨0, 0⟩, ⟨-1, 0⟩⟩, ⟨⟨0, 0⟩, ⟨0, 0⟩, ⟨1, 0⟩⟩⟩ none corner ≠ ⟨0, 2 ^ 40, 0, 1, none⟩ := by decide +kernel

/-- A number that a code is exactly is nearest to it. -/
theorem nearest_exact {q : ℚ} {y : Nat} (h : y < 2 ^ 32) (hs : y / 2 ^ 31 = if q < 0 then 1 else 0) (hr : ¬ ((2 : ℚ) ^ 24 - 1 / 2) * 2 ^ 104 ≤ |q|)
    (hf : finite (decodeF 10 y) = true) (hv : rat (decodeF 10 y) = q) : NearestTo 10 q y := by
  refine ⟨h, hs, ?_⟩
  rw [if_neg (by simpa using hr)]
  refine ⟨hf, fun c _ _ => ?_⟩
  rw [hv, sub_self, abs_zero]
  exact ⟨abs_nonneg _, fun he hn => absurd (sub_eq_zero.mp (abs_eq_zero.mp he.symm)).symm hn⟩
/-- A ray along z that meets the triangle at (1/4, 1/4, 0) at its time 1. -/
def pointOf (xs : List Nat) : V3 := (v3Of (xs.map dyadicF32)).getD ⟨⟨0, 0⟩, ⟨0, 0⟩, ⟨0, 0⟩⟩
def along : Ray := ⟨pointOf [0x3E800000, 0x3E800000, 0xBF800000], pointOf [0, 0, 0x3F800000]⟩
theorem met_RayQueries_candidate : Candidate along none 0 corner 0x3F800000 0x3E800000 0x3E800000 true := by
  have ht : triangleOf corner = some (pointOf [0, 0, 0], pointOf [0x3F800000, 0, 0], pointOf [0, 0x3F800000, 0]) := by decide +kernel
  refine ⟨(by intro _ h; cases h), _, _, _, 1, 1 / 4, 1 / 4, ht, ⟨by decide +kernel, by decide +kernel⟩, by norm_num, by norm_num, by norm_num, ?_, ?_, ?_, ?_⟩
  · decide +kernel
  all_goals exact nearest_exact (by decide +kernel) (by decide +kernel) (by decide +kernel) (by decide +kernel) (by decide +kernel)
/-- An instance whose mask names nothing of the ray's: no record is a candidate. -/
theorem met_RayQueries_masked : ∀ tF uF vF back, ¬ Candidate along (some ⟨0, 0, 2⟩) 1 corner tF uF vF back :=
  fun _ _ _ _ h => h.1 _ rfl (by decide)
/-- The ray's point at its time 1 lies in the box from 0 to 1, and in the range from 0 to infinity. -/
theorem met_RayQueries_box : (finite (decodeF 10 0) = true ∧ rat (decodeF 10 0) ≤ 1) ∧
    ∀ k, pointValue ⟨⟨0, 0⟩, ⟨0, 0⟩, ⟨0, 0⟩⟩ k ≤ pointValue along.o k + 1 * pointValue along.d k ∧
      pointValue along.o k + 1 * pointValue along.d k ≤ pointValue ⟨⟨1, 0⟩, ⟨1, 0⟩, ⟨1, 0⟩⟩ k := by decide +kernel
/-- A node whose only child is a leaf of the one triangle behind it, in a box from 0 to 1. -/
def rooted : List Byte :=
  bytesOf 24 0 ++ bytesOf 8 128 ++ bytesOf 48 (0x010101 * 2 ^ 24) ++ bytesOf 48 0x80 ++ corner
/-- A lane whose root is that node: its registers hold the ray, or a query box without bounds. -/
def rooting (x : Fields) (v : Table Word) : State := mapped x { withC with mask := 1 } { v := v } crew rooted
def traced : State := rooting { a := 1, b := 8, c := 12, d := 16, t := 10 }
  [(256, 0x3E800000), (288, 0x7F8000003E800000), (320, 0x000000FFBF800000), (448, 0x3F800000)]
theorem met_RayQueries_leaf : let s := traced
    let c := readC s 1
    badRay s 0 = false ∧ v3Of ((List.range 3).map (fun a => dyadicF32 (fld (readV s 32 (8 + a) 0).toNat 0 32))) = some along.o ∧
    v3Of ((List.range 3).map (fun a => dyadicF32 (fld (readV s 32 (12 + a) 0).toNat 0 32))) = some along.d ∧
    (match nodeRead s c (c.off : Nat) { rights := rightR, align := 64 } with
     | .ok (u, b) => (List.range 8).all (fun k => childKind b k == if k = 0 then 2 else 0) &&
        (match nodeOrigin b with
         | some o => !boxEmpty (childBox b o 0).1 (childBox b o 0).2 &&
            (rayEnters ⟨orderF32 0, orderF32 0x7F800000, 2 ^ 96 - 1, 255, none⟩ along (childBox b o 0).1 (childBox b o 0).2).isSome
         | none => false) &&
        (match leafRun c b (c.off : Nat) 0 (List.range (childCount b 0)) u with
         | some (_, rs) => (rs.foldl (fun r x => rayTriangle r along none x) ⟨orderF32 0, orderF32 0x7F800000, 2 ^ 96 - 1, 255, none⟩).best.isSome
         | none => false)
     | .error _ => false) = true := by decide +kernel

/-- QBOX in lane 0 of a box that lies below itself, with the buffer at offset 1024 of the object; it gathers nothing. -/
def boxed : State :=
  mapped { a := 1, b := 8, c := 2, d := 16, t := 10 }
    { withC with mask := 1, c := [(1, whole), (2, ⟨BitVec.ofNat 128 (0xFE * 2 ^ 120 + 4096 * 2 ^ 78 + 1024 * 4), true⟩)] }
    { v := [(256, 0x000000003F800000)] }
def boxRun : Bool :=
  let s := boxed
  let c := readC s 2
  match translate s s.curC.ctx c (c.off : Nat) 16 bufferNeed, queryLanes (activeLanes s 64) s with
  | .ok _, .ok (u, r) =>
    match waveRead u c (c.off + 8 : Nat) 8 { field := 1, rights := rightR } with
    | .ok (v, bs) =>
      let cap := numOfBytes bs
      let saved := boxSave v cap []
      match rangeCheck v c cap, translate saved s.curC.ctx c (c.off : Nat) 8 bufferNeed with
      | .ok (), .ok l =>
        match atomicAt saved s.curDie saved.curW.pts l.home 8 (fun n => (n + 0) % 2 ^ 64) with
        | .ok (w, old, ts) =>
          r.all (fun x => x.2.isEmpty) && dieOfKey l.key == s.curDie && !isHost l.key &&
            ((storeEntries c old cap 0 [] ((raisePts w s.curWk ts).modThread s.cur
              (fun t => { t with answers := tput t.answers (2 ^ 20 - 1) old }))).2).isNone
        | .error _ => false
      | _, _ => false
    | .error _ => false
  | _, _ => false
theorem met_BoxQueries : admits boxed .qbox = true ∧ boxed.curT.hold = none ∧
    earlierOpen boxed = false ∧ boxed.curT.answers = [] ∧ boxed.curW.counter 4 < 63 ∧
    activeLanes boxed 64 = [0] ∧ boxRun = true ∧ activeLanes (mapped { a := 1, b := 8, c := 2, d := 16, t := 10, pn := true }) 64 = [] := by
  decide +kernel
/-- A query box without bounds meets every box, and one above infinity none. -/
theorem met_BoxQueries_meets : MeetsBox ⟨List.replicate 3 .low, List.replicate 3 .high⟩ 0 0 ∧ ¬ MeetsBox ⟨List.replicate 3 .high, List.replicate 3 .high⟩ 0 0 :=
  ⟨fun k => by fin_cases k <;> exact ⟨trivial, trivial⟩, fun h => (h 0).1⟩
def queried : State := rooting { a := 1, b := 8, c := 2, d := 16, t := 10 }
  [(256, 0x7F800000FF800000), (288, 0x7F800000FF800000), (320, 0x7F800000FF800000), (352, 0x000000FF00000000)]
theorem met_BoxQueries_leaf : let s := queried
    let c := readC s 1
    (List.range 3).map (fun a => boundF32 (fld (readV s 32 (8 + a) 0).toNat 0 32)) = (List.replicate 3 Bound.low).map some ∧
    (List.range 3).map (fun a => boundF32 (fld (readV s 32 (8 + a) 0).toNat 32 32)) = (List.replicate 3 Bound.high).map some ∧
    (∀ a, a < 3 → ((List.replicate 3 Bound.low).getD a .low).atMost ((List.replicate 3 Bound.high).getD a .low) = true) ∧
    (match nodeRead s c (c.off : Nat) { rights := rightR, align := 64 } with
     | .ok (u, b) => (leafRun c b (c.off : Nat) 0 (List.range (childCount b 0)) u).isSome
     | .error _ => false) = true := by decide +kernel
/-- REFIT of a node without children at offset 0. -/
def refitted : State := mapped { a := 1, b := 2 }
theorem met_Refits : admits refitted .refit = true ∧ refitted.curT.hold = none ∧ earlierOpen refitted = false ∧ refitted.curW.counter 4 < 63 ∧
    good (refitNode (readC refitted 1) 32 ((readC refitted 1).off + (operandB refitted).toInt) refitted) = true := by decide +kernel

/-- The bounds of the refitted children: a box from (0, 0, 0) to (1, 1, 0), and none. -/
def extents : List Extent := some (⟨⟨0, 0⟩, ⟨0, 0⟩, ⟨0, 0⟩⟩, ⟨⟨1, 0⟩, ⟨1, 0⟩, ⟨0, 0⟩⟩) :: List.replicate 7 none
theorem met_Refits_bytes : extents.length = 8 ∧ (List.replicate 8 (none : Extent)).length = 8 ∧ extents.getD 1 none = none ∧
    (∃ y, y = (⟨⟨⟨0, 0⟩, ⟨0, 0⟩, ⟨0, 0⟩⟩, ⟨⟨1, 0⟩, ⟨1, 0⟩, ⟨0, 0⟩⟩⟩ : V3 × V3) ∧ extents.getD 0 none = some y ∧ pointValue y.1 0 = 0 ∧ pointValue y.2 0 = 1) ∧
    -((2 : ℚ) ^ 24 - 1) * 2 ^ 104 ≤ 0 := ⟨rfl, rfl, rfl, ⟨_, rfl, rfl, by decide +kernel, by decide +kernel⟩, by norm_num⟩
/-- REFIT of the node with one leaf. -/
theorem met_Refits_leaf : let s := rooting { a := 1, b := 2 } []
    let c := readC s 1
    admits s .refit = true ∧ s.curT.hold = none ∧ s.curW.counter 4 < 63 ∧ earlierOpen s = false ∧
    (match nodeRead s c 0 { rights := rightR + rightW, align := 64 } with
     | .ok (u, b) =>
        (match leafRun c b 0 0 (List.range (childCount b 0)) u with
         | some (v, _) => (match refitPlaces v c 0 [(0, 15), (0x20, 32), (0x40, 16)] with
            | .ok ls => decide (ls.map (fun l => (l.key, l.second)) =
                [(keyOf 8 0x2000, none), (keyOf 8 0x2000 + 0x20, none), (keyOf 8 0x2000 + 0x40, none)]) && ls.all (fun l => l.leaf.isNone)
            | .error _ => false)
         | none => false)
     | .error _ => false) = true ∧ isHost (keyOf 8 0x2000) = false ∧ dieOfKey (keyOf 8 0x2000) = 8 ∧ dieOfKey (keyOf 8 0x2000 + 0x50) = 8 := by
  decide +kernel

/-! ### Levels of detail and encodings -/

/-- A capability to the first MiB of object 0, and one to object 1. -/
def sheet : Cap := ⟨BitVec.ofNat 128 (0xFE * 2 ^ 120 + 8 * 2 ^ 114 + 4096 * 2 ^ 78), true⟩
def other : Cap := ⟨BitVec.ofNat 128 (0xFE * 2 ^ 120 + 4096 * 2 ^ 78 + 2 ^ 46), true⟩
/-- A level-of-detail object 0 of two levels, its header at 0x4000, its tree from 0x10000 on, its map at 0x5000 with every page resident, and an
object 1 of 4 KiB at 0x6000 that holds some bytes. -/
def sheeted (x : Fields) (geometry : Nat) (bs : List Byte := []) (w : Wave := {}) : State :=
  let t : Thread := { fragment with mask := 1, c := [(1, sheet), (2, other)] }
  let s := { one x t w with dies := [(8, { asids := [(1, { base := 0x1000, count := 2 })] })] }
  let node (a : Nat) : List Byte := bytesOf 8 (2 ^ 63 + a)
  let s := s.write (keyOf 8 0x1000) (bytesOf 8 (2 ^ 63 + 4 * 2 ^ 60 + 2 ^ 20) ++ bytesOf 8 0x10000 ++ bytesOf 16 0x4000 ++
    bytesOf 8 (2 ^ 63 + 2 ^ 60 + 4096) ++ bytesOf 8 0x6000)
  let s := ((s.write (keyOf 8 0x10000) (node 0x20000)).write (keyOf 8 0x20000) (node 0x30000)).write (keyOf 8 0x30000) (node 0x40000)
  let s := s.write (keyOf 8 0x40000) ((List.range 5).flatMap (fun p => bytesOf 8 (2 ^ 63 + 2 ^ 62 + 0x100000 + p * 0x10000)))
  let s := s.write (keyOf 8 0x4000) (bytesOf 8 (127 * 2 ^ 48 + 127 * 2 ^ 32 + 2 ^ 16 + geometry) ++ bytesOf 8 0 ++ bytesOf 8 4)
  let s := s.write (keyOf 8 0x4030) (bytesOf 8 0x5000)
  let s := s.write (keyOf 8 0x4048) (bytesOf 8 (4 * 2 ^ 44 + 0x40000))
  (s.write (keyOf 8 0x5000) [0x1F]).write (keyOf 8 0x6000) bs
/-- Four components of F32, 64 by 64 texels a page; level 0 in v12. -/
def texels : Nat := 6 * 2 ^ 24 + 6 * 2 ^ 20 + 2 * 2 ^ 8 + 10
def sampled (mod : BitVec 3) (pn : Bool := false) : State := sheeted { a := 1, b := 8, c := 12, d := 16, t := 10, mod := mod, pn := pn } texels
/-- The reads of an LDLOD or a LODQ in lane 0, up to the texel's place, and its run. -/
def sampleRun (s : State) (lane : LodObject → State → State → Nat → Except (Int × Stop) (State × List RegWrite)) : Bool :=
  match objectCheck s s.curC.ctx (readC s 1) { rights := rightR + rightL, kind := 1 } with
  | .error _ => false
  | .ok e =>
    match readHeader s (readC s 1).obj e with
    | .error _ => false
    | .ok (u, h) =>
      let w := wantedLevel h (levelFromC s h 0) 0
      match firstAbsent h w [0] u with
      | .ok (v, none) =>
        match translate v s.curC.ctx (readC u 1) (h.loff w + 65536 * 0 + 16 * 0 : Nat) 16 { rights := rightR + rightL, kind := 1 } with
        | .error _ => false
        | .ok l => decide (w < h.tail ∧ h.ct = 10 ∧ h.ncl = 2) && good (loadAt v s.curDie (some s.curC.core) v.curW.pts l 16) &&
            (lanesRun (lane h s) [0] u).isSome && (footprint h w (lodCoords u 0).1 (lodCoords u 0).2 false).map (·.page) == [0] &&
            clampTo (h.width w) ((lodCoords u 0).1 * h.width w / 2 ^ 149) == 0
      | _ => false
theorem met_LevelsOfDetail : admits (sampled 1) .ldlod = true ∧ admits (sampled 1) .lodq = true ∧ (sampled 1).curT.hold = none ∧
    earlierOpen (sampled 1) = false ∧
    (sampled 1).curW.counter 3 < 63 ∧ activeLanes (sampled 1) 64 = [0] ∧ activeLanes (sampled 1 true) 64 = [] ∧
    (sampled 1).ir.mod.getLsbD 1 = false := by decide +kernel
theorem met_LevelsOfDetail_reads : sampleRun (sampled 1) (fun h s u L => lodLane h (levelFromC s h L) false u L) = true := by decide +kernel

/-- The object as its header gives it, with the state after the read. -/
def header (s : State) : State × LodObject :=
  match objectCheck s s.curC.ctx (readC s 1) { rights := rightL, kind := 1 } with
  | .error _ => (s, LodObject.unpack [])
  | .ok e => got (s, LodObject.unpack []) (readHeader s (readC s 1).obj e)
/-- The object with the map byte `m`. -/
def mapping (m : Byte) (mod : BitVec 3 := 1) : State := (sampled mod).write (keyOf 8 0x5000) [m]
/-- Every page of both levels is charted; all are resident with the map byte 1FH; with 1EH page 0 is not. -/
theorem met_MissesAndFeedback_pages :
    (∀ m ∈ [(0x1F : Byte), 0x1E], ∀ e ∈ [(0, 0), (0, 1), (0, 2), (0, 3), (1, 0)], Charted (mapping m) (header (mapping m)).2 e.1 e.2) ∧
    (∀ p, p < 4 → Resident (mapping 0x1F) (header (mapping 0x1F)).2 0 p) ∧ MissedAt (mapping 0x1E) (header (mapping 0x1E)).2 0 [0, 1] 0 := by
  refine ⟨by unfold Charted; decide +kernel, by unfold Resident; decide +kernel, 0, rfl, by unfold Resident; decide +kernel, fun j _ h => absurd h (Nat.not_lt_zero j)⟩
/-- The chain of a sample, with nearest and bilinear filter: to level 0, and, without page 0, to the tail, with its texels and its feedback. -/
theorem met_MissesAndFeedback_lane : ∀ mod ∈ [(1 : BitVec 3), 3], ∀ m ∈ [(0x1F : Byte), 0x1E],
    (let s := mapping m mod
     let h := (header s).2
     match lodChain s h 0 (lodCoords s 0).1 (lodCoords s 0).2 with
     | .ok (a, w, d, miss) => decide (w = 0 ∧ (d = 0 ↔ m = 0x1F)) && miss.isSome == (m == 0x1E) &&
        (match readTexels (readC s 1) h.texel (d == h.tail) ((footprint h d (lodCoords s 0).1 (lodCoords s 0).2 (s.ir.mod.getLsbD 1)).map (·.off)) a with
         | .ok (b, _) => (match miss with | some (p, mapped) => good (logMiss b h w p false mapped) | none => true)
         | .error _ => false)
     | .error _ => false) = true := by decide +kernel
/-- LODQ reads the header of the object with level 0 present and without. -/
theorem met_MissesAndFeedback_lodq : ∀ m ∈ [(0x1F : Byte), 0x1E],
    (let s := mapping m
     admits s .lodq = true ∧ s.curT.hold = none ∧ s.curW.counter 3 < 63 ∧ earlierOpen s = false ∧ activeLanes s 64 = [0] ∧
     good (objectCheck s s.curC.ctx (readC s 1) { rights := rightL, kind := 1 }) = true ∧
     good (lodChain (header s).1 (header s).2 (levelFromC s (header s).2 0) (lodCoords (header s).1 0).1 (lodCoords (header s).1 0).2) = true) := by
  decide +kernel
/-- The feedback of page 0 of level 0: its filter bit 0 and room in the ring, its bit 1, and its bit 0 before a full ring of 16 records. -/
theorem met_MissesAndFeedback_ring :
    let s := mapping 0x1E
    let fk := keyOf 8 (0x4000 + 0x100 + filterOf 0 0 / 8)
    let wk := keyOf 8 0x4018
    FeedbackAt s (header s).2 0 0 fk wk ∧ (s.byte fk).getLsbD (filterOf 0 0 % 8) = false ∧
    (∃ rk, rk = keyOf 8 0 ∧ ownPlaces s (header s).2 [(header s).2.ring + 16 * (s.num wk 8 % 2 ^ (header s).2.log2n)] = .ok [rk] ∧ isHost rk = false ∧
      rk + 16 ≤ fk ∧ rk + 16 ≤ wk) ∧
    ¬ 2 ^ (header s).2.log2n ≤ (s.num wk 8 + 2 ^ 64 - s.num (wk + 8) 8) % 2 ^ 64 ∧
    (let u := s.write fk [1 <<< (filterOf 0 0 % 8)]
     FeedbackAt u (header u).2 0 0 fk wk ∧ (u.byte fk).getLsbD (filterOf 0 0 % 8) = true) ∧
    (let u := s.write wk [16]
     FeedbackAt u (header u).2 0 0 fk wk ∧ (u.byte fk).getLsbD (filterOf 0 0 % 8) = false ∧
     2 ^ (header u).2.log2n ≤ (u.num wk 8 + 2 ^ 64 - u.num (wk + 8) 8) % 2 ^ 64) := by
  unfold FeedbackAt
  refine ⟨by decide +kernel, by decide +kernel, ⟨_, rfl, by decide +kernel⟩, by decide +kernel, by decide +kernel, by decide +kernel⟩
/-- The codes of a coordinate: a NaN, an infinity and a number; a weight of a sum. -/
theorem met_Sampling : (decodeF 10 0x7FC00000).isNan = true ∧ decodeF 10 0xFF800000 = .inf true ∧ finite (decodeF 10 0x3F000000) = true ∧
    (header (sampled 1)).2.ct = 10 ∧ ¬ 2 ^ (header (sampled 1)).2.ncl ≤ 3 ∧ finite (decodeF 8 0x3C00) = true ∧ decodeF 9 0x7F80 = .inf false ∧
    (decodeF 8 0x7E00).isNan = true ∧ (∃ m e, FVal.fin false 1 0 = .fin false m e) :=
  ⟨by decide +kernel, by decide +kernel, by decide +kernel, by decide +kernel, by decide +kernel, by decide +kernel, by decide +kernel, by decide +kernel,
    _, _, rfl⟩

/-- HENC of the weight object 0 with a grid record of one level of 2^4 entries through c2. -/
def encoded : State := sheeted { a := 1, b := 8, c := 0, d := 16, t := 9, imm := 2 } (7 * 2 ^ 24 + 7 * 2 ^ 20 + 2 ^ 8 + 9)
  (bytesOf 16 0 ++ bytesOf 16 (4 + 4 * 2 ^ 24)) { v := [(256, 0x3E8000003E800000), (288, 0x3E800000)] }
def encodeRun : Bool :=
  let s := encoded
  match objectCheck s s.curC.ctx (readC s 1) { rights := rightR + rightL, kind := 1 } with
  | .error _ => false
  | .ok e =>
    match readHeader s (readC s 1).obj e with
    | .error _ => false
    | .ok (u, h) =>
      match readGrid u (readC s (gridCap s)) (gridOffset s s.ir.c.toNat) with
      | .error _ => false
      | .ok (v, g) => decide (h.ct = 9 ∧ h.ncl = 1 ∧ g.levels.length - 1 ≤ h.tail ∧
          s.ir.d.toNat + (g.levels.length + 1) / 2 + 1 ≤ s.curC.vallot) && (lanesRun (hencLane h g) [0] v).isSome
theorem met_HashEncodings : admits encoded .henc = true ∧ encoded.curT.hold = none ∧ earlierOpen encoded = false ∧ encoded.curW.counter 3 < 63 ∧
    activeLanes encoded 64 = [0] ∧ encodeRun = true := by decide +kernel
/-- HGRAD into object 0 of 4 KiB with the same grid, which stands there at offset 2048. -/
def graded : State :=
  (mapped { a := 1, b := 8, c := 12, d := 2, t := 10, imm := 1 } { withC [(2, 2048)] with mask := 1 }
    { v := [(256, 0x3E8000003E800000), (288, 0x3E800000)] }).write (keyOf 8 0x2800) (bytesOf 16 0 ++ bytesOf 16 (4 + 4 * 2 ^ 24))
def gradeRun : Bool :=
  let s := graded
  let c := readC s 1
  let need : Need := { rights := rightR + rightW + rightA, align := 4, write := true, atomic := true }
  match objectCheck s s.curC.ctx c need, readGrid s (readC s (gridCap s)) (gridOffset s s.ir.d.toNat) with
  | .ok _, .ok (u, g) =>
    let xs := laneContributions u g 0
    decide (s.ir.c.toNat + g.levels.length ≤ s.curC.vallot) && (gradientStop u c [(0, xs)]).isNone && !xs.isEmpty &&
      xs.all (fun y => dieOfKey (keyOf 8 0x2000 + y.1.toNat) == 8) &&
      (performAdds c (gradientAdds (s.ir.imm.getLsbD 4) xs) 0 (u.modThread u.cur (fun t => { t with answers := tput t.answers (2 ^ 20 + 1) 32 }))).2.isNone
  | _, _ => false
theorem met_HashEncodings_hgrad : admits graded .hgrad = true ∧ graded.curT.hold = none ∧
    earlierOpen graded = false ∧ graded.curT.answers = [] ∧ graded.curW.counter 5 < 63 ∧
    activeLanes graded 64 = [0] ∧ gradeRun = true := by decide +kernel
/-- EGATH from a table of two columns whose one shard has no rows. -/
def gathered : State :=
  mapped { a := 1, b := 8, c := 12, d := 16, t := 15, mod := 0, imm := 0 } { withC with mask := 1 } {} crew
    (bytesOf 4 2 ++ bytesOf 4 8 ++ [1])
def gatherRun : Bool :=
  match readTable gathered (readC gathered 1) with
  | .ok (u, tb) => tb.ok (gathered.ir.mod == 1) && decide (fld gathered.ir.imm.toNat 6 12 + 2 * (fld gathered.ir.imm.toNat 2 4 + 1) ≤ tb.dim) &&
      (lanesRun (egathLane tb) [0] u).isSome
  | .error _ => false
theorem met_HashEncodings_egath : admits gathered .egath = true ∧ gathered.curT.hold = none ∧
    earlierOpen gathered = false ∧ gathered.curW.counter 0 < 63 ∧
    activeLanes gathered 64 = [0] ∧ gatherRun = true := by decide +kernel
/-- A table of 4 rows of 8 bytes in one shard, object 0; row 0, and a bag of two indices, which are 0; a bag of 65. -/
theorem met_EmbeddingPools : let t : EmbedTable := ⟨2, 8, 1, [0, 4], [whole]⟩
    let s := mapped { a := 1, b := 8, c := 1, d := 16, t := 15, imm := 0 } { withC with mask := 1 } { v := [(256, 2 * 2 ^ 32)] }
    0 < t.nsh ∧ t.first.getD 0 0 ≤ 0 ∧ 0 < t.first.getD 1 0 ∧
    (match waveRead s whole 0 4 { field := 3, rights := rightR } with
     | .ok (u, _) => good (waveRead u whole 4 2 { field := 3, rights := rightR })
     | .error _ => false) = true ∧
    (readV s 32 8 0).toNat / 2 ^ 32 ≤ 64 ∧ (bagRun t false 0 1 whole 0 (List.range 2) s).isSome = true ∧
    64 < (readV (mapped {} withC { v := [(256, 65 * 2 ^ 32)] }) 32 8 0).toNat / 2 ^ 32 ∧ finite (decodeF 8 0x3C00) = true ∧
    rat (decodeF 8 0x3C00) + rat (decodeF 8 0x3C00) * (1 : Nat) ≠ 0 := by decide +kernel
/-- A level of HENC whose pages are resident, one whose page 0 is not, and a hot one; the levels of a lane. -/
theorem met_EncodedFeatures :
    let lv : GridLevel := ⟨1, 4, false, 0, 0⟩
    let s := encoded
    let cs := cornersOf lv (lanePos s 0)
    (∀ c ∈ cs, c.1 / 2 ^ 14 = 0) ∧ cs ≠ [] ∧ Charted s (header s).2 0 0 ∧ Resident s (header s).2 0 0 ∧
    (match firstAbsent (header s).2 0 (cs.map (fun c => c.1 / 2 ^ 14)) s with
     | .ok (u, none) => good (readTexels (readC s 1) 4 false (cs.map (fun c => (header s).2.loff 0 + 4 * c.1)) u)
     | _ => false) = true ∧
    (let u := s.write (keyOf 8 0x5000) [0x1E]
     Charted u (header u).2 0 0 ∧ ¬ Resident u (header u).2 0 0 ∧ good (logMiss u (header u).2 0 0 true false) = true) ∧
    (∀ c ∈ cs, s.curC.scratchPoisoned ((0 + 4 * (0 + c.1)) % 2 ^ 19) 4 = none) ∧
    good (encodeLevels (header s).2 ⟨0, [lv]⟩ (lanePos s 0) ([lv].zipIdx.map (fun x => (x.2, x.1))) s) = true := by
  unfold Charted Resident
  decide +kernel
/-- A contribution that is a number, and its addend in order. -/
theorem met_GradientSums : (let x : Contribution := (0, .fin false 3 0)
    [x][0]? = some x ∧ (gradientAdds true [x])[0]? = some (0, 0x40400000) ∧ finite x.2 = true) := by decide +kernel
/-- The corners of a level for a position of zeros and halves of the range, and the range's end. -/
theorem met_HashEncodings_corners : (0 : Nat) < 4 ∧ [0, 2 ^ 148, 2 ^ 149].length = 3 ∧ ([0, 2 ^ 148, 2 ^ 149].all fun a => decide (a ≤ 2 ^ 149)) = true := by
  decide +kernel
/-- REORD of a set that the wave is in alone, with another wave, without it, beyond the allotment, and in a fragment that is not alone. -/
theorem met_Reordering :
    let s := one { a := 8, b := 2, imm := 1 } (withS [(2, 3)])
    admits s .reord = true ∧ s.curT.hold = none ∧ (s.threadsOf s.curWk).length = 1 ∧ s.curT.joins = [] ∧ 1 / 2 ^ (s.curWk % 64) % 2 = 1 ∧
    1 < 2 ^ s.curC.nwaves ∧ (operandB s).toNat < 2 ^ s.curC.vallot ∧ ¬ (one { imm := 2 }).ir.imm.toNat / 2 ^ ((one {}).curWk % 64) % 2 = 1 ∧
    (let u := one { a := 0, b := 2, imm := 1 } (withS [(2, 256)]) {} { crew with vallot := 8 }
     admits u .reord = true ∧ 2 ^ u.curC.vallot ≤ (operandB u).toNat) ∧
    (let u := { s with threads := [(0, fragment), (1, fragment)] }
     (u.threadsOf u.curWk).length ≠ 1) ∧
    (let u := { one { a := 8, b := 2, imm := 3 } (withS [(2, 3)]) {} { crew with nwaves := 2 } with waves := [(0, {}), (1, {})] }
     thas u.waves 1 = true ∧ (u.wave 1).ended = false ∧ 3 / 2 ^ 1 % 2 = 1 ∧ u.curC.reord = []) := by decide +kernel
/-- Wave 0 at a REORD of v8 and registers 0 and 1 of waves 0 and 1, where wave 1 has arrived with some key register and mask. -/
def meeting (a mask : Nat) : State :=
  let t : Thread := { ready with s := (2, 3) :: ready.s }
  let c := { crew with nwaves := 2, reord := [(32, a, mask, 3)] }
  { one { a := 8, b := 2, imm := 3 } t {} c with
    waves := [(0, { v := [(256, 1)] }), (1, { v := [(513, 2)] })]
    threads := [(0, t), (32, { ready with hold := some { op := .reord, since := 0, len := 4 } })] }
theorem come_meeting : ∀ e ∈ [(8, 3), (9, 3), (8, 1)], comeTo (meeting e.1 e.2) 3 3 = [(32, e.1, e.2, 3), (0, 8, 3, 3)] := by decide +kernel
/-- All members have come: they agree, or name another key register, or other registers. -/
theorem met_Reordering_gathered : ∀ e ∈ [(8, 3), (9, 3), (8, 1)], Gathered (meeting e.1 e.2) 3 3 := by
  intro e he
  unfold Gathered
  refine ⟨?_, ?_, fun x hx => ⟨?_, ?_, ?_, ?_, ?_, ?_⟩, ?_⟩
  case refine_6 =>
    rw [come_meeting e he] at hx
    rcases List.mem_pair.mp hx with rfl | rfl
    · exact .inr ⟨_, rfl, rfl⟩
    · exact .inl rfl
  case refine_1 | refine_2 | refine_9 => revert e; decide +kernel
  all_goals revert x; revert e; decide +kernel
theorem met_Reordering_members : admits (meeting 8 3) .reord = true ∧ (meeting 8 3).curT.hold = none ∧
    ((meeting 8 3).threadsOf 0).length = 1 ∧ (meeting 8 3).curT.joins = [] ∧ 3 < 2 ^ (meeting 8 3).curC.nwaves ∧ (operandB (meeting 8 3)).toNat = 3 ∧
    (∀ x ∈ comeTo (meeting 8 3) 3 3, x.2.1 = 8 ∧ x.2.2.1 = 3) ∧ (∃ x ∈ comeTo (meeting 9 3) 3 3, x.2.1 ≠ 8) ∧
    (∀ x ∈ comeTo (meeting 8 1) 3 3, x.2.1 = 8) ∧ (∃ x ∈ comeTo (meeting 8 1) 3 3, x.2.2.1 ≠ 3) ∧
    (∀ x ∈ comeTo (meeting 9 3) 3 3, canTrap (meeting 9 3) x.1 ∧ ∀ e ∈ (meeting 9 3).accesses, e.2.wave ≠ waveOf x.1) ∧
    Position (meeting 8 3) (comeTo (meeting 8 3) 3 3) (0, 0) := by
  unfold canTrap Position
  decide +kernel

end Sys2Proof.Tests
end

