-- ==== Sys2Proof/Tests/MetModule.lean ====
section
/-! SUPPORT. States that meet the hypotheses of the statements about homes, caches, links, dies, the module and the machine as a whole, clause by
clause. -/

-- One declaration after the other: elaborated at once, the many closed checks would start more threads than there is memory for.
set_option Elab.async false

namespace Sys2Proof.Tests

open Sys2Proof Sys2Proof.Machine Sys2Proof.Claims

/-! ### Homes and caches -/

/-- A line of die 8. -/
def homeLine : Nat := keyOf 8 0x2000 / 64
/-- A packet from die 9 to die 8 about that line. -/
def parcel (kind : PacketKind) : Packet := { kind := kind, src := 9, dst := 8, line := homeLine, incarnation := 1, here := true }
/-- Nothing but that packet, the line's directory entry, and die 8. -/
def posted (p : Packet) (e : DirEntry := {}) (d : Die := {}) : State :=
  { State.reset with packets := [(0, p)], directory := if e = {} then [] else [(homeLine, e)], dies := [(8, d)] }
theorem met_HomeRequests : (∀ k ∈ [PacketKind.rd, .rdx, .upg, .at'], Arrives (posted (parcel k)) k (parcel k)) ∧
    ((posted (parcel .rd) { busy := some ⟨1, 10, [], 0⟩ }).dir homeLine).busy ≠ none ∧
    (let e := (posted (parcel .rd)).dir homeLine
     e.busy = none ∧ e.waiting = [] ∧ ¬ (e.state = .o ∨ e.state = .x) ∧ e.sharers = [] ∧ e.state = .i) ∧
    (let e := (posted (parcel .rdx) { state := .s, sharers := [9, 10] }).dir homeLine
     e.busy = none ∧ e.waiting = [] ∧ e.sharers.filter (fun d => d != 9 && !(State.reset.die d).fenced) = [10] ∧ ¬ (e.state = .o ∨ e.state = .x)) ∧
    (let e := (posted (parcel .rd) { state := .x, sharers := [10], owner := 10 }).dir homeLine
     e.busy = none ∧ e.waiting = [] ∧ (e.state = .o ∨ e.state = .x) ∧ e.owner ≠ 9) := by
  unfold Arrives
  decide +kernel
theorem met_HomeRequests_at :
    let p := { parcel .at' with op := [0, keyOf 8 0x2000, 8, 0, 4, 0, 1, 0, 0, 0] }
    let x (k : Nat) : Nat := p.op.getD k 0
    let s := posted p
    Arrives s .at' p ∧ x 9 = 0 ∧ x 3 ≠ 17 ∧ x 1 / 64 = p.line ∧ isHost (x 1) = false ∧ dieOfKey (x 1) = p.dst ∧ s.poisoned (x 1) = false := by
  unfold Arrives
  decide +kernel
theorem met_HomeAnswers :
    (let p := { parcel .wb with hasData := true, bytes := List.replicate 64 7 }
     let s := posted p { state := .x, sharers := [9], owner := 9 }
     Arrives s .wb p ∧ (s.dir p.line).awaiting.contains p.src = false ∧ p.hasData = true ∧ p.bytes.length = 64) ∧
    (let s := posted (parcel .ack)
     Arrives s .ack (parcel .ack) ∧ (s.dir homeLine).awaiting.contains 9 = false ∧ 9 ∉ (s.dir homeLine).stale) ∧
    (let s := posted (parcel .ack) { stale := [9] }
     Arrives s .ack (parcel .ack) ∧ (parcel .ack).state = 0 ∧ 9 ∈ (s.dir homeLine).stale) ∧
    (let s := posted (parcel .ack) { state := .s, sharers := [9, 10], busy := some ⟨1, 11, [], 0⟩, invalidating := true, awaiting := [9, 10] }
     Arrives s .ack (parcel .ack) ∧ 9 ∉ (s.dir homeLine).stale ∧ (s.dir homeLine).awaiting.contains 9 = true ∧ (parcel .ack).state ≤ 1 ∧ ∃ d ∈ (s.dir homeLine).awaiting, d ≠ 9) ∧
    (let s := posted (parcel .ack) { state := .s, sharers := [9], busy := some ⟨1, 11, [], 0⟩, invalidating := true, awaiting := [9] }
     Arrives s .ack (parcel .ack) ∧ 9 ∉ (s.dir homeLine).stale ∧ (s.dir homeLine).busy = some ⟨1, 11, [], 0⟩ ∧ (s.dir homeLine).awaiting = [9] ∧
     (s.dir homeLine).waiting = []) := by
  refine ⟨?_, ?_, ?_, ?_, ?_⟩ <;> unfold Arrives <;> decide +kernel
/-- The packets go from the home, die 9 here, to the cache of die 8. -/
theorem met_CacheMessages :
    let r (st : RdcState) : RdcLine := { state := st, wts := 0, mrts := 5, bytes := List.replicate 64 7 }
    (∀ k ∈ [PacketKind.inv, .recall], Arrives (posted (parcel k)) k (parcel k)) ∧
    (∀ st ∈ [RdcState.m, .e],
      let s := posted (parcel .forward) {} { rdc := [(homeLine, r st)] }
      Arrives s .forward (parcel .forward) ∧ tfind? (s.die 8).rdc homeLine = some (r st) ∧ (r st).grantedAt ≠ some s.clock) ∧
    (∀ k ∈ [PacketKind.recall, .forward],
      let x := { r .m with grantedAt := some 0 }
      let s := posted (parcel k) {} { rdc := [(homeLine, x)] }
      Arrives s k (parcel k) ∧ tfind? (s.die 8).rdc homeLine = some x ∧ x.grantedAt = some s.clock) ∧
    (let p := { parcel .recall with here := false, taken := true }
     let s := posted p {} { rdc := [(homeLine, r .m)] }
     tfind? s.packets s.ev.subject = some p ∧ p.taken = true ∧ acceptable s p = true ∧ tfind? (s.die 8).rdc homeLine = some (r .m)) ∧
    (let s := posted (parcel .grant) {} { rdc := [(homeLine, r .s)] }
     Arrives s .grant (parcel .grant) ∧ (parcel .grant).hasData = false ∧ tfind? (s.die 8).rdc homeLine = some (r .s)) ∧
    (let s := posted (parcel .grant)
     Arrives s .grant (parcel .grant) ∧ tfind? (s.die 8).rdc homeLine = none) ∧
    (let m : CopyCmd := { agent := 0, thread := 0, tmpl := { record := [] }, pat := { record := [] }, arg := 0, pts := 0, wait := { line := some homeLine } }
     let c := { crew with channels := [(0, [m])] }
     let s := { posted (parcel .grant) with crews := [(0, c)] }
     Arrives s .grant (parcel .grant) ∧ (0, c) ∈ s.crews ∧ tfind? s.crews 0 = some c ∧ c.die = 8 ∧ (0, m :: []) ∈ c.channels ∧
     m.wait.line = some homeLine) := by
  refine ⟨?_, ?_, ?_, ?_, ?_, ?_, ?_⟩ <;> try unfold Arrives
  all_goals decide +kernel

/-! ### Links, dies, the module -/

/-- A flit between dies 8 and 9, after some CRC failures in a row. -/
def linked (f : FlitCheck) (n : Nat) : State := { crewed { crcFails := [(18, n)] } [] with ev := { subject := 8, arg1 := 9, flit := f } }
theorem met_LinksAndResends :
    (∀ f ∈ [FlitCheck.clean, .corrected, .crcFail], ∀ n ∈ [7, 8], let s := linked f n; routeDown s 8 9 0 = false ∧ s.ev.flit = f) ∧
    tget 0 ((linked .crcFail 7).die 8).crcFails 18 < 8 ∧ 8 ≤ tget 0 ((linked .crcFail 8).die 8).crcFails 18 ∧
    (∀ n ∈ [0, 1],
      let p := { parcel .inv with lost := true, tries := n }
      let s := { posted p with clock := 30000 }
      tfind? s.packets 0 = some p ∧ p.lost = true ∧ p.sentAt + 30000 ≤ s.clock ∧ p.tries = n ∧ p.kind ∈ [PacketKind.inv, .recall, .forward, .ack, .peerInval, .peerAck]) ∧
    (let p := { parcel .wb with lost := true, tries := 1 }
     let s := { posted p with clock := 30000 }
     tfind? s.packets 0 = some p ∧ p.lost = true ∧ p.sentAt + 30000 ≤ s.clock ∧ p.tries ≠ 0 ∧ p.kind = .wb) ∧
    (let s := { posted (parcel .inv) { busy := some ⟨1, 11, [], 0⟩, awaiting := [9] } with clock := 1500000, ev := { subject := homeLine } }
     (s.dir homeLine).busy ≠ none ∧ (s.dir homeLine).since + 1500000 ≤ s.clock ∧ (s.dir homeLine).awaiting = [9]) := by decide +kernel
theorem met_DiesAreFencedAndReset :
    (let s := crewed {} [(0, crew)]
     (8 : Nat) < 12 ∧ (s.die 8).fenced = false ∧ s.directory = [] ∧ tsorted s.crews = true ∧ tfind? s.crews 0 = some crew ∧ crew.die = 8) ∧
    resets .dieReset (crewed {} []) 8 ∧ resets .functionReset { crewed {} [] with ev := { subject := 9 } } 8 ∧
    (let s := { crewed { partition := some 3 } [] with ev := { subject := 3, arg1 := 2 ^ 7, arg2 := 32768 }, xd := { partitions := [(3, 2 ^ 8, 5, 1)] } }
     let share (e : Nat × Nat × Nat × Nat) : Nat := if e.1 = 3 then 0 else e.2.2.1
     3 < 12 ∧ (s.xd.partitions.map share).sum + s.ev.arg2 ≤ 32768 ∧ fld s.ev.arg1 7 1 = 1 ∧ fld s.ev.arg1 8 1 = 0 ∧
     (s.die 8).partition = some 3) ∧
    { State.reset with xd := { standby := true } }.xd.standby = true ∧ State.reset.xd.standby = false := by
  unfold resets
  decide +kernel
theorem met_PowerAndHeat :
    (let s := { State.reset with xd := { level := 6, levelAt := some 0, junction := 105000 }, clock := 100 * clockMHz 6 }
     Strained s.xd ∧ s.xd.level < 7 ∧ s.xd.levelAt = some 0 ∧ 0 + 100 * clockMHz s.xd.level ≤ s.clock) ∧
    7 ≤ { State.reset with xd := { level := 7 } }.xd.level ∧ ¬ Strained { budget := 0, power := 0, junction := 104999, inlet := 40000, flow := 6000 } ∧
    (let s := { State.reset with xd := { levelAt := some 0 } }
     s.xd.levelAt = some 0 ∧ s.clock < 0 + 100 * clockMHz s.xd.level) ∧
    (let s := { State.reset with xd := { level := 1, calmSince := some 0, loweredAt := some 0 }, clock := 1000 * clockMHz 1 }
     s.xd.level ≠ 0 ∧ s.xd.calmSince = some 0 ∧ s.xd.loweredAt = some 0 ∧ 0 + 1000 * clockMHz s.xd.level ≤ s.clock) ∧
    (let s := { State.reset with xd := { calmSince := some 0 } }
     s.xd.calmSince = some 0 ∧ s.clock < 0 + 1000 * clockMHz s.xd.level) ∧
    (let s := { State.reset with xd := { level := 7, junction := 115000 } }
     115000 ≤ s.xd.junction ∧ s.xd.emergencyAt = none ∧ s.xd.level = 7) ∧
    (State.reset.xd.junction < 115000 ∧ State.reset.xd.inlet ≤ 50000) ∧ 4800000 < { State.reset with ev := { subject := 4800001 } }.ev.subject ∧
    State.reset.ev.subject ≤ 4800000 ∧
    (let s := { State.reset with xd := { level := 7, emergencyAt := some 0 }, clock := 10000 * clockMHz 7, crews := [(0, crew)] }
     s.xd.standby = false ∧ s.xd.emergencyAt = some 0 ∧ 0 + 10000 * clockMHz 7 ≤ s.clock ∧ tsorted s.crews = true) := by
  unfold Strained
  decide +kernel
theorem met_RetirementAndErrors :
    (let s := crewed {} [(0, crew)]
     8 < 12 ∧ (191 : Nat) < coresOf 8 ∧ 191 ∉ (s.die 8).retiredCores ∧ tsorted s.crews = true ∧
     (∀ e ∈ s.crews, e.2.die = 8 → e.2.onCore = true → e.2.core ≠ 191) ∧ (0 : Nat) ∉ (s.die 8).retiredCores ∧
     (∃ e ∈ s.crews, e.2.die = 8 ∧ e.2.onCore = true ∧ e.2.core = 0) ∧ heatOf 0 ∉ (s.die 8).retiredHeats ∧
     8 * 23 < coresOf 8 ∧ 23 ∉ (s.die 8).retiredHeats ∧ tfind? s.crews 0 = some crew) ∧
    (one {}).has (64 * homeLine) = true ∧ isHost (64 * homeLine) = false ∧
    (let s := one {}
     strikable' s 0 = true ∧ (s.crew 0).state ≠ .ended ∧ (s.crew 0).commands = [] ∧ 7 < 8) := by decide +kernel
/-- A PUT and a GET of eight bytes between the objects of die 8, with the completion word behind them, over connection 0 of this module. -/
def transfer : State :=
  { launched {} { small with exports := [(0, (2 ^ 63 + 2 ^ 62 + 2 ^ 61 + 2 ^ 32, 0))] } with
    xd := { connections := [(0, (0, 8, 1))] }
    ev := { subject := 8, net := { conn := 0, asid := 1, lobj := 0, loff := 0, rexp := 0, roff := 64, len := 8, cobj := 0, coff := 128 } } }
/-- The transfer in both directions, up to its completion word. -/
def transferRun (s : State) (put : Bool) : Bool :=
  let q := s.ev.net
  let x := s.modDie 8 (fun d => { d with netWork := d.netWork ++ [{ put := put, request := q, pts := hostTime s }] })
  let from' := if put then q.loff else q.roff
  let dest := if put then q.roff else q.loff
  match transportRead x 8 1 0 from' q.len (hostTime s) with
  | .error _ => false
  | .ok (u, bs, p) =>
    match transportWrite u 8 1 0 dest bs p with
    | .error _ => false
    | .ok (v, p) =>
      good (countCompletion v 8 q p) && (match objReach 8 1 0 u dest bs.length { rights := rightW, write := true } with
        | .ok l => l.leaf.isNone && dieOfKey l.key == 8 && !isHost l.key
        | .error _ => false) && decide (dest % 64 = 0 ∧ bs.length ≤ 64) && bs != []
theorem met_NetworkTransfers :
    let s := transfer
    let q := s.ev.net
    s.ev.subject < 12 ∧ s.ev.arg1 ≠ 1 ∧ s.ev.arg1 ≠ 2 ∧ (s.die 8).netWork = [] ∧ tfind? s.xd.connections q.conn = some (0, 8, 1) ∧ q.coff % 8 = 0 ∧
    q.len ≤ 2 ^ 32 ∧ exportedObject s 8 1 q.rexp.toNat 61 = some (1, 0) ∧ exportedObject s 8 1 q.rexp.toNat 62 = some (1, 0) ∧
    transferRun s true = true ∧ transferRun s false = true ∧ tfind? State.reset.xd.connections 0 = none := by decide +kernel
/-- The request at the head of the ring of ASID 1 is taken. -/
theorem met_NetworkTransfers_ring :
    let s := { transfer.modDie 8 (fun d => { d with netRings := [(1, { ring := 0x2000, n := 2, head := 0 })] }) with ev := { transfer.ev with arg1 := 1 } }
    s.ev.arg1 = 1 ∧ s.ev.net.asid = 1 ∧
    (match takeRequest (s.write (keyOf 8 0x2000) (bytesOf 64 1 ++ [1])) 8 1 with
     | .ok (u, some (b, _)) => (u.die 8).netWork.isEmpty && (tfind? u.xd.connections (requestOf 8 1 b).2.net.conn).isSome
     | _ => false) = true := by decide +kernel

/-! ### The machine as a whole -/

/-- A state whose next step fetches and runs the word of an instruction, with its fields. -/
def fetching (w : Nat) : State := State.reset.withFetchWord 32 w
/-- What the next step fetches and decodes, where nothing else is to be done. -/
def nextWord (s : State) : Option (Instr × Bool) :=
  if s.inputs = [] ∧ s.agenda = [] ∧ nextPoll (begun s) = none then
    (nextIssue (begun s)).bind fun k =>
      let u := { begun s with issued := issuerOf k :: s.issued, cur := k }
      match fetch u u.curC (fetchOffset u) with
      | .ok bs =>
        match decode bs with
        | .ok ((i, x), _) => some (i, (s.thread k).rep.isNone && (fusedAt (running s k s.ir s.len) k (i, x, bs.length)).isNone)
        | .error _ => some (.reservedEncoding, true)
      | .error _ => none
  else none
theorem met_StepRunsDecoded : nextWord (fetching 0) = some (.nop, true) ∧ nextWord (fetching 0x7F) = some (.reservedEncoding, true) := by
  decide +kernel
/-- The fetched word is run in iteration 1 of a REP. -/
theorem met_StepRunsDecoded_rep :
    let s := (fetching 0).modThread 0 (fun t => { t with rep := some ⟨1, 2, 0, 0, 4, false⟩ })
    (nextWord s).map (·.1) = some .nop ∧ (s.thread 0).rep.isSome = true ∧ waitsForOwn (running s 0 s.ir s.len) [] = false := by decide +kernel
/-- A REP of a VADD, which issues with its first iteration. -/
theorem met_StepRunsDecoded_first :
    let x : Fields := { d := 1, lit := some 2 }
    let s := loaded State.reset (encodeBytes .repLit x ++ storedWords [0x010C0C02, 0x00300002, 0])
    nextWord s = some (.repLit, true) ∧
    (match exec .repLit (running s 0 x 12) with
     | .next u =>
       (match (u.thread 0).rep, instrAt u u.curC (fetchOffset u) with
        | some r, .ok (.ok (j, y, _)) => j == .vadd && !waitsForOwn u (regUses j (steppedFields j y r.i r.ds r.ss))
        | _, _ => false)
     | _ => false) = true := by decide +kernel
theorem met_DecodeEncode : wellFormed .sadd { a := 1, b := 2, d := 63 } = true ∧ wellFormed .saddLit { a := 1, d := 63, lit := some (2 ^ 64 - 1) } = true ∧
    (match decode (encodeBytes .sadd { a := 1, b := 2, d := 63 } ++ [5]) with | .ok ((i, _), rest) => i == .sadd && rest == [5] | _ => false) = true := by
  decide +kernel
theorem met_MemoryFormKept : Memory.wf (fetching 0).mem = true ∧
    (match Sys2Proof.Machine.step (fetching 0) with | .next _ => true | _ => false) = true := by decide +kernel

end Sys2Proof.Tests
end

