-- ==== Sys2Proof/Tests/MetUnits.lean ====
section
/-! SUPPORT. States that meet the hypotheses of the statements about synchronisation, copies, collectives, the matrix engine, queues and launches,
clause by clause. -/

-- One declaration after the other: elaborated at once, the many closed checks would start more threads than there is memory for.
set_option Elab.async false

namespace Sys2Proof.Tests

open Sys2Proof Sys2Proof.Machine Sys2Proof.Claims

/-! ### Synchronisation -/

/-- Two waves, of which the second has not arrived at the barrier. -/
def two (st : ThreadState) : State := { one {} with waves := [(0, {}), (1, {})], threads := [(0, fragment), (32, { fragment with state := st })] }
theorem met_CrewBarrier : admits (two .live) .bar = true ∧ (two .live).curT.hold = none ∧
    (∃ w ∈ (two .live).wavesOf (two .live).curCk, w ≠ (two .live).curWk ∧ isSequencer w = false ∧ ((two .live).wave w).ended = false ∧
      arrivedAtBarrier (two .live) w = false) ∧
    (let s := two .barred
     (∀ w ∈ s.wavesOf s.curCk, w = s.curWk ∨ isSequencer w = true ∨ (s.wave w).ended = true ∨ arrivedAtBarrier s w = true) ∧
     s.curWk ∈ s.wavesOf s.curCk ∧ s.curW.ended = false ∧ (∀ p, p < 6 → s.curW.counter p = 0) ∧
     ∀ k ∈ s.threadsOf s.curWk, k = s.cur ∨ (s.thread k).state = .joined ∨ (s.thread k).state = .barred) := by decide +kernel
/-- BAR under REP, with an iteration to come and without. -/
theorem met_CrewBarrier_rep : admits (one {} { fragment with rep := some ⟨0, 2, 0, 0, 4, true⟩ }) .bar = true ∧
    admits (one {} { fragment with rep := some ⟨1, 2, 0, 0, 4, false⟩ }) .bar = true := by decide +kernel

/-- ARRV of n at address 8 of the scratchpad. -/
def arrive' (n : BitVec 32) (a : Word) (w : Wave := {}) (c : Crew := crew) : State := one { a := 1, d := 5, imm := n } (withS [(1, a)]) w c
theorem met_BarrierObjects : admits (arrive' 1 8) .arrv = true ∧ (arrive' 1 8).ir.imm.toNat % 2 ^ 16 ≠ 0 ∧
    (readS (arrive' 1 8) 1).toNat % 8 = 0 ∧ (arrive' 1 8).curC.scratchPoisoned 8 8 = none ∧ performedAll (arrive' 1 8) 0 = true ∧
    (let s := { arrive' 1 8 with accesses := [(0, { wave := 0, path := 1, doneAt := 2 ^ 64 })] }
     performedAll s s.curWk = false) ∧
    (arrive' 0 8).ir.imm.toNat % 2 ^ 16 = 0 ∧ (readS (arrive' 1 4) 1).toNat % 8 ≠ 0 ∧
    (arrive' 1 8 {} { crew with scratchPoison := [1] }).curC.scratchPoisoned 8 8 ≠ none ∧
    admits (one { a := 1, b := 2 } (withS [(1, 8), (2, 1)])) .waitb = true := by decide +kernel
/-- WAITC, FENCE with and without an older access, FENCE.EVICT of an LOD object. -/
theorem met_WaitsAndFences : admits (one { b := 2, imm := 5 }) .waitc = true ∧ admits (one {}) .fence = true ∧
    (let s := { one {} (withS []) with accesses := [(0, { wave := 0, path := 1, doneAt := 9 })] }
     ∃ e ∈ s.accesses, e.2.wave = s.curWk) ∧
    (let s := (mapped { a := 1, mod := 1 }).write (keyOf 8 0x1000) (bytesOf 8 (2 ^ 63 + 4 * 2 ^ 60 + 4096))
     admits s .fenceEvict = true ∧ good (objectCheck s s.curC.ctx (readC s s.ir.a.toNat) { rights := rightL, kind := 1 }) = true) := by
  decide +kernel
theorem met_EvictionPhases : admits (one {}) .evph = true ∧ ((one {}).die 8).schedule = none ∧
    (let e : Schedule := { nph := 2, phase := 2, phases := [], ranges := [] }
     let s := { one {} with dies := [(8, { schedule := some e })] }
     (s.die s.curDie).schedule = some e ∧ e.phase = e.nph ∧ s.ir.imm.getLsbD 3 = false) ∧
    (one { imm := 8 }).ir.imm.getLsbD 3 = true := by decide +kernel
/-- FENCEV through c1, an object with two versions, and c2, its completion word at 0. -/
def versioned : State :=
  let s := one { a := 1, c := 2, d := 5 } { fragment with c := [(1, ⟨BitVec.ofNat 128 (0xFE * 2 ^ 120 + 2 ^ 46 + 4096 * 2 ^ 78), true⟩), (2, whole)] }
  let s := { s with dies := [(8, { asids := [(1, { base := 0x1000, count := 2 })] })] }
  s.write (keyOf 8 0x1000) (bytesOf 8 (2 ^ 63 + 2 ^ 60 + 4096) ++ bytesOf 8 0x2000 ++ bytesOf 16 0 ++ bytesOf 8 (2 ^ 63 + 5 * 2 ^ 60 + 4096))
def versionPlace : Loc := got { key := 0 } (translate versioned versioned.curC.ctx (readC versioned 2) 0 8
  { field := 1, rights := rightR + rightW + rightA, align := 8, write := true, atomic := true })
theorem met_Publishing : admits versioned .fencev = true ∧ versioned.curT.hold = none ∧ earlierOpen versioned = false ∧
    good (objectCheck versioned versioned.curC.ctx (readC versioned 1) { rights := rightW, kind := 2 }) = true ∧
    translate versioned versioned.curC.ctx (readC versioned 2) ((readC versioned 2).off + (operandB versioned).toInt) 8
      { field := 1, rights := rightR + rightW + rightA, align := 8, write := true, atomic := true } = .ok versionPlace ∧
    (dieOfKey versionPlace.key = versioned.curDie ∧ versionPlace.second = none) ∧ storeStop versioned versioned.curDie versionPlace = none ∧
    (isHost versionPlace.key = false ∧ versioned.poisoned versionPlace.key = false) ∧
    (got { w0 := 0, w1 := 0, w2 := 0, w3 := 2 ^ 64 } (objectCheck versioned versioned.curC.ctx (readC versioned 1) { rights := rightW, kind := 2 })).w3 < 2 ^ 64 :=
  ⟨by decide +kernel, rfl, by decide +kernel, by decide +kernel, ok_got (by decide +kernel), by decide +kernel, by decide +kernel, by decide +kernel,
    by decide +kernel⟩

def monitored : State := mapped { a := 1, b := 2 } (withC [(2, 8)])
def monitorPlace : Loc := got { key := 0 } (translate monitored monitored.curC.ctx (readC monitored 1) 8 1 { rights := rightR })
theorem met_Monitor : admits monitored .mon = true ∧ monitored.curT.hold = none ∧ earlierOpen monitored = false ∧
    translate monitored monitored.curC.ctx (readC monitored 1) ((readC monitored 1).off + (operandB monitored).toInt + 0) 1
      { rights := rightR } = .ok monitorPlace ∧
    good (loadAt monitored monitored.curDie (some monitored.curC.core) (issuePts monitored) monitorPlace 1) = true ∧
    admits (one { b := 2, d := 5 } (withS [(2, 5)])) .mwait = true :=
  ⟨by decide +kernel, rfl, by decide +kernel, ok_got (by decide +kernel), by decide +kernel, by decide +kernel⟩
/-- MWAIT without a monitor, with one that was hit, with B = 0, and with a time; and the end of its time. -/
theorem met_Monitor_waits : (one {}).curW.monitor = none ∧ (one {} fragment { monitor := some ⟨1, 2, true⟩ }).curW.monitor = some ⟨1, 2, true⟩ ∧
    operandB (one { b := 2 }) = 0 ∧ operandB (one { b := 2 } (withS [(2, 5)])) ≠ 0 ∧
    (let h : Hold := { op := .mwait, since := 0, arg := 0 }
     let s := one {} { fragment with hold := some h }
     (s.thread s.ev.subject).hold = some h ∧ h.op = .mwait ∧ (s.thread s.ev.subject).rep = none ∧ h.arg ≤ s.clock) := by decide +kernel
/-- SEMA of 2 at a closed semaphore, with enough and a free queue, with too little, behind another waiter; SEMT and SEMR. -/
theorem met_Semaphores :
    let at' (c : Crew) : State := one { d := 5, imm := 0x00020003 } fragment {} c
    admits (at' crew) .sema = true ∧ (at' { crew with semClosed := [3] }).curC.semClosed.contains 3 = true ∧
    tget 0 (at' { crew with sems := [(3, 2)] }).curC.sems 3 = 2 ∧ (at' crew).ir.imm.toNat / 2 ^ 16 % 2 ^ 16 = 2 ∧
    tget 0 (at' crew).curC.sems 3 < 2 ∧ (tget [] (at' { crew with semQueue := [(3, [.thread 32 1])] }).curC.semQueue 3).head? = some (.thread 32 1) ∧
    SemWaiter.thread 32 1 ≠ .thread (at' crew).cur 2 ∧ admits (at' crew) .semt = true ∧ admits (at' crew) .semr = true ∧
    performedAll (at' crew) 0 = true ∧
    performedAll { at' crew with accesses := [(0, { wave := 0, path := 1, doneAt := 2 ^ 64 })] } 0 = false := by decide +kernel

/-! ### Sequencers, copies, collectives -/

/-- DEAL of the matrix sequencer to 0x140. -/
def dealt (t : Word) (st : ThreadState) : State :=
  { one { b := 2 } (withS [(2, t)]) with threads := [(0, withS [(2, t)]), (32 * 32, { state := st })], waves := [(0, {}), (32, {})] }
theorem met_SequencersDealAndMeld : admits (dealt 0x40 .idle) .deal = true ∧ (dealt 0x40 .idle).curT.rep = none ∧
    (goal (dealt 0x40 .idle)).toNat % 4 = 0 ∧ ((dealt 0x40 .idle).thread (32 * 32)).state = .idle ∧ performedAll (dealt 0x40 .idle) 0 = true ∧
    (dealt 0x40 .idle).curW.late = [] ∧ dealAhead (dealt 0x40 .idle) 0 = false ∧ ((dealt 0x40 .live).thread (32 * 32)).state ≠ .idle ∧ ¬ (goal (dealt 2 .idle)).toNat % 4 = 0 ∧
    admits (one { mod := 1 }) .meld = true := by decide +kernel
/-- STRM and TMPL of the record of zeros at offset 0, and of one with a reserved element size and scope. -/
theorem met_PatternsAndTemplates :
    (mapped { a := 1, imm := 63 }).curT.hold = none ∧ earlierOpen (mapped { a := 1, imm := 63 }) = false ∧
    (record (mapped { a := 1, imm := 63 }) 0 64).isSome = true ∧ scalarOffset (mapped { a := 1, imm := 63 }) = 0 ∧
    admits (mapped { a := 1, imm := 63 }) .strm = true ∧ admits (mapped { a := 1, imm := 63 }) .tmpl = true ∧
    (match record (mapped { a := 1 } withC {} crew ((List.replicate 32 0) ++ [7])) 0 64 with
     | some (_, _, bs, _) => byteAt bs 0x20 % 8
     | none => 0) = 7 := by decide +kernel

def copyPattern : PatternSlot := { record := bytesOf 64 (1 + 2 ^ 64 + 2 ^ 128 + 2 ^ 192) }
def copyTemplate : TemplateSlot := { record := bytesOf 64 (16 * 2 ^ 8 + 16 * 2 ^ 16) }
def copyCmd : CopyCmd := { agent := 0, thread := 0, tmpl := copyTemplate, pat := copyPattern, arg := 0, pts := 0 }
/-- XGO of template 0 and pattern 0 with room and with a full channel, with a reserved bit, and with an index that does not fit. -/
theorem met_CopiesAreQueued :
    let c := { crew with templates := [(0, copyTemplate)], patterns := [(0, copyPattern)] }
    let s := one { b := 2 } (withS [(2, 0x100)]) {} c
    admits s .xgo = true ∧ (operandB s).toNat / 64 % 4 = 0 ∧ combineBad copyTemplate copyPattern = false ∧
    (byteAt copyTemplate.record 0 = 0 ↔ byteAt copyPattern.record 0x21 < 128) ∧ (tget [] s.curC.channels 0).length < 16 ∧
    s.curC.chanFault.contains 0 = false ∧
    16 ≤ (tget [] ({ c with channels := [(0, List.replicate 16 copyCmd)] } : Crew).channels 0).length ∧
    (operandB (one { b := 2 } (withS [(2, 64)]))).toNat / 64 % 4 ≠ 0 ∧
    ¬ (byteAt (bytesOf 64 1) 0 = 0 ↔ byteAt copyPattern.record 0x21 < 128) := by decide +kernel
/-- An engine's read and write of the first 8 bytes of an object. -/
theorem met_EngineAccesses : let s := mapped {}
    let x := s.curC.ctx
    let o : Entry := (entryOf s x.die x.asid whole.obj).getD ⟨0, 0, 0, 0⟩
    let key := keyOf x.die (o.w1 + 0)
    whole.tag = true ∧ entryPoisoned s x.die x.asid whole.obj = false ∧ entryOf s x.die x.asid whole.obj = some o ∧ o.valid = true ∧ o.kind = 1 ∧
    whole.covers 0 8 = true ∧ 0 + 8 ≤ o.size ∧ o.w1 + 0 + 8 < 2 ^ 48 ∧ (∀ j, j < 8 → s.has (key + j) = true ∧ inFrames (key + j) = false) ∧
    whole.rights &&& 128 = 128 ∧ (∀ j, j < 8 → lineAway s ((key + j) / 64) = false ∧ s.poisoned (key + j) = false) ∧ whole.rights &&& 64 = 64 ∧
    ∀ j, j < 8 → (s.dir ((key + j) / 64)).busy = none ∧ (s.dir ((key + j) / 64)).state = .i := by decide +kernel
/-- Object 0, at whose start 4 bytes hold 3, with a command at the head of channel 0. -/
def copying (m : CopyCmd) : State := mapped {} withC {} { crew with channels := [(0, [m])] } (bytesOf 4 3)
/-- A GATHER of 4-byte elements from memory to memory, with its indices at the object's start. -/
def gatherCmd : CopyCmd :=
  { copyCmd with
    started := true
    pat := ⟨bytesOf 64 (2 + 4 * 2 ^ 32 + 2 ^ 64 + 2 ^ 128 + 2 ^ 192 + 2 * 2 ^ 256 + 0x80 * 2 ^ 264), whole⟩
    tmpl := ⟨bytesOf 64 (1 + 2 ^ 16 + 256 * 2 ^ 128), whole, whole⟩ }
/-- A combining SCATTER of three I32 elements within the scratchpad, which has read `vs`. -/
def scatterCmd (next : Nat) (vs : List (Int × Nat)) : CopyCmd :=
  { copyCmd with
    started := true, next := next, values := vs
    pat := ⟨bytesOf 64 (3 + 4 * 2 ^ 32 + 2 ^ 64 + 2 ^ 128 + 2 ^ 192 + 2 * 2 ^ 256), {}⟩
    tmpl := ⟨bytesOf 64 (2 + 16 * 2 ^ 8 + 16 * 2 ^ 16 + 2 * 2 ^ 56), {}, {}⟩ }
/-- The reads and the write of an element of the GATHER. -/
theorem met_CopyStep_gather : let s := copying gatherCmd
    tget [] (s.crew 0).channels 0 = [gatherCmd] ∧ crewOf gatherCmd.agent = 0 ∧ gatherCmd.got = none ∧ gatherCmd.bad = none ∧
    gatherCmd.next < elements gatherCmd.pat.record ∧ byteAt gatherCmd.tmpl.record 0 = 1 ∧ 128 ≤ byteAt gatherCmd.pat.record 0x21 ∧
    (match engineRead s (s.crew 0).ctx whole 0 4 gatherCmd.pts engineR with
     | .ok (u, bs, q) => numOfBytes bs == 3 && (match engineRead u (u.crew 0).ctx whole (offAt gatherCmd.pat.record 0 3) 4 q engineR with
       | .ok (v, bs, q) => good (engineWrite v (v.crew 0).ctx whole 256 bs q engineW)
       | .error _ => false)
     | .error _ => false) = true := by decide +kernel
/-- The SCATTER reads its last element, and writes its second, alone at its place and with a duplicate. -/
theorem met_CopyStep_combine : byteAt (scatterCmd 0 []).tmpl.record 0 = 2 ∧ byteAt (scatterCmd 0 []).tmpl.record 6 % 2 = 0 ∧
    (scatterCmd 0 [(0, 5), (4, 6)]).values.length < elements (scatterCmd 0 []).pat.record ∧
    (∀ v, v ∈ [[(0, 5), (4, 6), (8, 7)], [((0 : Int), 5), (4, 6), (4, 7)]] →
      (scatterCmd 1 v).values.length = elements (scatterCmd 1 v).pat.record ∧ (scatterCmd 1 v).values[1]? = some (4, 6) ∧
      (∀ x ∈ (scatterCmd 1 v).values.take 1, x.1 ≠ 4) ∧ (v.filter (fun x => x.1 == 4)).length < 2 ^ 42) ∧
    8 * 2 ^ (byteAt (scatterCmd 1 []).pat.record 0x20 % 8) = widthOf (byteAt (scatterCmd 1 []).tmpl.record 7 % 16) ∧
    byteAt (scatterCmd 1 []).tmpl.record 7 % 16 = 2 ∧ byteAt (scatterCmd 1 []).tmpl.record 2 = 16 := by decide +kernel
/-- The three steps of a copy of one element between scratchpad places. -/
theorem met_CopyStep :
    copyCmd.got = none ∧ copyCmd.bad = none ∧ crewOf copyCmd.agent = 0 ∧ copyCmd.wait.refused = none ∧ copyCmd.started = false ∧ byteAt copyCmd.tmpl.record 5 / 8 % 2 = 0 ∧
    copyCmd.next < elements copyCmd.pat.record ∧ byteAt copyCmd.tmpl.record 0 = 0 ∧ byteAt copyCmd.tmpl.record 1 = 16 ∧
    byteAt copyCmd.tmpl.record 2 = 16 ∧ byteAt copyCmd.pat.record 0x21 < 128 ∧ crew.scratchPoisoned 0 1 = none ∧
    elements copyCmd.pat.record ≤ ({ copyCmd with next := 1 } : CopyCmd).next ∧
    tget [] ({ crew with channels := [(0, [copyCmd])] } : Crew).channels (one {}).ev.arg1 = copyCmd :: [] := by decide +kernel

/-- A pattern of one element and two tiles, of scratchpad bytes. -/
def subPattern : PatternSlot := { record := bytesOf 64 (1 + 2 ^ 64 + 2 ^ 128 + 2 * 2 ^ 192) }
def loader : Sub :=
  { agent := 0, storer := false, cap := whole, base := 0, pat := subPattern, full := 4, free := 5, slots := 2, slotSize := 16, ring := 0 }
/-- UNSUB held since before its id was bound again, and one that names the subscription. -/
theorem met_Subscriptions_unsub :
    let x : Sub := { loader with boundAt := 5 }
    let s (since : Nat) : State := one { a := 1 } { fragment with hold := some { op := .unsub, since := since } } {} { crew with subs := [(0, x)] }
    (∀ n ∈ [3, 7], admits (s n) .unsub = true ∧ tfind? (s n).curC.subs (readS (s n) 1).toNat = some x) ∧
    (s 3).curT.hold.map (fun h => decide (x.boundAt ≤ h.since)) = some false ∧
    (s 7).curT.hold.map (fun h => decide (x.boundAt ≤ h.since)) = some true := by decide +kernel
/-- SUBS with a free id and with none; UNSUB of none, between tiles, within one; the steps of a loader. -/
theorem met_Subscriptions :
    let b : Word := BitVec.ofNat 64 (5 * 2 ^ 54 + 4 * 2 ^ 48 + 2 * 2 ^ 40 + 16 * 2 ^ 20)
    let c := { crew with patterns := [(0, subPattern)] }
    let s := one { a := 1, b := 2, c := 3, d := 5 } (withC [(2, b)]) {} c
    admits s .subs = true ∧ subsOk (operandB s).toNat subPattern = true ∧ subsOk 0 subPattern = false ∧ thas s.curC.subs 0 = false ∧
    admits (one { a := 1 }) .unsub = true ∧ tfind? (one { a := 1 }).curC.subs (readS (one { a := 1 }) 1).toNat = none ∧
    loader.stopped = false ∧ loader.taken = false ∧ loader.cancel = false ∧ loader.wait.refused = none ∧ loader.storer = false ∧
    loader.tile < field loader.pat.record 24 2 ∧ crew.semClosed.contains loader.free = false ∧ tget [] crew.semQueue loader.free = [] ∧
    0 < tget 0 ({ crew with sems := [(5, 2)] } : Crew).sems loader.free ∧
    field loader.pat.record 0 2 * field loader.pat.record 8 2 * field loader.pat.record 16 2 ≤ ({ loader with taken := true, next := 1 } : Sub).next ∧
    (∀ k, k < 8 → ∃ x, x = loader ∧ tfind? ((List.range 8).map (fun k => (k, loader))) k = some x ∧ x.stopped = false) := by
  refine ⟨by decide +kernel, by decide +kernel, by decide +kernel, by decide +kernel, by decide +kernel, by decide +kernel, rfl, rfl, rfl, rfl, rfl,
    by decide +kernel, by decide +kernel, by decide +kernel, by decide +kernel, by decide +kernel, ?_⟩
  intro k hk
  refine ⟨loader, rfl, ?_, rfl⟩
  interval_cases k <;> rfl
/-- Element 1 of tile 0 of a subscription to object 0. -/
def tiling (storer : Bool) : Sub :=
  { loader with storer := storer, taken := true, next := 1, pat := { record := bytesOf 64 (2 + 2 ^ 32 + 2 ^ 64 + 2 ^ 128 + 2 * 2 ^ 192) } }
theorem met_Subscriptions_tiles : ∀ b, b ∈ [false, true] →
    (let s := mapped {} withC {} { crew with subs := [(0, tiling b)] }
     tfind? (s.crew 0).subs s.ev.arg1 = some (tiling b) ∧ crewOf (tiling b).agent = 0 ∧ (tiling b).stopped = false ∧ (tiling b).wait.refused = none ∧
     (tiling b).tile < field (tiling b).pat.record 24 2 ∧ (tiling b).next < field (tiling b).pat.record 0 2 ∧
     byteAt (tiling b).pat.record 0x21 < 128 ∧ (s.crew 0).scratchPoisoned 1 1 = none ∧
     good (engineRead s (s.crew 0).ctx whole 1 1 0 engineR) = true ∧ good (engineWrite s (s.crew 0).ctx whole 1 [7] 0 engineW) = true) := by
  decide +kernel
def collective : Collective :=
  { thread := 0, crew := 0, gather := false, mask := 0x100, occurrence := 0, bufs := List.replicate 12 whole, count := 0, f := { t := 2 }, pts := 0 }
/-- The mask of the group record of an ARED whose object begins with some bytes. -/
def groupMask (bs : List Byte) : Nat :=
  match record (mapped { a := 1, b := 2 } withC {} crew bs) ((readC (mapped { a := 1, b := 2 }) 1).off : Nat) 256 with
  | some (_, _, b, _) => field b 0 8
  | none => 2 ^ 64
/-- ARED on die 8 with a record that names it, one that does not, and one with bit 12; a matched pair of commands that disagree, one that is
done, and one that no packet takes to its member. -/
theorem met_Collectives :
    groupMask (bytesOf 2 0x100) = 0x100 ∧ groupMask [] = 0 ∧ groupMask (bytesOf 2 0x1100) = 0x1100 ∧
    (let s := { one {} with dies := [(8, { collectives := [collective] })], ev := { subject := 0x100, arg1 := 9 } }
     s.ev.arg1 = 8 + 1 ∧ (s.die 8).collectives = collective :: []) ∧
    admits (mapped { a := 1, b := 2 }) .ared = true ∧ agrees collective { collective with count := 1 } = false ∧
    (let s := { one {} with dies := [(8, { collectives := [collective] })], ev := { subject := 0x100 } }
     matched s 0x100 = some [collective] ∧ collective.wait.refused = none ∧ collective.count ≤ collective.next) ∧
    (mapped { a := 1, b := 2 }).curT.hold = none ∧ earlierOpen (mapped { a := 1, b := 2 }) = false := by decide +kernel
/-- A command of die 8 that has one element to reduce, with its fragment's crew and object there; two matched commands that disagree, and two that agree. -/
theorem met_Collectives_leader :
    (let x := { collective with count := 1 }
     let m := mapped {} withC {} crew (bytesOf 4 5)
     let s := { m with dies := m.dies.map (fun e => (e.1, { e.2 with collectives := [x] })), ev := { subject := 0x100 } }
     s.ev.arg1 = 0 ∧ matched s s.ev.subject = some [x] ∧ x.wait.refused = none ∧ x.next < x.count ∧ x.value = none ∧
     reduces x.f.t.toNat x.f.mod.toNat (x.f.imm.toNat % 4) ∧ (giversRun x [8] s 0).isSome = true ∧
     good (engineWrite s (s.crew 0).ctx (x.bufs.getD 8 {}) 0 (bytesOf 4 5) 0 { engineW with field := 3 }) = true ∧ [8][x.wrote]? = some 8 ∧
     ([8] : List Nat).length ≤ ({ x with wrote := 1 } : Collective).wrote) ∧
    (∀ n, n ∈ [0, 1] →
      (let x : Nat → Collective := fun c => { collective with mask := 0x300, count := c }
       let s := { one {} with dies := [(8, { collectives := [x 0] }), (9, { collectives := [x n] })], ev := { subject := 0x300 } }
       matched s s.ev.subject = some [x 0, x n] ∧ agrees (x 0) (x n) = (n == 0))) := by
  unfold reduces
  decide +kernel

/-! ### The matrix engine -/

/-- A crew with reservations 0 and 1 of 64 lines each, for F16 operands. -/
def reserved : Crew := { crew with resv := [(0, { t := 8, mod := 0, first := 0, lines := 64, scl := 0, xoff := 0 }),
  (1, { t := 8, mod := 0, first := 64, lines := 64, scl := 0, xoff := 0 })] }
/-- MZERO accepted, MZERO.EXACT of a2 and MBAR of 0 refused, and the ways to wait. -/
theorem met_MatrixIssue : (matrixIssue .mzero).isSome = true ∧ admits (one { d := 2 }) .mzero = true ∧ (one { d := 2 }).curT.hold = none ∧
    (one { d := 2 }).curC.commands.length < 16 ∧ (one { d := 2 }).curT.tag = none ∧ (one { d := 2 }).curC.krate = 0 ∧
    ((one { d := 2, imm := 1 }).ir.imm.getLsbD 0 && decide (2 ≤ (one { d := 2, imm := 1 }).ir.d.toNat)) = true ∧
    admits (one { imm := 63 }) .mrda = true ∧ admits (one { a := 1, imm := 1 }) .mbar = true ∧ admits (one { d := 7 }) .mrel = true ∧
    admits (one { a := 1, b := 2, d := 0, t := 8 } fragment {} reserved) .mma = true ∧
    16 ≤ (List.replicate 16 (0, ({ agents := [], op := .mzero, f := {} } : MatrixCmd))).length ∧
    (one {} fragment {} { crew with krate := 4, kitty := 0 }).curC.krate ≠ 0 ∧ ¬ 2 ^ (one {}).ir.ec.toNat ≤ (0 : Nat) := by decide +kernel
theorem met_MatrixIssue_tag : tagAllows (one {}) ∧ canPay (one {}) ∧
    ¬ tagAllows (one {} { fragment with tag := some (3, 0, 0) } {}
      { crew with commands := [(0, { agents := [0], op := .mzero, f := {}, id := 3 })] }) := by
  refine ⟨fun _ _ _ h => ?_, Or.inl rfl, fun h => ?_⟩
  · cases h
  · rcases h 3 0 0 rfl with h | h
    · cases h
    · exact h _ (List.mem_singleton.mpr rfl) rfl
/-- MZERO not ready: with a full queue, with a short kitty, and MRDA with a full counter. -/
theorem met_MatrixIssue_notReady : (matrixIssue .mzero).isSome = true ∧
    (let s := one { d := 2 } fragment {} { crew with commands := (List.range 16).map (fun k => (k, { agents := [], op := .mzero, f := {} })) }
     admits s .mzero = true ∧ s.curT.hold = none ∧ s.curT.tag = none ∧ 16 ≤ s.curC.commands.length) ∧
    (let s := one { d := 2 } fragment {} { crew with krate := 4, kitty := 0 }
     admits s .mzero = true ∧ s.curT.hold = none ∧ s.curT.tag = none ∧ s.curC.commands.length < 16 ∧ s.curC.krate ≠ 0 ∧
     ¬ 2 ^ s.ir.ec.toNat ≤ s.curC.kitty) ∧
    ((matrixIssue .mldaSp).map (fun m => m.2.1)) = some (some 2) ∧
    (let s := one { imm := 0, t := 8 } fragment { counters := [(2, 63)] }
     admits s .mldaSp = true ∧ s.curT.hold = none ∧ 63 ≤ s.curW.counter 2) := by decide +kernel
theorem met_MatrixStores : admits (one { a := 1, d := 0, t := 10, imm := 0x3000 } withC) .msta = true ∧ (one {}).curT.hold = none ∧
    earlierOpen (one {}) = false ∧
    mstaTrap (one { a := 1, d := 0, t := 10, imm := 0x3000 } withC) = none ∧ (one {}).curW.counter 1 < 63 := by decide +kernel
/-- MRES with free lines and a full queue. -/
theorem met_Reservations_notReady : (let c := { reserved with commands := (List.range 16).map (fun k => (k, { agents := [], op := .mzero, f := {} })) }
     let s := one { b := 2, d := 2, t := 8, ec := 0 } (withS [(2, 0x4080)]) {} c
     admits s .mres = true ∧ mresTrap s = none ∧ s.curT.tag = none ∧ s.curC.krate = 0 ∧ thas s.curC.resv 2 = false ∧
     16 ≤ s.curC.commands.length ∧ s.curT.hold = none) := by decide +kernel
/-- MRES with free and with taken lines; MCMD of 0, of its own graph and of another wave's; MCMD.END. -/
theorem met_ReservationsAndGraphs :
    (let s := one { b := 2, d := 2, t := 8, ec := 0 } (withS [(2, 0x4080)]) {} reserved
     admits s .mres = true ∧ mresTrap s = none ∧ s.curT.tag = none ∧ s.curC.krate = 0 ∧ thas s.curC.resv 2 = false ∧
     (∀ e ∈ s.curC.resv, ¬ (fld (operandB s).toNat 0 8 < e.2.first + e.2.lines ∧ e.2.first < fld (operandB s).toNat 0 8 + fld (operandB s).toNat 8 9))) ∧
    (let s := one { b := 2, d := 0, t := 8, ec := 0 } (withS [(2, 0x4080)]) {} reserved
     admits s .mres = true ∧ mresTrap s = none ∧ thas s.curC.resv 0 = true) ∧
    admits (one { imm := 1 }) .mcmd = true ∧ (one { imm := 1 }).ir.imm.toNat % 256 ≠ 0 ∧ (one { imm := 1 }).curC.forerunner = none ∧
    (one {}).ir.imm.toNat % 256 = 0 ∧ admits (one { imm := 0x1000000 }) .mcmdEnd = true ∧
    (one {} fragment {} { crew with forerunner := some 1 }).curC.forerunner = some 1 ∧ (1 : Nat) ≠ (one {}).curWk := by decide +kernel
/-- A full queue of commands that MZERO made. -/
def full : Table MatrixCmd := (List.range 16).map (fun k => (k, { agents := [], op := .mzero, f := {} }))
theorem met_ReservationsAndGraphs_queue :
    (let s := one { imm := 1 } fragment {} { crew with commands := full }
     admits s .mcmd = true ∧ s.curT.hold = none ∧ 16 ≤ s.curC.commands.length ∧ (∀ e ∈ s.curC.commands, e.2.id ≠ 1) ∧ s.curC.krate = 0) ∧
    (let s := one { imm := 0x1000000 } fragment {} { crew with commands := full }
     admits s .mcmdEnd = true ∧ s.curT.hold = none ∧ 16 ≤ s.curC.commands.length ∧ s.curC.forerunner = none ∧ s.curC.krate = 0) := by decide +kernel
/-- The tag of a fragment without one, and one that names a live command. -/
theorem met_ReservationsAndGraphs_tag : tagOpen (one {}) ∧
    ¬ tagOpen (one {} { fragment with tag := some (0, 3, 0) } {} { crew with commands := [(0, { agents := [0], op := .mzero, f := {}, id := 3 })] }) := by
  refine ⟨fun _ _ _ h => ?_, fun h => ?_⟩
  · cases h
  rcases h 0 3 0 rfl 3 (by decide) with h | h
  · cases h
  · exact h _ (List.mem_singleton.mpr rfl) rfl
/-- GANG of waves 0 and 1, of one wave twice, and with members waiting; a joint MMA of a member, of a stranger, after a failure; and a full latch. -/
theorem met_Gangs :
    let c := { reserved with nwaves := 2 }
    let joint : Fields := { a := 1, b := 2, t := 8, imm := 0x80000000 }
    let e (k : Nat) : GangEntry := { thread := 32 * k, op := .mma, f := joint, occ := 0 }
    let g : Gang := { waves := [0, 1], waiting := [e 0, e 1] }
    admits (one { mod := 2, d := 0, imm := 0x20 } fragment {} c) .gang = true ∧
    (List.range 2).map (fun k => fld 0x20 (5 * k) 5) = [0, 1] ∧ ¬ ((List.range 2).map (fun k => fld 0 (5 * k) 5)).Nodup ∧
    admits (one joint fragment {} { c with gangs := [(0, { waves := [0, 1] })] }) .mma = true ∧ (one joint).ir.imm.getLsbD 31 = true ∧
    fld (one joint).ir.imm.toNat 29 2 = 0 ∧ (0 : Nat) ∈ g.waves ∧ (0 : Nat) ∉ ([] : List Nat) ∧ ({ g with failed := some 3 } : Gang).failed = some 3 ∧
    arrived g = some [e 0, e 1] ∧ (e 0).op ≠ .mmap ∧ wordsAgree (e 0) (e 1) = true ∧
    wordsAgree (e 0) { e 1 with f := { joint with d := 1 } } = false ∧ ([e 0, e 1].map (·.thread)).Nodup ∧
    (∀ x ∈ [e 0, e 1], crewOf (waveOf x.thread) = 0) := by decide +kernel
theorem met_Gangs_product : (let s := one { d := 0, a := 1, b := 2, t := 8, ec := 2, imm := 0x80000200 } fragment {} reserved
    mmaBad s = false) := by decide +kernel
/-- MMAP without a pair, with a broken one, with a partner that has issued, and the start of both engines. -/
theorem met_PairedProducts :
    admits (one {}) .mmap = true ∧ (one {}).ir.imm.getLsbD 31 = false ∧ (one {}).curC.paired = false ∧
    (let c := { reserved with paired := true, pair := some 1 }
     let x : Fields := { t := 8, ec := 2, imm := 0x200 }
     let h : Hold := { op := .mmap, since := 0, arg := 1, f := x, len := 12 }
     let m : MatrixCmd := { agents := [0], op := .mmap, f := x, pairIdx := 1, pairReady := some 5 }
     mmapBad (one x fragment {} c) = false ∧ (one x fragment {} c).curC.pairEnded = false ∧
     h.arg ≤ ({ c with mmapCount := 1 } : Crew).mmapCount ∧ ({ c with mmapCount := 0 } : Crew).mmapCount < h.arg ∧
     ({ c with pairBroken := true } : Crew).pairBroken = true ∧
     readyMmap { c with commands := [(0, m)] } = some (0, m)) := by decide +kernel
/-- The two sides of a pair, with nothing in the way, and with a product of the same tile under way on one side. -/
theorem met_PairedProducts_start :
    let x : Fields := { t := 8, ec := 2, imm := 0x200 }
    let m : MatrixCmd := { agents := [0], op := .mmap, f := x, pairIdx := 1, pairReady := some 5 }
    let c := { reserved with paired := true, pair := some 1, commands := [(0, m)] }
    let d := { reserved with paired := true, pair := some 1, commands := [(0, m), (1, { agents := [1], op := .mzero, f := {}, started := true })] }
    c.pair = some 1 ∧ (1 : Nat) ≠ 0 ∧ readyMmap c = some (0, m) ∧ readyMmap d = some (0, m) ∧ mayStart c 0 m = true ∧ mayStart d 0 m = false := by
  decide +kernel
/-- A command whose time has come, of each kind. -/
theorem met_MatrixWork :
    let m (i : Instr) (x : Fields) : MatrixCmd := { agents := [0], op := i, f := x, started := true, opA := 8 }
    (m .mzero {}).wait.refused = none ∧ (m .mzero {}).started = true ∧ (m .mzero {}).doneAt ≤ (one {}).clock ∧ (m .mzero {}).access = none ∧
    tfind? ({ reserved with commands := [(0, m .mma { imm := 0x200 })] } : Crew).commands 0 = some (m .mma { imm := 0x200 }) ∧
    (tfind? reserved.resv (0x200 % 8)).isSome = true ∧ (tfind? reserved.resv (fld 0x200 9 3)).isSome = true ∧ fld 0x200 18 2 = 0 ∧
    (m .mbar { imm := 1 }).opA.toNat % 2 ^ 19 % 8 = 0 ∧ crew.scratchPoisoned 8 8 = none := by decide +kernel

/-- A command of an operation on tile 0 in reservation 0, whose time has come. -/
def moving (i : Instr) (x : Fields) (b : Word := 0) (data : List Word := []) (r : Resv := { t := 8, mod := 0, first := 0, lines := 64, scl := 0, xoff := 0 }) : State :=
  mapped {} { withC with hold := some { op := i, since := 0 } } {} { crew with
    resv := [(0, r)]
    commands := [(0, { agents := [0], op := i, f := x, opB := b, data := data, started := true, thread := some 0, cap := whole })] }
/-- The moves of tiles: rows of F16 and of MXF4, transposed, from registers; MRDA of rows 62 and 63, and its status form; MWRA of one row; MSTA to the scratchpad
and to memory. -/
theorem met_MatrixMoves :
    (∀ e ∈ [(Instr.mldaSp, (8 : Nat), 0x0), (.mldbSp, 14, 0x0), (.mldbSp, 8, 0x10000)],
      (let r : Resv := { t := e.2.1, mod := if e.2.1 = 14 then 3 else 0, first := 0, lines := 64, scl := 0, xoff := 0 }
       let s := moving e.1 { imm := e.2.2 } 0 [] r
       (tfind? (s.crew 0).commands 0).isSome = true ∧ tfind? (s.crew 0).resv 0 = some r ∧ (s.crew 0).scratchPoison = [])) ∧
    (let s := moving .mldaReg { imm := 0x8000 } 0 [7]
     (tfind? (s.crew 0).resv 0).isSome = true ∧ ([7] : List Word).length ≤ 2 ^ 13 ∧ (BitVec.ofNat 32 0x8000).getLsbD 15 = true) ∧
    (let s := moving .mrda { imm := 0x7E }
     (s.thread 0).hold.isSome = true ∧ (s.thread 0).rep = none ∧ (tget {} (s.crew 0).tileStatus 0).pois = false ∧ 0x7E % 64 + (fld 0x7E 6 6 + 1) ≤ 64) ∧
    ((moving .mrdaSt { imm := 0x1000 }).thread 0).hold.isSome = true ∧ fld 0x3F 6 6 = 0 ∧ 0x3F % 64 + 1 ≤ 64 ∧
    (10 : Nat) ∈ [8, 9, 10, 0xC, 0xD] ∧
    (let s := moving .msta { t := 10, imm := 0x1000 } (BitVec.ofNat 64 (256 * 2 ^ 44))
     good (engineWrite s (s.crew (crewOf 0)).ctx whole ((whole.off + fld (256 * 2 ^ 44) 0 44 + 0 : Nat) : Int)
      (List.replicate 256 0) 0 engineW) = true) := by decide +kernel

/-! ### Queues and launches -/

/-- A wave of a pipeline's stage 0, whose queue holds 4 records of 8 bytes. -/
def staged (x : Instance) (f : Fields) : State :=
  { one f { fragment with mask := 3 } {} { crew with pipeline := some 0, stage := some 0 } with
    pipelines := [(0, { die := 8, asid := 1, path := [0, 1] })], instances := [(0, x)] }
def stage0 : Instance := { die := 8, asid := 1, first := true, qcap := 4, qsize := 8, seeds := 3 }
/-- QPUT with room, without, of a size that does not fit and in the last stage; QTAKE of seeds; QDONE; QEOS. -/
theorem met_QueueInstructions :
    admits (staged stage0 { a := 1 }) .qput = true ∧ (staged stage0 { a := 1 }).instance' 0 = stage0 ∧ stage0.last = false ∧ 8 * (0 + 1) = stage0.qsize ∧
    activeLanes (staged stage0 { a := 1 }) 64 = [0, 1] ∧ 2 ≤ stage0.qcap ∧ performedAll (staged stage0 { a := 1 }) 0 = true ∧
    putAhead (staged stage0 { a := 1 }) 0 = false ∧ roomFor stage0 2 = true ∧ stage0.poisoned = false ∧ activeLanes (staged stage0 { a := 1, pn := true }) 64 = [] ∧
    roomFor { stage0 with cursors := [(1, {})], nextSeq := 3, records := (List.range 3).map (fun k => ⟨k, false, [], 0⟩) } 2 = false ∧
    8 * (1 + 1) ≠ stage0.qsize ∧ ({ stage0 with last := true } : Instance).last = true ∧
    admits (staged stage0 { d := 5, c := 6, imm := 0x100 }) .qtake = true ∧ (0x100 : Nat) % 32 = 0 ∧ stage0.upstream = none ∧ stage0.takers = [] ∧
    stage0.seedCursor.gap = none ∧ stage0.seeds - stage0.seedCursor.next ≠ 0 ∧ admits (staged stage0 {}) .qdone = true ∧
    admits (staged stage0 {}) .qeos = true := by decide +kernel
/-- Stage 1 behind a queue of 4 slots with two records, the second with a frame marker, and a cursor of stage 1. -/
def second (c : Cursor) (x : Instance) (y : Instance) (f : Fields) : State :=
  { one f { fragment with mask := 3 } {} { crew with pipeline := some 0, stage := some 1, vallot := 8 } with
    pipelines := [(0, { die := 8, asid := 1, path := [0, 1] })], instances := [(0, { x with cursors := [(1, c)] }), (1, { y with upstream := some 0 })] }
def stocked : Instance := { stage0 with qloc := 1, nextSeq := 2, records := [⟨0, false, bytesOf 8 5, 1⟩, ⟨1, true, bytesOf 8 6, 2⟩] }
/-- QTAKE of records, with `.SEQ`, with a gap, at the end of its input and of a poisoned one, and with nothing there. -/
theorem met_QueueInstructions_upstream :
    (∀ e ∈ [((0x100 : BitVec 32), ({} : Cursor)), (0x10100, {}), (0x100, { next := 1, gap := some (1, 0, false) })],
      (let s := second e.2 stocked {} { d := 1, c := 6, imm := e.1 }
       admits s .qtake = true ∧ 8 * (s.ir.imm.toNat % 32 + 1) = inputSize s 1 ∧ s.ir.d.toNat + 1 < s.curC.vallot ∧ s.curT.hold = none ∧
       s.curW.records = [] ∧ queueEnds s = s ∧ (s.instance' 1).takers = [] ∧ inputAppended s 1 - (cursorOf s 1).next ≠ 0 ∧ activeLanes s 64 ≠ [])) ∧
    (∀ e ∈ [({ stocked with ended := true } : Instance), { stocked with poisoned := true }, stocked],
      (let s := second { next := 2 } e {} { d := 1, c := 6, imm := 0x100 }
       admits s .qtake = true ∧ queueEnds s = s ∧ inputAppended s 1 - (cursorOf s 1).next = 0 ∧ (cursorOf s 1).gap = none)) ∧
    stocked.ended = false ∧ stocked.poisoned = false := by decide +kernel
theorem met_QueueInstructions_consecutive : Consecutive (second {} stocked {} {}) 1 := by
  intro u hu
  cases hu
  refine ⟨0, by decide +kernel, by decide +kernel, by decide +kernel, fun j r h => ?_⟩
  match j, h with
  | 0, h => cases h; rfl
  | 1, h => cases h; rfl
  | n + 2, h => cases h
/-- A QTAKE behind one that was issued before, of another wave. -/
theorem met_QueueInstructions_behind :
    let s := second {} stocked { takers := [32] } { d := 1, c := 6, imm := 0x100 }
    let s := { s with waves := [(0, {}), (1, {})], clock := 5, threads := s.threads ++ [(32, { fragment with hold := some { op := .qtake, since := 2 } })] }
    admits s .qtake = true ∧ inputAppended s 1 - (cursorOf s 1).next ≠ 0 ∧ queueEnds s = s ∧
    ∃ j ∈ (s.instance' 1).takers, j ≠ s.cur ∧ mayTake s j = true ∧ ((s.thread j).hold.map (fun h => decide (h.since < s.clock))) = some true := by
  decide +kernel
/-- QPUT into a queue: of a poisoned instance; with a DROP cursor that must make room and one that waits for a frame marker; behind another QPUT; of an SP queue. -/
theorem met_QueueInstructions_put :
    (let s := staged { stage0 with poisoned := true } { a := 1 }
     admits s .qput = true ∧ (s.instance' 0).poisoned = true ∧ activeLanes s 64 ≠ [] ∧ putAhead s 0 = false) ∧
    (let x : Instance := { stage0 with cursors := [(1, {}), (2, { drop := true }), (3, { next := 3, waitFrame := true }), (4, { next := 3 })] }
     let y : Instance := { x with nextSeq := 3, cursors := [(2, { drop := true }), (4, { next := 3 })] }
     (∀ e ∈ x.cursors, e.2.drop = true ∨ 0 + 2 - x.qcap ≤ e.2.next) ∧ (∀ e ∈ y.cursors, e.2.drop = true ∨ y.nextSeq + 2 - y.qcap ≤ e.2.next) ∧
     0 < y.nextSeq + 2 - y.qcap ∧ x.qloc = 0 ∧ x.qcap * x.qsize ≤ 2 ^ 19) ∧
    (let s := staged stage0 { a := 1 }
     let s := { s with
       waves := [(0, {}), (1, {})], clock := 5
       threads := s.threads ++ [(32, { fragment with hold := some { op := .qput, since := 2, arg := 3 } })] }
     admits s .qput = true ∧ putAhead s 0 = true) ∧
    (let s := { staged stage0 { a := 1 } with accesses := [(0, { wave := 0, path := 1, doneAt := 2 ^ 64 })] }
     admits s .qput = true ∧ performedAll s s.curWk = false) := by decide +kernel
/-- A GRID packet of one crew of one wave at offset 0, without argument block or completion word, and the packet of zeros, which is bad. -/
def gridBytes : List Byte := bytesOf 64 (1 + 8 * 2 ^ 24 + 2 ^ 32 + 2 ^ 64 + 16 * 2 ^ 96)
def launching (bs : List Byte) (c : Crew := crew) : State := mapped { a := 1, b := 2 } withC {} c bs
def launchRead : State × List Byte :=
  match record (launching gridBytes) (scalarOffset (launching gridBytes)) 64 with
  | some (u, _, b, _) => (u, b)
  | none => (State.reset, [])
theorem met_Launches : admits (launching gridBytes) .launch = true ∧ (launching gridBytes).curT.hold = none ∧ earlierOpen (launching gridBytes) = false ∧ packetOk launchRead.2 = true ∧ launchRead.2.length = 64 ∧ crew.prio < 4 ∧
    good (launchParts launchRead.1 launchRead.2) = true ∧ performedAll (launching gridBytes) 0 = true ∧
    (tget [] ((launching gridBytes).die 8).devQueues 0).length < 256 ∧ packetOk (bytesOf 64 0) = false ∧
    (record (launching []) 0 64).isSome = true := by decide +kernel

end Sys2Proof.Tests
end

