-- ==== Sys2Proof/Tests/MetVector.lean ====
section
/-! SUPPORT. States that meet the hypotheses of the statements about vector instructions and numbers, clause by clause. -/

-- One declaration after the other: elaborated at once, the many closed checks would start more threads than there is memory for.
set_option Elab.async false

namespace Sys2Proof.Tests

open Sys2Proof Sys2Proof.Machine Sys2Proof.Claims

/-- v3 := an operation of v1 and v2 with elements of some type. -/
def vec (t : BitVec 4) (imm : BitVec 32 := 0) (mod : BitVec 3 := 0) (lit : Option Word := none) : Fields :=
  { a := 1, b := 2, c := 4, d := 8, t := t, imm := imm, mod := mod, lit := lit }

theorem met_VectorIntegers : (integerSpec .vadd).isSome = true ∧ admits (one (vec 6)) .vadd = true ∧ (integerSpec .vbfi).isSome = true ∧
    admits (one { vec 1 0x0804 with b := 0, c := 0 }) .vbfi = true := by decide +kernel
theorem met_VectorFloats : (floatSpec .vfma).isSome = true ∧ admits (one (vec 10)) .vfma = true ∧ (one (vec 10)).ir.t.toNat ∈ [8, 9, 10, 11] ∧
    admits (one (vec 6)) .vrng = true ∧ (one (vec 6)).ir.t.toNat ∈ [6, 10] ∧ admits (one (vec 8)) .vfdot = true := by decide +kernel
theorem met_VectorCompares : admits (one { vec 8 with d := 28 }) .vcmp = true ∧ admits (one { vec 10 with d := 0 }) .vcmp = true := by decide +kernel
/-- VCVT.F32 from I32, and its part 1, which does not exist; VUNPK.F32 from F16 and from F32; VPACK.F16 from F32 and from F16; VQDEC from index 6
and 7; the block conversions. -/
theorem met_VectorConversions :
    (let s := one (vec 10 2)
     admits s .vcvt = true ∧ (cvt s).2.1 < max (widthOf (cvt s).1) (wd s) / min (widthOf (cvt s).1) (wd s)) ∧
    (let s := one (vec 10 0x12)
     admits s .vcvt = true ∧ ¬ (cvt s).2.1 < max (widthOf (cvt s).1) (wd s) / min (widthOf (cvt s).1) (wd s)) ∧
    (let s := one (vec 10 8)
     admits s .vunpk = true ∧ wd s = 2 * widthOf (cvt s).1 ∧ (cvt s).2.1 < max (widthOf (cvt s).1) (wd s) / min (widthOf (cvt s).1) (wd s)) ∧
    (let s := one (vec 10 10)
     admits s .vunpk = true ∧ wd s ≠ 2 * widthOf (cvt s).1) ∧
    (let s := one (vec 8 10)
     admits s .vpack = true ∧ widthOf (cvt s).1 = 2 * wd s) ∧
    (let s := one (vec 8 8)
     admits s .vpack = true ∧ widthOf (cvt s).1 ≠ 2 * wd s) ∧
    (let s := one (vec 10 6)
     admits s .vqdec = true ∧ s.ir.imm.toNat % 16 ≤ (if s.ir.mod = 0 then 6 else 14)) ∧
    (let s := one (vec 10 7)
     admits s .vqdec = true ∧ (if s.ir.mod = 0 then 6 else 14) < s.ir.imm.toNat % 16) ∧
    (blockSpec .vsxp).isSome = true ∧ admits (one (vec 10 0 1)) .vsxp = true ∧ (one (vec 10)).ir.subp = false := by decide +kernel
/-- VSHFL; VBCAST of the last element and of one beyond it; VROTL. -/
theorem met_CrossLaneElements : admits (one (vec 6)) .vshfl = true ∧
    admits (one (vec 6 63)) .vbcast = true ∧ (one (vec 6 63)).ir.imm.toNat % 2 ^ 11 < 32 * (64 / wd (one (vec 6 63))) ∧
    admits (one (vec 6 64)) .vbcast = true ∧ 32 * (64 / wd (one (vec 6 64))) ≤ (one (vec 6 64)).ir.imm.toNat % 2 ^ 11 ∧
    admits (one (vec 7 31)) .vrotl = true := by decide +kernel
/-- VRDX of an integer sum, of F32 sums in the three orders and of an F16 maximum, of all lanes of a wave, and of no element, where p1 holds no bit. -/
theorem met_Reductions :
    (admits (one (vec 2)) .vrdx = true ∧ reduces 2 0 0 ∧ chosen (one (vec 2)) ≠ []) ∧
    (admits (one (vec 10)) .vrdx = true ∧ reduces 10 0 0 ∧ admits (one (vec 10 1)) .vrdx = true ∧ reduces 10 0 1 ∧
      admits (one (vec 10 2)) .vrdx = true ∧ reduces 10 0 2 ∧ chosen (one (vec 10 2)) ≠ []) ∧
    (admits (one (vec 8 0 2)) .vrdx = true ∧ reduces 8 2 0 ∧ chosen (one (vec 8 0 2)) ≠ []) ∧
    admits (one { vec 2 with p := 1 }) .vrdx = true ∧ chosen (one { vec 2 with p := 1 }) = [] := by
  unfold reduces
  decide +kernel
/-- The elements of an exact sum that is 0, of one that is not, and of one of type `.FREE` in range; a NaN among them. -/
theorem met_ReductionOrders : ((decodeF 10 0x3F800000 :: [decodeF 10 0xBF800000]).map rat).sum = 0 ∧
    ((decodeF 10 0x3F800000 :: [decodeF 10 0]).map rat).sum ≠ 0 ∧ finite (decodeF 10 0x3F800000) = true ∧
    ((decodeF 10 0x3F800000 :: [decodeF 10 0xBF800000]).map (fun v => |rat v|)).sum ≤ (2 ^ 24 - 1) * 2 ^ 104 ∧
    [decodeF 10 0x7FC00000].all finite = false := by
  decide +kernel
/-- VSCAN, inclusive and exclusive: the first element of the exclusive scan has none below it, the second has one. -/
theorem met_Scans : admits (one (vec 10)) .vscan = true ∧ reduces 10 0 0 ∧ admits (one (vec 10 4)) .vscan = true ∧
    (one (vec 10 4)).ir.imm.getLsbD 2 = true ∧ selected (one (vec 10 4)) 0 0 = true ∧ selected (one (vec 10 4)) 0 1 = true ∧
    (chosen (one (vec 10 4))).filter (fun x => decide (x.1 < 0)) = [] ∧
    (chosen (one (vec 10 4))).filter (fun x => decide (x.1 < 1)) ≠ [] ∧ (one (vec 10)).ir.imm.getLsbD 2 = false := by
  unfold reduces
  decide +kernel
/-- VREAD and VWRITE of the last element, and beyond it. -/
theorem met_ElementMoves : admits (one (vec 6 63 1)) .vread = true ∧ admits (one (vec 6 63 1)) .vwrite = true ∧
    ¬ 32 * (64 / wd (one (vec 6 63 1))) ≤ (one (vec 6 63 1)).ir.imm.toNat % 2 ^ 11 ∧ (one (vec 6 64 1)).ir.mod.getLsbD 0 = true ∧
    32 * (64 / wd (one (vec 6 64 1))) ≤ (one (vec 6 64 1)).ir.imm.toNat % 2 ^ 11 := by decide +kernel
theorem met_QuadDerivatives : admits (one { vec 10 5 with b := 0 }) .vddx = true ∧ admits (one { vec 10 5 with b := 0 }) .vddy = true := by decide +kernel
/-- The streams, with VBSI of 0 bits and of 7. -/
theorem met_BitStreams : admits (one (vec 7 64)) .vbsr = true ∧ (one (vec 7 64)).ir.t.toNat = 7 ∧ (one (vec 7 64)).ir.subp = false ∧
    admits (one (vec 7)) .vbsc = true ∧ admits (one (vec 7)) .vbsi = true ∧ (one (vec 7)).ir.imm.toNat % 128 = 0 ∧
    admits (one (vec 7 7)) .vbsi = true ∧ (one (vec 7 7)).ir.imm.toNat % 128 ≠ 0 ∧ admits (one (vec 7)) .vbsp = true := by decide +kernel
/-- A width that ends at the element's top, a width of 0 behind it, and a word that decodes to VBFX. -/
theorem met_BitFields : admits (one { vec 1 0x0804 with b := 0, c := 0 }) .vbfx = true ∧ (one (vec 1 0x0804)).ir.t.toNat < 8 ∧
    admits (one { vec 0 0x0808 with b := 0, c := 0 }) .vbfi = true ∧
    readWord (storedWords [0x01213C02, 0x00300000, 0x00000804]) = some (.vbfx, { a := 1, d := 8, t := 6, imm := 0x804 }) := by decide +kernel
theorem met_RandomNumbers : admits (one (vec 10)) .vrng = true ∧ (one (vec 10)).ir.t.toNat = 10 ∧
    readWord (storedWords [0x010C0CE2, 0x00300002, 0]) = some (.vrng, { a := 1, d := 3, t := 6, b := 2 }) := by decide +kernel

theorem met_SignsOfZero : (true ≠ false) ∧ rat (.fin true 1 0) + rat (.fin false 1 0) = 0 ∧ rat (.fin true 0 0) + rat (.fin false 0 3) = 0 := by
  simp [rat]
theorem met_ExactArithmetic : finite (.fin true 3 (-2)) = true := rfl
/-- A NaN, an infinity, and the operands of the exact cases: 3, 8, -1, 4, 1/2 and 9. -/
theorem met_SpecialValues : (decodeF 10 0x7F800001).isNan = true ∧ [0xFF800000, 0x7F800000, 0x80000000, 0].getD 1 0 = 0x7F800000 ∧
    (finite (decodeF 10 0x40400000) = true ∧ rat (decodeF 10 0x40400000) = (3 : Int)) ∧
    (finite (decodeF 10 0x41000000) = true ∧ rat (decodeF 10 0x41000000) = 2 ^ (3 : Int)) ∧ rat (decodeF 10 0xBF800000) < 0 ∧
    rat (decodeF 10 0x40800000) = 2 ^ (2 * (1 : Int)) ∧ rat (decodeF 10 0x3F000000) = (0 : Int) + 1 / 2 ∧ 9 ≤ |rat (decodeF 10 0x41100000)| ∧
    (0x3C00 : Nat) < 2 ^ 16 := by decide +kernel
/-- 1 has a finite result in each special function but VTANH, and 9 in VTANH. -/
theorem met_SpecialAccuracy : finite (decodeF 10 0x3F800000) = true ∧ finite (decodeF 10 0x41100000) = true ∧
    (∀ fn, fn < 6 → finite (decodeF 10 (specialIn fn 10 0x3F800000)) = true) ∧ finite (decodeF 10 (specialIn 6 10 0x41100000)) = true ∧
    (rat (decodeF 10 0x3F800000) ≠ 0 ∧ 0 < rat (decodeF 10 0x3F800000)) := by decide +kernel
/-- 1/3 of a unit in the last place above 1, whose neighbours are codes of F32. -/
theorem met_RoundingIsCorrect : finite (decodeF 10 (roundF 10 2 false (.fin false (3 * 2 ^ 23 + 1) (-23)))) = true ∧
    (0x3F800000 : Nat) < 2 ^ widthOf 10 ∧ finite (decodeF 10 0x3F800000) = true := by decide +kernel

end Sys2Proof.Tests
end

