-- ==== Sys2Proof/Tests/Slice0.lean ====
section
/-! SUPPORT. Tests: what is well-formed, what words decode to, and single steps whose results the spec's own examples or a calculation by hand
give. -/

-- One declaration after the other: elaborated at once, the many closed checks would start more threads than there is memory for.
set_option Elab.async false

namespace Sys2Proof.Tests

open Sys2Proof Sys2Proof.Machine Sys2Proof.Claims

/-! ### Well-formedness: each check refuses a term -/

theorem test_wf_good : wellFormed .sadd { a := 1, b := 2, d := 3 } = true := by decide
/-- An event is no word. -/
theorem test_wf_event : wellFormed .crewEnd {} = false := by decide
/-- A base word has no IMM. -/
theorem test_wf_placed : wellFormed .sadd { imm := 1 } = false := by decide
/-- The form with a literal needs one, and the form without has none (R23). -/
theorem test_wf_literal : wellFormed .saddLit {} = false ∧ wellFormed .sadd { lit := some 0 } = false := by decide
/-- FENCE.EVICT is the form with MOD[0] = 1 (R194). -/
theorem test_wf_form : wellFormed .fenceEvict { mod := 0 } = false ∧ wellFormed .fence { mod := 1 } = false := by decide
/-- SADD has no X (R101). -/
theorem test_wf_reserved : wellFormed .sadd { x := 1 } = false := by decide
/-- VBFX has no B (R122). -/
theorem test_wf_reserved_ext : wellFormed .vbfx { t := 6, b := 1 } = false := by decide
/-- A group of no members (R118), and VRNG with a type other than N32 and F32 (R138). -/
theorem test_wf_values : wellFormed .grp { a := 0 } = false ∧ wellFormed .vrng { t := 7 } = false := by decide

/-! ### Decoding: a word for each family, from the layouts of R24, R25 and R43 -/

/-- What words decode to, without the fields. -/
def names (ws : List (BitVec 32)) : Option Instr := (readWord (storedWords ws)).map (·.1)

theorem test_decode_nop : names [0] = some .nop := by decide +kernel
theorem test_decode_pand : readWord (storedWords [0x0C204900]) = some (.pand, { b := 3, a := 2, d := 1 }) := by decide +kernel
theorem test_decode_brnz : readWord (storedWords [0x00100641, 0x10, 0]) = some (.brnzLit, { a := 1, lit := some 0x10 }) := by decide +kernel
theorem test_decode_vadd : readWord (storedWords [0x010C0C02, 0x00300002, 0]) = some (.vadd, { a := 1, d := 3, t := 6, b := 2 }) := by
  decide +kernel
theorem test_decode_vfma : readWord (storedWords [0x02043C22, 0x00500103, 0]) =
    some (.vfma, { a := 2, d := 1, t := 10, c := 4, b := 3 }) := by decide +kernel
theorem test_decode_vcmp : readWord (storedWords [0x01142C42, 0x00500002, 0]) =
    some (.vcmp, { a := 1, d := 5, cc := 2, t := 10, b := 2 }) := by decide +kernel
theorem test_decode_vcvt : names [0x01080C62, 0x00500000, 2] = some .vcvt := by decide +kernel
theorem test_decode_vex2 : names [0x01080C82, 0x00500000, 0] = some .vex2 := by decide +kernel
theorem test_decode_vshfl : names [0x010C0CA2, 0x00300002, 0] = some .vshfl := by decide +kernel
theorem test_decode_vrng : names [0x010C0CE2, 0x00300002, 0] = some .vrng := by decide +kernel
theorem test_decode_vld : names [0x010C0D02, 0x00300000, 0x02000000] = some .vld := by decide +kernel
theorem test_decode_satom : names [0x01001D22, 0x00300000, 0] = some .satom := by decide +kernel
theorem test_decode_waitc : names [0x00003D42, 0, 1] = some .waitc := by decide +kernel
theorem test_decode_strm : names [0x01000D62, 0, 3] = some .strm := by decide +kernel
theorem test_decode_gang : names [0x00002D82, 0x80000000, 0x00018820] = some .gang := by decide +kernel
theorem test_decode_mzero : names [0x00006DA2, 0, 0] = some .mzero := by decide +kernel
theorem test_decode_qdone : names [0x00002DC2, 0, 0] = some .qdone := by decide +kernel
theorem test_decode_agath : names [0x01001DE2, 0x00300000, 0] = some .agath := by decide +kernel
theorem test_decode_trace : names [0x05100E02, 0x00500048, 0] = some .trace := by decide +kernel
theorem test_decode_ldlod : names [0x02300E22, 0x205003C1, 0] = some .ldlod := by decide +kernel
theorem test_decode_henc : names [0x03380E42, 0x004803C8, 1] = some .henc := by decide +kernel
/-- OPC 0x7F is no instruction (R362). -/
theorem test_decode_reserved : names [0x00000FE0] = none := by decide +kernel

/-! ### Single steps -/

/-- R102: SDIV of -7 by 2 gives -3, and SREM gives -1. -/
theorem test_sdiv_srem :
    (after .sdiv (one { a := 1, b := 2, d := 3 } (withS [(1, -7), (2, 2)]))).curT.sreg 3 = -3 ∧
    (after .srem (one { a := 1, b := 2, d := 3 } (withS [(1, -7), (2, 2)]))).curT.sreg 3 = -1 := by decide +kernel
/-- R102: SDIV of -2^63 by -1 gives -2^63. -/
theorem test_sdiv_min : (after .sdiv (one { a := 1, b := 2, d := 3 } (withS [(1, 2 ^ 63), (2, -1)]))).curT.sreg 3 = 2 ^ 63 := by decide +kernel
/-- R103: SBFX with X = 1 on 0xF0 with pos 4 and width 4 gives -1. -/
theorem test_sbfx : (after .sbfx (one { a := 1, b := 2, d := 3, x := 1 } (withS [(1, 0xF0), (2, 0x404)]))).curT.sreg 3 = -1 := by decide +kernel
/-- R110: LOOP on 0 wraps to 2^64 - 1 and branches. -/
theorem test_loop_wraps : (after .loop (one { b := 2, d := 1 } (withS [(2, 0x40)]))).curT.sreg 1 = -1 ∧
    (after .loop (one { b := 2, d := 1 } (withS [(2, 0x40)]))).curT.pc = 0x140 := by decide +kernel
/-- R108: the fragment with mask 0xCC and p1 in lanes 0, 1, 4 and 5 gets 0 from PGET and 32 from PFIRST. -/
theorem test_pget_pfirst :
    (after .pget (one { a := 1, d := 5 } { fragment with mask := 0xCC } { p := [(1, 0x33)] })).curT.sreg 5 = 0 ∧
    (after .pfirst (one { a := 1, d := 5 } { fragment with mask := 0xCC } { p := [(1, 0x33)] })).curT.sreg 5 = 32 := by decide +kernel
/-- R138: with K = 2^32 and i = 0 the word is 0x91E1_9C46, and VRNG.F32 gives 0x3F11_E19C. -/
theorem test_vrng :
    (after .vrng (one { a := 1, d := 3, t := 6, lit := some 0x100000000 })).curW.vreg 3 0 = 0x91E19C4691E19C46 ∧
    (after .vrng (one { a := 1, d := 3, t := 10, lit := some 0x100000000 })).curW.vreg 3 31 = 0x3F11E19C3F11E19C := by decide +kernel
/-- R121: VADD.I8 wraps without SAT and saturates with it: 127 + 1. -/
theorem test_vadd_wraps :
    (after .vadd (one { a := 1, d := 3, t := 0, lit := some 1 } fragment { v := [(32, 127)] })).curW.vreg 3 0 = 128 ∧
    (after .vadd (one { a := 1, d := 3, t := 0, sat := true, lit := some 1 } fragment { v := [(32, 127)] })).curW.vreg 3 0 = 127 := by
  decide +kernel
/-- R104: SST writes its eight bytes lowest first, and SLD brings them back when its access completes. -/
theorem test_sst : (after .sst (mapped { a := 1, b := 2, d := 3 } (withC [(2, 8), (3, 0x0102030405060708)]))).num (keyOf 8 0x2008) 8 =
    0x0102030405060708 ∧
    (after .sst (mapped { a := 1, b := 2, d := 3 } (withC [(2, 8), (3, 0x0102030405060708)]))).byte (keyOf 8 0x2008) = 8 := by decide +kernel
/-- R359: TRAP with a handler in c15 goes to its OFF, with CAUSE and EPC behind the TRAP. -/
theorem test_trap :
    let s := one { b := 2 } { fragment with s := [(2, 7)], c := [(15, ⟨BitVec.ofNat 128 (0xFE * 2 ^ 120 + 0x400 * 2 ^ 2), true⟩)] }
    (after .trap s).curT.pc = 0x400 ∧ (after .trap s).curW.cause = 0x705 ∧ (after .trap s).curW.epc = 0x104 ∧ (after .trap s).curW.hm = true := by
  decide +kernel
/-- A step on the state that the host builds runs the instruction that it places: SMOV s5, 9. -/
theorem test_step_runs :
    (match step (State.withFetchWord State.reset 96 (0x00014061 + 9 * 2 ^ 32)) with
     | .next t => t.curT.sreg 5
     | _ => 0) = 9 := by decide +kernel
/-- R74: 1 + 2^-24 lies halfway, and rounds to the even code, 1; in the upper element 0 + 0 is 0. -/
theorem test_vfadd_ties : (elem 32 0 ((after .vfadd (one { a := 1, b := 2, d := 3, t := 10 } fragment
    { v := [(32, 0x3F800000), (64, 0x33800000)] })).curW.vreg 3 0)) = 0x3F800000 := by decide +kernel
/-- R363: a predicate above p31 traps REGBOUND with DETAIL the field, A. -/
theorem test_regbound : let t := after .pand (one { a := 32 } { fragment with c := [(15, ⟨BitVec.ofNat 128 (0xFE * 2 ^ 120), true⟩)] })
    t.curW.cause.toNat % 256 = 3 ∧ t.curW.cause.toNat / 256 = 1 := by decide +kernel

end Sys2Proof.Tests
end

/-! PROOFS. The signs of exact zeros (R67): the model's sum over a common grid is the rational sum, and a zero sum, a product and a rounded
zero have the signs that R67 gives them. -/

namespace Sys2Proof.Proofs

open Sys2Proof Sys2Proof.Machine Sys2Proof.Claims

/-! ### The value of a finite number and of a sum on a grid -/

@[simp] theorem rat_fin_zero (neg : Bool) (e : Int) : rat (.fin neg 0 e) = 0 := by simp [rat]

/-- A finite value is its integer on any grid that is not coarser than its own. -/
theorem rat_fin_eq_scaled_mul {e q : Int} (neg : Bool) (m : Nat) (h : q ≤ e) :
    rat (.fin neg m e) = (scaled neg m e q : ℚ) * 2 ^ q := by
  have hpow : (2 : ℚ) ^ e = 2 ^ (e - q).toNat * 2 ^ q := by
    rw [← zpow_natCast, Int.toNat_of_nonneg (sub_nonneg.mpr h), ← zpow_add₀ two_ne_zero, sub_add_cancel]
  cases neg <;> simp [rat, scaled, hpow, mul_assoc]

/-- `addV` adds on the finer of the operands' grids, where both are integers. -/
theorem rat_add_rat_eq_scaled (na nb : Bool) (ma mb : Nat) (ea eb : Int) :
    rat (.fin na ma ea) + rat (.fin nb mb eb) =
      ((scaled na ma ea (min ea eb) + scaled nb mb eb (min ea eb) : Int) : ℚ) * 2 ^ min ea eb := by
  rw [rat_fin_eq_scaled_mul na ma (min_le_left ea eb), rat_fin_eq_scaled_mul nb mb (min_le_right ea eb), Int.cast_add, add_mul]

theorem scaled_add_scaled_eq_zero_iff (na nb : Bool) (ma mb : Nat) (ea eb : Int) :
    scaled na ma ea (min ea eb) + scaled nb mb eb (min ea eb) = 0 ↔ rat (.fin na ma ea) + rat (.fin nb mb eb) = 0 := by
  rw [rat_add_rat_eq_scaled, mul_eq_zero_iff_right (zpow_ne_zero _ two_ne_zero), Int.cast_eq_zero]

/-! ### Zero sums, products and rounded zeros -/

/-- No finite operand is a NaN, so the operation's own result stands (R66). -/
@[simp] theorem firstNan_fin_fin (na nb : Bool) (ma mb : Nat) (ea eb : Int) (r : FVal) :
    firstNan [.fin na ma ea, .fin nb mb eb] r = r := rfl

/-- R67: an exact zero sum has the operands' common sign, or where they differ the sign that RM gives it. -/
theorem addF_of_rat_add_eq_zero {na nb : Bool} {ma mb : Nat} {ea eb : Int} (rm : Nat)
    (h : rat (.fin na ma ea) + rat (.fin nb mb eb) = 0) :
    zeroWith (if na = nb then na else rm == 2) (addF rm (.fin na ma ea) (.fin nb mb eb)) :=
  ⟨0, by simp only [addF, firstNan_fin_fin, addV, (scaled_add_scaled_eq_zero_iff ..).mpr h, if_true]⟩

theorem mulF_fin_fin (na nb : Bool) (ma mb : Nat) (ea eb : Int) :
    mulF (.fin na ma ea) (.fin nb mb eb) = .fin (na != nb) (ma * mb) (ea + eb) := rfl

/-- The sign bit of a floating type's layout is the topmost bit of its elements (R65, R68). -/
theorem fmtOf_sign_position {t : Nat} (h₁ : 8 ≤ t) (h₂ : t ≤ 13) : (fmtOf t).eb + (fmtOf t).fb = widthOf t - 1 := by
  interval_cases t <;> rfl

/-- A zero rounds to the code that has its sign bit alone. -/
theorem roundF_zero {t : Nat} (h₁ : 8 ≤ t) (h₂ : t ≤ 13) (rm : Nat) (sat neg : Bool) (e : Int) :
    roundF t rm sat (.fin neg 0 e) = if neg then 2 ^ (widthOf t - 1) else 0 := by
  simp only [roundF, fmtOf_sign_position h₁ h₂]

/-- Settles O28: the integers that the model adds sum to zero just where the values do, and then the sum takes R67's sign; products and
rounded zeros have theirs by their equations. -/
theorem signsOfZero : Obligations.SignsOfZero := by
  unfold Obligations.SignsOfZero
  intro na nb ma mb rm ea eb _
  refine ⟨fun hne hsum => ?opposite, fun heq ha hb => ?alike, ⟨_, _, mulF_fin_fin ..⟩,
    fun t sat neg e h₁ h₂ => roundF_zero h₁ h₂ rm sat neg e⟩
  case opposite => simpa only [if_neg hne] using addF_of_rat_add_eq_zero rm hsum
  case alike =>
    have hsum : rat (.fin na ma ea) + rat (.fin nb mb eb) = 0 := by simp [ha, hb]
    simpa only [if_pos heq] using addF_of_rat_add_eq_zero rm hsum

end Sys2Proof.Proofs

/-! PROOFS. Trap entry where nothing stands against it (R359): what the SYNC set before it and the completion of the wave's accesses leave, and
what the wave and the fragment hold after it. -/

namespace Sys2Proof.Proofs

open Sys2Proof Sys2Proof.Machine Sys2Proof.Claims

/-! ### Writes to the scratchpad and to the trace ring keep the crew's code object -/

@[simp] theorem scratchPut_codeObj (c : Crew) (a : Nat) (bs : List Byte) : (c.scratchPut a bs).codeObj = c.codeObj := by
  induction bs generalizing c a with
  | nil => rfl
  | cons b bs ih => exact ih ..

@[simp] theorem scratchWrite_codeObj (c : Crew) (a : Nat) (bs : List Byte) : (c.scratchWrite a bs).codeObj = c.codeObj :=
  scratchPut_codeObj ..

@[simp] theorem tracePut_codeObj (c : Crew) (t : Word) (bs : List Byte) : (tracePut c t bs).codeObj = c.codeObj := by
  unfold tracePut
  rw [scratchWrite_codeObj]
  exact List.foldlRecOn (motive := fun d : Crew => d.codeObj = c.codeObj) _ _ rfl fun d hd _ _ => by rwa [scratchWrite_codeObj]

@[simp] theorem tracePutAll_codeObj (tw : Nat) (pks : List (List Byte)) (c : Crew) (t : Word) :
    (tracePutAll tw pks c t).1.codeObj = c.codeObj := by
  induction pks generalizing c t with
  | nil => rfl
  | cons b pks ih =>
    unfold tracePutAll
    split
    · rw [ih, tracePut_codeObj]
    · exact tracePut_codeObj ..

/-! ### A SYNC set -/

/-- A SYNC set writes packets to the scratchpad of the crew and the trace state of the wave, and nothing else (R417). -/
theorem traceSyncSet_cases (s : State) (k : Nat) (pc : Word) : traceSyncSet s k pc = s ∨
    ∃ c w, traceSyncSet s k pc = (s.putCrew (crewOf (waveOf k)) c).putWave (waveOf k) w ∧
      c.codeObj = (s.crew (crewOf (waveOf k))).codeObj ∧ w.hm = (s.wave (waveOf k)).hm := by
  simp only [traceSyncSet]
  split
  · exact .inl rfl
  · exact .inr ⟨_, _, rfl, tracePutAll_codeObj .., rfl⟩

theorem traceSyncSet_eq (s : State) (k : Nat) (pc : Word) : traceSyncSet s k pc =
    { s with crews := (traceSyncSet s k pc).crews, waves := (traceSyncSet s k pc).waves } := by
  obtain h | ⟨c, w, h, -, -⟩ := traceSyncSet_cases s k pc
  · rw [h]
  · rw [h]; rfl

@[simp] theorem traceSyncSet_threads (s : State) (k : Nat) (pc : Word) : (traceSyncSet s k pc).threads = s.threads := by
  rw [traceSyncSet_eq]

@[simp] theorem traceSyncSet_accesses (s : State) (k : Nat) (pc : Word) : (traceSyncSet s k pc).accesses = s.accesses := by
  rw [traceSyncSet_eq]

@[simp] theorem traceSyncSet_clock (s : State) (k : Nat) (pc : Word) : (traceSyncSet s k pc).clock = s.clock := by
  rw [traceSyncSet_eq]

@[simp] theorem traceSyncSet_hm (s : State) (k : Nat) (pc : Word) (j : Nat) : ((traceSyncSet s k pc).wave j).hm = (s.wave j).hm := by
  obtain h | ⟨c, w, h, -, hhm⟩ := traceSyncSet_cases s k pc
  · rw [h]
  · rw [h, State.putWave_get]
    split
    · next hj => rw [hj, hhm]
    · rfl

@[simp] theorem traceSyncSet_codeObj (s : State) (k : Nat) (pc : Word) (j : Nat) :
    ((traceSyncSet s k pc).crew j).codeObj = (s.crew j).codeObj := by
  obtain h | ⟨c, w, h, hcode, -⟩ := traceSyncSet_cases s k pc
  · rw [h]
  · rw [h, State.putWave_crew, State.putCrew_get]
    split
    · next hj => rw [hj, hcode]
    · rfl

/-! ### The completion of accesses -/

/-- The completion of an access leaves alone: the clock, the crews, and whether a wave handles a trap. -/
structure CompletionKeeps (s t : State) : Prop where
  clock : t.clock = s.clock
  crews : t.crews = s.crews
  hm : ∀ w, (t.wave w).hm = (s.wave w).hm

theorem CompletionKeeps.refl (s : State) : CompletionKeeps s s := ⟨rfl, rfl, fun _ => rfl⟩

theorem CompletionKeeps.trans {s t u : State} (h : CompletionKeeps s t) (g : CompletionKeeps t u) : CompletionKeeps s u :=
  ⟨g.clock.trans h.clock, g.crews.trans h.crews, fun w => (g.hm w).trans (h.hm w)⟩

theorem completionKeeps_modWave (s : State) (k : Nat) (f : Wave → Wave) (hf : (f (s.wave k)).hm = (s.wave k).hm) :
    CompletionKeeps s (s.modWave k f) := by
  refine ⟨rfl, rfl, fun w => ?_⟩
  rw [State.modWave_get]
  split
  · next h => rw [h, hf]
  · rfl

theorem completionKeeps_applyWrite (wk : Nat) (s : State) (w : RegWrite) : CompletionKeeps s (applyWrite wk s w) := by
  cases w <;> simp only [applyWrite]
  case s | c => split <;> exact ⟨rfl, rfl, fun _ => rfl⟩
  case v => exact completionKeeps_modWave s wk _ rfl
  case p => exact completionKeeps_modWave s wk _ (by unfold Wave.setP; split <;> rfl)

theorem completionKeeps_completeAccess (s : State) (id : Nat) (a : Access) : CompletionKeeps s (completeAccess s id a) := by
  have hwrites : CompletionKeeps s (a.writes.foldl (applyWrite a.wave) s) :=
    List.foldlRecOn (motive := CompletionKeeps s) _ _ (.refl s) fun u hu w _ => hu.trans (completionKeeps_applyWrite a.wave u w)
  have herase (u : State) : CompletionKeeps u { u with accesses := terase u.accesses id } := ⟨rfl, rfl, fun _ => rfl⟩
  simp only [completeAccess]
  exact (hwrites.trans (herase _)).trans (completionKeeps_modWave _ _ _ rfl)

theorem completionKeeps_completeAccesses (s : State) (wk : Nat) : CompletionKeeps s (completeAccesses s wk) :=
  List.foldlRecOn (motive := CompletionKeeps s) _ _ (.refl s) fun u hu e _ => by
    split
    · exact hu.trans (completionKeeps_completeAccess u e.1 e.2)
    · exact hu

theorem applyWrite_threads_congr {s u : State} (h : s.threads = u.threads) (wk : Nat) (w : RegWrite) :
    (applyWrite wk s w).threads = (applyWrite wk u w).threads := by
  cases w <;> simp only [applyWrite, h]
  case s | c => split <;> simp [State.thread, h]
  case v | p => exact h

/-- What the completed accesses leave in the threads depends on the threads and the accesses alone. -/
theorem completeAccesses_threads_congr {s u : State} (ht : s.threads = u.threads) (ha : s.accesses = u.accesses) (wk : Nat) :
    (completeAccesses s wk).threads = (completeAccesses u wk).threads := by
  unfold completeAccesses
  rw [ha]
  refine List.foldl_rel (r := fun x y : State => x.threads = y.threads) ht fun e _ x y hxy => ?_
  split
  · exact List.foldl_rel (r := fun x y : State => x.threads = y.threads) hxy fun w _ _ _ h => applyWrite_threads_congr h e.2.wave w
  · exact hxy

/-! ### The state that trap entry finds -/

@[simp] theorem settled_clock (s : State) (k : Nat) : (settled s k).clock = s.clock :=
  (completionKeeps_completeAccesses ..).clock.trans (traceSyncSet_clock ..)

@[simp] theorem settled_hm (s : State) (k w : Nat) : ((settled s k).wave w).hm = (s.wave w).hm :=
  ((completionKeeps_completeAccesses ..).hm w).trans (traceSyncSet_hm ..)

@[simp] theorem settled_codeObj (s : State) (k c : Nat) : ((settled s k).crew c).codeObj = (s.crew c).codeObj := by
  have hcrews : (settled s k).crews = _ := (completionKeeps_completeAccesses ..).crews
  rw [State.crew, hcrews]
  exact traceSyncSet_codeObj ..

theorem settled_thread_congr {s u : State} (ht : s.threads = u.threads) (ha : s.accesses = u.accesses) (k j : Nat) :
    (settled s k).thread j = (settled u k).thread j := by
  have hthreads : (settled s k).threads = (settled u k).threads :=
    completeAccesses_threads_congr (by simpa using ht) (by simpa using ha) _
  rw [State.thread, hthreads]; rfl

/-- Of its crew, the check of a handler looks at the code object alone (R359). -/
theorem handlerOk_congr {c d : Crew} (h : c.codeObj = d.codeObj) (x : Cap) : handlerOk c x = handlerOk d x := by
  unfold handlerOk; rw [h]

/-! ### A trap whose fragment waits for a debit -/

/-- Leaving the kitty's queue changes nothing but that queue. -/
theorem leaveKitty_cases (s : State) (k : Nat) : leaveKitty s k = s ∨
    leaveKitty s k = s.modCrew (crewOf (waveOf k)) fun c => { c with kittyQueue := lerase k c.kittyQueue } := by
  simp only [leaveKitty]
  split
  · exact .inr rfl
  · exact .inl rfl

theorem leaveKitty_eq (s : State) (k : Nat) : leaveKitty s k = { s with crews := (leaveKitty s k).crews } := by
  obtain h | h := leaveKitty_cases s k
  · rw [h]
  · rw [h]; rfl

@[simp] theorem leaveKitty_threads (s : State) (k : Nat) : (leaveKitty s k).threads = s.threads := by
  rw [leaveKitty_eq]

@[simp] theorem leaveKitty_waves (s : State) (k : Nat) : (leaveKitty s k).waves = s.waves := by
  rw [leaveKitty_eq]

@[simp] theorem leaveKitty_accesses (s : State) (k : Nat) : (leaveKitty s k).accesses = s.accesses := by
  rw [leaveKitty_eq]

@[simp] theorem leaveKitty_dies (s : State) (k : Nat) : (leaveKitty s k).dies = s.dies := by
  rw [leaveKitty_eq]

@[simp] theorem leaveKitty_clock (s : State) (k : Nat) : (leaveKitty s k).clock = s.clock := by
  rw [leaveKitty_eq]

theorem leaveKitty_crew (s : State) (k c : Nat) :
    (leaveKitty s k).crew c = { s.crew c with kittyQueue := ((leaveKitty s k).crew c).kittyQueue } := by
  obtain h | h := leaveKitty_cases s k
  · rw [h]
  · rw [h, State.modCrew_get]
    split
    · next hc => rw [hc]
    · rfl

theorem leaveKitty_openOf (s : State) (k : Nat) : (leaveKitty s k).openOf k = s.openOf k := by
  simp only [State.openOf, State.thread, leaveKitty_threads, leaveKitty_accesses]

theorem leaveKitty_commandsOutstanding (s : State) (k wk : Nat) :
    commandsOutstanding (leaveKitty s k) wk = commandsOutstanding s wk := by
  simp only [commandsOutstanding, leaveKitty_accesses, leaveKitty_dies]
  rw [leaveKitty_crew]

theorem leaveKitty_settled_thread (s : State) (k j : Nat) : (settled (leaveKitty s k) k).thread j = (settled s k).thread j :=
  settled_thread_congr (leaveKitty_threads s k) (leaveKitty_accesses s k) k j

theorem leaveKitty_canTrap {s : State} {k : Nat} (h : canTrap s k) : canTrap (leaveKitty s k) k := by
  obtain ⟨hseq, hopen, hcmd, hhm, hok⟩ := h
  refine ⟨hseq, (leaveKitty_openOf s k).trans hopen, (leaveKitty_commandsOutstanding ..).trans hcmd, ?_, ?_⟩
  · rwa [State.wave, leaveKitty_waves]
  · rw [leaveKitty_settled_thread, ← hok]
    refine handlerOk_congr ?_ _
    rw [settled_codeObj, settled_codeObj, leaveKitty_crew]

/-! ### Trap entry -/

/-- `CAUSE`: the code in the low byte, DETAIL above it (R357). -/
theorem word_trapCause (code detail : Nat) : word (detail % 256 * 256 + code) = BitVec.ofNat 64 (code + 256 * (detail % 256)) := by
  rw [word, Nat.mul_comm, Nat.add_comm]

/-- A handler's address is the OFF of its capability. -/
theorem setWidth_off (x : Cap) : (x.raw.extractLsb' 2 44).setWidth 64 = BitVec.ofNat 64 x.off := by
  rw [← BitVec.ofNat_toNat, BitVec.extractLsb'_toNat, Nat.shiftRight_eq_div_pow]; rfl

/-- R359: a fragment that can enter a trap at once stands in its handler afterwards, and its wave tells what it trapped for. -/
theorem enterTrap_taken {s : State} {k : Nat} (h : canTrap s k) (code detail : Nat) (faddr : Word) (fmask : LaneMask) (epc : Word) :
    TrapTaken s (enterTrap s k code detail faddr fmask epc) k code detail faddr fmask epc := by
  obtain ⟨-, -, -, hhm, hok⟩ := h
  have hsettled : completeAccesses (traceSyncSet s k (s.thread k).pc) (waveOf k) = settled s k := rfl
  -- No trap is being handled and c15 is a handler: the fragment enters it, and no launch is killed.
  simp only [enterTrap, hsettled, settled_hm, hhm, State.putWave_crew, hok, Bool.not_true, Bool.or_self, Bool.false_eq_true, if_false]
  simp only [TrapTaken, State.putThread_wave, State.modWave_get, State.putWave_get, State.putThread_get, if_true, State.modWave_clock,
    State.putWave_clock, settled_clock, word_trapCause, setWidth_off, upTo, and_self]

/-- The state that trap entry finds is the same with and without the fragment's place in the kitty's queue. -/
theorem trapTaken_leaveKitty_iff (s t : State) (k code detail : Nat) (faddr : Word) (fmask : LaneMask) (epc : Word) :
    TrapTaken (leaveKitty s k) t k code detail faddr fmask epc ↔ TrapTaken s t k code detail faddr fmask epc := by
  simp only [TrapTaken, leaveKitty_settled_thread, leaveKitty_clock]

theorem takeTrapOf_of_canTrap {s : State} {k : Nat} (h : canTrap s k) (code detail : Nat) (faddr : Word) (fmask : LaneMask) :
    takeTrapOf s k code detail faddr fmask false = enterTrap (leaveKitty s k) k code detail faddr fmask (s.thread k).pc := by
  obtain ⟨hseq, hopen, hcmd, -, -⟩ := leaveKitty_canTrap h
  simp only [takeTrapOf, State.loseOpen, hopen, hseq, hcmd, Bool.false_eq_true, if_false]

/-- R359: a trap of the current instruction is entered at once where nothing stands against it, with `EPC` at the instruction. -/
theorem trapWith_taken {s : State} (h : canTrap s s.cur) (code detail : Nat) (faddr : Word) (fmask : LaneMask) :
    ∃ t, trapWith s code detail faddr fmask = .next t ∧ TrapTaken s t s.cur code detail faddr fmask s.curT.pc := by
  refine ⟨_, congrArg Host.Outcome.next (takeTrapOf_of_canTrap h code detail faddr fmask), ?_⟩
  exact (trapTaken_leaveKitty_iff ..).mp (enterTrap_taken (leaveKitty_canTrap h) ..)

end Sys2Proof.Proofs

/-! PROOFS. Divisions and remainders (R102): the model's word operations are the integers' truncated quotient and remainder, and a zero
divisor is checked before anything is written. -/

namespace Sys2Proof.Proofs

open Sys2Proof Sys2Proof.Machine Sys2Proof.Claims

/-! ### The shape of a scalar operation -/

/-- Behind checks at issue that find nothing, an instruction is its own meaning. -/
theorem guarded_of_admits {s : State} {i : Instr} (h : admits s i = true) (body : State → Out) : guarded i s body = body s := by
  obtain ⟨hthread, hentry⟩ := Bool.and_eq_true_iff.mp h
  simp [guarded, hthread, Option.isNone_iff_eq_none.mp hentry]

/-- R32, R101: an instruction that writes one scalar register and completes changes nothing else. -/
theorem finish_writeS (s : State) (lt r : Nat) (v : Word) :
    (finish (writeS s lt r v)).curT.sreg r = inS r v ∧ Frame { s := [r] } s (finish (writeS s lt r v)) ∧
      Completes s (finish (writeS s lt r v)) := by
  obtain ⟨hframe, hreg, hrep, hpc, -⟩ := writeS_spec s lt r v
  obtain ⟨gframe, gcompletes, gsreg, -, -, -⟩ := finish_spec (writeS s lt r v) { s := [r] }
  have hlen : (writeS s lt r v).len = s.len := by rw [hframe.1]
  refine ⟨(gsreg r).trans hreg, hframe.trans gframe (by rw [hrep]), fun h => ?_⟩
  rw [gcompletes (hrep.trans h), hpc, hlen]

/-! ### Quotients and remainders as integers -/

/-- The quotient truncates toward zero; that of -2^63 by -1 wraps (R102). -/
theorem sdiv_eq_ofInt_tdiv (a b : Word) : a.sdiv b = BitVec.ofInt 64 (a.toInt.tdiv b.toInt) :=
  BitVec.eq_of_toInt_eq (by rw [BitVec.toInt_sdiv, BitVec.toInt_ofInt])

/-- The remainder has the sign of the dividend (R102). -/
theorem srem_eq_ofInt_tmod (a b : Word) : a.srem b = BitVec.ofInt 64 (a.toInt.tmod b.toInt) := by
  rw [← BitVec.toInt_srem, BitVec.ofInt_toInt]

/-- Each division is `scalarDiv` at an opcode whose operation is that of R102. -/
theorem exec_eq_scalarDiv {i : Instr} {f : Word → Word → Word} (h : divisionSpec i = some f) :
    ∃ opc, (∀ s, exec i s = scalarDiv i opc s) ∧ ∀ x a b d, scalarAlu opc x a b d = f a b := by
  unfold divisionSpec at h
  split at h <;> cases h
  case h_1 | h_2 => exact ⟨0x09, fun _ => rfl, fun _ a b _ => sdiv_eq_ofInt_tdiv a b⟩
  case h_3 | h_4 => exact ⟨0x0A, fun _ => rfl, fun _ _ _ _ => BitVec.udiv_def⟩
  case h_5 | h_6 => exact ⟨0x0B, fun _ => rfl, fun _ a b _ => srem_eq_ofInt_tmod a b⟩
  case h_7 | h_8 => exact ⟨0x0C, fun _ => rfl, fun _ _ _ _ => BitVec.umod_def⟩

theorem scalarDivision : Claims.ScalarDivision := by
  intro i f hf s hadmits hdivisor
  obtain ⟨opc, hexec, halu⟩ := exec_eq_scalarDiv hf
  refine ⟨_, ?_, finish_writeS s ((latencyOf i s.ir).getD 0) _ _⟩
  rw [hexec, scalarDiv, guarded_of_admits hadmits, if_neg hdivisor, halu]

theorem divisionByZeroTraps : Claims.DivisionByZeroTraps := by
  intro i f hf s hadmits hdivisor
  obtain ⟨opc, hexec, -⟩ := exec_eq_scalarDiv hf
  have htrap : exec i s = trap s 0x31 0 := by rw [hexec, scalarDiv, guarded_of_admits hadmits, if_pos hdivisor]
  refine ⟨htrap, fun hcan => ?_⟩
  rw [htrap]
  exact trapWith_taken hcan 0x31 0 0 0

/-- Settles O7: a division is one operation of the scalar unit behind a check of its divisor; the operation is R102's, and the trap is
entered as R359 says. -/
theorem divisions : Obligations.Divisions := by
  unfold Obligations.Divisions
  exact ⟨scalarDivision, divisionByZeroTraps⟩

end Sys2Proof.Proofs

/-! PROOFS. The element loop of R120, element by element, and what decoding a word says of its fields (R362). -/

namespace Sys2Proof.Proofs

open Sys2Proof Sys2Proof.Machine Sys2Proof.Claims

/-! ### Which elements the loop writes -/

theorem mem_lanesOf {m : LaneMask} {L : Nat} (hL : L < 32) : L ∈ lanesOf m ↔ m.getLsbD L = true := by
  simp [lanesOf, upTo, hL]

/-- An element is selected where its lane runs and its own predicate, or the lane's, picks it (R29). -/
theorem selected_eq_lanes_and_picks (s : State) (L : Nat) {w k : Nat} (hk : k < 64 / w) :
    selected s L k = (s.lanes.getLsbD L && picks s.ir (readPreds s w) k L) := by
  unfold selected picks readPreds
  cases hsub : s.ir.subp <;> simp [upTo, hk]

/-- A lane that the loop passes over has no selected element. -/
theorem selected_eq_false_of_not_active {s : State} {w L k : Nat} (hL : L < 32) (hk : k < 64 / w) (h : L ∉ activeLanes s w) :
    selected s L k = false := by
  rw [selected_eq_lanes_and_picks s L hk, Bool.and_eq_false_iff]
  by_contra! hsel
  refine h (List.mem_filter.mpr ⟨(mem_lanesOf hL).mpr (by simpa using hsel.1), ?_⟩)
  exact List.any_eq_true.mpr ⟨k, List.mem_range.mpr hk, by simpa using hsel.2⟩

/-- A lane that the loop visits runs the instruction, so that an element is selected where its predicate picks it. -/
theorem selected_eq_picks_of_active {s : State} {w L k : Nat} (hk : k < 64 / w) (h : L ∈ activeLanes s w) :
    selected s L k = picks s.ir (readPreds s w) k L := by
  obtain ⟨hlane, -⟩ := List.mem_filter.mp h
  obtain ⟨-, hlane⟩ := List.mem_filter.mp hlane
  rw [selected_eq_lanes_and_picks s L hk, hlane, Bool.true_and]

/-! ### What an element-by-element instruction does -/

theorem widthOf_pos {t : Nat} (h : t < 14) : 0 < widthOf t := by interval_cases t <;> decide

/-- R120: the loop writes each selected element of v[D] and no other. -/
theorem elem_elementwise (s : State) (lt : Nat) (f : Nat → Nat → Nat) (ht : s.ir.t.toNat < 14) {L k : Nat} (hL : L < 32)
    (hk : k < 64 / widthOf s.ir.t.toNat) :
    elem (widthOf s.ir.t.toNat) k ((elementwise s lt f).curW.vreg s.ir.d.toNat L) =
      if selected s L k then f L k % 2 ^ widthOf s.ir.t.toNat else elem (widthOf s.ir.t.toNat) k (s.curW.vreg s.ir.d.toNat L) := by
  obtain ⟨-, hv, -⟩ := writeLanes_spec s lt (widthOf s.ir.t.toNat) fun L => ofElems (widthOf s.ir.t.toNat) (f L)
  rw [elementwise, hv L hL]
  by_cases hactive : L ∈ activeLanes s (widthOf s.ir.t.toNat)
  · rw [if_pos hactive, elem_merge _ _ _ _ _ _ _ (widthOf_pos ht) hk, selected_eq_picks_of_active hk hactive]
  · rw [if_neg hactive, selected_eq_false_of_not_active hL hk hactive, if_neg Bool.false_ne_true]

/-- R120: behind its checks an element-by-element instruction writes the selected elements of v[D], completes, and changes nothing else. -/
theorem vectorOp_of_admits {s : State} {i : Instr} (h : admits s i = true) (ht : s.ir.t.toNat < 14) (f : State → Nat → Nat → Nat) :
    ∃ t, vectorOp i s f = .next t ∧ Frame { v := [s.ir.d.toNat] } s t ∧ Completes s t ∧
      ∀ L k, L < 32 → k < 64 / widthOf s.ir.t.toNat → elem (widthOf s.ir.t.toNat) k (t.curW.vreg s.ir.d.toNat L) =
        if selected s L k then f s L k % 2 ^ widthOf s.ir.t.toNat
        else elem (widthOf s.ir.t.toNat) k (s.curW.vreg s.ir.d.toNat L) := by
  obtain ⟨hframe, -, -, hthread, -⟩ := writeLanes_spec s (lat i s) (widthOf s.ir.t.toNat) fun L => ofElems (widthOf s.ir.t.toNat) (f s L)
  have helem (L k : Nat) := elem_elementwise s (lat i s) (f s) ht (L := L) (k := k)
  change Frame _ s (elementwise s (lat i s) (f s)) at hframe
  change (elementwise s (lat i s) (f s)).curT = s.curT at hthread
  generalize hu : elementwise s (lat i s) (f s) = u at hframe hthread helem
  have hlen : u.len = s.len := by rw [hframe.1]
  obtain ⟨gframe, gcompletes, -, -, gv, -⟩ := finish_spec u { v := [s.ir.d.toNat] }
  refine ⟨finish u, (guarded_of_admits h _).trans (by rw [hu]), hframe.trans gframe (by rw [hthread]), fun hrep => ?_,
    fun L k hL hk => ?_⟩
  · rw [gcompletes (by rw [hthread, hrep]), hthread, hlen]
  · rw [Wave.vreg, gv]
    exact helem L k hL hk

/-- The same bit by bit: cutting the result to the element's width loses no bit of the element. -/
theorem vectorOp_testBit_of_admits {s : State} {i : Instr} (h : admits s i = true) (ht : s.ir.t.toNat < 14) (f : State → Nat → Nat → Nat) :
    ∃ t, vectorOp i s f = .next t ∧ Frame { v := [s.ir.d.toNat] } s t ∧ Completes s t ∧
      ∀ L k j, L < 32 → k < 64 / widthOf s.ir.t.toNat → j < widthOf s.ir.t.toNat →
        (elem (widthOf s.ir.t.toNat) k (t.curW.vreg s.ir.d.toNat L)).testBit j =
          if selected s L k then (f s L k).testBit j else (elem (widthOf s.ir.t.toNat) k (s.curW.vreg s.ir.d.toNat L)).testBit j := by
  obtain ⟨t, hnext, hframe, hcompletes, helem⟩ := vectorOp_of_admits h ht f
  refine ⟨t, hnext, hframe, hcompletes, fun L k j hL hk hj => ?_⟩
  rw [helem L k hL hk]
  split
  · rw [Nat.testBit_mod_two_pow, decide_eq_true hj, Bool.true_and]
  · rfl

/-! ### What decoding says of the fields -/

theorem checks_of_checkWord {i j : Instr} {x y : Fields} (h : checkWord i x = .ok (j, y)) :
    literalOk j y = true ∧ reservedOk j y = true ∧ valuesOk j y = true := by
  unfold checkWord at h
  split at h
  · cases h
  · next hliteral =>
    split at h
    · cases h
    · next hreserved =>
      split at h
      · cases h
      · next hvalues =>
        cases h
        exact ⟨by simpa using hliteral, by simpa using hreserved, by simpa using hvalues⟩

theorem checks_of_decodeWords {w0 w1 w2 w3 w4 : BitVec 32} {i : Instr} {x : Fields} (h : decodeWords w0 w1 w2 w3 w4 = .ok (i, x)) :
    literalOk i x = true ∧ reservedOk i x = true ∧ valuesOk i x = true := by
  simp only [decodeWords] at h
  split at h
  all_goals
    split at h
    case h_1 => exact checks_of_checkWord h
    case h_2 => cases h

/-- R362: a word that decodes has passed the checks of its literal, its reserved fields and its values. -/
theorem checks_of_decode {bs rest : List Byte} {i : Instr} {x : Fields} (h : decode bs = .ok ((i, x), rest)) :
    literalOk i x = true ∧ reservedOk i x = true ∧ valuesOk i x = true := by
  simp only [decode] at h
  split at h
  · cases h
  · split at h
    · next hwords => cases h; exact checks_of_decodeWords hwords
    · cases h

/-- The fields of an extended form that it does not use, of those that many forms use, are zero (R26). -/
structure UnusedZero (u : ExtUse) (x : Fields) : Prop where
  b : u.b = false → x.b = 0
  c : u.c = false → x.c = 0
  na : u.na = false → x.na = false
  nb : u.nb = false → x.nb = false
  sat : u.sat = false → x.sat = false
  rm : u.rm = false → x.rm = 0

theorem unusedZero_of_extReservedOk {opc fn : Nat} {x : Fields} {u : ExtUse} (h : extReservedOk opc fn x = true)
    (hu : extUse opc fn x = some u) : UnusedZero u x := by
  simp only [extReservedOk, hu, Bool.and_eq_true, Bool.or_eq_true, Bool.not_eq_true', beq_iff_eq] at h
  obtain ⟨⟨⟨⟨⟨⟨⟨⟨⟨⟨⟨⟨⟨⟨hb, -⟩, hc⟩, -⟩, -⟩, hna⟩, hnb⟩, hsat⟩, hrm⟩, -⟩, -⟩, -⟩, -⟩, -⟩, -⟩ := h
  exact ⟨fun hu => by simpa [hu] using hb, fun hu => by simpa [hu] using hc, fun hu => by simpa [hu] using hna,
    fun hu => by simpa [hu] using hnb, fun hu => by simpa [hu] using hsat, fun hu => by simpa [hu] using hrm⟩

end Sys2Proof.Proofs

/-! PROOFS. Bit fields of vector elements (R122). -/

namespace Sys2Proof.Proofs

open Sys2Proof Sys2Proof.Machine Sys2Proof.Claims

/-! ### Fields of a number, bit by bit -/

theorem bits_testBit (x pos n j : Nat) : (bits x pos n).testBit j = (decide (j < n) && x.testBit (pos + j)) := by
  rw [bits, Nat.testBit_mod_two_pow, Nat.testBit_div_two_pow, Nat.add_comm]

/-- The model's signed reading is that of a word of the same width. -/
theorem signed_eq_toInt (w x : Nat) : signed w x = (BitVec.ofNat w x).toInt := by
  cases w with
  | zero => simp [signed, BitVec.toInt_zero_length]
  | succ n =>
    simp only [signed, BitVec.toInt, BitVec.toNat_ofNat, Nat.add_sub_cancel, Nat.pow_succ, Nat.succ_ne_zero, if_false]
    split_ifs <;> omega

theorem wrap_eq_toNat_ofInt (w : Nat) (x : Int) : wrap w x = (BitVec.ofInt w x).toNat := (BitVec.toNat_ofInt x).symm

/-- Sign extension repeats the topmost bit of the field. -/
theorem wrap_signed_testBit {w n j : Nat} (hn : 0 < n) (hj : j < w) (x : Nat) :
    (wrap w (signed n x)).testBit j = x.testBit (if j < n then j else n - 1) := by
  rw [signed_eq_toInt, wrap_eq_toNat_ofInt, ← BitVec.signExtend, BitVec.testBit_toNat, BitVec.getLsbD_signExtend]
  split_ifs with h
  · simp [-BitVec.getLsbD_eq_getElem, hj, h, BitVec.getLsbD_ofNat]
  · simp [-BitVec.getLsbD_eq_getElem, hj, hn, BitVec.msb_eq_getLsbD_last, BitVec.getLsbD_ofNat]

/-! ### The two operations -/

/-- The requested position and width as R122 cuts them out of IMM. -/
theorem vecField_eq (s : State) : vecField s =
    (s.ir.imm.toNat % 64, min (s.ir.imm.toNat / 256 % 128) (widthOf s.ir.t.toNat - s.ir.imm.toNat % 64)) := by
  simp [vecField, bits, tw]

/-- R122: the field of VBFX, extended to `w` bits with its topmost bit for an I type and with zeros for another. -/
theorem extracted_testBit {w wf j : Nat} (hj : j < w) (I : Bool) (a pos : Nat) :
    (if wf = 0 then 0 else if I then wrap w (signed wf (bits a pos wf)) else bits a pos wf).testBit j =
      (decide (wf ≠ 0) && if j < wf then a.testBit (pos + j) else I && a.testBit (pos + wf - 1)) := by
  by_cases hwf : wf = 0
  · simp [hwf]
  · have hpos : 0 < wf := Nat.pos_of_ne_zero hwf
    cases I
    case false => by_cases hjw : j < wf <;> simp [hwf, hjw, bits_testBit]
    case true =>
      rw [if_neg hwf, if_pos rfl, wrap_signed_testBit hpos hj, bits_testBit]
      by_cases hjw : j < wf
      · simp [hwf, hjw]
      · simp [hwf, hjw, hpos, Nat.add_sub_assoc (show 1 ≤ wf from hpos)]

/-- R122: VBFI replaces the bits of the field and keeps the others. -/
theorem inserted_testBit (d a pos wf j : Nat) :
    (d - bits d pos wf * 2 ^ pos + bits a 0 wf * 2 ^ pos).testBit j =
      if pos ≤ j ∧ j < pos + wf then a.testBit (j - pos) else d.testBit j := by
  have hlow : bits a 0 wf = a % 2 ^ wf := by rw [bits, pow_zero, Nat.div_one]
  rw [hlow, replaced_testBit]

/-- R122: the integer form of VBFX and VBFI uses neither B nor C, so that a word that sets one does not decode. -/
theorem bitField_unused {i : Instr} {x : Fields} (hi : i = .vbfx ∨ i = .vbfi) (h : reservedOk i x = true) : x.b = 0 ∧ x.c = 0 := by
  have hzero : UnusedZero { Sys2Proof.vecA with imm := 0x7F3F } x := by
    obtain rfl | rfl := hi
    · exact unusedZero_of_extReservedOk (opc := 0x60) (fn := 19) h rfl
    · exact unusedZero_of_extReservedOk (opc := 0x60) (fn := 20) h rfl
  exact ⟨hzero.b rfl, hzero.c rfl⟩

/-- The result of VBFX for an element. -/
theorem execVbfx_eq (s : State) : exec .vbfx s = vectorOp .vbfx s fun s L k =>
    if (vecField s).2 = 0 then 0 else if isSignedType (ty s) then
      wrap (tw s) (signed (vecField s).2 (bits (elemA s L k) (vecField s).1 (vecField s).2))
    else bits (elemA s L k) (vecField s).1 (vecField s).2 := rfl

/-- The result of VBFI for an element. -/
theorem execVbfi_eq (s : State) : exec .vbfi s = vectorOp .vbfi s fun s L k =>
    elem (tw s) k (readV s (tw s) s.ir.d.toNat L)
      - bits (elem (tw s) k (readV s (tw s) s.ir.d.toNat L)) (vecField s).1 (vecField s).2 * 2 ^ (vecField s).1
      + bits (elemA s L k) 0 (vecField s).2 * 2 ^ (vecField s).1 := rfl

/-- Settles O26: the element loop writes, modulo the element width, an extended field of A or D's element with a field replaced, and both are
known bit by bit. -/
theorem bitFields : Obligations.BitFields := by
  unfold Obligations.BitFields
  refine ⟨fun bs rest i x hi hdecode => ?unused, fun i s hi hadmits ht => ?result⟩
  case unused =>
    obtain ⟨-, hreserved, -⟩ := checks_of_decode hdecode
    exact bitField_unused hi hreserved
  case result =>
    intro w pos wf
    have hfield : vecField s = (pos, wf) := vecField_eq s
    obtain rfl | rfl := hi
    · obtain ⟨t, hnext, hframe, hcompletes, helem⟩ := vectorOp_testBit_of_admits hadmits (by omega) _
      refine ⟨t, (execVbfx_eq s).trans hnext, hframe, hcompletes, fun L k j hL hk hj => ?_⟩
      rw [helem L k j hL hk hj, if_pos rfl, hfield]
      exact congrArg (ite _ · _) (extracted_testBit hj ..)
    · obtain ⟨t, hnext, hframe, hcompletes, helem⟩ := vectorOp_testBit_of_admits hadmits (by omega) _
      refine ⟨t, (execVbfi_eq s).trans hnext, hframe, hcompletes, fun L k j hL hk hj => ?_⟩
      rw [helem L k j hL hk hj, if_neg (show Instr.vbfi ≠ .vbfx by decide), hfield]
      exact congrArg (ite _ · _) (inserted_testBit ..)

end Sys2Proof.Proofs

/-! PROOFS. The random numbers of VRNG (R138): the model's arithmetic modulo 2^32 is that of 32-bit words, and a number below 2^24 is exact in
F32. -/

namespace Sys2Proof.Proofs

open Sys2Proof Sys2Proof.Machine Sys2Proof.Claims

/-! ### The generator -/

/-- Each half of the generator (R138): a multiplication modulo 2^32, and the product's upper bits folded into its lower ones. -/
def scramble (c n x : Nat) : Nat := x * c % 2 ^ 32 ^^^ x * c % 2 ^ 32 / 2 ^ n

theorem scramble_toNat (c x : BitVec 32) (n : Nat) : scramble c.toNat n x.toNat = (x * c ^^^ (x * c) >>> n).toNat := by
  rw [scramble, BitVec.toNat_xor, BitVec.toNat_ushiftRight, BitVec.toNat_mul, Nat.shiftRight_eq_div_pow]

/-- The generator: the first half on the counter and the layer, the second on that and the seed. -/
theorem drawBits_eq_scramble (key i : Nat) : drawBits key i =
    scramble (0x91E10DA7#32).toNat 16 ((scramble (0x3A8F05C5#32).toNat 15 (i ^^^ key % 2 ^ 32) + key / 2 ^ 32) % 2 ^ 32) := rfl

/-- R138: the numbers of `drawBits` are the words of the generator. -/
theorem drawBits_eq_randomWord (key : Word) (i : BitVec 32) : drawBits key.toNat i.toNat = (randomWord i key).toNat := by
  have hlayer : i.toNat ^^^ key.toNat % 2 ^ 32 = (i ^^^ key.extractLsb' 0 32).toNat := by
    rw [BitVec.toNat_xor, BitVec.extractLsb'_toNat, Nat.shiftRight_zero]
  have hseed (x : BitVec 32) : (x.toNat + key.toNat / 2 ^ 32) % 2 ^ 32 = (x + key.extractLsb' 32 32).toNat := by
    rw [BitVec.toNat_add, BitVec.extractLsb'_toNat, Nat.shiftRight_eq_div_pow, Nat.add_mod_mod]
  rw [drawBits_eq_scramble, hlayer, scramble_toNat, hseed, scramble_toNat, randomWord]

theorem drawBits_elem (key v : Word) (k : Nat) :
    drawBits key.toNat (elem 32 k v) = (randomWord (BitVec.ofNat 32 (elem 32 k v)) key).toNat := by
  rw [← drawBits_eq_randomWord, BitVec.toNat_ofNat, Nat.mod_eq_of_lt (elem_lt 32 k v)]

/-! ### Exact numbers in F32 -/

/-- The code of a positive normal number of F32, by its exponent field and its fraction field (R65). -/
theorem decodeF_f32_normal {e f : Nat} (hpos : 0 < e) (he : e < 255) (hf : f < 2 ^ 23) :
    decodeF 10 (e * 2 ^ 23 + f) = .fin false (2 ^ 23 + f) (e - 150) := by
  have hneg : bitAt (e * 2 ^ 23 + f) (8 + 23) = false := by simp only [bitAt, beq_eq_false_iff_ne]; omega
  have hexp : bits (e * 2 ^ 23 + f) 23 8 = e := by simp only [bits]; omega
  have hfrac : bits (e * 2 ^ 23 + f) 0 23 = f := by simp only [bits]; omega
  simp only [decodeF, fmtOf, Fmt.bias, hneg, hexp, hfrac]
  rw [if_neg (by omega), if_neg (by omega), if_neg (by omega)]
  congr 1; omega

/-- The significand of a number below 2^24, moved up until its topmost bit is bit 23. -/
theorem normalized_bounds {m : Nat} (hpos : m ≠ 0) (hm : m < 2 ^ 24) :
    2 ^ 23 ≤ m * 2 ^ (23 - m.log2) ∧ m * 2 ^ (23 - m.log2) < 2 ^ 24 := by
  have hlog : m.log2 < 24 := (Nat.log2_lt hpos).mpr hm
  have hlow : 2 ^ m.log2 * 2 ^ (23 - m.log2) = 2 ^ 23 := by rw [← pow_add]; congr 1; omega
  have hhigh : 2 ^ (m.log2 + 1) * 2 ^ (23 - m.log2) = 2 ^ 24 := by rw [← pow_add]; congr 1; omega
  rw [← hlow, ← hhigh]
  exact ⟨Nat.mul_le_mul_right _ (Nat.log2_self_le hpos), Nat.mul_lt_mul_of_pos_right Nat.lt_log2_self (by positivity)⟩

/-- A number with at most 24 significant bits in the range of F32's normal numbers rounds to the code that holds these bits (R74). -/
theorem roundF_f32_exact {m : Nat} {e : Int} (rm : Nat) (sat : Bool) (hpos : m ≠ 0) (hm : m < 2 ^ 24) (hmin : -126 ≤ (m.log2 : Int) + e)
    (hmax : (m.log2 : Int) + e ≤ 127) :
    roundF 10 rm sat (.fin false m e) = (m.log2 + e + 127).toNat * 2 ^ 23 + (m * 2 ^ (23 - m.log2) - 2 ^ 23) := by
  have hlog : m.log2 < 24 := (Nat.log2_lt hpos).mpr hm
  obtain ⟨hlow, hhigh⟩ := normalized_bounds hpos hm
  have hq : max ((m.log2 : Int) + e) (1 - (127 : Nat)) - (23 : Nat) = m.log2 + e - 23 := by omega
  have hgrid : roundToGrid rm false m e (m.log2 + e - 23) = m * 2 ^ (23 - m.log2) := by
    rw [roundToGrid, if_pos (by omega)]; congr 2; omega
  have hcode : (m.log2 + e + 127).toNat * 2 ^ 23 + (m * 2 ^ (23 - m.log2) - 2 ^ 23) ≤ maxFinite 10 := by
    rw [show maxFinite 10 = 254 * 2 ^ 23 + (2 ^ 23 - 1) from rfl]; omega
  have hexp : (m.log2 + e - 23 + (23 : Nat) + (127 : Nat) : Int) = m.log2 + e + 127 := by omega
  have hbias : Fmt.bias ⟨8, 23⟩ = 127 := rfl
  -- The significand lies on the grid of its own exponent, so that nothing is cut off and nothing carries.
  simp only [roundF, fmtOf, hbias, hq, hgrid, if_neg hhigh.ne, if_neg hlow.not_gt, hexp, if_pos hcode, Bool.false_eq_true, if_false,
    Nat.zero_add]

/-- Such a number is the value of its code. -/
theorem decodeF_roundF_f32_exact {m : Nat} {e : Int} (rm : Nat) (sat : Bool) (hpos : m ≠ 0) (hm : m < 2 ^ 24)
    (hmin : -126 ≤ (m.log2 : Int) + e) (hmax : (m.log2 : Int) + e ≤ 127) :
    roundF 10 rm sat (.fin false m e) < 2 ^ 31 ∧
      decodeF 10 (roundF 10 rm sat (.fin false m e)) = .fin false (m * 2 ^ (23 - m.log2)) (e - (23 - m.log2 : Nat)) := by
  have hlog : m.log2 < 24 := (Nat.log2_lt hpos).mpr hm
  obtain ⟨hlow, hhigh⟩ := normalized_bounds hpos hm
  rw [roundF_f32_exact rm sat hpos hm hmin hmax, decodeF_f32_normal (by omega) (by omega) (by omega), Nat.add_sub_cancel' hlow]
  refine ⟨by omega, ?_⟩
  congr 1; omega

theorem rat_fin_shifted (neg : Bool) (m n : Nat) (e : Int) : rat (.fin neg (m * 2 ^ n) (e - n)) = rat (.fin neg m e) := by
  simp only [rat]
  rw [zpow_sub₀ two_ne_zero, zpow_natCast]
  push_cast
  field_simp

/-- R138: a 24-bit number over 2^24 is exact in F32, and positive or +0. -/
theorem roundF_f32_fraction {m : Nat} (hm : m < 2 ^ 24) :
    let y := roundF 10 0 false (.fin false m (-24))
    y < 2 ^ 31 ∧ finite (decodeF 10 y) = true ∧ rat (decodeF 10 y) = (m : ℚ) / 2 ^ 24 := by
  intro y
  by_cases hzero : m = 0
  · have hy : y = 0 := by simp only [y, hzero, roundF_zero (by norm_num : 8 ≤ 10) (by norm_num), Bool.false_eq_true, if_false]
    rw [hy, show decodeF 10 0 = .fin false 0 (-149) from rfl, rat_fin_zero, hzero]
    exact ⟨by norm_num, rfl, by norm_num⟩
  · have hlog : m.log2 < 24 := (Nat.log2_lt hzero).mpr hm
    obtain ⟨hlt, hdecode⟩ := decodeF_roundF_f32_exact 0 false hzero hm (e := -24) (by omega) (by omega)
    refine ⟨hlt, by rw [hdecode]; rfl, ?_⟩
    rw [hdecode, rat_fin_shifted]
    simp only [rat]
    norm_num [div_eq_mul_inv]

/-! ### The instruction -/

/-- R138: VRNG takes N32 and F32 alone, and uses none of RM, SAT and N. -/
theorem vrng_fields {x : Fields} (hreserved : reservedOk .vrng x = true) (hvalues : valuesOk .vrng x = true) :
    (x.t.toNat = 6 ∨ x.t.toNat = 10) ∧ x.rm = 0 ∧ x.sat = false ∧ x.na = false ∧ x.nb = false := by
  have hzero : UnusedZero Sys2Proof.vecAB x := unusedZero_of_extReservedOk (opc := 0x67) (fn := 0) hreserved rfl
  have htype : (x.t == 6 || x.t == 0xA) = true := hvalues
  refine ⟨?_, hzero.rm rfl, hzero.sat rfl, hzero.na rfl, hzero.nb rfl⟩
  rw [Bool.or_eq_true, beq_iff_eq, beq_iff_eq] at htype
  exact htype.imp (congrArg BitVec.toNat) (congrArg BitVec.toNat)

/-- The result of VRNG for an element, in the terms of R138. -/
theorem execVrng_eq (s : State) : exec .vrng s = vectorOp .vrng s fun s L k =>
    let x := (randomWord (BitVec.ofNat 32 (elem 32 k (Machine.vecA s 32 L))) (Machine.vecB s 64 L)).toNat
    if s.ir.t.toNat = 6 then x else roundF 10 0 false (.fin false (x / 2 ^ 8) (-24)) := by
  simp only [← drawBits_elem]
  rfl

theorem widthOf_n32_f32 {t : Nat} (h : t = 6 ∨ t = 10) : widthOf t = 32 := by
  obtain rfl | rfl := h <;> rfl

/-- Settles O27: the loop writes the generator's word, or its upper 24 bits over 2^24, which F32 holds exactly. -/
theorem randomNumbers : Obligations.RandomNumbers := by
  unfold Obligations.RandomNumbers
  refine ⟨fun bs rest x hdecode => ?fields, fun s hadmits htype => ?result, fun i key h => ?vector⟩
  case fields =>
    obtain ⟨-, hreserved, hvalues⟩ := checks_of_decode hdecode
    exact vrng_fields hreserved hvalues
  case result =>
    obtain ⟨t, hnext, hframe, hcompletes, helem⟩ := vectorOp_of_admits hadmits (by omega) _
    refine ⟨t, (execVrng_eq s).trans hnext, hframe, hcompletes, fun L k hL hk => ?_⟩
    rw [widthOf_n32_f32 htype] at helem
    intro new x
    have hx : x < 2 ^ 32 := BitVec.isLt _
    have hnew : new = if selected s L k then (if s.ir.t.toNat = 6 then x else roundF 10 0 false (.fin false (x / 2 ^ 8) (-24))) % 2 ^ 32
        else elem 32 k (s.curW.vreg s.ir.d.toNat L) := helem L k hL hk
    split
    · next hsel =>
      rw [if_pos hsel] at hnew
      split
      · next hint => rw [hnew, if_pos hint, Nat.mod_eq_of_lt hx]
      · next hfloat =>
        obtain ⟨hlt, hfinite, hrat⟩ := roundF_f32_fraction (m := x / 2 ^ 8) (by omega)
        rw [hnew, if_neg hfloat, Nat.mod_eq_of_lt (by omega)]
        exact ⟨hlt, hfinite, hrat⟩
    · next hsel => rw [hnew, if_neg hsel]
  case vector =>
    obtain ⟨rfl, rfl⟩ := h
    decide

end Sys2Proof.Proofs

/-! PROOFS. The eviction phase (R197): completing leaves the dies alone, so that after an EVPH only the schedule of its die differs, and that by
one step of its phase. -/

namespace Sys2Proof.Proofs

open Sys2Proof Sys2Proof.Machine Sys2Proof.Claims

/-! ### Completing an instruction -/

@[simp] theorem finish_dies (s : State) : (finish s).dies = s.dies := by
  obtain ⟨⟨hstate, -⟩, -⟩ := finish_spec s {}
  exact (congrArg State.dies hstate :)

@[simp] theorem finish_die (s : State) (k : Nat) : (finish s).die k = s.die k := by
  rw [State.die, finish_dies, State.die]

@[simp] theorem finish_crews (s : State) : (finish s).crews = s.crews := by
  obtain ⟨⟨hstate, -⟩, -⟩ := finish_spec s {}
  exact (congrArg State.crews hstate :)

@[simp] theorem finish_pts (s : State) : (finish s).curW.pts = s.curW.pts := by
  obtain ⟨⟨-, -, -, -, -, -, -, -, -, -, -, -, hwave, -⟩, -⟩ := finish_spec s {}
  exact (congrArg Wave.pts hwave :)

theorem jumpTo_curT_c (s : State) (pc : Word) : (jumpTo s pc).curT.c = s.curT.c := (congrArg Thread.c (curT_modThread ..) :)

/-- Whether the fragment goes on at the next instruction, at the next iteration or behind a `REP`, its capability registers stand. -/
@[simp] theorem finish_curT_c (s : State) : (finish s).curT.c = s.curT.c := by
  unfold finish
  split
  · exact jumpTo_curT_c ..
  · split
    · rw [curT_modThread]
    · rw [curT_modWave, curT_modThread]
      exact jumpTo_curT_c ..

/-- Completing an instruction is quiet. -/
theorem quiet_finish (s : State) (x : Change) : Quiet x s (finish s) := by
  obtain ⟨⟨hstate, hthreads, hwaves, hcrews, hs, -, -, hp, hmask, -⟩, hcompletes, -, -, hv, -⟩ := finish_spec s x
  exact ⟨(congrArg State.mem hstate :), (congrArg State.accesses hstate :), hthreads, hwaves, hcrews, hs, finish_curT_c s, hv, hp, hmask, hcompletes⟩

/-- What a quiet instruction leaves does not depend on the dies. -/
theorem quiet_modDie_iff (s t : State) (x : Change) (k : Nat) (f : Die → Die) : Quiet x (s.modDie k f) t ↔ Quiet x s t := Iff.rfl

/-! ### The phase -/

/-- The schedule after an EVPH with the fields `x` (R197). -/
def phaseStep (x : Fields) (e : Schedule) : Schedule :=
  { e with phase := (if x.imm.getLsbD 3 then bits x.imm.toNat 0 3 else e.phase + 1) % (e.nph + 1) }

theorem phaseStep_phase_of_set {x : Fields} (e : Schedule) (hset : x.imm.getLsbD 3 = true) :
    (phaseStep x e).phase = x.imm.toNat % 8 % (e.nph + 1) := by
  simp [phaseStep, hset, bits]

theorem phaseStep_phase_of_lt {x : Fields} {e : Schedule} (hset : x.imm.getLsbD 3 = false) (hlt : e.phase < e.nph) :
    (phaseStep x e).phase = e.phase + 1 := by
  simp only [phaseStep, hset, Bool.false_eq_true, if_false]
  exact Nat.mod_eq_of_lt (Nat.succ_lt_succ hlt)

theorem phaseStep_phase_of_last {x : Fields} {e : Schedule} (hset : x.imm.getLsbD 3 = false) (hlast : e.phase = e.nph) :
    (phaseStep x e).phase = 0 := by
  simp only [phaseStep, hset, hlast, Bool.false_eq_true, if_false]
  exact Nat.mod_self _

/-- The die after an EVPH with the fields `x`. -/
def phasedDie (x : Fields) (d : Die) : Die := { d with schedule := d.schedule.map (phaseStep x) }

theorem phasedDie_of_none {x : Fields} {d : Die} (h : d.schedule = none) : phasedDie x d = d := by
  have hmap : d.schedule.map (phaseStep x) = d.schedule := by rw [h, Option.map_none]
  rw [phasedDie, hmap]

theorem phasedDie_of_some {x : Fields} {d : Die} {e : Schedule} (h : d.schedule = some e) :
    (phasedDie x d).schedule = some (phaseStep x e) := by
  rw [phasedDie, h, Option.map_some]

/-! ### The instruction -/

/-- R197: behind its checks EVPH steps the phase of its own die, and completes without a look at the accesses under way. -/
theorem execEvph_of_admits {s : State} (h : admits s .evph = true) :
    exec .evph s = .next (finish (s.modDie s.curDie (phasedDie s.ir))) :=
  (guarded_of_admits h _ : execEvph s = _)

/-- Settles O40: the step changes the die's schedule alone, and completing changes nothing of it; the phase's three cases are those of the
remainder by NPH + 1. -/
theorem evictionPhases : Obligations.EvictionPhases := by
  unfold Obligations.EvictionPhases
  intro s hadmits
  have hdie (k : Nat) : (finish (s.modDie s.curDie (phasedDie s.ir))).die k =
      if k = s.curDie then phasedDie s.ir (s.die s.curDie) else s.die k :=
    (finish_die _ k).trans (State.modDie_get ..)
  have hown := (hdie s.curDie).trans (if_pos rfl)
  refine ⟨_, execEvph_of_admits hadmits, (quiet_modDie_iff ..).mp (quiet_finish _ _), finish_crews _, finish_pts _, ?others, ?absent, ?loaded⟩
  case others => exact fun k hk => (hdie k).trans (if_neg hk)
  case absent => exact fun hnone => hown.trans (phasedDie_of_none hnone)
  case loaded =>
    intro e hsome
    rw [hown]
    exact ⟨rfl, phaseStep s.ir e, phasedDie_of_some hsome, rfl, phaseStep_phase_of_set e, phaseStep_phase_of_lt, phaseStep_phase_of_last⟩

end Sys2Proof.Proofs
